-- ==== Sys2Proof/Word.lean ====
section
/-! DEFINITION. The word types of NECC (`00_scope.md` R13): every host-visible register has 32 bits,
a byte 8, a NAND data cycle at most 16. -/

namespace Sys2Proof

/-- A host-visible register or a buffer address (R13). -/
abbrev Word := BitVec 32

/-- One NAND data cycle: 8 or 16 of these bits are used (R13). -/
abbrev Half := BitVec 16

/-- A byte of buffer memory, a command byte, a status mask. -/
abbrev Byte := BitVec 8

end Sys2Proof
end

