-- ==== Sys2Proof/Config.lean ====
section
/-! DEFINITION. The configuration record of `00_scope.md` R7 to R12: what an implementation fixes and
the spec leaves OPEN, with the constraints a model must require of it, and the free values: the
answers a device gives once the answers listed in the state are used up (`20_memory.md` R62). -/

namespace Sys2Proof.Config

/-- One row of `NandDeviceTable` (R9). The columns are copied to 32-bit registers
(`41_nand_discovery_wait.md` R138), so they have 32 bits here. -/
structure NandRow where
  devId         : Byte
  numBlocks     : Word
  pagesPerBlock : Word
  bytesPerPage  : Word
deriving DecidableEq, Repr

/-- The parameters of R7 to R12, by the spec's names. -/
structure Params where
  -- R7: straps
  nandBase  : Word
  nandBus16 : Bool
  nandCsOff : BitVec 2
  norBase   : Word
  norBus16  : Bool
  -- R8: NAND window offsets
  offCle : Word
  offAle : Word
  offDat : Word
  -- R9
  nandDeviceTable : List NandRow
  -- R10: NAND commands and status masks
  cmdReset          : Byte
  cmdReadId         : Byte
  rdIdAddr          : Byte
  cmdRead           : Byte
  cmdReadConfirm    : Byte
  cmdProgram        : Byte
  cmdProgramConfirm : Byte
  cmdErase          : Byte
  cmdEraseConfirm   : Byte
  cmdStatus         : Byte
  cmdUnlockLo       : Byte
  cmdUnlockHi       : Byte
  cmdLock           : Byte
  stReady           : Byte
  stFail            : Byte
  -- R11: NAND geometry parameters
  bigBlockThreshold : Nat
  eccOffBig         : Nat
  eccOffSmall       : Nat
  -- R12: AMD
  amdUnlock1         : Byte
  amdUnlock2         : Byte
  amdAddr1           : Word
  amdAddr2           : Word
  amdEraseSetup      : Byte
  amdEraseConfirm    : Byte
  amdProgram         : Byte
  amdWriteBufLoad    : Byte
  amdWriteBufConfirm : Byte
  amdReset           : Byte
  amdAutoselect      : Byte
  amdAbortBit        : Nat
  -- R12: Intel
  intelEraseSetup   : Byte
  intelConfirm      : Byte
  intelProgram      : Byte
  intelWriteBuf     : Byte
  intelClearStatus  : Byte
  intelReadArray    : Byte
  intelReadId       : Byte
  intelLockSetup    : Byte
  intelLockSet      : Byte
  intelLockClear    : Byte
  intelBufPollLimit : Word
  norKnownMfrs      : List Byte
deriving DecidableEq, Repr

/-- A power of two, 1 included (R9: "required for the bit-shift addressing scheme"). -/
def isPow2 (w : Word) : Bool := 2 ^ w.toNat.log2 == w.toNat

/-- The page sizes R9 and `41_nand_discovery_wait.md` R139 support. -/
def pageSizes : List Nat := [264, 528, 1056, 1584, 2112]

/-- The well-formedness R9 requires of a row: powers of two, a supported page size, and an address
space of at most 40 bits, `blkShift + log2(numBlocks) <= 40`. -/
def NandRow.wf (threshold : Nat) (r : NandRow) : Bool :=
  isPow2 r.numBlocks && isPow2 r.pagesPerBlock && pageSizes.contains r.bytesPerPage.toNat &&
  decide ((if r.bytesPerPage.toNat > threshold then 16 else 8)
    + r.pagesPerBlock.toNat.log2 + r.numBlocks.toNat.log2 ≤ 40)

/-- R8: the three window offsets are pairwise distinct. -/
def Params.offsetsDistinct (p : Params) : Bool :=
  p.offCle != p.offAle && p.offCle != p.offDat && p.offAle != p.offDat

/-- R10: each status mask is non-zero. -/
def Params.statusMasksNonZero (p : Params) : Bool := p.stReady != 0 && p.stFail != 0

/-- R11: `528 <= BIGBLOCK_THRESHOLD < 1056`. -/
def Params.thresholdInRange (p : Params) : Bool :=
  decide (528 ≤ p.bigBlockThreshold ∧ p.bigBlockThreshold < 1056)

/-- R11: the ECC offsets fit their chunks, are even and differ. -/
def Params.eccOffsetsLegal (p : Params) : Bool :=
  decide (p.eccOffBig ≤ 12 ∧ p.eccOffSmall ≤ 4 ∧ p.eccOffBig % 2 = 0 ∧ p.eccOffSmall % 2 = 0
    ∧ p.eccOffBig ≠ p.eccOffSmall)

/-- R12: the abort bit is one of 0..4 or 6. -/
def Params.abortBitLegal (p : Params) : Bool :=
  decide (p.amdAbortBit ≤ 4 ∨ p.amdAbortBit = 6)

/-- R12: the buffer-available poll limit is a positive count. -/
def Params.bufPollLimitPositive (p : Params) : Bool := p.intelBufPollLimit != 0

/-- Everything R7 to R12 require of a configuration. A model refuses any other (R9, U2): here it
cannot be built, see `Profile`. -/
def Params.wf (p : Params) : Bool :=
  p.offsetsDistinct && p.statusMasksNonZero && p.thresholdInRange && p.eccOffsetsLegal &&
  p.abortBitLegal && p.bufPollLimitPositive && p.nandDeviceTable.all (NandRow.wf p.bigBlockThreshold)

/-- Some parameters that meet the constraints. It only shows that `Profile` has an element, which an
opaque constant needs; nothing can be proved equal to it. It is not the profile REF. -/
def Params.inhabitant : Params :=
  { nandBase := 0, nandBus16 := false, nandCsOff := 0, norBase := 0, norBus16 := false,
    offCle := 0, offAle := 1, offDat := 2,
    nandDeviceTable := [],
    cmdReset := 0, cmdReadId := 0, rdIdAddr := 0, cmdRead := 0, cmdReadConfirm := 0, cmdProgram := 0,
    cmdProgramConfirm := 0, cmdErase := 0, cmdEraseConfirm := 0, cmdStatus := 0, cmdUnlockLo := 0,
    cmdUnlockHi := 0, cmdLock := 0, stReady := 1, stFail := 2,
    bigBlockThreshold := 528, eccOffBig := 2, eccOffSmall := 0,
    amdUnlock1 := 0, amdUnlock2 := 0, amdAddr1 := 0, amdAddr2 := 0, amdEraseSetup := 0,
    amdEraseConfirm := 0, amdProgram := 0, amdWriteBufLoad := 0, amdWriteBufConfirm := 0,
    amdReset := 0, amdAutoselect := 0, amdAbortBit := 0,
    intelEraseSetup := 0, intelConfirm := 0, intelProgram := 0, intelWriteBuf := 0,
    intelClearStatus := 0, intelReadArray := 0, intelReadId := 0, intelLockSetup := 0,
    intelLockSet := 0, intelLockClear := 0, intelBufPollLimit := 1, norKnownMfrs := [] }

/-- A configuration together with the proof that it is one the spec admits (R9: "else the model
refuses the configuration"). -/
structure Profile where
  params : Params := Params.inhabitant
  wf     : params.wf = true := by decide
deriving DecidableEq, Repr, Inhabited

/-- The implementation's configuration (R7 to R12: OPEN). It has no body, so no proof can see a
parameter's value. `State.reset` carries it; see log entry 1. -/
opaque profile : Profile

/-- The value of a NAND data read that the state lists no answer for: a free value
(`20_memory.md` R62, U3; log entry 2). -/
opaque freeNandRead : Nat → Half

/-- The level of a ready sample that the state lists no answer for: a free value
(`20_memory.md` R62, U3; log entry 2). -/
opaque freeReady : Nat → Bool

/-- The value of a NOR load that the state lists no answer for: a free value
(`20_memory.md` R62, U3; log entry 2). -/
opaque freeNorRead : Nat → Word

end Sys2Proof.Config
end

