-- ==== Sys2Proof/Syntax.lean ====
section
/-! DEFINITION. The ops of NECC-OPS 1.0: one constructor per row of `spec/opcode_table.json`
(`30_encoding.md` R95), and the command word's two fields (R90). No operand is encoded in the command
word (R94), so the constructors have no arguments. -/

namespace Sys2Proof

/-- The twenty-two ops (R95). -/
inductive Instr where
  | nandInit        -- NAND_INIT         0x01
  | nandReadPage    -- NAND_READ_PAGE    0x02
  | nandWritePage   -- NAND_WRITE_PAGE   0x03
  | nandVerifyPage  -- NAND_VERIFY_PAGE  0x04
  | nandEraseBlocks -- NAND_ERASE_BLOCKS 0x05
  | nandUnprotect   -- NAND_UNPROTECT    0x06
  | nandProtect     -- NAND_PROTECT      0x07
  | nandWaitRdy     -- NAND_WAIT_RDY     0x08
  | nandWaitStatus  -- NAND_WAIT_STATUS  0x09
  | eccRestart      -- ECC_RESTART       0x10
  | eccCorrect      -- ECC_CORRECT       0x11
  | norAttach       -- NOR_ATTACH        0x20
  | norEraseBlock   -- NOR_ERASE_BLOCK   0x21
  | norWriteWord    -- NOR_WRITE_WORD    0x22
  | norWriteBuffer  -- NOR_WRITE_BUFFER  0x23
  | norLockSet      -- NOR_LOCK_SET      0x24
  | norLockClear    -- NOR_LOCK_CLEAR    0x25
  | norBlockInfo    -- NOR_BLOCK_INFO    0x26
  | busCle          -- BUS_CLE           0x30
  | busAle          -- BUS_ALE           0x31
  | busWdata        -- BUS_WDATA         0x32
  | busRdata        -- BUS_RDATA         0x33
deriving DecidableEq, Repr

/-- Format CW (R90): the fields OPCODE (bits 7:0) and ZERO (bits 31:8) of a command word. -/
structure CommandWord where
  opcode : Byte
  zero   : BitVec 24
deriving DecidableEq, Repr

end Sys2Proof
end

