-- ==== Sys2Proof/WellFormed.lean ====
section
/-! DEFINITION. Which command words are well-formed (`30_encoding.md` R90, R92, R96). An op has no
fields, so every `Instr` is well-formed; the checks are those of the command word. (The checks of a
configuration stand with it in `Config.lean`.) -/

namespace Sys2Proof

/-- The OPCODE values of R95; every other value is reserved (R96). -/
def legalOpcodes : List Byte :=
  [0x01, 0x02, 0x03, 0x04, 0x05, 0x06, 0x07, 0x08, 0x09, 0x10, 0x11,
   0x20, 0x21, 0x22, 0x23, 0x24, 0x25, 0x26, 0x30, 0x31, 0x32, 0x33]

/-- R90: the ZERO field must be 0. -/
def CommandWord.zeroOk (c : CommandWord) : Bool := c.zero == 0

/-- R95, R96: OPCODE is in the opcode map. -/
def CommandWord.opcodeOk (c : CommandWord) : Bool := legalOpcodes.contains c.opcode

/-- A command word that selects an op (R92). -/
def CommandWord.wellFormed (c : CommandWord) : Bool := c.zeroOk && c.opcodeOk

/-- Every op is a well-formed instruction: it has no field that could be out of range (R94). -/
def Instr.wellFormed : Instr → Bool
  | .nandInit | .nandReadPage | .nandWritePage | .nandVerifyPage | .nandEraseBlocks
  | .nandUnprotect | .nandProtect | .nandWaitRdy | .nandWaitStatus
  | .eccRestart | .eccCorrect
  | .norAttach | .norEraseBlock | .norWriteWord | .norWriteBuffer | .norLockSet | .norLockClear
  | .norBlockInfo
  | .busCle | .busAle | .busWdata | .busRdata => true

end Sys2Proof
end

