-- ==== Sys2Proof/Decode.lean ====
section
/-! DEFINITION. Decoding a command word (`30_encoding.md` R90 to R96), total on 32 bits, and the
encoder. An illegal word is refused by name; what NECC does with one is `Machine/Sequencer.lean`. -/

namespace Sys2Proof

/-- Why a command word selects no op (R92, R96). -/
inductive DecodeError where
  /-- ZERO, bits 31:8, is not 0. -/
  | zeroFieldNotZero
  /-- ZERO is 0 and OPCODE is a reserved value. -/
  | reservedOpcode
deriving DecidableEq, Repr

/-- The fields of a command word (R90). -/
def splitCommandWord (w : Word) : CommandWord where
  opcode := w.extractLsb' 0 8
  zero   := w.extractLsb' 8 24

/-- The opcode map of R95, read from OPCODE to op. -/
def opcodeMap (op : Byte) : Option Instr :=
  if op = 0x01 then some .nandInit
  else if op = 0x02 then some .nandReadPage
  else if op = 0x03 then some .nandWritePage
  else if op = 0x04 then some .nandVerifyPage
  else if op = 0x05 then some .nandEraseBlocks
  else if op = 0x06 then some .nandUnprotect
  else if op = 0x07 then some .nandProtect
  else if op = 0x08 then some .nandWaitRdy
  else if op = 0x09 then some .nandWaitStatus
  else if op = 0x10 then some .eccRestart
  else if op = 0x11 then some .eccCorrect
  else if op = 0x20 then some .norAttach
  else if op = 0x21 then some .norEraseBlock
  else if op = 0x22 then some .norWriteWord
  else if op = 0x23 then some .norWriteBuffer
  else if op = 0x24 then some .norLockSet
  else if op = 0x25 then some .norLockClear
  else if op = 0x26 then some .norBlockInfo
  else if op = 0x30 then some .busCle
  else if op = 0x31 then some .busAle
  else if op = 0x32 then some .busWdata
  else if op = 0x33 then some .busRdata
  else none

/-- The op a command word selects, or why it selects none (R92). -/
def decode (w : Word) : Except DecodeError Instr :=
  let c := splitCommandWord w
  if c.zero = 0 then
    match opcodeMap c.opcode with
    | some i => .ok i
    | none   => .error .reservedOpcode
  else .error .zeroFieldNotZero

/-- The OPCODE of each op (R95). -/
def opcodeOf : Instr → Byte
  | .nandInit        => 0x01
  | .nandReadPage    => 0x02
  | .nandWritePage   => 0x03
  | .nandVerifyPage  => 0x04
  | .nandEraseBlocks => 0x05
  | .nandUnprotect   => 0x06
  | .nandProtect     => 0x07
  | .nandWaitRdy     => 0x08
  | .nandWaitStatus  => 0x09
  | .eccRestart      => 0x10
  | .eccCorrect      => 0x11
  | .norAttach       => 0x20
  | .norEraseBlock   => 0x21
  | .norWriteWord    => 0x22
  | .norWriteBuffer  => 0x23
  | .norLockSet      => 0x24
  | .norLockClear    => 0x25
  | .norBlockInfo    => 0x26
  | .busCle          => 0x30
  | .busAle          => 0x31
  | .busWdata        => 0x32
  | .busRdata        => 0x33

/-- The command word of an op: ZERO = 0 in the high 24 bits, OPCODE in the low 8 (R90). -/
def encode (i : Instr) : Word := (0 : BitVec 24) ++ opcodeOf i

/-- The op the decoder reads from an instruction whose bits are `w`, of which the table gives `nbits`.
A command word has 32 bits; anything longer is none. -/
def decodeTableWord (nbits w : Nat) : Option Instr :=
  let v := w % 2 ^ nbits
  if v < 2 ^ 32 then
    match decode (BitVec.ofNat 32 v) with
    | .ok i    => some i
    | .error _ => none
  else none

end Sys2Proof
end

