-- ==== Sys2Proof/Machine/State.lean ====
section
/-! DEFINITION. The state of NECC (`10_state.md`), as plain data, the reasons a step can stop, and the
state right after reset (`70_reset_and_hazards.md` R291). The fields of `dev`, `host` and `events` are
the model's own: the environment's answers and acts, and the trace (`00_scope.md` R16, R19). -/

namespace Sys2Proof.Machine

/-- The sequencer's program counter, PHASE: fourteen values (`10_state.md` R26). -/
inductive Phase where
  | idle | check | cmd | addr | confirm | waitRdy | data | spare | ecc | waitStatus | poll | verify
  | cleanup | lookup
deriving DecidableEq, Repr

/-- The error kinds (`60_exceptions.md` R260). `cfiNotFound`, `noSpaceAvailable` and `writeFailure` are
reserved: NECC never raises them. `UncorrectableBitError` is another name of `eccFailure` (R261). -/
inductive ErrKind where
  | timeout | eccFailure | programFailure | eraseFailure | verifyFailure | unknownDevice
  | cfiNotFound | unsupportedDevice | outOfRange | noSpaceAvailable | writeFailure | identifyFailed
  | illegalCommand | notInitialised | badOperand
deriving DecidableEq, Repr

/-- The selected `VendorOps` (`10_state.md` R39). -/
inductive Vendor where
  | unsupported | amd | intel
deriving DecidableEq, Repr

/-- The fields of register STAT (`10_state.md` R25). Bits 7:5 of the register read 0. -/
structure Stat where
  busy    : Bool
  done    : Bool
  err     : Bool
  corr    : Bool
  ovr     : Bool
  errCode : Byte
  phase   : Phase
  opc     : Byte
deriving DecidableEq, Repr

/-- The operand registers and the poll bound (`10_state.md` R21, R22). -/
structure Operands where
  a0      : Word
  a1      : Word
  a2      : Word
  a3      : Word
  timeout : Word
deriving DecidableEq, Repr

/-- The result registers (`10_state.md` R23). -/
structure Results where
  res0     : Word
  res1     : Word
  res2     : Word
  lastStat : Word
deriving DecidableEq, Repr

/-- The ECC accumulator (`10_state.md` R29) and the geometry's mask ECCMASK (R30). -/
structure EccUnit where
  acc    : Word
  bitPos : BitVec 12
  run    : Bool
  mask   : Word
deriving DecidableEq, Repr

/-- A register file of four 32-bit entries (`10_state.md` R31). -/
structure Quad where
  q0 : Word
  q1 : Word
  q2 : Word
  q3 : Word
deriving DecidableEq, Repr

/-- The ECC slot files `ecc`, `secc`, `corr` (`10_state.md` R31, R32). -/
structure EccSlots where
  ecc  : Quad
  secc : Quad
  corr : Quad
deriving DecidableEq, Repr

/-- The NAND geometry registers but ECCMASK, at the widths R33 gives, with the fields of GEO_FLAGS
(`10_state.md` R33, R34). -/
structure Geo where
  mfr        : Byte
  dev        : Byte
  blocks     : Word
  ppb        : Word
  pageSz     : Word
  valid      : Bool
  bus16      : Bool
  bigBlock   : Bool
  csOff      : BitVec 2
  colB       : BitVec 3
  rowB       : BitVec 3
  pageShift  : BitVec 6
  blkShift   : BitVec 6
  bytesPerOp : BitVec 10
  sparePerOp : BitVec 5
  numOps     : BitVec 3
  eccOff     : BitVec 4
deriving DecidableEq, Repr

/-- One erase region: NOR_REGr_CNT and NOR_REGr_SIZE (`10_state.md` R38). -/
structure Region where
  cnt  : Word
  size : Word
deriving DecidableEq, Repr

/-- The six erase regions (`10_state.md` R38). -/
structure Regions where
  r0 : Region
  r1 : Region
  r2 : Region
  r3 : Region
  r4 : Region
  r5 : Region
deriving DecidableEq, Repr

/-- The NorGeometry record, loaded by the host (`10_state.md` R38). -/
structure NorCfg where
  cmdSet  : Word
  chipW   : Word
  totalW  : Word
  size    : Word
  bufSz   : Word
  nReg    : Word
  regions : Regions
deriving DecidableEq, Repr

/-- What `NOR_ATTACH` selects and reads (`10_state.md` R39). -/
structure NorId where
  vendor : Vendor
  mfr    : Word
  dev1   : Word
  dev2   : Word
deriving DecidableEq, Repr

/-- The loop indices, internal (`10_state.md` R27). -/
structure LoopRegs where
  opIdx   : BitVec 2
  blkIdx  : Word
  pollCnt : Word
  xferCnt : Word
deriving DecidableEq, Repr

/-- A byte memory: (address, byte) pairs, addresses strictly rising, and no entry equal to what an
unlisted address reads as. The operations are in `Ops.lean`. -/
abbrev Memory := List Host.Cell

/-- An externally visible event (`00_scope.md` R16), or a host buffer access. NAND values are the
W-bit value on the bus, zero-extended to 16 bits; NOR values the Wn-bit value, zero-extended. -/
inductive Event where
  | cle (v : Half)
  | ale (v : Half)
  | dw (v : Half)
  | dr (v : Half)
  | rdy (b : Bool)
  | nw (addr v : Word)
  | nr (addr v : Word)
  | mr (addr : Word) (n : Nat) (v : Word)
  | mw (addr : Word) (n : Nat) (v : Word)
deriving DecidableEq, Repr

/-- What the host, or the RESET input, does while NECC is idle (`00_scope.md` R19,
`70_reset_and_hazards.md` R290). `store` and `load` are the host's own accesses to its buffer memory. -/
inductive HostAct where
  | write (idx : Nat) (v : Word)
  | read (idx : Nat)
  | store (addr : Word) (b : Byte)
  | load (addr : Word)
  | assertReset
  | releaseReset
deriving DecidableEq, Repr

/-- What the host, or the RESET input, may do while an op runs. Accesses to the buffer memory are
excluded as `70_reset_and_hazards.md` R300 allows: (b) and (c) there are preconditions (log entry 6). -/
inductive BusyAct where
  | write (idx : Nat) (v : Word)
  | read (idx : Nat)
  | assertReset
deriving DecidableEq, Repr

/-- A value a host read returned. -/
inductive HostAnswer where
  | reg (idx : Nat) (v : Word)
  | mem (addr : Word) (b : Byte)
deriving DecidableEq, Repr

/-- The device's coming answers to NAND data reads, ready samples and NOR loads, and the counter the
free values are applied to once a list is used up (`20_memory.md` R62; log entry 2). -/
structure Device where
  dr   : List Half
  rdy  : List Bool
  nr   : List Word
  free : Nat
deriving DecidableEq, Repr

/-- The host's script for the time NECC is idle, what happens before each coming event of a running
op, and what the host has read, newest first (log entries 5 and 6). -/
structure HostSide where
  script  : List HostAct
  busy    : List (List BusyAct)
  answers : List HostAnswer
deriving DecidableEq, Repr

/-- The machine. `cfg` is the configuration, which no step changes (`10_state.md` R41). -/
structure State where
  cfg       : Config.Profile
  stat      : Stat
  opr       : Operands
  res       : Results
  eccu      : EccUnit
  slots     : EccSlots
  geo       : Geo
  nor       : NorCfg
  norId     : NorId
  loop      : LoopRegs
  pageBuf   : Memory
  spareBuf  : Memory
  mem       : Memory
  resetLine : Bool
  dev       : Device
  host      : HostSide
  events    : List Event
deriving DecidableEq, Repr

/-- Why the machine stops. -/
inductive Fault where
  /-- Raised by `step` alone, in a state whose STAT says BUSY although no AMD poll is under way. NECC
  is never found so between two steps of this model, and no step leads there from a state that
  meets `State.Inv`; safe: the model claims nothing beyond such a state. -/
  | strayBusy
deriving DecidableEq, Repr

/-- Why an instruction has no meaning. -/
inductive Refusal where
  /-- Raised by `exec` for an op whose meaning is not written; no arm of `exec` does. Safe: a refusal
  claims nothing. -/
  | notModelled (mnemonic : String)
deriving DecidableEq, Repr

/-- STAT after reset: idle, not done, no error (R291). -/
def Stat.reset : Stat where
  busy := false
  done := false
  err := false
  corr := false
  ovr := false
  errCode := 0
  phase := .idle
  opc := 0

/-- Four zero registers (R291). -/
def Quad.zero : Quad := ⟨0, 0, 0, 0⟩

/-- The geometry registers after reset, and at the start of `NAND_INIT`: all 0 (R291,
`41_nand_discovery_wait.md` R136). -/
def Geo.zero : Geo where
  mfr := 0
  dev := 0
  blocks := 0
  ppb := 0
  pageSz := 0
  valid := false
  bus16 := false
  bigBlock := false
  csOff := 0
  colB := 0
  rowB := 0
  pageShift := 0
  blkShift := 0
  bytesPerOp := 0
  sparePerOp := 0
  numOps := 0
  eccOff := 0

/-- The NOR configuration after reset: all 0 (R291). -/
def NorCfg.zero : NorCfg where
  cmdSet := 0
  chipW := 0
  totalW := 0
  size := 0
  bufSz := 0
  nReg := 0
  regions := ⟨⟨0, 0⟩, ⟨0, 0⟩, ⟨0, 0⟩, ⟨0, 0⟩, ⟨0, 0⟩, ⟨0, 0⟩⟩

/-- The machine right after reset (`70_reset_and_hazards.md` R291): every register 0, vendor
Unsupported, RESET released. DESIGN CHOICE (log entries 1 to 5): the configuration is the opaque
`Config.profile`; PAGEBUF, SPAREBUF and the host's memory list nothing; no answer, no act and no event
is listed. -/
def State.reset : State where
  cfg := Config.profile
  stat := Stat.reset
  opr := ⟨0, 0, 0, 0, 0⟩
  res := ⟨0, 0, 0, 0⟩
  eccu := ⟨0, 0, false, 0⟩
  slots := ⟨Quad.zero, Quad.zero, Quad.zero⟩
  geo := Geo.zero
  nor := NorCfg.zero
  norId := ⟨.unsupported, 0, 0, 0⟩
  loop := ⟨0, 0, 0, 0⟩
  pageBuf := []
  spareBuf := []
  mem := []
  resetLine := false
  dev := ⟨[], [], [], 0⟩
  host := ⟨[], [], []⟩
  events := []

end Sys2Proof.Machine
end

