-- ==== Sys2Proof/Machine/Flags.lean ====
section
/-! DEFINITION. The status flags: how STAT is composed and who changes it (`10_state.md` R25 to R28,
`30_encoding.md` R93, `60_exceptions.md` R264, R265), the error codes (R260), and the composed words
GEO_FLAGS, ECCCTL and CORRi (`10_state.md` R29, R32, R34). NECC has no carry, zero or overflow flag
(R28). -/

namespace Sys2Proof.Machine

/-- One bit as a 32-bit word. -/
def bitWord (b : Bool) : Word := (BitVec.ofBool b).setWidth 32

/-- The numeric value of a phase (`10_state.md` R26). -/
def Phase.code : Phase → Byte
  | .idle => 0
  | .check => 1
  | .cmd => 2
  | .addr => 3
  | .confirm => 4
  | .waitRdy => 5
  | .data => 6
  | .spare => 7
  | .ecc => 8
  | .waitStatus => 9
  | .poll => 10
  | .verify => 11
  | .cleanup => 12
  | .lookup => 13

/-- The numeric code of an error kind (`60_exceptions.md` R260). -/
def ErrKind.code : ErrKind → Byte
  | .timeout => 1
  | .eccFailure => 2
  | .programFailure => 3
  | .eraseFailure => 4
  | .verifyFailure => 5
  | .unknownDevice => 6
  | .cfiNotFound => 7
  | .unsupportedDevice => 8
  | .outOfRange => 9
  | .noSpaceAvailable => 10
  | .writeFailure => 11
  | .identifyFailed => 12
  | .illegalCommand => 13
  | .notInitialised => 14
  | .badOperand => 15

/-- NOR_VENDOR's value (`10_state.md` R39). -/
def Vendor.code : Vendor → Word
  | .unsupported => 0
  | .amd => 1
  | .intel => 2

/-- Register STAT as the host reads it: `{OPC, PHASE, ERRCODE, 000, OVR, CORR, ERR, DONE, BUSY}`
(`10_state.md` R25). -/
def Stat.word (t : Stat) : Word :=
  t.opc ++ t.phase.code ++ t.errCode ++ (0 : BitVec 3) ++ BitVec.ofBool t.ovr ++ BitVec.ofBool t.corr
    ++ BitVec.ofBool t.err ++ BitVec.ofBool t.done ++ BitVec.ofBool t.busy

/-- STAT when a command word is accepted (`30_encoding.md` R93): OVR is kept. -/
def Stat.accepted (t : Stat) (opc : Byte) : Stat :=
  { t with busy := true, done := false, err := false, errCode := 0, corr := false, opc := opc,
           phase := .check }

/-- STAT at error entry (`60_exceptions.md` R264). -/
def Stat.raised (t : Stat) (k : ErrKind) : Stat :=
  { t with err := true, errCode := k.code, busy := false, done := true, phase := .idle }

/-- STAT at the normal end of an op (`60_exceptions.md` R265). -/
def Stat.ended (t : Stat) : Stat :=
  { t with busy := false, done := true, phase := .idle }

/-- GEO_FLAGS as the host reads it: VALID bit 0, BUS16 bit 1, BIGBLOCK bit 2, CSOFF bits 5:4
(`10_state.md` R34). -/
def Geo.flagsWord (g : Geo) : Word :=
  bitWord g.valid ||| (bitWord g.bus16 <<< 1) ||| (bitWord g.bigBlock <<< 2)
    ||| (g.csOff.setWidth 32 <<< 4)

/-- ECCCTL as the host reads it: BITPOS bits 11:0, RUN bit 31 (`10_state.md` R29). -/
def EccUnit.ctlWord (e : EccUnit) : Word :=
  e.bitPos.setWidth 32 ||| (bitWord e.run <<< 31)

/-- A correction record: STATUS bits 17:16, BITADDR bits 11:0 (`10_state.md` R32), built as the ops
build it, `(st << 16) | d` (`42_ecc.md` R176, `43_nand_page_block.md` R193). -/
def corrRecord (st : BitVec 2) (d : Half) : Word :=
  (st.setWidth 32 <<< 16) ||| d.setWidth 32

/-- STATUS of a correction record (`10_state.md` R32). -/
def corrStatus (w : Word) : BitVec 2 := w.extractLsb' 16 2

/-- BITADDR of a correction record (`10_state.md` R32). -/
def corrBitAddr (w : Word) : BitVec 12 := w.extractLsb' 0 12

end Sys2Proof.Machine
end

