-- ==== Sys2Proof/Machine/EccUnit.lean ====
section
/-! DEFINITION. The ECC unit's arithmetic (`42_ecc.md` R160 to R177): the code the accumulator computes,
absorbing a byte, read-and-restart, the spare chunk, the stored ECC, and the decision of the
corrector. -/

namespace Sys2Proof.Machine

/-- What a data bit with value 1 at bit address `a` contributes: `(a << 16) | (~a & 0xFFF)`
(`42_ecc.md` R160). -/
def contrib (a : BitVec 12) : Word :=
  (a.setWidth 32 <<< 16) ||| (~~~a).setWidth 32

/-- The accumulator after the bits of byte `d` whose numbers are listed, the byte's bit 0 being at bit
address `pos` (`42_ecc.md` R161). -/
def absorbBits (d : Byte) (pos : BitVec 12) : List Nat → Word → Word
  | [], acc => acc
  | b :: bs, acc =>
    absorbBits d pos bs (if d.getLsbD b then acc ^^^ contrib (pos + BitVec.ofNat 12 b) else acc)

/-- `Absorb(d)` (`42_ecc.md` R161): nothing while RUN = 0. -/
def EccUnit.absorb (e : EccUnit) (d : Byte) : EccUnit :=
  if e.run then
    { e with acc := absorbBits d e.bitPos [0, 1, 2, 3, 4, 5, 6, 7] e.acc, bitPos := e.bitPos + 8 }
  else e

/-- The bytes of one data cycle, low byte first on a 16-bit bus (`42_ecc.md` R162). -/
def EccUnit.absorbCycle (e : EccUnit) (bus16 : Bool) (v : Half) : EccUnit :=
  if bus16 then (e.absorb (v.extractLsb' 0 8)).absorb (v.extractLsb' 8 8)
  else e.absorb (v.extractLsb' 0 8)

/-- The ECC unit after a read-and-restart (`42_ecc.md` R166). -/
def EccUnit.restarted (e : EccUnit) : EccUnit :=
  { e with acc := 0, bitPos := 0, run := true }

/-- The value a read-and-restart returns (`42_ecc.md` R166). -/
def EccUnit.masked (e : EccUnit) : Word := e.acc &&& e.mask

/-- `E(x)`, the unmasked ECC of a byte sequence absorbed from BITPOS = 0, ACC = 0 (`42_ecc.md` R163). -/
def eccOfBytes (x : List Byte) : Word :=
  (x.foldl EccUnit.absorb ⟨0, 0, true, 0⟩).acc

/-- `bswap32` (`00_scope.md` R14). -/
def bswap32 (v : Word) : Word :=
  v.extractLsb' 0 8 ++ v.extractLsb' 8 8 ++ v.extractLsb' 16 8 ++ v.extractLsb' 24 8

/-- `SpareChunk(E)` (`42_ecc.md` R168): `spare` bytes of 0xFF with the byte-swapped ECC laid down
little-endian at `off`. -/
def spareChunk (spare off : Nat) (ecc : Word) : List Byte :=
  let w := bswap32 ecc
  ((((List.replicate spare 0xFF).set off (w.extractLsb' 0 8)).set (off + 1) (w.extractLsb' 8 8)).set
    (off + 2) (w.extractLsb' 16 8)).set (off + 3) (w.extractLsb' 24 8)

/-- `StoredEcc(c)` (`42_ecc.md` R170), from the four bytes `c[o] .. c[o+3]`: the little-endian word,
swapped and masked. -/
def storedEcc (mask : Word) (c0 c1 c2 c3 : Byte) : Word :=
  bswap32 (c3 ++ c2 ++ c1 ++ c0) &&& mask

/-- What `Correct` decides (`42_ecc.md` R172). -/
inductive EccVerdict where
  /-- `S == C`: the sub-page is accepted as it is. -/
  | equal
  /-- One flipped bit, at bit address `d`. -/
  | single (d : Half)
  /-- Anything else. -/
  | uncorrectable
deriving DecidableEq, Repr

/-- The syndrome: the XOR of the four halves (`42_ecc.md` R172, R173). -/
def syndrome (stored computed : Word) : Half :=
  stored.extractLsb' 16 16 ^^^ stored.extractLsb' 0 16 ^^^ computed.extractLsb' 16 16
    ^^^ computed.extractLsb' 0 16

/-- The comparison of `Correct(S, C, base)` (`42_ecc.md` R172), without the repair. -/
def eccVerdict (mask stored computed : Word) : EccVerdict :=
  if stored = computed then .equal
  else if syndrome stored computed = mask.extractLsb' 0 16 then
    .single (stored.extractLsb' 16 16 ^^^ computed.extractLsb' 16 16)
  else .uncorrectable

end Sys2Proof.Machine
end

