-- ==== Sys2Proof/Machine/RegFile.lean ====
section
/-! DEFINITION. The host register file (`10_state.md` R20): what a host read of an index returns and
what a host write of a RW index stores. Reads have no side effect (R45). -/

namespace Sys2Proof.Machine

/-- Entry `i` of a four-entry file; there is no entry 4 and up. -/
def Quad.get (q : Quad) : Nat → Word
  | 0 => q.q0
  | 1 => q.q1
  | 2 => q.q2
  | 3 => q.q3
  | _ => 0

/-- Entry `i` written; an index of 4 and up changes nothing. -/
def Quad.set (q : Quad) (i : Nat) (v : Word) : Quad :=
  match i with
  | 0 => { q with q0 := v }
  | 1 => { q with q1 := v }
  | 2 => { q with q2 := v }
  | 3 => { q with q3 := v }
  | _ => q

/-- The six regions in ascending order (`10_state.md` R38). -/
def Regions.toList (g : Regions) : List Region := [g.r0, g.r1, g.r2, g.r3, g.r4, g.r5]

/-- A host read of a register index: CMD and every index not listed read 0 (`10_state.md` R20, R24). -/
def readReg (s : State) (idx : Nat) : Word :=
  match idx with
  | 1 => s.stat.word
  | 2 => s.opr.a0
  | 3 => s.opr.a1
  | 4 => s.opr.a2
  | 5 => s.opr.a3
  | 6 => s.opr.timeout
  | 7 => s.res.res0
  | 8 => s.res.res1
  | 9 => s.res.res2
  | 10 => s.res.lastStat
  | 11 => s.eccu.acc
  | 12 => s.eccu.mask
  | 13 => s.eccu.ctlWord
  | 16 => s.slots.ecc.q0
  | 17 => s.slots.ecc.q1
  | 18 => s.slots.ecc.q2
  | 19 => s.slots.ecc.q3
  | 20 => s.slots.secc.q0
  | 21 => s.slots.secc.q1
  | 22 => s.slots.secc.q2
  | 23 => s.slots.secc.q3
  | 24 => s.slots.corr.q0
  | 25 => s.slots.corr.q1
  | 26 => s.slots.corr.q2
  | 27 => s.slots.corr.q3
  | 32 => s.geo.mfr.setWidth 32
  | 33 => s.geo.dev.setWidth 32
  | 34 => s.geo.blocks
  | 35 => s.geo.ppb
  | 36 => s.geo.pageSz
  | 37 => s.geo.flagsWord
  | 38 => s.geo.colB.setWidth 32
  | 39 => s.geo.rowB.setWidth 32
  | 40 => s.geo.pageShift.setWidth 32
  | 41 => s.geo.blkShift.setWidth 32
  | 42 => s.geo.bytesPerOp.setWidth 32
  | 43 => s.geo.sparePerOp.setWidth 32
  | 44 => s.geo.numOps.setWidth 32
  | 45 => s.geo.eccOff.setWidth 32
  | 48 => s.nor.cmdSet
  | 49 => s.nor.chipW
  | 50 => s.nor.totalW
  | 51 => s.nor.size
  | 52 => s.nor.bufSz
  | 53 => s.nor.nReg
  | 54 => s.nor.regions.r0.cnt
  | 55 => s.nor.regions.r0.size
  | 56 => s.nor.regions.r1.cnt
  | 57 => s.nor.regions.r1.size
  | 58 => s.nor.regions.r2.cnt
  | 59 => s.nor.regions.r2.size
  | 60 => s.nor.regions.r3.cnt
  | 61 => s.nor.regions.r3.size
  | 62 => s.nor.regions.r4.cnt
  | 63 => s.nor.regions.r4.size
  | 64 => s.nor.regions.r5.cnt
  | 65 => s.nor.regions.r5.size
  | 66 => s.norId.vendor.code
  | 67 => s.norId.mfr
  | 68 => s.norId.dev1
  | 69 => s.norId.dev2
  | _ => 0

/-- The operand registers after a host write of index 2 to 6 (`10_state.md` R20, R21, R22). -/
def Operands.write (o : Operands) (idx : Nat) (v : Word) : Operands :=
  match idx with
  | 2 => { o with a0 := v }
  | 3 => { o with a1 := v }
  | 4 => { o with a2 := v }
  | 5 => { o with a3 := v }
  | 6 => { o with timeout := v }
  | _ => o

/-- The erase regions after a host write of index 54 to 65 (`10_state.md` R20, R38). -/
def Regions.write (g : Regions) (idx : Nat) (v : Word) : Regions :=
  match idx with
  | 54 => { g with r0 := { g.r0 with cnt := v } }
  | 55 => { g with r0 := { g.r0 with size := v } }
  | 56 => { g with r1 := { g.r1 with cnt := v } }
  | 57 => { g with r1 := { g.r1 with size := v } }
  | 58 => { g with r2 := { g.r2 with cnt := v } }
  | 59 => { g with r2 := { g.r2 with size := v } }
  | 60 => { g with r3 := { g.r3 with cnt := v } }
  | 61 => { g with r3 := { g.r3 with size := v } }
  | 62 => { g with r4 := { g.r4 with cnt := v } }
  | 63 => { g with r4 := { g.r4 with size := v } }
  | 64 => { g with r5 := { g.r5 with cnt := v } }
  | 65 => { g with r5 := { g.r5 with size := v } }
  | _ => g

/-- The NOR configuration after a host write of index 48 to 65 (`10_state.md` R20, R38). -/
def NorCfg.write (n : NorCfg) (idx : Nat) (v : Word) : NorCfg :=
  match idx with
  | 48 => { n with cmdSet := v }
  | 49 => { n with chipW := v }
  | 50 => { n with totalW := v }
  | 51 => { n with size := v }
  | 52 => { n with bufSz := v }
  | 53 => { n with nReg := v }
  | _ => { n with regions := n.regions.write idx v }

/-- A host write, while NECC is idle, of an index other than CMD: a RW register stores all 32 bits,
any other index ignores the write (`10_state.md` R20, R45). -/
def writeReg (s : State) (idx : Nat) (v : Word) : State :=
  { s with opr := s.opr.write idx v, nor := s.nor.write idx v }

end Sys2Proof.Machine
end

