-- ==== Sys2Proof/Machine/Operands.lean ====
section
/-! DEFINITION. Operand forms and effective addresses (`20_memory.md` R76 lists them all), the checks
of operands and configuration (`43_nand_page_block.md` R191, R204, `44_nor_ops.md` R221), and the
derivation of the NAND geometry (`41_nand_discovery_wait.md` R137 to R144). -/

namespace Sys2Proof.Machine

/-- `trunc_N(v)` (`00_scope.md` R14), as a 32-bit word. -/
def truncN (n : Nat) (v : Word) : Word := BitVec.ofNat 32 (v.toNat % 2 ^ n)

/-- `zext_W(trunc_W(v))` on the NAND bus: W = 16 if strap NAND_BUS16 is 1, else 8
(`40_bus_access.md`). -/
def truncW (bus16 : Bool) (v : Half) : Half :=
  if bus16 then v else (v.extractLsb' 0 8).setWidth 16

/-! ## NAND addressing -/

/-- `Row(block, page)` (`43_nand_page_block.md` R190), on 32 bits. -/
def rowAddr (g : Geo) (block page : Word) : Word :=
  (block <<< (g.blkShift.setWidth 32 - g.pageShift.setWidth 32 : Word)) ||| page

/-- Row byte `k`, least significant first (`43_nand_page_block.md` R190). -/
def rowByte (r : Word) (k : Nat) : Byte := r.extractLsb' (8 * k) 8

/-- Block or page outside the device (`43_nand_page_block.md` R191). -/
def pageOutOfRange (g : Geo) (block page : Word) : Bool :=
  decide (g.blocks ≤ block) || decide (g.ppb ≤ page)

/-- A block range that exceeds the device; the sum is exact (`43_nand_page_block.md` R204, R206). -/
def blocksOutOfRange (g : Geo) (start count : Word) : Bool :=
  decide (g.blocks.toNat < start.toNat + count.toNat)

/-- The failure kind `NAND_WAIT_STATUS` selects: bit 0 of A0 alone (`41_nand_discovery_wait.md` R133). -/
def waitKind (a0 : Word) : ErrKind := if a0.getLsbD 0 then .eraseFailure else .programFailure

/-! ## NAND geometry -/

/-- `Lookup(d)`: the first row of the table with this device id (`41_nand_discovery_wait.md` R137). -/
def lookupDevice (p : Config.Params) (d : Byte) : Option Config.NandRow :=
  p.nandDeviceTable.find? (fun r => r.devId == d)

/-- The sub-pages of a page of `size` bytes, `ceil(size / 528)` (`41_nand_discovery_wait.md` R139). -/
def subPages (size : Nat) : Nat := (size + 527) / 528

/-- The spare bytes of a sub-page: a 33rd of its bytes (`41_nand_discovery_wait.md` R139). -/
def sparePerSubPage (size : Nat) : Nat := size / subPages size / 33

/-- The address bytes for an address space of `bits` bits: 3, 4 or 5 (`41_nand_discovery_wait.md` R141). -/
def addrBytes (bits : Nat) : Nat := if bits ≤ 24 then 3 else if bits ≤ 32 then 4 else 5

/-- `Derive(row)` and the final `VALID <- 1`, for the id bytes read (`41_nand_discovery_wait.md` R138 to
R142, R144). ECCMASK is `deriveMask`. -/
def deriveGeo (p : Config.Params) (row : Config.NandRow) (m d : Byte) : Geo :=
  let size := row.bytesPerPage.toNat
  let big := decide (size > p.bigBlockThreshold)
  let colB := if big then 2 else 1
  let blkShift := 8 * colB + row.pagesPerBlock.toNat.log2
  let spare := sparePerSubPage size
  { mfr := m
    dev := d
    blocks := row.numBlocks
    ppb := row.pagesPerBlock
    pageSz := row.bytesPerPage
    valid := true
    bus16 := p.nandBus16
    bigBlock := big
    csOff := p.nandCsOff
    colB := BitVec.ofNat 3 colB
    rowB := BitVec.ofNat 3 (addrBytes (blkShift + row.numBlocks.toNat.log2) - colB)
    pageShift := BitVec.ofNat 6 (8 * colB)
    blkShift := BitVec.ofNat 6 blkShift
    bytesPerOp := BitVec.ofNat 10 (32 * spare)
    sparePerOp := BitVec.ofNat 5 spare
    numOps := BitVec.ofNat 3 (subPages size)
    eccOff := BitVec.ofNat 4 (if big then p.eccOffBig else p.eccOffSmall) }

/-- ECCMASK for sub-pages of `bytes` bytes: `m = 8 * bytes - 1` in both halves
(`41_nand_discovery_wait.md` R143). -/
def deriveMask (bytes : BitVec 10) : Word :=
  let m : Word := 8 * bytes.setWidth 32 - 1
  (m <<< 16) ||| m

/-! ## NOR widths and command addresses (`44_nor_ops.md` R220) -/

/-- `Wn`, the combined width in bits. -/
def NorCfg.wn (n : NorCfg) : Nat := n.totalW.toNat

/-- `Wb`, bytes per NOR word. -/
def NorCfg.wb (n : NorCfg) : Nat := n.wn / 8

/-- `CWn`, the per-chip width in bits. -/
def NorCfg.cwn (n : NorCfg) : Nat := n.chipW.toNat

/-- The command byte in the low 8 bits of each of the first `lanes` lanes. -/
def repLanes (cwn : Nat) (c : Byte) : Nat → Word
  | 0 => 0
  | l + 1 => repLanes cwn c l ||| (c.setWidth 32 <<< (l * cwn))

/-- `Rep(c)`, a Wn-bit value (R220). -/
def NorCfg.rep (n : NorCfg) (c : Byte) : Word :=
  truncN n.wn (repLanes n.cwn c (n.wn / n.cwn))

/-- `CA(k) = NOR_BASE + k * Wb` (R220), modulo 2^32 (`93_implementation_defined.md` U23). -/
def NorCfg.cmdAddr (n : NorCfg) (base k : Word) : Word := base + k * BitVec.ofNat 32 n.wb

/-- `PM`, 0x80 in every byte of a Wn-bit value (R220). -/
def NorCfg.pm (n : NorCfg) : Word := truncN n.wn 0x80808080

/-- `ONES = 2^Wn - 1` (R220). -/
def NorCfg.ones (n : NorCfg) : Word := truncN n.wn 0xFFFFFFFF

/-- `Lane0(v) = v[CWn-1:0]` (R226). -/
def NorCfg.lane0 (n : NorCfg) (v : Word) : Word := truncN n.cwn v

/-- The lowest byte index in which two NOR words of `wb` bytes differ (R236). -/
def firstDiffByte (v e : Word) : Nat → Nat → Nat
  | _, 0 => 0
  | i, k + 1 => if v.extractLsb' (8 * i) 8 ≠ e.extractLsb' (8 * i) 8 then i else firstDiffByte v e (i + 1) k

/-! ## NOR checks (`44_nor_ops.md` R221) -/

/-- `ConfigCheck()`: the reason number of the first illegal configuration value, if any. -/
def configReason (p : Config.Params) (n : NorCfg) : Option Word :=
  let busW : Nat := if p.norBus16 then 16 else 8
  if ¬ (n.cwn = 8 ∨ n.cwn = 16) then some 1
  else if ¬ (n.wn = 8 ∨ n.wn = 16 ∨ n.wn = 32) ∨ n.wn % n.cwn ≠ 0 ∨ ¬ (n.wn = busW ∨ n.wn = 2 * busW) then
    some 2
  else if 6 < n.nReg.toNat then some 3
  else none

/-- `AlignCheck(addr)` fails. -/
def misaligned (n : NorCfg) (addr : Word) : Bool := addr.toNat % n.wb != 0

/-- `LenCheck(len)` fails. -/
def badLength (n : NorCfg) (len : Word) : Bool :=
  decide (len.toNat = 0 ∨ len.toNat % n.wb ≠ 0 ∨ n.bufSz.toNat < len.toNat ∨ 256 * n.wb < len.toNat)

/-- `RangeCheck(addr, len)` fails; exact arithmetic. -/
def norOutOfRange (p : Config.Params) (n : NorCfg) (addr : Word) (len : Nat) : Bool :=
  decide (addr.toNat < p.norBase.toNat ∨ n.size.toNat < (addr.toNat - p.norBase.toNat) + len)

/-! ## Region and address resolution (`44_nor_ops.md` R224) -/

/-- What `DiscoverBlockInfo` returns: block size, block address, region index. -/
structure BlockInfo where
  size   : Word
  base   : Word
  region : Word
deriving DecidableEq, Repr

/-- The walk over the regions from region `r` on, which starts at offset `start`. -/
def dbiWalk (base off start r : Nat) : List Region → Option BlockInfo
  | [] => none
  | g :: gs =>
    let ext := g.cnt.toNat * g.size.toNat
    if off < start + ext then
      some { size := g.size
             base := BitVec.ofNat 32 (base + start + (off - start) / g.size.toNat * g.size.toNat)
             region := BitVec.ofNat 32 r }
    else dbiWalk base off (start + ext) (r + 1) gs

/-- `DBI(addr)`: none stands for `raise OutOfRange(addr)`. -/
def blockInfo (p : Config.Params) (n : NorCfg) (addr : Word) : Option BlockInfo :=
  if addr.toNat < p.norBase.toNat ∨ n.size.toNat ≤ addr.toNat - p.norBase.toNat then none
  else dbiWalk p.norBase.toNat (addr.toNat - p.norBase.toNat) 0 0
    (n.regions.toList.take n.nReg.toNat)

/-- The vendor a command-set id selects (`44_nor_ops.md` R225). -/
def vendorOf (cmdSet : Word) : Vendor :=
  if cmdSet = 1 ∨ cmdSet = 2 then .amd else if cmdSet = 3 ∨ cmdSet = 4 then .intel else .unsupported

/-! ## Where a NAND cycle goes on the bus (`40_bus_access.md` R110 to R113) -/

/-- A bus access: address, width in bits, value stored or read. -/
structure BusAccess where
  addr  : Word
  width : Nat
  value : Word
deriving DecidableEq, Repr

/-- The address, width and value of the bus access an event stands for: NAND cycles at
`NAND_BASE + OFF_*` with the strap's width (`40_bus_access.md` R110 to R113, `20_memory.md` R66), NOR
accesses with Wn bits (`44_nor_ops.md` R222, R223). A ready sample and a buffer access are no bus
cycle. -/
def Event.busAccess (p : Config.Params) (n : NorCfg) : Event → Option BusAccess
  | .cle v => some ⟨p.nandBase + p.offCle, if p.nandBus16 then 16 else 8, v.setWidth 32⟩
  | .ale v => some ⟨p.nandBase + p.offAle, if p.nandBus16 then 16 else 8, v.setWidth 32⟩
  | .dw v => some ⟨p.nandBase + p.offDat, if p.nandBus16 then 16 else 8, v.setWidth 32⟩
  | .dr v => some ⟨p.nandBase + p.offDat, if p.nandBus16 then 16 else 8, v.setWidth 32⟩
  | .nw a v => some ⟨a, n.wn, v⟩
  | .nr a v => some ⟨a, n.wn, v⟩
  | .rdy _ => none
  | .mr _ _ _ => none
  | .mw _ _ _ => none

end Sys2Proof.Machine
end

