-- ==== Sys2Proof/Machine/Ops.lean ====
section
/-! DEFINITION. The named operations every op is built from: byte memory, the sequencer's steps, the
bus primitives (`40_bus_access.md` R110 to R116, `44_nor_ops.md` R220 to R223), error entry
(`60_exceptions.md` R264), normal end (R265) and the acceptance of a command (`30_encoding.md` R93). -/

namespace Sys2Proof.Machine

/-! ## Byte memory (`20_memory.md` R60, R61) -/

/-- What an address nothing has written reads as. DESIGN CHOICE (unsafe, log entry 3): the spec gives
host buffer memory no initial contents. -/
def Memory.unlisted : Byte := 0

/-- The byte at an address. -/
def Memory.readByte : Memory → Nat → Byte
  | [], _ => Memory.unlisted
  | (a, b) :: rest, n => if a = n then b else Memory.readByte rest n

/-- One byte written; the canonical form is kept. -/
def Memory.writeByte : Memory → Nat → Byte → Memory
  | [], n, v => if v = Memory.unlisted then [] else [(n, v)]
  | (a, b) :: rest, n, v =>
    if n < a then (if v = Memory.unlisted then (a, b) :: rest else (n, v) :: (a, b) :: rest)
    else if n = a then (if v = Memory.unlisted then rest else (n, v) :: rest)
    else (a, b) :: Memory.writeByte rest n v

/-- The canonical form from a lower bound on: addresses strictly rising, no entry that an unlisted
address reads as. -/
def Memory.wfFrom : Nat → Memory → Bool
  | _, [] => true
  | lo, (a, b) :: rest => decide (lo ≤ a) && decide (b ≠ Memory.unlisted) && Memory.wfFrom (a + 1) rest

/-- The canonical form. -/
def Memory.wf (m : Memory) : Bool := Memory.wfFrom 0 m

/-- Every listed address is below `n`. -/
def Memory.below (n : Nat) (m : Memory) : Bool := m.all (fun c => decide (c.1 < n))

/-- `MemRead(addr, n)`: `n` bytes, little-endian, addresses modulo 2^32 (R60). -/
def Memory.readLE (m : Memory) (a : Word) : Nat → Word
  | 0 => 0
  | n + 1 => (m.readByte a.toNat).setWidth 32 ||| (Memory.readLE m (a + 1) n <<< 8)

/-- `MemWrite(addr, n, v)`: `n` one-byte writes in ascending address order (R60). -/
def Memory.writeLE (m : Memory) (a : Word) : Nat → Word → Memory
  | 0, _ => m
  | n + 1, v => Memory.writeLE (m.writeByte a.toNat (v.setWidth 8)) (a + 1) n (v >>> 8)

/-! ## Errors, end, reset, acceptance -/

/-- What `raise K(info)` does to the state, all at once (`60_exceptions.md` R264). Nothing is saved and
nothing is undone: there is no return from it (R267). -/
def errorEntry (k : ErrKind) (info : Word) (s : State) : State :=
  { s with res := { s.res with res0 := info }, stat := s.stat.raised k }

/-- The normal end of an op (`60_exceptions.md` R265). -/
def normalEnd (s : State) : State := { s with stat := s.stat.ended }

/-- Acceptance of a command word (`30_encoding.md` R93). A new op begins a new trace
(`00_scope.md` R16). -/
def accept (w : Word) (s : State) : State :=
  { s with stat := s.stat.accepted (w.extractLsb' 0 8),
           res := { s.res with res0 := 0, res1 := 0, res2 := 0 }, events := [] }

/-- RESET asserted (`70_reset_and_hazards.md` R290, R291): every piece of NECC's state at its reset
value; the configuration, host memory and the devices are outside NECC; PAGEBUF and SPAREBUF are
unspecified after reset and keep what they hold (U13, log entry 4); events already sent stay sent. -/
def resetAsserted (s : State) : State :=
  { State.reset with cfg := s.cfg, pageBuf := s.pageBuf, spareBuf := s.spareBuf, mem := s.mem,
                     dev := s.dev, host := s.host, events := s.events, resetLine := true }

/-! ## The sequencer's steps -/

/-- Why an op's pseudocode stops before its last step. -/
inductive Ended where
  /-- It raised an error (`60_exceptions.md` R264). -/
  | raised
  /-- RESET was asserted between two steps (`70_reset_and_hazards.md` R290). -/
  | aborted
  /-- It is an AMD poll that goes on (`44_nor_ops.md` R229): the op is still running. -/
  | polling
deriving DecidableEq, Repr

/-- A piece of an op's pseudocode: it goes on with a value and a state, or has ended in a state. -/
abbrev Op (α : Type) := EStateM Ended State α

/-- An unconditional change of the state that is no event. -/
def update (f : State → State) : Op Unit := fun s => .ok () (f s)

/-- `raise K(info)`: the op ends here. -/
def raise {α : Type} (k : ErrKind) (info : Word) : Op α := fun s => .error .raised (errorEntry k info s)

/-- `if c: raise K(info)`. -/
def raiseIf (c : Bool) (k : ErrKind) (info : Word) : Op Unit := if c then raise k info else pure ()

/-- The AMD poll has used up the listed answers and goes on at the next step (`44_nor_ops.md` R229). -/
def keepPolling : Op Unit := fun s => .error .polling s

/-- An act that was to happen while an op ran, done to an idle NECC instead. -/
def BusyAct.toHost : BusyAct → HostAct
  | .write i v => .write i v
  | .read i => .read i
  | .assertReset => .assertReset

/-- What happens while the op runs, one act after the other: a register write is ignored and sets OVR,
a read returns the value of the moment (`10_state.md` R45); RESET ends the op (R290), and whatever the
environment does after that is done to an idle NECC. -/
def busyActs : List BusyAct → Op Unit
  | [], s => .ok () s
  | .write _ _ :: rest, s => busyActs rest { s with stat := { s.stat with ovr := true } }
  | .read i :: rest, s =>
    busyActs rest { s with host := { s.host with answers := .reg i (readReg s i) :: s.host.answers } }
  | .assertReset :: rest, s =>
    let later := rest.map BusyAct.toHost
    .error .aborted (resetAsserted { s with host := { s.host with script := later ++ s.host.script } })

/-- The boundary before an event: what the environment does there, if anything. -/
def tick : Op Unit := fun s =>
  match s.host.busy with
  | [] => .ok () s
  | acts :: rest => busyActs acts { s with host := { s.host with busy := rest } }

/-- The profile's parameters. -/
def params : Op Config.Params := fun s => .ok s.cfg.params s

/-- `phase <- P`. -/
def setPhase (p : Phase) : Op Unit := update fun s => { s with stat := { s.stat with phase := p } }

/-- `RES0 <- v`. -/
def setRes0 (v : Word) : Op Unit := update fun s => { s with res := { s.res with res0 := v } }

/-- `RES1 <- v`. -/
def setRes1 (v : Word) : Op Unit := update fun s => { s with res := { s.res with res1 := v } }

/-- `RES2 <- v`. -/
def setRes2 (v : Word) : Op Unit := update fun s => { s with res := { s.res with res2 := v } }

/-- `LASTSTAT <- v`. -/
def setLastStat (v : Word) : Op Unit := update fun s => { s with res := { s.res with lastStat := v } }

/-- `STAT.CORR <- 1`. -/
def setCorr : Op Unit := update fun s => { s with stat := { s.stat with corr := true } }

/-- `OPIDX` (`10_state.md` R27; log entry 10). -/
def setOpIdx (i : Nat) : Op Unit :=
  update fun s => { s with loop := { s.loop with opIdx := BitVec.ofNat 2 i } }

/-- `BLKIDX` (`10_state.md` R27). -/
def setBlkIdx (b : Word) : Op Unit := update fun s => { s with loop := { s.loop with blkIdx := b } }

/-- `POLLCNT` (`10_state.md` R27). -/
def setPollCnt (n : Nat) : Op Unit :=
  update fun s => { s with loop := { s.loop with pollCnt := BitVec.ofNat 32 n } }

/-- `XFERCNT` (`10_state.md` R27; log entry 10). -/
def setXferCnt (n : Nat) : Op Unit :=
  update fun s => { s with loop := { s.loop with xferCnt := BitVec.ofNat 32 n } }

/-- `for i in start .. start + count - 1`, ascending. -/
def forUp (f : Nat → Op Unit) : Nat → Nat → Op Unit
  | _, 0 => pure ()
  | i, n + 1 => do
    f i
    forUp f (i + 1) n

/-- A transfer of `count` cycles of `unit` units each, numbered from `k`: XFERCNT holds the units that
remain. -/
def transfer (unit : Nat) (f : Nat → Op Unit) : Nat → Nat → Op Unit
  | _, 0 => setXferCnt 0
  | k, n + 1 => do
    setXferCnt ((n + 1) * unit)
    f k
    transfer unit f (k + 1) n

/-! ## Events -/

/-- The next answer to a NAND data read, as the device drives it (`20_memory.md` R62). -/
def Device.drValue (d : Device) : Half :=
  match d.dr with
  | v :: _ => v
  | [] => Config.freeNandRead d.free

/-- The answers left after a NAND data read. -/
def Device.drRest (d : Device) : Device :=
  match d.dr with
  | _ :: rest => { d with dr := rest }
  | [] => { d with free := d.free + 1 }

/-- The next ready sample (`20_memory.md` R62). -/
def Device.rdyValue (d : Device) : Bool :=
  match d.rdy with
  | b :: _ => b
  | [] => Config.freeReady d.free

/-- The answers left after a ready sample. -/
def Device.rdyRest (d : Device) : Device :=
  match d.rdy with
  | _ :: rest => { d with rdy := rest }
  | [] => { d with free := d.free + 1 }

/-- The next answer to a NOR load (`20_memory.md` R62). -/
def Device.nrValue (d : Device) : Word :=
  match d.nr with
  | v :: _ => v
  | [] => Config.freeNorRead d.free

/-- The answers left after a NOR load. -/
def Device.nrRest (d : Device) : Device :=
  match d.nr with
  | _ :: rest => { d with nr := rest }
  | [] => { d with free := d.free + 1 }

/-- The device answers a NAND data read. -/
def askDr : Op Half := fun s => .ok s.dev.drValue { s with dev := s.dev.drRest }

/-- The device answers a ready sample. -/
def askRdy : Op Bool := fun s => .ok s.dev.rdyValue { s with dev := s.dev.rdyRest }

/-- The device answers a NOR load. -/
def askNr : Op Word := fun s => .ok s.dev.nrValue { s with dev := s.dev.nrRest }

/-- An event is recorded, the boundary before it being over. -/
def record (e : Event) : Op Unit := update fun s => { s with events := e :: s.events }

/-- An event takes place: the environment's acts before it, then the event itself. -/
def emit (e : Event) : Op Unit := do
  tick
  record e

/-- After a NAND data cycle the ECC unit absorbs its bytes (`42_ecc.md` R161, R162). -/
def absorbCycle (v : Half) : Op Unit :=
  update fun s => { s with eccu := s.eccu.absorbCycle s.cfg.params.nandBus16 v }

/-- `Cle(v)` (`40_bus_access.md` R110). -/
def cle (v : Byte) : Op Unit := emit (.cle (v.setWidth 16))

/-- `Ale(v)` (`40_bus_access.md` R111). -/
def ale (v : Byte) : Op Unit := emit (.ale (v.setWidth 16))

/-- `DatW(v)` (`40_bus_access.md` R112). -/
def datW (v : Half) : Op Unit := do
  let p ← params
  emit (.dw (truncW p.nandBus16 v))
  absorbCycle (truncW p.nandBus16 v)

/-- `DatR()` (`40_bus_access.md` R113): the W-bit value the device drove. -/
def datR : Op Half := do
  let p ← params
  tick
  let d ← askDr
  let v := truncW p.nandBus16 d
  record (.dr v)
  absorbCycle v
  pure v

/-- `ReadByte()` (`40_bus_access.md` R116). -/
def readByte : Op Byte := do
  let d ← datR
  pure (d.extractLsb' 0 8)

/-- `Rdy()` (`40_bus_access.md` R114). -/
def rdy : Op Bool := do
  tick
  let b ← askRdy
  record (.rdy b)
  pure b

/-- `NorW(addr, v)` (`44_nor_ops.md` R222). -/
def norW (addr v : Word) : Op Unit := do
  let s ← get
  emit (.nw addr (truncN s.nor.wn v))

/-- `NorR(addr)` (`44_nor_ops.md` R223). -/
def norR (addr : Word) : Op Word := do
  let s ← get
  tick
  let d ← askNr
  let v := truncN s.nor.wn d
  record (.nr addr v)
  pure v

/-- `NorCmd(addr, c) = NorW(addr, Rep(c))` (`44_nor_ops.md` R220). -/
def norCmd (addr : Word) (c : Byte) : Op Unit := do
  let s ← get
  norW addr (s.nor.rep c)

/-- The two spaces a page transfer can address: host buffer memory and PAGEBUF
(`43_nand_page_block.md` R193). -/
inductive Space where
  | host | page
deriving DecidableEq, Repr

/-- `MemRead(addr, n)` in a space. PAGEBUF is internal: reading it is no event. -/
def memRead (t : Space) (a : Word) (n : Nat) : Op Word :=
  match t with
  | .host => do
    tick
    let s ← get
    let v := s.mem.readLE a n
    record (.mr a n v)
    pure v
  | .page => do
    let s ← get
    pure (s.pageBuf.readLE a n)

/-- `MemWrite(addr, n, v)` in a space. PAGEBUF is internal: writing it is no event. -/
def memWrite (t : Space) (a : Word) (n : Nat) (v : Word) : Op Unit :=
  match t with
  | .host => do
    emit (.mw a n v)
    update fun s => { s with mem := s.mem.writeLE a n v }
  | .page => update fun s => { s with pageBuf := s.pageBuf.writeLE a n v }

/-! ## Byte streams (`40_bus_access.md` R115) -/

/-- `WriteBytes(src, n)` from host buffer memory. -/
def writeBytes (src : Word) (n : Nat) : Op Unit := do
  let p ← params
  if p.nandBus16 then
    transfer 2 (fun k => do
      let v ← memRead .host (src + BitVec.ofNat 32 (2 * k)) 2
      datW (v.setWidth 16)) 0 (n / 2)
  else
    transfer 1 (fun k => do
      let v ← memRead .host (src + BitVec.ofNat 32 k) 1
      datW (v.setWidth 16)) 0 n

/-- `ReadBytes_T(dst, n)` into a space (`43_nand_page_block.md` R193). -/
def readBytes (t : Space) (dst : Word) (n : Nat) : Op Unit := do
  let p ← params
  if p.nandBus16 then
    transfer 2 (fun k => do
      let d ← datR
      memWrite t (dst + BitVec.ofNat 32 (2 * k)) 2 (d.setWidth 32)) 0 (n / 2)
  else
    transfer 1 (fun k => do
      let d ← datR
      memWrite t (dst + BitVec.ofNat 32 k) 1 (d.setWidth 32)) 0 n

/-- `WriteStream(b)` with an explicit byte list. -/
def writeStream (b : List Byte) : Op Unit := do
  let p ← params
  if p.nandBus16 then
    transfer 2 (fun k => datW (b.getD (2 * k + 1) 0 ++ b.getD (2 * k) 0)) 0 (b.length / 2)
  else
    transfer 1 (fun k => datW ((b.getD k 0).setWidth 16)) 0 b.length

/-- A byte of SPAREBUF written. -/
def setSpare (k : Nat) (b : Byte) : Op Unit :=
  update fun s => { s with spareBuf := s.spareBuf.writeByte k b }

/-- `ReadStream(n)`, held in SPAREBUF (`43_nand_page_block.md` R193). -/
def readStream (n : Nat) : Op Unit := do
  let p ← params
  if p.nandBus16 then
    transfer 2 (fun k => do
      let d ← datR
      setSpare (2 * k) (d.extractLsb' 0 8)
      setSpare (2 * k + 1) (d.extractLsb' 8 8)) 0 (n / 2)
  else
    transfer 1 (fun k => do
      let d ← datR
      setSpare k (d.extractLsb' 0 8)) 0 n

/-! ## ECC steps (`42_ecc.md` R166, R170, R172) -/

/-- `EccReadRestart()`: one internal step, no bus event. -/
def eccReadRestart : Op Word := fun s =>
  .ok s.eccu.masked { s with eccu := s.eccu.restarted }

/-- `StoredEcc(c)` of the chunk in SPAREBUF. -/
def storedEccOfSpare (s : State) : Word :=
  let o := s.geo.eccOff.toNat
  storedEcc s.eccu.mask (s.spareBuf.readByte o) (s.spareBuf.readByte (o + 1))
    (s.spareBuf.readByte (o + 2)) (s.spareBuf.readByte (o + 3))

/-- `Correct_T(S, C, base)`: the status and the bit address; one read and one write of the byte when
one bit is to be flipped, and none otherwise. -/
def correct (t : Space) (stored computed base : Word) : Op (BitVec 2 × Half) := do
  let s ← get
  match eccVerdict s.eccu.mask stored computed with
  | .equal => pure (0, 0)
  | .single d => do
    let a := base + (d >>> 3).setWidth 32
    let v ← memRead t a 1
    memWrite t a 1 (v ^^^ ((1 : Word) <<< (d &&& 7).toNat))
    pure (1, d)
  | .uncorrectable => pure (2, 0)

/-- `ecc[i] <- v`. -/
def setEcc (i : Nat) (v : Word) : Op Unit :=
  update fun s => { s with slots := { s.slots with ecc := s.slots.ecc.set i v } }

/-- `secc[i] <- v`. -/
def setSecc (i : Nat) (v : Word) : Op Unit :=
  update fun s => { s with slots := { s.slots with secc := s.slots.secc.set i v } }

/-- `corr[i] <- v`. -/
def setCorrSlot (i : Nat) (v : Word) : Op Unit :=
  update fun s => { s with slots := { s.slots with corr := s.slots.corr.set i v } }

/-! ## Running an op -/

/-- An accepted op runs: the boundary after acceptance, its pseudocode, and, if nothing ended it, the
normal end. -/
def runOp (m : Op Unit) (s : State) : Host.Outcome State Fault Refusal :=
  match (do tick; m : Op Unit) s with
  | .ok _ s' => .next (normalEnd s')
  | .error _ s' => .next s'

/-- The rest of an op whose poll went on (`44_nor_ops.md` R229). -/
def continueOp (m : Op Unit) (s : State) : Host.Outcome State Fault Refusal :=
  match m s with
  | .ok _ s' => .next (normalEnd s')
  | .error _ s' => .next s'

end Sys2Proof.Machine
end

