-- ==== Sys2Proof/Machine/Bus.lean ====
section
/-! DEFINITION. The four ops of the bus access layer (`40_bus_access.md` R117 to R120): one NAND cycle
each, no check, no error (R121). -/

namespace Sys2Proof.Machine

/-- `BUS_CLE` (R117). -/
def busCleOp : Op Unit := do
  setPhase .cmd
  let s ← get
  cle (s.opr.a0.setWidth 8)

/-- `BUS_ALE` (R118). -/
def busAleOp : Op Unit := do
  setPhase .addr
  let s ← get
  ale (s.opr.a0.setWidth 8)

/-- `BUS_WDATA` (R119): bits of A0 above W are ignored. -/
def busWdataOp : Op Unit := do
  setPhase .data
  let s ← get
  datW (s.opr.a0.setWidth 16)

/-- `BUS_RDATA` (R120). -/
def busRdataOp : Op Unit := do
  setPhase .data
  let d ← datR
  setRes0 (d.setWidth 32)

def execBusCle (s : State) : Host.Outcome State Fault Refusal := runOp busCleOp s

def execBusAle (s : State) : Host.Outcome State Fault Refusal := runOp busAleOp s

def execBusWdata (s : State) : Host.Outcome State Fault Refusal := runOp busWdataOp s

def execBusRdata (s : State) : Host.Outcome State Fault Refusal := runOp busRdataOp s

end Sys2Proof.Machine
end

