-- ==== Sys2Proof/Machine/Ecc.lean ====
section
/-! DEFINITION. The two ops of the ECC unit (`42_ecc.md` R167, R176). -/

namespace Sys2Proof.Machine

/-- `GEO_FLAGS.VALID = 1`, else `raise NotInitialised`. -/
def needGeometry : Op Unit := do
  let s ← get
  raiseIf (!s.geo.valid) .notInitialised 0

/-- `ECC_RESTART` (R167). -/
def eccRestartOp : Op Unit := do
  needGeometry
  setPhase .ecc
  let v ← eccReadRestart
  setRes0 v

/-- `ECC_CORRECT` (R176). -/
def eccCorrectOp : Op Unit := do
  needGeometry
  setPhase .ecc
  let s ← get
  let stored := s.opr.a0 &&& s.eccu.mask
  let computed := s.opr.a1 &&& s.eccu.mask
  setSecc 0 stored
  setEcc 0 computed
  let (st, d) ← correct .host stored computed s.opr.a2
  setCorrSlot 0 (corrRecord st d)
  setRes0 (st.setWidth 32)
  setRes1 (d.setWidth 32)
  if st = 1 then setCorr
  else raiseIf (st == 2) .eccFailure 2

def execEccRestart (s : State) : Host.Outcome State Fault Refusal := runOp eccRestartOp s

def execEccCorrect (s : State) : Host.Outcome State Fault Refusal := runOp eccCorrectOp s

end Sys2Proof.Machine
end

