-- ==== Sys2Proof/Machine/NandInit.lean ====
section
/-! DEFINITION. The NAND wait primitives and discovery (`41_nand_discovery_wait.md` R130 to R145):
`NAND_WAIT_RDY`, `NAND_WAIT_STATUS`, `NAND_INIT`. -/

namespace Sys2Proof.Machine

/-- The loop of `WaitRdy` with `POLLCNT` polls left (R130). -/
def waitRdyLoop : Nat → Op Unit
  | 0 => do
    setPollCnt 0
    raise .timeout 0
  | n + 1 => do
    setPollCnt (n + 1)
    let b ← rdy
    if b then pure () else waitRdyLoop n

/-- `WaitRdy(TIMEOUT)` (R130): the bound is TIMEOUT at the moment the poll starts (`10_state.md` R22). -/
def waitRdy : Op Unit := do
  let s ← get
  waitRdyLoop s.opr.timeout.toNat

/-- The loop of `WaitStatus` with `POLLCNT` polls left (R132): the error bit is examined only in the
status byte that shows ready. -/
def waitStatusLoop (failKind : ErrKind) : Nat → Op Unit
  | 0 => do
    setPollCnt 0
    raise .timeout 0
  | n + 1 => do
    setPollCnt (n + 1)
    let p ← params
    cle p.cmdStatus
    let st ← readByte
    setLastStat (st.setWidth 32)
    if st &&& p.stReady ≠ 0 then
      raiseIf (st &&& p.stFail != 0) failKind (st.setWidth 32)
    else waitStatusLoop failKind n

/-- `WaitStatus(TIMEOUT, failKind)` (R132). -/
def waitStatus (failKind : ErrKind) : Op Unit := do
  let s ← get
  waitStatusLoop failKind s.opr.timeout.toNat

/-- `NAND_WAIT_RDY` (R131). -/
def nandWaitRdyOp : Op Unit := do
  setPhase .waitRdy
  waitRdy

/-- `NAND_WAIT_STATUS` (R133). -/
def nandWaitStatusOp : Op Unit := do
  setPhase .waitStatus
  let s ← get
  waitStatus (waitKind s.opr.a0)

/-- Registers 32..45 and ECCMASK cleared, so VALID = 0 (R136). -/
def clearGeometry : Op Unit :=
  update fun s => { s with geo := Geo.zero, eccu := { s.eccu with mask := 0 } }

/-- GEO_MFR and GEO_DEV (R136). -/
def setIds (m d : Byte) : Op Unit :=
  update fun s => { s with geo := { s.geo with mfr := m, dev := d } }

/-- `Derive(row)` and `VALID <- 1`, together (R144). -/
def setGeometry (row : Config.NandRow) (m d : Byte) : Op Unit :=
  update fun s =>
    let g := deriveGeo s.cfg.params row m d
    { s with geo := g, eccu := { s.eccu with mask := deriveMask g.bytesPerOp } }

/-- `NAND_INIT` (R136, R137). -/
def nandInitOp : Op Unit := do
  setPhase .check
  clearGeometry
  let p ← params
  setPhase .cmd
  cle p.cmdReset
  setPhase .waitRdy
  waitRdy
  setPhase .cmd
  cle p.cmdReadId
  setPhase .addr
  ale p.rdIdAddr
  setPhase .data
  let m ← readByte
  let d ← readByte
  setIds m d
  setRes0 (m.setWidth 32)
  setRes1 (d.setWidth 32)
  setPhase .lookup
  match lookupDevice p d with
  | none => raise .unknownDevice (m.setWidth 32)
  | some row => setGeometry row m d

def execNandInit (s : State) : Host.Outcome State Fault Refusal := runOp nandInitOp s

def execNandWaitRdy (s : State) : Host.Outcome State Fault Refusal := runOp nandWaitRdyOp s

def execNandWaitStatus (s : State) : Host.Outcome State Fault Refusal := runOp nandWaitStatusOp s

end Sys2Proof.Machine
end

