-- ==== Sys2Proof/Machine/NandPage.lean ====
section
/-! DEFINITION. The NAND page and block ops (`43_nand_page_block.md` R190 to R209). -/

namespace Sys2Proof.Machine

/-- `RowCycles(block, page)` (R190): GEO_ROWB address cycles, least significant byte first. -/
def rowCycles (block page : Word) : Op Unit := do
  let s ← get
  forUp (fun k => ale (rowByte (rowAddr s.geo block page) k)) 0 s.geo.rowB.toNat

/-- `AddrCycles(block, page)` (R190): GEO_COLB zero bytes, then the row. -/
def addrCycles (block page : Word) : Op Unit := do
  let s ← get
  forUp (fun _ => ale 0) 0 s.geo.colB.toNat
  rowCycles block page

/-- The twelve slot registers cleared (R191). -/
def clearSlots : Op Unit :=
  update fun s => { s with slots := ⟨Quad.zero, Quad.zero, Quad.zero⟩ }

/-- `PageChecks()` (R191). -/
def pageChecks : Op Unit := do
  needGeometry
  let s ← get
  if pageOutOfRange s.geo s.opr.a0 s.opr.a1 then
    setRes1 s.opr.a1
    raise .outOfRange s.opr.a0
  else clearSlots

/-- The base of sub-page `i` in the buffer (`20_memory.md` R76). -/
def subPageBase (base : Word) (i : Nat) (bytesPerOp : BitVec 10) : Word :=
  base + BitVec.ofNat 32 (i * bytesPerOp.toNat)

/-- One sub-page of the compare-and-correct phase (R193). -/
def correctSubPage (t : Space) (base : Word) (i : Nat) : Op Unit := do
  setOpIdx i
  let s ← get
  let (st, d) ← correct t (s.slots.secc.get i) (s.slots.ecc.get i) (subPageBase base i s.geo.bytesPerOp)
  setCorrSlot i (corrRecord st d)
  if st = 1 then setCorr
  else raiseIf (st == 2) .eccFailure (BitVec.ofNat 32 i)

/-- The extra confirm command of a big-block read (R193, R208). -/
def readConfirm (big : Bool) : Op Unit := do
  let p ← params
  if big then
    setPhase .confirm
    cle p.cmdReadConfirm
  else pure ()

/-- Sub-page `i` of the data phase of a read: its bytes, then its ECC (R193). -/
def readSubPage (t : Space) (base : Word) (bytesPerOp : BitVec 10) (i : Nat) : Op Unit := do
  setOpIdx i
  readBytes t (subPageBase base i bytesPerOp) bytesPerOp.toNat
  let v ← eccReadRestart
  setEcc i v

/-- Spare chunk `i` of a read: held in SPAREBUF, its ECC bytes kept (R193). -/
def readSpare (sparePerOp : BitVec 5) (i : Nat) : Op Unit := do
  setOpIdx i
  readStream sparePerOp.toNat
  let s ← get
  setSecc i (storedEccOfSpare s)

/-- `PageRead(block, page, T, base)` (R193). -/
def pageRead (block page : Word) (t : Space) (base : Word) : Op Unit := do
  let s ← get
  let p ← params
  setPhase .cmd
  cle p.cmdRead
  setPhase .addr
  addrCycles block page
  readConfirm s.geo.bigBlock
  setPhase .waitRdy
  waitRdy
  setPhase .data
  let _ ← eccReadRestart
  forUp (readSubPage t base s.geo.bytesPerOp) 0 s.geo.numOps.toNat
  setPhase .spare
  forUp (readSpare s.geo.sparePerOp) 0 s.geo.numOps.toNat
  setPhase .ecc
  forUp (correctSubPage t base) 0 s.geo.numOps.toNat

/-- The number of sub-pages `i` below `n` with `corr[i].STATUS == 1` (R193). -/
def correctedCount (corr : Quad) (n : Nat) : Nat :=
  (List.range n).countP (fun i => corrStatus (corr.get i) == 1)

/-- `RES0 <- number of i in 0..numOps-1 with corr[i].STATUS == 1` (R193, R201). -/
def countCorrected : Op Unit := do
  let s ← get
  setRes0 (BitVec.ofNat 32 (correctedCount s.slots.corr s.geo.numOps.toNat))

/-- `NAND_READ_PAGE` (R193). -/
def nandReadPageOp : Op Unit := do
  pageChecks
  let s ← get
  pageRead s.opr.a0 s.opr.a1 .host s.opr.a2
  countCorrected

/-- Sub-page `i` of the data phase of a write: its bytes, then its ECC (R197). -/
def writeSubPage (base : Word) (bytesPerOp : BitVec 10) (i : Nat) : Op Unit := do
  setOpIdx i
  writeBytes (subPageBase base i bytesPerOp) bytesPerOp.toNat
  let v ← eccReadRestart
  setEcc i v

/-- Spare chunk `i` of a write, generated from `ecc[i]` (R194, R197). -/
def writeSpare (i : Nat) : Op Unit := do
  setOpIdx i
  let s ← get
  writeStream (spareChunk s.geo.sparePerOp.toNat s.geo.eccOff.toNat (s.slots.ecc.get i))

/-- `NAND_WRITE_PAGE` (R197). -/
def nandWritePageOp : Op Unit := do
  pageChecks
  let s ← get
  let p ← params
  setPhase .cmd
  cle p.cmdProgram
  setPhase .addr
  addrCycles s.opr.a0 s.opr.a1
  setPhase .data
  let _ ← eccReadRestart
  forUp (writeSubPage s.opr.a2 s.geo.bytesPerOp) 0 s.geo.numOps.toNat
  setPhase .spare
  forUp writeSpare 0 s.geo.numOps.toNat
  setPhase .confirm
  cle p.cmdProgramConfirm
  setPhase .waitRdy
  waitRdy
  setPhase .waitStatus
  waitStatus .programFailure

/-- One byte of the comparison of `NAND_VERIFY_PAGE` (R201). -/
def verifyByte (base : Word) (j : Nat) : Op Unit := do
  let e ← memRead .host (base + BitVec.ofNat 32 j) 1
  let g ← memRead .page (BitVec.ofNat 32 j) 1
  if e ≠ g then
    setRes1 g
    setRes2 e
    raise .verifyFailure (BitVec.ofNat 32 j)
  else pure ()

/-- `NAND_VERIFY_PAGE` (R201). -/
def nandVerifyPageOp : Op Unit := do
  pageChecks
  let s ← get
  pageRead s.opr.a0 s.opr.a1 .page 0
  setPhase .verify
  forUp (verifyByte s.opr.a2) 0 (s.geo.numOps.toNat * s.geo.bytesPerOp.toNat)
  countCorrected

/-- The checks of the block-range ops (R204, R206). -/
def blockChecks : Op Unit := do
  needGeometry
  let s ← get
  if blocksOutOfRange s.geo s.opr.a0 s.opr.a1 then
    setRes1 s.opr.a1
    raise .outOfRange s.opr.a0
  else pure ()

/-- The erase of one block (R204). -/
def eraseBlock (b : Word) : Op Unit := do
  let p ← params
  setBlkIdx b
  setRes1 b
  setPhase .cmd
  cle p.cmdErase
  setPhase .addr
  rowCycles b 0
  setPhase .confirm
  cle p.cmdEraseConfirm
  setPhase .waitRdy
  waitRdy
  setPhase .waitStatus
  waitStatus .eraseFailure

/-- `NAND_ERASE_BLOCKS` (R204). -/
def nandEraseBlocksOp : Op Unit := do
  blockChecks
  let s ← get
  forUp (fun b => eraseBlock (BitVec.ofNat 32 b)) s.opr.a0.toNat s.opr.a1.toNat
  setRes0 s.opr.a1
  setRes1 0

/-- `NAND_UNPROTECT` (R206): no event when the count is 0. -/
def nandUnprotectOp : Op Unit := do
  blockChecks
  let s ← get
  let p ← params
  if s.opr.a1 = 0 then pure ()
  else
    setPhase .cmd
    cle p.cmdUnlockLo
    setPhase .addr
    rowCycles s.opr.a0 0
    setPhase .cmd
    cle p.cmdUnlockHi
    setPhase .addr
    rowCycles (s.opr.a0 + s.opr.a1 - 1) 0

/-- `NAND_PROTECT` (R207). -/
def nandProtectOp : Op Unit := do
  needGeometry
  let p ← params
  setPhase .cmd
  cle p.cmdLock

def execNandReadPage (s : State) : Host.Outcome State Fault Refusal := runOp nandReadPageOp s

def execNandWritePage (s : State) : Host.Outcome State Fault Refusal := runOp nandWritePageOp s

def execNandVerifyPage (s : State) : Host.Outcome State Fault Refusal := runOp nandVerifyPageOp s

def execNandEraseBlocks (s : State) : Host.Outcome State Fault Refusal := runOp nandEraseBlocksOp s

def execNandUnprotect (s : State) : Host.Outcome State Fault Refusal := runOp nandUnprotectOp s

def execNandProtect (s : State) : Host.Outcome State Fault Refusal := runOp nandProtectOp s

end Sys2Proof.Machine
end

