-- ==== Sys2Proof/Machine/Nor.lean ====
section
/-! DEFINITION. The NOR vendor command/status sequences (`44_nor_ops.md` R220 to R242). -/

namespace Sys2Proof.Machine

/-! ## Checks (R221) -/

/-- `VendorCheck(ANY)`. -/
def vendorCheckAny : Op Unit := do
  let s ← get
  raiseIf (s.norId.vendor == .unsupported) .unsupportedDevice s.nor.cmdSet

/-- `VendorCheck(INTEL)`. -/
def vendorCheckIntel : Op Unit := do
  let s ← get
  raiseIf (s.norId.vendor != .intel) .unsupportedDevice s.nor.cmdSet

/-- `ConfigCheck()`. -/
def configCheck : Op Unit := do
  let s ← get
  match configReason s.cfg.params s.nor with
  | some n => raise .badOperand n
  | none => pure ()

/-- `AlignCheck(addr)`. -/
def alignCheck (addr : Word) : Op Unit := do
  let s ← get
  raiseIf (misaligned s.nor addr) .badOperand 4

/-- `LenCheck(len)`. -/
def lenCheck (len : Word) : Op Unit := do
  let s ← get
  raiseIf (badLength s.nor len) .badOperand 5

/-- `RangeCheck(addr, len)`. -/
def rangeCheck (addr : Word) (len : Nat) : Op Unit := do
  let s ← get
  raiseIf (norOutOfRange s.cfg.params s.nor addr len) .outOfRange addr

/-- `DBI(addr)` (R224). -/
def discoverBlockInfo (addr : Word) : Op BlockInfo := do
  let s ← get
  match blockInfo s.cfg.params s.nor addr with
  | some b => pure b
  | none => raise .outOfRange addr

/-! ## Region lookup, attach, identify -/

/-- `NOR_BLOCK_INFO` (R224). -/
def norBlockInfoOp : Op Unit := do
  configCheck
  setPhase .lookup
  let s ← get
  let b ← discoverBlockInfo s.opr.a0
  setRes0 b.size
  setRes1 b.base
  setRes2 b.region

/-- `CA(k)` (R220). -/
def cmdAddr (k : Word) : Op Word := do
  let s ← get
  pure (s.nor.cmdAddr s.cfg.params.norBase k)

/-- `Prefix()` (R228): the two unlock stores. -/
def unlockPrefix : Op Unit := do
  let p ← params
  let c1 ← cmdAddr p.amdAddr1
  norCmd c1 p.amdUnlock1
  let c2 ← cmdAddr p.amdAddr2
  norCmd c2 p.amdUnlock2

/-- `Prefix(); NorCmd(CA(AMD_ADDR1), c)`. -/
def prefixedCmd (c : Byte) : Op Unit := do
  unlockPrefix
  let p ← params
  let a ← cmdAddr p.amdAddr1
  norCmd a c

/-- `Lane0(NorR(CA(k)))` (R226). -/
def readIdWord (k : Word) : Op Word := do
  let a ← cmdAddr k
  let v ← norR a
  let s ← get
  pure (s.nor.lane0 v)

/-- `IdentifyAmd()` (R226). -/
def identifyAmd : Op (Word × Word × Word) := do
  let p ← params
  setPhase .cmd
  prefixedCmd p.amdAutoselect
  setPhase .data
  let m ← readIdWord 0
  let d1 ← readIdWord 1
  let d2 ← readIdWord 2
  setPhase .cleanup
  norCmd p.norBase p.amdReset
  pure (truncN 8 m, d1, d2)

/-- `IdentifyIntel()` (R227). -/
def identifyIntel : Op (Word × Word × Word) := do
  let p ← params
  setPhase .cmd
  norCmd p.norBase p.intelReadId
  setPhase .data
  let m ← readIdWord 0
  let d1 ← readIdWord 1
  setPhase .cleanup
  norCmd p.norBase p.intelReadArray
  pure (truncN 8 m, d1, 0)

/-- `NOR_VENDOR` selected, the id registers cleared (R225). -/
def selectVendor : Op Unit :=
  update fun s => { s with norId := ⟨vendorOf s.nor.cmdSet, 0, 0, 0⟩ }

/-- The id registers (R225). -/
def setNorIds (m d1 d2 : Word) : Op Unit :=
  update fun s => { s with norId := { s.norId with mfr := m, dev1 := d1, dev2 := d2 } }

/-- What `NOR_ATTACH` does with the ids read: it stores them and flags an unknown manufacturer,
which is non-fatal (R225). -/
def recordIds (ids : Word × Word × Word) : Op Unit := do
  let p ← params
  setNorIds ids.1 ids.2.1 ids.2.2
  setRes0 ids.1
  setRes1 ids.2.1
  setRes2 ids.2.2
  raiseIf (!p.norKnownMfrs.contains (ids.1.setWidth 8)) .identifyFailed ids.1

/-- `NOR_ATTACH` (R225). -/
def norAttachOp : Op Unit := do
  configCheck
  setPhase .lookup
  selectVendor
  let s ← get
  match s.norId.vendor with
  | .unsupported => raise .unsupportedDevice s.nor.cmdSet
  | .amd => do
    let ids ← identifyAmd
    recordIds ids
  | .intel => do
    let ids ← identifyIntel
    recordIds ids

/-! ## The Intel end (R234) -/

/-- The status spin with `POLLCNT` polls left: the status word that shows ready, or none on time-out. -/
def intelSpin (sa : Word) : Nat → Op (Option Word)
  | 0 => do
    setPollCnt 0
    pure none
  | n + 1 => do
    setPollCnt (n + 1)
    let st ← norR sa
    setLastStat st
    if st.getLsbD 7 then pure (some st) else intelSpin sa n

/-- The two clean-up commands, sent on every path (R234). -/
def intelCleanup (sa : Word) : Op Unit := do
  setPhase .cleanup
  let p ← params
  norCmd sa p.intelClearStatus
  norCmd sa p.intelReadArray

/-- `IntelFinish(sa, failKind)` (R234). -/
def intelFinish (sa : Word) (failKind : ErrKind) : Op Unit := do
  setPhase .waitStatus
  let s ← get
  let r ← intelSpin sa s.opr.timeout.toNat
  intelCleanup sa
  match r with
  | none => raise .timeout sa
  | some st => raiseIf (st &&& 0x38 != 0) failKind st

/-! ## The AMD polls (R228, R229, R231)

They are unbounded. In one step a poll goes round as long as answers are listed, or once when none is;
then the op is left polling, BUSY = 1, and each further step goes on with it (log entry 9). -/

/-- How often a poll goes round in one step. -/
def pollRounds (s : State) : Nat := max 1 s.dev.nr.length

/-- The erase poll at the block address: until a read shows bit 7 (R228). -/
def amdErasePoll (ba : Word) : Nat → Op Unit
  | 0 => keepPolling
  | n + 1 => do
    let v ← norR ba
    setLastStat v
    if v.getLsbD 7 then pure () else amdErasePoll ba n

/-- One more comparison, after bit 5 or the abort bit (R231): whether the re-read matches. -/
def amdReread (addr d : Word) : Op Bool := do
  let s ← get
  let v2 ← norR addr
  setLastStat v2
  pure (v2 &&& s.nor.pm == d &&& s.nor.pm)

/-- The abort's clean-up: the pair of reset commands (R231). -/
def amdAbort (addr ba : Word) : Op Unit := do
  setPhase .cleanup
  let p ← params
  norCmd ba p.amdReset
  norCmd ba p.amdReset
  raise .programFailure addr

/-- `AmdPoll(addr, d, mode)` (R231); `abort` is none for `noAbort`, `some ba` for `withAbort(ba)`. -/
def amdPoll (addr d : Word) (abort : Option Word) : Nat → Op Unit
  | 0 => keepPolling
  | n + 1 => do
    let s ← get
    let v ← norR addr
    setLastStat v
    if v &&& s.nor.pm = d &&& s.nor.pm then pure ()
    else if v.getLsbD 5 then do
      let ok ← amdReread addr d
      if ok then pure () else raise .timeout addr
    else
      match abort with
      | none => amdPoll addr d abort n
      | some ba =>
        if v.getLsbD s.cfg.params.amdAbortBit then do
          let ok ← amdReread addr d
          if ok then pure () else amdAbort addr ba
        else amdPoll addr d abort n

/-! ## Erase block (R228) -/

/-- One word of the all-ones pass. -/
def verifyErased (ba : Word) (k : Nat) : Op Unit := do
  let s ← get
  let a := ba + BitVec.ofNat 32 (k * s.nor.wb)
  let v ← norR a
  if v ≠ s.nor.ones then
    setRes1 v
    raise .eraseFailure a
  else pure ()

/-- The AMD erase from its poll on. -/
def amdEraseTail (b : BlockInfo) : Op Unit := do
  let s ← get
  amdErasePoll b.base (pollRounds s)
  setPhase .verify
  forUp (verifyErased b.base) 0 (b.size.toNat / s.nor.wb)
  setRes0 b.base
  setRes1 b.size

/-- The AMD erase of a block. -/
def amdErase (b : BlockInfo) : Op Unit := do
  let p ← params
  setPhase .cmd
  prefixedCmd p.amdEraseSetup
  setPhase .confirm
  unlockPrefix
  norCmd b.base p.amdEraseConfirm
  setPhase .poll
  amdEraseTail b

/-- The Intel erase of a block. -/
def intelErase (b : BlockInfo) : Op Unit := do
  let p ← params
  setPhase .cmd
  norCmd b.base p.intelEraseSetup
  setPhase .confirm
  norCmd b.base p.intelConfirm
  intelFinish b.base .eraseFailure
  setRes0 b.base
  setRes1 b.size

/-- `NOR_ERASE_BLOCK` (R228). -/
def norEraseBlockOp : Op Unit := do
  vendorCheckAny
  configCheck
  let s ← get
  let b ← discoverBlockInfo s.opr.a0
  raiseIf (b.size.toNat % s.nor.wb != 0) .badOperand 7
  match s.norId.vendor with
  | .amd => amdErase b
  | .intel => intelErase b
  | .unsupported => raise .unsupportedDevice s.nor.cmdSet

/-! ## Write word (R231) -/

/-- The AMD word write from its poll on. -/
def amdWordTail (addr d : Word) : Op Unit := do
  let s ← get
  amdPoll addr d none (pollRounds s)
  setPhase .verify
  let v ← norR addr
  if v ≠ d then
    setRes1 v
    setRes2 d
    raise .verifyFailure addr
  else pure ()

/-- The AMD word write. -/
def amdWord (addr d : Word) : Op Unit := do
  let p ← params
  setPhase .cmd
  prefixedCmd p.amdProgram
  setPhase .data
  norW addr d
  setPhase .poll
  amdWordTail addr d

/-- The Intel word write; it has no read-back. -/
def intelWord (addr d : Word) : Op Unit := do
  let p ← params
  setPhase .cmd
  norCmd addr p.intelProgram
  setPhase .data
  norW addr d
  intelFinish addr .programFailure

/-- `NOR_WRITE_WORD` (R231): the low Wn bits of A1 are the data. -/
def norWriteWordOp : Op Unit := do
  vendorCheckAny
  configCheck
  let s ← get
  alignCheck s.opr.a0
  rangeCheck s.opr.a0 s.nor.wb
  let d := truncN s.nor.wn s.opr.a1
  match s.norId.vendor with
  | .amd => amdWord s.opr.a0 d
  | .intel => intelWord s.opr.a0 d
  | .unsupported => raise .unsupportedDevice s.nor.cmdSet

/-! ## Write buffer (R236) -/

/-- The address of source word `k` in the buffer (`20_memory.md` R76). -/
def sourceAddr (s : State) (k : Nat) : Word := s.opr.a2 + BitVec.ofNat 32 (k * s.nor.wb)

/-- The address of destination word `k` in the NOR window (`20_memory.md` R76). -/
def destAddr (s : State) (k : Nat) : Word := s.opr.a0 + BitVec.ofNat 32 (k * s.nor.wb)

/-- `N = a[1] / Wb`. -/
def bufferWords (s : State) : Nat := s.opr.a1.toNat / s.nor.wb

/-- `word(k) = MemRead(a[2] + k*Wb, Wb)`. -/
def sourceWord (k : Nat) : Op Word := do
  let s ← get
  memRead .host (sourceAddr s k) s.nor.wb

/-- The length and the data stream: the count minus one in every lane, then the words. -/
def loadBuffer (ba : Word) : Op Unit := do
  let s ← get
  setPhase .addr
  norW ba (s.nor.rep (BitVec.ofNat 8 (bufferWords s - 1)))
  setPhase .data
  transfer 1 (fun k => do
    let v ← sourceWord k
    norW (destAddr s k) v) 0 (bufferWords s)

/-- One word of the verification pass. -/
def verifyWord (k : Nat) : Op Unit := do
  let s ← get
  let v ← norR (destAddr s k)
  let e ← sourceWord k
  if v ≠ e then
    setRes1 v
    setRes2 e
    raise .verifyFailure (BitVec.ofNat 32 (k * s.nor.wb + firstDiffByte v e 0 s.nor.wb))
  else pure ()

/-- The AMD buffer write from its poll on; `d` is the last word. -/
def amdBufferTail (ba d : Word) : Op Unit := do
  let s ← get
  amdPoll (destAddr s (bufferWords s - 1)) d (some ba) (pollRounds s)
  setPhase .verify
  forUp verifyWord 0 (bufferWords s)
  setRes0 s.opr.a1

/-- The AMD buffer write. -/
def amdBuffer (ba : Word) : Op Unit := do
  let s ← get
  let p ← params
  setPhase .cmd
  unlockPrefix
  norCmd ba p.amdWriteBufLoad
  loadBuffer ba
  setPhase .confirm
  norCmd ba p.amdWriteBufConfirm
  setPhase .poll
  let d ← sourceWord (bufferWords s - 1)
  amdBufferTail ba d

/-- The Intel buffer-available poll with `cnt` rounds left: in every round the command is sent again, in
phase CMD, and the status is read, in phase WAIT_STATUS, under which `10_state.md` R26 lists this poll
(log entry 12). -/
def intelBufferAvailable (ba : Word) : Nat → Op Unit
  | 0 => do
    setPollCnt 0
    intelCleanup ba
    raise .timeout ba
  | n + 1 => do
    setPollCnt (n + 1)
    setPhase .cmd
    let p ← params
    norCmd ba p.intelWriteBuf
    setPhase .waitStatus
    let st ← norR ba
    setLastStat st
    if st.getLsbD 7 then pure () else intelBufferAvailable ba n

/-- The Intel buffer write. -/
def intelBuffer (ba : Word) : Op Unit := do
  let s ← get
  let p ← params
  setPhase .cmd
  intelBufferAvailable ba p.intelBufPollLimit.toNat
  loadBuffer ba
  setPhase .confirm
  norCmd ba p.intelConfirm
  intelFinish ba .programFailure
  setRes0 s.opr.a1

/-- `NOR_WRITE_BUFFER` (R236). -/
def norWriteBufferOp : Op Unit := do
  vendorCheckAny
  configCheck
  let s ← get
  alignCheck s.opr.a0
  lenCheck s.opr.a1
  rangeCheck s.opr.a0 s.opr.a1.toNat
  let b ← discoverBlockInfo s.opr.a0
  raiseIf (decide (b.base.toNat + b.size.toNat < s.opr.a0.toNat + s.opr.a1.toNat)) .badOperand 6
  match s.norId.vendor with
  | .amd => amdBuffer b.base
  | .intel => intelBuffer b.base
  | .unsupported => raise .unsupportedDevice s.nor.cmdSet

/-! ## Block locking (R240) -/

/-- The common sequence of the two lock ops; `c` is the second command. -/
def lockSequence (c : Byte) : Op Unit := do
  vendorCheckIntel
  configCheck
  let s ← get
  let p ← params
  let b ← discoverBlockInfo s.opr.a0
  setPhase .cmd
  norCmd b.base p.intelLockSetup
  setPhase .confirm
  norCmd b.base c
  setPhase .cleanup
  norCmd b.base p.intelReadArray
  setRes0 b.base

/-- `NOR_LOCK_SET` (R240). -/
def norLockSetOp : Op Unit := do
  let p ← params
  lockSequence p.intelLockSet

/-- `NOR_LOCK_CLEAR` (R240). -/
def norLockClearOp : Op Unit := do
  let p ← params
  lockSequence p.intelLockClear

/-! ## An AMD poll that goes on (R229) -/

/-- The rest of a block erase that was left polling. -/
def resumeErase : Op Unit := do
  let s ← get
  let b ← discoverBlockInfo s.opr.a0
  amdEraseTail b

/-- The rest of a word write that was left polling. -/
def resumeWord : Op Unit := do
  let s ← get
  amdWordTail s.opr.a0 (truncN s.nor.wn s.opr.a1)

/-- The rest of a buffer write that was left polling; the last word was read before the poll began and
the host may not have changed it since (`70_reset_and_hazards.md` R300). -/
def resumeBuffer : Op Unit := do
  let s ← get
  let b ← discoverBlockInfo s.opr.a0
  amdBufferTail b.base (s.mem.readLE (sourceAddr s (bufferWords s - 1)) s.nor.wb)

/-- The op that is polling: PHASE and OPC say it (`10_state.md` R26, R24). -/
def pollingOp (t : Stat) : Option (Op Unit) :=
  if t.phase = .poll then
    if t.opc = 0x21 then some resumeErase
    else if t.opc = 0x22 then some resumeWord
    else if t.opc = 0x23 then some resumeBuffer
    else none
  else none

def execNorAttach (s : State) : Host.Outcome State Fault Refusal := runOp norAttachOp s

def execNorEraseBlock (s : State) : Host.Outcome State Fault Refusal := runOp norEraseBlockOp s

def execNorWriteWord (s : State) : Host.Outcome State Fault Refusal := runOp norWriteWordOp s

def execNorWriteBuffer (s : State) : Host.Outcome State Fault Refusal := runOp norWriteBufferOp s

def execNorLockSet (s : State) : Host.Outcome State Fault Refusal := runOp norLockSetOp s

def execNorLockClear (s : State) : Host.Outcome State Fault Refusal := runOp norLockClearOp s

def execNorBlockInfo (s : State) : Host.Outcome State Fault Refusal := runOp norBlockInfoOp s

end Sys2Proof.Machine
end

