-- ==== Sys2Proof/Machine/Dispatch.lean ====
section
/-! DEFINITION. The meaning of each op, run from phase CHECK of an accepted command
(`30_encoding.md` R93, R97) to its end. -/

namespace Sys2Proof.Machine

def exec (i : Instr) (s : State) : Host.Outcome State Fault Refusal :=
  match i with
  | .nandInit => Sys2Proof.Machine.execNandInit s
  | .nandReadPage => Sys2Proof.Machine.execNandReadPage s
  | .nandWritePage => Sys2Proof.Machine.execNandWritePage s
  | .nandVerifyPage => Sys2Proof.Machine.execNandVerifyPage s
  | .nandEraseBlocks => Sys2Proof.Machine.execNandEraseBlocks s
  | .nandUnprotect => Sys2Proof.Machine.execNandUnprotect s
  | .nandProtect => Sys2Proof.Machine.execNandProtect s
  | .nandWaitRdy => Sys2Proof.Machine.execNandWaitRdy s
  | .nandWaitStatus => Sys2Proof.Machine.execNandWaitStatus s
  | .eccRestart => Sys2Proof.Machine.execEccRestart s
  | .eccCorrect => Sys2Proof.Machine.execEccCorrect s
  | .norAttach => Sys2Proof.Machine.execNorAttach s
  | .norEraseBlock => Sys2Proof.Machine.execNorEraseBlock s
  | .norWriteWord => Sys2Proof.Machine.execNorWriteWord s
  | .norWriteBuffer => Sys2Proof.Machine.execNorWriteBuffer s
  | .norLockSet => Sys2Proof.Machine.execNorLockSet s
  | .norLockClear => Sys2Proof.Machine.execNorLockClear s
  | .norBlockInfo => Sys2Proof.Machine.execNorBlockInfo s
  | .busCle => Sys2Proof.Machine.execBusCle s
  | .busAle => Sys2Proof.Machine.execBusAle s
  | .busWdata => Sys2Proof.Machine.execBusWdata s
  | .busRdata => Sys2Proof.Machine.execBusRdata s

end Sys2Proof.Machine
end

