-- ==== Sys2Proof/Machine/Sequencer.lean ====
section
/-! DEFINITION. What one step of the machine is: an act of the host while NECC is idle, among them the
issue of a command (`30_encoding.md` R91 to R93), or another round of an AMD poll (`44_nor_ops.md`
R229). -/

namespace Sys2Proof.Machine

/-- The op of an illegal word: the single step `raise IllegalCommand(word)` (`30_encoding.md` R92). -/
def illegalOp (w : Word) : Op Unit := raise .illegalCommand w

/-- A word written to CMD while BUSY = 0 is accepted and its op runs (`30_encoding.md` R91 to R93). -/
def issue (w : Word) (s : State) : Host.Outcome State Fault Refusal :=
  match decode w with
  | .ok i => exec i (accept w s)
  | .error _ => runOp (illegalOp w) (accept w s)

/-- A host write while NECC is idle (`10_state.md` R45); while RESET is asserted it is not accepted
(`70_reset_and_hazards.md` R290). -/
def hostWrite (idx : Nat) (v : Word) (s : State) : Host.Outcome State Fault Refusal :=
  if s.resetLine then .next s
  else if idx = 0 then issue v s
  else .next (writeReg s idx v)

/-- A value the host has read. -/
def answered (a : HostAnswer) (s : State) : State :=
  { s with host := { s.host with answers := a :: s.host.answers } }

/-- An act of the host, or of the RESET input, while NECC is idle. -/
def hostAct (a : HostAct) (s : State) : Host.Outcome State Fault Refusal :=
  match a with
  | .write idx v => hostWrite idx v s
  | .read idx => .next (answered (.reg idx (readReg s idx)) s)
  | .store addr b => .next { s with mem := s.mem.writeByte addr.toNat b }
  | .load addr => .next (answered (.mem addr (s.mem.readByte addr.toNat)) s)
  | .assertReset => .next (resetAsserted s)
  | .releaseReset => .next { s with resetLine := false }

/-- A step while BUSY = 1: the AMD poll under way goes on. -/
def stepBusy (s : State) : Host.Outcome State Fault Refusal :=
  match pollingOp s.stat with
  | some m => continueOp m s
  | none => .fault .strayBusy

/-- A step while BUSY = 0: the next act of the host's script; with none left NECC stays idle
(`10_state.md` R46: "stays there until the host issues the next command"). -/
def stepIdle (s : State) : Host.Outcome State Fault Refusal :=
  match s.host.script with
  | [] => .next s
  | a :: rest => hostAct a { s with host := { s.host with script := rest } }

end Sys2Proof.Machine
end

