-- ==== Sys2Proof/Machine/Step.lean ====
section
/-! DEFINITION. One step of the machine, and how an instruction is placed where the next step takes it
from: NECC fetches nothing (`20_memory.md` R74), so that is a host write to CMD. -/

namespace Sys2Proof.Machine

/-- One step: a running op goes on, or the host acts (`00_scope.md` R19). -/
def step (s : State) : Host.Outcome State Fault Refusal :=
  if s.stat.busy then stepBusy s else stepIdle s

/-- `s`, idle and out of RESET, with a write of the word `w` (its `nbits` low bits) to CMD as the host's
next act (log entry 5). -/
def State.withFetchWord (s : State) (nbits w : Nat) : State :=
  { s with
    stat := { s.stat with busy := false }
    resetLine := false
    host := { s.host with script := .write 0 (BitVec.ofNat 32 (w % 2 ^ nbits)) :: s.host.script } }

end Sys2Proof.Machine
end

