-- ==== Sys2Proof/Safety.lean ====
section
/-! DEFINITION. What claims about runs are stated in: the trace, a quiet environment, and the
invariants every reachable state meets. -/

namespace Sys2Proof.Machine

/-- The trace of the current or last op, oldest event first (`00_scope.md` R16). -/
def State.trace (s : State) : List Event := s.events.reverse

/-- The trace items that are bus cycles or ready samples: host buffer accesses left out (R16: "shown
only where it matters"). -/
def Event.onBus : Event → Bool
  | .mr _ _ _ => false
  | .mw _ _ _ => false
  | _ => true

/-- The bus cycles and ready samples of the trace, oldest first. -/
def State.busTrace (s : State) : List Event := (s.events.filter Event.onBus).reverse

/-- While the next op runs the host does nothing and RESET is not asserted, which
`70_reset_and_hazards.md` R300 asks of the host. -/
def State.Quiet (s : State) : Prop := s.host.busy = []

/-- RESET is not asserted while the next op runs; the host may do what it likes with registers. -/
def State.NoReset (s : State) : Prop := ∀ acts ∈ s.host.busy, BusyAct.assertReset ∉ acts

/-- The act is a register write. -/
def BusyAct.isWrite : BusyAct → Bool
  | .write _ _ => true
  | _ => false

/-- `s` in an environment that does nothing at the next `k` boundaries and asserts RESET at the one after
them (`70_reset_and_hazards.md` R290). -/
def State.resetAt (s : State) (k : Nat) (later : List BusyAct) (rest : List (List BusyAct)) : State :=
  { s with host := { s.host with busy := List.replicate k [] ++ (.assertReset :: later) :: rest } }

/-- `t` is what RESET leaves of a run from `s` that would have led to `u`, if it falls after `sent` events:
the reset state with those events as its trace, the host's later acts passed to its script. -/
def State.CutByReset (s u t : State) (sent : Nat) (later : List BusyAct) (rest : List (List BusyAct)) : Prop :=
  t.resetLine = true ∧ resetAsserted t = t ∧ t.cfg = s.cfg
  ∧ t.events <:+ u.events ∧ t.events.length = s.events.length + sent
  ∧ t.host = { s.host with busy := rest, script := later.map BusyAct.toHost ++ s.host.script }

/-- NECC can take a command: idle and out of RESET (`30_encoding.md` R91). -/
def State.Idle (s : State) : Prop := s.stat.busy = false ∧ s.resetLine = false

/-! ## What the ops send and receive, as lists -/

/-- The bytes of one data cycle, first byte of the stream first (`40_bus_access.md` R115). -/
def cycleBytes (bus16 : Bool) (v : Half) : List Byte :=
  if bus16 then [v.extractLsb' 0 8, v.extractLsb' 8 8] else [v.extractLsb' 0 8]

/-- The byte stream that data cycles carry. -/
def streamBytes (bus16 : Bool) (l : List Half) : List Byte := l.flatMap (cycleBytes bus16)

/-- The data cycles that carry a byte stream; a stream on a 16-bit bus has even length
(`20_memory.md` R65). -/
def byteCycles (bus16 : Bool) : List Byte → List Half
  | [] => []
  | [b] => [b.setWidth 16]
  | b0 :: b1 :: rest =>
    if bus16 then (b1 ++ b0) :: byteCycles bus16 rest
    else b0.setWidth 16 :: byteCycles bus16 (b1 :: rest)

/-- The accumulator after a byte stream (`42_ecc.md` R161). -/
def EccUnit.absorbBytes (e : EccUnit) (l : List Byte) : EccUnit := l.foldl EccUnit.absorb e

/-- The address cycles of a row (`43_nand_page_block.md` R190). -/
def rowEvents (g : Geo) (block page : Word) : List Event :=
  (List.range g.rowB.toNat).map fun k => .ale ((rowByte (rowAddr g block page) k).setWidth 16)

/-- The address cycles of a page (`43_nand_page_block.md` R190). -/
def addrEvents (g : Geo) (block page : Word) : List Event :=
  List.replicate g.colB.toNat (.ale 0) ++ rowEvents g block page

/-- The data write cycles of the trace, oldest first. -/
def State.written (s : State) : List Half :=
  s.trace.filterMap fun e => match e with
    | .dw v => some v
    | _ => none

/-- A byte string with the bit at bit address `a` flipped: byte `a / 8`, bit `a % 8` (`42_ecc.md`
R160, R163). -/
def flipBit (x : List Byte) (a : Nat) : List Byte := x.modify (a / 8) (· ^^^ ((1 : Byte) <<< (a % 8)))

/-- A command cycle. -/
def cleEvent (c : Byte) : Event := .cle (c.setWidth 16)

/-- Data read cycles with these answers. -/
def drEvents (bus16 : Bool) (l : List Half) : List Event := l.map fun v => .dr (truncW bus16 v)

/-- Data write cycles of a byte stream. -/
def dwEvents (bus16 : Bool) (l : List Byte) : List Event := (byteCycles bus16 l).map .dw

/-- Status polls with these answers (`41_nand_discovery_wait.md` R132). -/
def statusEvents (p : Config.Params) (l : List Half) : List Event :=
  l.flatMap fun v => [cleEvent p.cmdStatus, .dr (truncW p.nandBus16 v)]

/-- LASTSTAT after a poll that read these bytes: the last one, if any. -/
def lastStatus (old : Word) (l : List Half) : Word :=
  match l.getLast? with
  | none => old
  | some v => (v.extractLsb' 0 8).setWidth 32

/-- A ready poll that finds the device busy `k` times and then ready. -/
def rdyEvents (k : Nat) : List Event := List.replicate k (.rdy false) ++ [.rdy true]

/-- A status answer shows ready (`41_nand_discovery_wait.md` R132). -/
def statusReady (p : Config.Params) (v : Half) : Prop := v.extractLsb' 0 8 &&& p.stReady ≠ 0

/-- A status answer shows the error bit (`41_nand_discovery_wait.md` R132). -/
def statusFail (p : Config.Params) (v : Half) : Prop := v.extractLsb' 0 8 &&& p.stFail ≠ 0

/-- A store of a replicated command byte (`44_nor_ops.md` R220). -/
def cmdEvent (n : NorCfg) (addr : Word) (c : Byte) : Event := .nw addr (n.rep c)

/-- The AMD unlock pair (`44_nor_ops.md` R228). -/
def prefixEvents (p : Config.Params) (n : NorCfg) : List Event :=
  [cmdEvent n (n.cmdAddr p.norBase p.amdAddr1) p.amdUnlock1,
   cmdEvent n (n.cmdAddr p.norBase p.amdAddr2) p.amdUnlock2]

/-- NOR loads of one address with these answers. -/
def nrEvents (n : NorCfg) (addr : Word) (l : List Word) : List Event := l.map fun v => .nr addr (truncN n.wn v)

/-- A status or data word the chips drive, at the bus width (`44_nor_ops.md` R223). -/
def NorCfg.read (n : NorCfg) (v : Word) : Word := truncN n.wn v

/-- LASTSTAT after a NOR status poll that read these words: the last one, if any. -/
def lastNorStatus (n : NorCfg) (old : Word) (l : List Word) : Word :=
  match l.getLast? with
  | none => old
  | some v => n.read v

/-- NOR loads of consecutive words from `addr` on, with these answers. -/
def nrRun (n : NorCfg) (addr : Word) (l : List Word) : List Event :=
  l.mapIdx fun k v => .nr (addr + BitVec.ofNat 32 (k * n.wb)) (n.read v)

/-- The two commands that end every Intel program or erase (`44_nor_ops.md` R234). -/
def intelCleanupEvents (p : Config.Params) (n : NorCfg) (addr : Word) : List Event :=
  [cmdEvent n addr p.intelClearStatus, cmdEvent n addr p.intelReadArray]

/-- A read that lets the AMD data poll go on: it matches the data in no polled bit set, and shows
neither bit 5 nor, where it is looked at, the abort bit (`44_nor_ops.md` R231). -/
def amdPollsOn (n : NorCfg) (d : Word) (abort : Option Nat) (v : Word) : Prop :=
  n.read v &&& n.pm ≠ d &&& n.pm ∧ (n.read v).getLsbD 5 = false
  ∧ ∀ b, abort = some b → (n.read v).getLsbD b = false

/-- The words of host memory from `base` on, `count` of them, of the NOR width (`20_memory.md` R76). -/
def State.words (s : State) (base : Word) (count : Nat) : List Word :=
  (List.range count).map fun k => s.mem.readLE (base + BitVec.ofNat 32 (k * s.nor.wb)) s.nor.wb

/-- The stores that fill a chip's write buffer: the count less one in every lane, then the words
(`44_nor_ops.md` R236). -/
def loadEvents (n : NorCfg) (ba dst : Word) (words : List Word) : List Event :=
  cmdEvent n ba (BitVec.ofNat 8 (words.length - 1))
    :: words.mapIdx fun k v => .nw (dst + BitVec.ofNat 32 (k * n.wb)) (n.read v)

/-- A read matches the data in the polled bits (`44_nor_ops.md` R231). -/
def pollMatches (n : NorCfg) (d v : Word) : Prop := n.read v &&& n.pm = d &&& n.pm

/-- How an AMD data poll can end (`44_nor_ops.md` R231). -/
inductive PollEnd where
  | matched | timedOut | aborted
deriving DecidableEq, Repr

/-- The answers `reads` end an AMD data poll, and how: reads that let it go on, and then one that matches;
or one that shows bit 5 or, where it is looked at, the abort bit, and a second read that decides
(`44_nor_ops.md` R231). -/
def amdPollEnds (n : NorCfg) (d : Word) (abort : Option Nat) (reads : List Word) : PollEnd → Prop
  | .matched => ∃ polls, (∀ x ∈ polls, amdPollsOn n d abort x)
      ∧ ((∃ v, reads = polls ++ [v] ∧ pollMatches n d v)
        ∨ ∃ v v2, reads = polls ++ [v, v2] ∧ ¬ pollMatches n d v
          ∧ ((n.read v).getLsbD 5 = true ∨ ∃ b, abort = some b ∧ (n.read v).getLsbD b = true)
          ∧ pollMatches n d v2)
  | .timedOut => ∃ polls v v2, (∀ x ∈ polls, amdPollsOn n d abort x) ∧ reads = polls ++ [v, v2]
      ∧ ¬ pollMatches n d v ∧ (n.read v).getLsbD 5 = true ∧ ¬ pollMatches n d v2
  | .aborted => ∃ polls v v2 b, (∀ x ∈ polls, amdPollsOn n d abort x) ∧ reads = polls ++ [v, v2]
      ∧ ¬ pollMatches n d v ∧ (n.read v).getLsbD 5 = false
      ∧ abort = some b ∧ (n.read v).getLsbD b = true ∧ ¬ pollMatches n d v2

/-- The NOR configuration passes `ConfigCheck` (`44_nor_ops.md` R221). -/
def NorCfg.Legal (n : NorCfg) (p : Config.Params) : Prop :=
  (n.chipW = 8 ∨ n.chipW = 16) ∧ (n.totalW = 8 ∨ n.totalW = 16 ∨ n.totalW = 32)
  ∧ n.totalW.toNat % n.chipW.toNat = 0
  ∧ (n.totalW = (if p.norBus16 then 16 else 8) ∨ n.totalW = 2 * (if p.norBus16 then 16 else 8))
  ∧ n.nReg.toNat ≤ 6

/-- `o` is how an AMD word write ends that has sent `sent` and is about to poll, for every end its poll can
have: the read-back decides between success and VerifyFailure, or Timeout (`44_nor_ops.md` R231). -/
def State.AmdWordEnds (s : State) (sent : List Event) (o : Host.Outcome State Fault Refusal) : Prop :=
  ∀ reads rest : List Word,
    let n := s.nor
    let a := s.opr.a0
    let d := n.read s.opr.a1
    let left := fun (more : List Word) =>
      { s with
        res := { s.res with lastStat := lastNorStatus n s.res.lastStat reads }
        dev := { s.dev with nr := rest }
        events := (sent ++ nrEvents n a (reads ++ more)).reverse ++ s.events }
    (amdPollEnds n d none reads .matched → ∀ w, s.dev.nr = reads ++ w :: rest →
      (n.read w = d → o = .next (normalEnd (left [w])))
      ∧ (n.read w ≠ d → o = .next
        (errorEntry .verifyFailure a
          { left [w] with res := { (left [w]).res with res1 := n.read w, res2 := d } })))
    ∧ (amdPollEnds n d none reads .timedOut → s.dev.nr = reads ++ rest →
      o = .next (errorEntry .timeout a (left [])))

/-- The last location of a buffer write (`44_nor_ops.md` R236). -/
def State.bufferLast (s : State) : Word := s.opr.a0 + BitVec.ofNat 32 ((s.opr.a1.toNat / s.nor.wb - 1) * s.nor.wb)

/-- The words of a buffer write (`44_nor_ops.md` R236). -/
def State.bufferData (s : State) : List Word := s.words s.opr.a2 (s.opr.a1.toNat / s.nor.wb)

/-- The word an AMD buffer write polls for (`44_nor_ops.md` R236). -/
def State.bufferPolled (s : State) : Word := s.bufferData.getD (s.opr.a1.toNat / s.nor.wb - 1) 0

/-- `o` is how an AMD buffer write to the block at `ba` ends that has sent `sent` and is about to poll, for
every end its poll can have: the word-by-word verification decides between success and VerifyFailure at
the first byte that differs; or Timeout; or the pair of reset commands and ProgramFailure
(`44_nor_ops.md` R231, R236). -/
def State.AmdBufferEnds (s : State) (ba : Word) (sent : List Event) (o : Host.Outcome State Fault Refusal) : Prop :=
  ∀ reads rest : List Word,
    let n := s.nor
    let words := s.bufferData
    let ends := amdPollEnds n s.bufferPolled (some s.cfg.params.amdAbortBit) reads
    let polled := s.busTrace ++ sent ++ nrEvents n s.bufferLast reads
    let left := fun (t : State) =>
      { s with
        res := { s.res with lastStat := lastNorStatus n s.res.lastStat reads }
        dev := { s.dev with nr := rest }
        loop := t.loop
        events := t.events }
    (ends .matched → ∀ back, (∀ k < back.length, n.read (back.getD k 0) = words.getD k 0) →
      (back.length = words.length → s.dev.nr = reads ++ back ++ rest →
        ∃ t, o = .next t ∧ t.busTrace = polled ++ nrRun n s.opr.a0 back
          ∧ t = normalEnd { left t with res := { (left t).res with res0 := s.opr.a1 } })
      ∧ ∀ w i, back.length < words.length → i < n.wb →
        (∀ j < i, (n.read w).extractLsb' (8 * j) 8 = (words.getD back.length 0).extractLsb' (8 * j) 8) →
        (n.read w).extractLsb' (8 * i) 8 ≠ (words.getD back.length 0).extractLsb' (8 * i) 8 →
        s.dev.nr = reads ++ back ++ w :: rest →
        ∃ t, o = .next t ∧ t.busTrace = polled ++ nrRun n s.opr.a0 (back ++ [w])
          ∧ t = errorEntry .verifyFailure (BitVec.ofNat 32 (back.length * n.wb + i))
            { left t with res := { (left t).res with res1 := n.read w, res2 := words.getD back.length 0 } })
    ∧ (ends .timedOut → s.dev.nr = reads ++ rest →
      ∃ t, o = .next t ∧ t.busTrace = polled ∧ t = errorEntry .timeout s.bufferLast (left t))
    ∧ (ends .aborted → s.dev.nr = reads ++ rest →
      ∃ t, o = .next t
        ∧ t.busTrace = polled ++ [cmdEvent n ba s.cfg.params.amdReset, cmdEvent n ba s.cfg.params.amdReset]
        ∧ t = errorEntry .programFailure s.bufferLast (left t))

/-- The host memory address of byte `j` of a buffer (`20_memory.md` R76). -/
def bufAddr (base : Word) (j : Nat) : Nat := (base + BitVec.ofNat 32 j).toNat

/-- The `n` bytes of host memory from `base` on. -/
def State.buffer (s : State) (base : Word) (n : Nat) : List Byte :=
  (List.range n).map fun j => s.mem.readByte (bufAddr base j)

/-- Piece `i` of a list cut into pieces of `n`. -/
def chunk {α : Type} (n i : Nat) (l : List α) : List α := (l.drop (i * n)).take n

/-- The masked ECC of sub-page `i` of a page's data bytes (`42_ecc.md` R166, R169). -/
def computedEcc (g : Geo) (mask : Word) (data : List Byte) (i : Nat) : Word :=
  eccOfBytes (chunk g.bytesPerOp.toNat i data) &&& mask

/-- The ECC that spare chunk `i` holds (`42_ecc.md` R170, `43_nand_page_block.md` R192). -/
def spareEcc (g : Geo) (mask : Word) (spare : List Byte) (i : Nat) : Word :=
  let c := chunk g.sparePerOp.toNat i spare
  let o := g.eccOff.toNat
  storedEcc mask (c.getD o 0) (c.getD (o + 1) 0) (c.getD (o + 2) 0) (c.getD (o + 3) 0)

/-- What the corrector decides about sub-page `i` (`42_ecc.md` R172). -/
def pageVerdict (g : Geo) (mask : Word) (data spare : List Byte) (i : Nat) : EccVerdict :=
  eccVerdict mask (spareEcc g mask spare i) (computedEcc g mask data i)

/-- Byte `p` of a sub-page after the corrector's decision (`42_ecc.md` R172). -/
def repaired (v : EccVerdict) (p : Nat) (b : Byte) : Byte :=
  match v with
  | .single d => if (d >>> 3).toNat = p then b ^^^ ((1 : Byte) <<< (d &&& 7).toNat) else b
  | _ => b

/-- The data bytes of a page with the sub-pages below `k` repaired. -/
def repairedPage (g : Geo) (mask : Word) (data spare : List Byte) (k : Nat) : List Byte :=
  data.mapIdx fun j b =>
    if j / g.bytesPerOp.toNat < k then
      repaired (pageVerdict g mask data spare (j / g.bytesPerOp.toNat)) (j % g.bytesPerOp.toNat) b
    else b

/-- The correction record of a decision (`10_state.md` R32, `43_nand_page_block.md` R193). -/
def EccVerdict.record : EccVerdict → Word
  | .equal => 0
  | .single d => corrRecord 1 d
  | .uncorrectable => corrRecord 2 0

/-- The decision is a repaired bit. -/
def EccVerdict.isSingle : EccVerdict → Bool
  | .single _ => true
  | _ => false

/-- The slot file whose entries below `k` are `f i` and whose others are 0. -/
def Quad.upTo (k : Nat) (f : Nat → Word) : Quad :=
  ⟨if 0 < k then f 0 else 0, if 1 < k then f 1 else 0, if 2 < k then f 2 else 0, if 3 < k then f 3 else 0⟩

/-- The bus cycles of a page read that finds the device busy `k` times (`43_nand_page_block.md` R193). -/
def readEvents (p : Config.Params) (g : Geo) (block page : Word) (k : Nat) (data spare : List Half) : List Event :=
  [cleEvent p.cmdRead] ++ addrEvents g block page
    ++ (if g.bigBlock then [cleEvent p.cmdReadConfirm] else [])
    ++ rdyEvents k ++ drEvents p.nandBus16 data ++ drEvents p.nandBus16 spare

/-- What a page write sends for the spare area: the chunks of its sub-pages, in order
(`42_ecc.md` R168, `43_nand_page_block.md` R197). -/
def spareOf (g : Geo) (mask : Word) (data : List Byte) : List Byte :=
  (List.range g.numOps.toNat).flatMap fun i =>
    spareChunk g.sparePerOp.toNat g.eccOff.toNat (computedEcc g mask data i)

/-- The bus cycles of a page write up to its confirm (`43_nand_page_block.md` R197). -/
def writeEvents (p : Config.Params) (g : Geo) (block page mask : Word) (data : List Byte) : List Event :=
  [cleEvent p.cmdProgram] ++ addrEvents g block page ++ dwEvents p.nandBus16 data
    ++ dwEvents p.nandBus16 (spareOf g mask data) ++ [cleEvent p.cmdProgramConfirm]

/-- How the device behaves while one block is erased: busy samples, status answers that do not show
ready, and the status answer that does (`43_nand_page_block.md` R204). -/
structure BlockRun where
  busy  : Nat
  polls : List Half
  last  : Half
deriving DecidableEq, Repr

/-- Both polls of the block end within the bound. -/
def BlockRun.InTime (p : Config.Params) (bound : Word) (r : BlockRun) : Prop :=
  r.busy < bound.toNat ∧ r.polls.length < bound.toNat ∧ (∀ x ∈ r.polls, ¬ statusReady p x) ∧ statusReady p r.last

/-- The status answers of the block. -/
def BlockRun.status (r : BlockRun) : List Half := r.polls ++ [r.last]

/-- The cycles that start the erase of a block (`43_nand_page_block.md` R204). -/
def eraseEvents (p : Config.Params) (g : Geo) (block : Word) : List Event :=
  [cleEvent p.cmdErase] ++ rowEvents g block 0 ++ [cleEvent p.cmdEraseConfirm]

/-- The cycles and samples of erasing consecutive blocks from `block` on. -/
def eraseRunEvents (p : Config.Params) (g : Geo) : Word → List BlockRun → List Event
  | _, [] => []
  | block, r :: rs =>
    eraseEvents p g block ++ rdyEvents r.busy ++ statusEvents p r.status ++ eraseRunEvents p g (block + 1) rs

/-- `10_state.md` R36 and the legal values of R33, for a valid geometry and its mask. -/
def Geo.Legal (g : Geo) (mask : Word) : Prop :=
  Config.isPow2 g.ppb = true ∧ Config.isPow2 g.blocks = true
  ∧ g.blkShift.toNat = g.pageShift.toNat + g.ppb.toNat.log2
  ∧ g.pageShift.toNat = 8 * g.colB.toNat
  ∧ g.blkShift.toNat + g.blocks.toNat.log2 ≤ 8 * (g.colB.toNat + g.rowB.toNat)
  ∧ g.pageSz.toNat = g.numOps.toNat * (g.bytesPerOp.toNat + g.sparePerOp.toNat)
  ∧ g.sparePerOp.toNat * 32 = g.bytesPerOp.toNat
  ∧ g.eccOff.toNat + 4 ≤ g.sparePerOp.toNat
  ∧ (mask.extractLsb' 0 16).toNat = 8 * g.bytesPerOp.toNat - 1
  ∧ mask.extractLsb' 16 16 = mask.extractLsb' 0 16
  ∧ (g.bytesPerOp.toNat = 256 ∨ g.bytesPerOp.toNat = 512)
  ∧ (1 ≤ g.numOps.toNat ∧ g.numOps.toNat ≤ 4)
  ∧ (g.colB.toNat = 1 ∨ g.colB.toNat = 2)
  ∧ (1 ≤ g.rowB.toNat ∧ g.rowB.toNat ≤ 4)
  ∧ Config.pageSizes.contains g.pageSz.toNat = true

/-- A page op passes its checks in a quiet environment, and the memories are in canonical form
(`43_nand_page_block.md` R191). -/
def State.PageOpReady (s : State) : Prop :=
  s.Quiet ∧ s.geo.valid = true ∧ s.geo.Legal s.eccu.mask ∧ s.opr.a0 < s.geo.blocks ∧ s.opr.a1 < s.geo.ppb
  ∧ s.mem.wf = true ∧ s.pageBuf.wf = true ∧ s.spareBuf.wf = true

/-! ## Invariants -/

/-- The memories are in canonical form, and host memory has 32-bit addresses (`20_memory.md` R60). -/
def State.MemInv (s : State) : Prop :=
  s.mem.wf = true ∧ s.pageBuf.wf = true ∧ s.spareBuf.wf = true
  ∧ s.mem.below (2 ^ 32) = true

/-- The scratch memories hold no byte outside their 2048 and 16 (`10_state.md` R42). -/
def State.ScratchInv (s : State) : Prop :=
  s.pageBuf.below 2048 = true ∧ s.spareBuf.below 16 = true

/-- The geometry registers: legal when VALID = 1 (R36), and all 0 but for the two id bytes when it is 0
(`41_nand_discovery_wait.md` R136, `10_state.md` R30). -/
def State.GeoInv (s : State) : Prop :=
  (s.geo.valid = true → s.geo.Legal s.eccu.mask ∧ s.geo.bus16 = s.cfg.params.nandBus16
    ∧ s.geo.csOff = s.cfg.params.nandCsOff)
  ∧ (s.geo.valid = false → s.geo = { Geo.zero with mfr := s.geo.mfr, dev := s.geo.dev }
    ∧ s.eccu.mask = 0)

/-- The accumulator: BITPOS a multiple of 8 (`10_state.md` R29), only bits 27:16 and 11:0 of ACC ever
non-zero (`42_ecc.md` R160), both 0 until the first restart sets RUN (R161, R166). -/
def State.EccInv (s : State) : Prop :=
  s.eccu.bitPos.toNat % 8 = 0 ∧ s.eccu.acc &&& 0xF000F000 = 0
  ∧ (s.eccu.run = false → s.eccu.acc = 0 ∧ s.eccu.bitPos = 0)

/-- A correction record has the format of `10_state.md` R32. -/
def CorrLegal (w : Word) : Prop :=
  w &&& 0xFFFCF000 = 0 ∧ corrStatus w ≠ 3 ∧ (corrStatus w ≠ 1 → corrBitAddr w = 0)

/-- The slot files: only ECC bits in `ecc` and `secc` (`42_ecc.md` R160, R170), records in `corr`
(`10_state.md` R31, R32). -/
def State.SlotInv (s : State) : Prop :=
  ∀ i, s.slots.ecc.get i &&& 0xF000F000 = 0 ∧ s.slots.secc.get i &&& 0xF000F000 = 0
    ∧ CorrLegal (s.slots.corr.get i)

/-- STAT between two steps: idle, or an AMD poll under way; ERR and ERRCODE agree, and the reserved
codes never appear (`10_state.md` R25, R26, `60_exceptions.md` R260). -/
def State.StatInv (s : State) : Prop :=
  (s.stat.busy = false → s.stat.phase = .idle)
  ∧ (s.stat.busy = true → s.stat.phase = .poll ∧ s.stat.done = false ∧ s.stat.err = false
      ∧ (s.stat.opc = 0x21 ∨ s.stat.opc = 0x22 ∨ s.stat.opc = 0x23))
  ∧ (s.stat.err = false ↔ s.stat.errCode = 0)
  ∧ (s.stat.err = true → s.stat.done = true)
  ∧ s.stat.errCode.toNat ≤ 15 ∧ s.stat.errCode ≠ 7 ∧ s.stat.errCode ≠ 10 ∧ s.stat.errCode ≠ 11

/-- While RESET is asserted NECC holds the reset state (`70_reset_and_hazards.md` R290). -/
def State.ResetInv (s : State) : Prop := s.resetLine = true → resetAsserted s = s

/-- What every reachable state meets. -/
def State.Inv (s : State) : Prop :=
  s.MemInv ∧ s.ScratchInv ∧ s.GeoInv ∧ s.EccInv ∧ s.SlotInv ∧ s.StatInv ∧ s.ResetInv

/-- A run is safe when no step of it stops the machine: neither a fault nor a refusal. -/
def Continues (o : Host.Outcome State Fault Refusal) : Prop :=
  match o with
  | .next _ => True
  | .fault _ => False
  | .refused _ => False

end Sys2Proof.Machine
end

