-- ==== Sys2Proof/Certificates/Slice0/Obligations.lean ====
section
/-! DEFINITION. The statements for the provers, in the order of the spec: command words, the host's
side, reset, the ECC code, the ops family by family, the errors, and the whole machine. An op's statement
gives the whole next state: every field it does not name is as before. Every free answer of the
environment is a listed answer or universally quantified; no statement rests on a value that only the
model chose. -/

open Sys2Proof Sys2Proof.Machine

/-! ## Command words (`30_encoding.md`) -/

/-- A word selects an op exactly when it is that op's encoding: no word but one selects it, and no bit of
the word is dropped (R90, R92). -/
def Obligations.DecodeIsInverseOfEncode : Prop :=
  ∀ (w : Word) (i : Instr), decode w = .ok i ↔ w = encode i

/-- The words of a few ops of every family, written out from R90 and R95. -/
def Obligations.WrittenWordsDecode : Prop :=
  decode 0x00000001 = .ok .nandInit ∧ decode 0x00000002 = .ok .nandReadPage
  ∧ decode 0x00000005 = .ok .nandEraseBlocks ∧ decode 0x00000009 = .ok .nandWaitStatus
  ∧ decode 0x00000010 = .ok .eccRestart ∧ decode 0x00000011 = .ok .eccCorrect
  ∧ decode 0x00000020 = .ok .norAttach ∧ decode 0x00000023 = .ok .norWriteBuffer
  ∧ decode 0x00000026 = .ok .norBlockInfo ∧ decode 0x00000030 = .ok .busCle
  ∧ decode 0x00000033 = .ok .busRdata

/-- R96: the reserved opcodes and every word with ZERO ≠ 0 are illegal, and an illegal word written to an
idle NECC does what R92 says: it is accepted, raises IllegalCommand with the word in RES0, sends no event
and changes nothing else. -/
def Obligations.IllegalWords : Prop :=
  (∀ w : Word, (∃ e, decode w = .error e) ↔
    (w.extractLsb' 8 24 ≠ 0
      ∨ (let op := (w.extractLsb' 0 8).toNat
         op = 0 ∨ (0x0A ≤ op ∧ op ≤ 0x0F) ∨ (0x12 ≤ op ∧ op ≤ 0x1F) ∨ (0x27 ≤ op ∧ op ≤ 0x2F) ∨ 0x34 ≤ op)))
  ∧ ∀ (s : State) (w : Word) (rest : List HostAct) (e : DecodeError),
      s.Idle → s.Quiet → s.host.script = .write 0 w :: rest → decode w = .error e →
      step s = .next
        { s with
          stat := { s.stat with busy := false, done := true, err := true, corr := false, errCode := 13, phase := .idle, opc := w.extractLsb' 0 8 }
          res := { s.res with res0 := w, res1 := 0, res2 := 0 }
          host := { s.host with script := rest }
          events := [] }

/-- The step of a machine whose host writes an op's word to CMD is that op's meaning, on the state that
acceptance leaves: NECC fetches nothing, the word is taken from the write (R91, `20_memory.md` R74). That the
host's acts stand in a script, one per step, is the model's choice (log entry 5). -/
def Obligations.StepRunsDecodedInstruction : Prop :=
  ∀ (s : State) (w : Word) (rest : List HostAct) (i : Instr),
    s.Idle → s.host.script = .write 0 w :: rest → decode w = .ok i →
    step s = exec i (accept w { s with host := { s.host with script := rest } })

/-- R93: the effects of acceptance, all at once, and what acceptance does not change. -/
def Obligations.Acceptance : Prop :=
  ∀ (w : Word) (s : State),
    (accept w s).stat = { busy := true, done := false, err := false, corr := false, ovr := s.stat.ovr, errCode := 0, phase := .check, opc := w.extractLsb' 0 8 }
    ∧ (accept w s).res = { res0 := 0, res1 := 0, res2 := 0, lastStat := s.res.lastStat }
    ∧ (accept w s).eccu = s.eccu ∧ (accept w s).slots = s.slots ∧ (accept w s).geo = s.geo
    ∧ (accept w s).nor = s.nor ∧ (accept w s).norId = s.norId ∧ (accept w s).opr = s.opr
    ∧ (accept w s).mem = s.mem

/-! ## The host's side (`10_state.md`) -/

/-- A host write while NECC is idle, to any index but CMD: a RW register (R20: 2 to 6 and 48 to 65) holds
all 32 bits of the value afterwards, any other index keeps its value, no other register changes, and
neither does OVR or any other state (R45). The script the act comes from is the model's (log entry 5). -/
def Obligations.HostWriteWhileIdle : Prop :=
  ∀ (s : State) (idx : Nat) (v : Word) (rest : List HostAct),
    s.Idle → s.host.script = .write idx v :: rest → idx ≠ 0 →
    ∃ t, step s = .next t
      ∧ readReg t idx = (if (2 ≤ idx ∧ idx ≤ 6) ∨ (48 ≤ idx ∧ idx ≤ 65) then v else readReg s idx)
      ∧ (∀ j, j ≠ idx → readReg t j = readReg s j)
      ∧ t = { s with opr := t.opr, nor := t.nor, host := { s.host with script := rest } }

/-- A host read returns the current value, at any index and also under RESET, and changes nothing; CMD and
every index that R20 does not list read 0 (R20, R45). The script and the list of answers are the model's (log
entry 5). -/
def Obligations.HostRead : Prop :=
  (∀ (s : State) (idx : Nat) (rest : List HostAct), s.stat.busy = false → s.host.script = .read idx :: rest →
    step s = .next
      { s with host := { s.host with script := rest, answers := .reg idx (readReg s idx) :: s.host.answers } })
  ∧ ∀ (s : State) (idx : Nat),
      (idx = 0 ∨ idx = 14 ∨ idx = 15 ∨ (28 ≤ idx ∧ idx ≤ 31) ∨ idx = 46 ∨ idx = 47 ∨ 70 ≤ idx) →
      readReg s idx = 0

/-- What the host does to registers while an op runs: a write is ignored and sets OVR; a read returns the
value of the moment, in which OVR alone can have changed, by the writes before it; the answers are one for
each read, in order, and nothing else happens (R45). That such acts fall at the boundaries before events is the
model's choice (log entry 6). -/
def Obligations.RegisterAccessWhileBusy : Prop :=
  ∀ (acts : List BusyAct) (s : State), BusyAct.assertReset ∉ acts →
    let ovrAfter := fun (k : Nat) => s.stat.ovr || (acts.take k).any BusyAct.isWrite
    let answers := acts.zipIdx.filterMap fun (act, k) =>
      match act with
      | .read i => some (HostAnswer.reg i (readReg { s with stat := { s.stat with ovr := ovrAfter k } } i))
      | _ => none
    busyActs acts s = .ok ()
      { s with
        stat := { s.stat with ovr := ovrAfter acts.length }
        host := { s.host with answers := answers.reverse ++ s.host.answers } }

/-- Nothing the host does to registers while an op runs disturbs the op: its outcome is that of the same
op in a quiet environment, but for OVR, which is never cleared, and for what the host itself has read
(R45, `30_encoding.md` R91). That such acts fall at the boundaries before events is the model's choice (log
entry 6). -/
def Obligations.HostCannotDisturbAnOp : Prop :=
  ∀ (i : Instr) (s t u : State), s.NoReset →
    exec i s = .next t → exec i { s with host := { s.host with busy := [] } } = .next u →
    t = { u with stat := { u.stat with ovr := t.stat.ovr }, host := t.host }
    ∧ (s.stat.ovr = true → t.stat.ovr = true)

/-- The registers that pack several fields, as the host reads them: the fields of STAT at their bit positions
(R25), with the numbers of the phases (R26) and of the error codes (`60_exceptions.md` R260), of ECCCTL (R29)
and of GEO_FLAGS (R34); and NOR_VENDOR's numbers (R39). -/
def Obligations.RegisterLayouts : Prop :=
  (∀ t : Stat,
    t.word.getLsbD 0 = t.busy ∧ t.word.getLsbD 1 = t.done ∧ t.word.getLsbD 2 = t.err
    ∧ t.word.getLsbD 3 = t.corr ∧ t.word.getLsbD 4 = t.ovr ∧ t.word.extractLsb' 5 3 = 0
    ∧ t.word.extractLsb' 8 8 = t.errCode ∧ t.word.extractLsb' 16 8 = t.phase.code
    ∧ t.word.extractLsb' 24 8 = t.opc)
  ∧ (let phases : List Phase := [.idle, .check, .cmd, .addr, .confirm, .waitRdy, .data, .spare, .ecc, .waitStatus,
      .poll, .verify, .cleanup, .lookup]
    (∀ ph, ph ∈ phases) ∧ phases.map Phase.code = [0, 1, 2, 3, 4, 5, 6, 7, 8, 9, 10, 11, 12, 13])
  ∧ (let kinds : List ErrKind := [.timeout, .eccFailure, .programFailure, .eraseFailure, .verifyFailure, .unknownDevice,
      .cfiNotFound, .unsupportedDevice, .outOfRange, .noSpaceAvailable, .writeFailure, .identifyFailed,
      .illegalCommand, .notInitialised, .badOperand]
    (∀ k, k ∈ kinds) ∧ kinds.map ErrKind.code = [1, 2, 3, 4, 5, 6, 7, 8, 9, 10, 11, 12, 13, 14, 15])
  ∧ ∀ s : State,
    readReg s 1 = s.stat.word
    ∧ (readReg s 13).extractLsb' 0 12 = s.eccu.bitPos ∧ (readReg s 13).extractLsb' 12 19 = 0
    ∧ (readReg s 13).getLsbD 31 = s.eccu.run
    ∧ (readReg s 37).getLsbD 0 = s.geo.valid ∧ (readReg s 37).getLsbD 1 = s.geo.bus16
    ∧ (readReg s 37).getLsbD 2 = s.geo.bigBlock ∧ (readReg s 37).getLsbD 3 = false
    ∧ (readReg s 37).extractLsb' 4 2 = s.geo.csOff ∧ (readReg s 37).extractLsb' 6 26 = 0
    ∧ readReg s 66 = (match s.norId.vendor with | .unsupported => 0 | .amd => 1 | .intel => 2)

/-! ## Reset (`70_reset_and_hazards.md`) -/

/-- R291: after reset every register reads 0, the internal indices are 0, the vendor is Unsupported and
the phase IDLE; and what reset does not affect: the configuration, host memory and the devices. PAGEBUF
and SPAREBUF, which the rule leaves unspecified, are not spoken of. -/
def Obligations.ResetState : Prop :=
  (∀ idx, readReg State.reset idx = 0)
  ∧ State.reset.loop = ⟨0, 0, 0, 0⟩ ∧ State.reset.norId.vendor = .unsupported
  ∧ State.reset.stat.phase = .idle ∧ State.reset.eccu.run = false
  ∧ ∀ s : State,
      (∀ idx, readReg (resetAsserted s) idx = 0)
      ∧ (resetAsserted s).loop = ⟨0, 0, 0, 0⟩ ∧ (resetAsserted s).norId.vendor = .unsupported
      ∧ (resetAsserted s).stat.phase = .idle ∧ (resetAsserted s).eccu.run = false
      ∧ (resetAsserted s).cfg = s.cfg ∧ (resetAsserted s).mem = s.mem ∧ (resetAsserted s).dev = s.dev
      ∧ (resetAsserted s).events = s.events

/-- The RESET input while NECC is idle: asserted, NECC holds the reset state and accepts no host write;
released, it is idle in that state (R290). The script the acts come from is the model's (log entry 5). -/
def Obligations.ResetInput : Prop :=
  (∀ (s : State) (rest : List HostAct), s.stat.busy = false → s.host.script = .assertReset :: rest →
    step s = .next (resetAsserted { s with host := { s.host with script := rest } }))
  ∧ (∀ (s : State) (idx : Nat) (v : Word) (rest : List HostAct),
      s.stat.busy = false → s.resetLine = true → s.host.script = .write idx v :: rest →
      step s = .next { s with host := { s.host with script := rest } })
  ∧ ∀ (s : State) (rest : List HostAct), s.stat.busy = false → s.host.script = .releaseReset :: rest →
      step s = .next { s with resetLine := false, host := { s.host with script := rest } }

/-- RESET asserted at any boundary of a running op ends it at once: the op leaves the reset state, with the
events sent so far as a part of its trace, and host memory, and no error is reported (R290). Said of
every op: either it ran with RESET released throughout, or it left the reset state; and RESET at boundary `k` of
the op (0 right after acceptance, `k` before event `k`), or at a boundary of a step in which an AMD poll goes on,
the only way out of one (R305), ends it there, with exactly the events that come before. What the host was still
to do then passes to its script; where the boundaries lie is the model's choice (log entries 6 and 9). -/
def Obligations.ResetEndsAnOp : Prop :=
  (∀ (i : Instr) (s t : State), s.resetLine = false → exec i s = .next t →
    t.resetLine = false ∨ (t.resetLine = true ∧ resetAsserted t = t ∧ s.events <:+ t.events))
  ∧ (∀ (i : Instr) (s : State) (later : List BusyAct) (rest : List (List BusyAct)),
      s.host.busy = (.assertReset :: later) :: rest →
      exec i s = .next
        (resetAsserted
          { s with host := { s.host with busy := rest, script := later.map BusyAct.toHost ++ s.host.script } }))
  ∧ (∀ (i : Instr) (s u : State) (k : Nat) (later : List BusyAct) (rest : List (List BusyAct)),
      s.Quiet → exec i s = .next u → k ≤ u.events.length - s.events.length →
      ∃ t, exec i (s.resetAt k later rest) = .next t ∧ s.CutByReset u t (k - 1) later rest)
  ∧ ∀ (s u : State) (k : Nat) (later : List BusyAct) (rest : List (List BusyAct)),
      s.Quiet → s.stat.busy = true → step s = .next u → k < u.events.length - s.events.length →
      ∃ t, step (s.resetAt k later rest) = .next t ∧ s.CutByReset u t k later rest

/-! ## The ECC code (`42_ecc.md`) -/

/-- R162: a 16-bit data cycle absorbs its low byte and then its high byte, so the accumulator after a byte
stream does not depend on the bus width that carried it. -/
def Obligations.EccIndependentOfBusWidth : Prop :=
  (∀ (e : EccUnit) (v : Half), e.absorbCycle true v = (e.absorb (v.extractLsb' 0 8)).absorb (v.extractLsb' 8 8))
  ∧ ∀ (e : EccUnit) (l : List Byte), l.length % 2 = 0 →
      (byteCycles true l).foldl (fun e v => e.absorbCycle true v) e
        = (byteCycles false l).foldl (fun e v => e.absorbCycle false v) e

/-- The code is linear, and all-zero data has ECC 0 (R163 (a)). -/
def Obligations.EccIsLinear : Prop :=
  (∀ x y : List Byte, x.length = y.length →
    eccOfBytes (List.zipWith (· ^^^ ·) x y) = eccOfBytes x ^^^ eccOfBytes y)
  ∧ ∀ n : Nat, eccOfBytes (List.replicate n 0) = 0

/-- What flipped data bits do to the ECC of at most 512 bytes (R163 (b), (c), (d)): with the flipped
addresses listed, each once, the ECC changes by the XOR of their contributions, so that the odd half
changes by the XOR of the addresses, and the two halves of the change differ by 0xFFF when their number
is odd and are equal when it is even. -/
def Obligations.EccOfFlippedBits : Prop :=
  ∀ (x : List Byte) (as : List Nat), x.length ≤ 512 → as.Nodup → (∀ a ∈ as, a < 8 * x.length) →
    let change := eccOfBytes x ^^^ eccOfBytes (as.foldl flipBit x)
    change = (as.map fun a => contrib (BitVec.ofNat 12 a)).foldl (· ^^^ ·) 0
    ∧ change.extractLsb' 16 16 = (as.map fun a => BitVec.ofNat 16 a).foldl (· ^^^ ·) 0
    ∧ change.extractLsb' 16 16 ^^^ change.extractLsb' 0 16 = (if as.length % 2 = 1 then 0x0FFF else 0)

/-- R171: the ECC that a write puts in a spare chunk is the ECC that a read recovers from it. -/
def Obligations.SpareChunkRoundTrip : Prop :=
  ∀ (spare off : Nat) (mask e : Word), off + 4 ≤ spare → e &&& mask = e →
    let c := spareChunk spare off e
    storedEcc mask (c.getD off 0) (c.getD (off + 1) 0) (c.getD (off + 2) 0) (c.getD (off + 3) 0) = e

/-- What the corrector decides about a sub-page of 256 or 512 bytes (R174 (a) to (d)): equal when nothing
changed; the flipped bit, whatever it is, when one data bit was flipped; uncorrectable when two were,
or when one bit of the stored ECC was; and the byte it repairs always lies inside the sub-page. -/
def Obligations.CorrectorDecides : Prop :=
  ∀ (x : List Byte) (mask : Word),
    (x.length = 256 ∧ mask = 0x07FF07FF) ∨ (x.length = 512 ∧ mask = 0x0FFF0FFF) →
    let ecc := eccOfBytes x &&& mask
    eccVerdict mask ecc ecc = .equal
    ∧ (∀ a, a < 8 * x.length →
        eccVerdict mask ecc (eccOfBytes (flipBit x a) &&& mask) = .single (BitVec.ofNat 16 a))
    ∧ (∀ a c, a < 8 * x.length → c < 8 * x.length → a ≠ c →
        eccVerdict mask ecc (eccOfBytes (flipBit (flipBit x a) c) &&& mask) = .uncorrectable)
    ∧ (∀ i, mask.getLsbD i = true →
        eccVerdict mask (ecc ^^^ ((1 : Word) <<< i)) ecc = .uncorrectable)
    ∧ ∀ stored computed d, eccVerdict mask (stored &&& mask) (computed &&& mask) = .single d →
        (d >>> 3).toNat < x.length

/-- R166 and R167: ECC_RESTART returns the masked accumulator, clears it and its bit position and starts
it; a second one in a row returns 0; without a valid geometry it raises NotInitialised. -/
def Obligations.EccRestartOp : Prop :=
  ∀ s : State, s.Quiet →
    (s.geo.valid = true →
      ∃ t, exec .eccRestart s = .next t
        ∧ t = { s with
            stat := s.stat.ended
            res := { s.res with res0 := s.eccu.acc &&& s.eccu.mask }
            eccu := { s.eccu with acc := 0, bitPos := 0, run := true } }
        ∧ exec .eccRestart t = .next { t with res := { t.res with res0 := 0 } })
    ∧ (s.geo.valid = false → exec .eccRestart s = .next (errorEntry .notInitialised 0 s))

/-- R176: ECC_CORRECT with a valid geometry: nothing to correct, one bit repaired in place, or
uncorrectable; and without one. What is decided is R172 on the masked operands. That ECC0 and SECC0 are written
as well as CORR0, as R176 and vectors T44 and T45 say, where `10_state.md` R31 speaks of `corr[0]` only, is read from
the spec by inference (log entry 11). -/
def Obligations.EccCorrectOp : Prop :=
  ∀ s : State, s.Quiet →
    let stored := s.opr.a0 &&& s.eccu.mask
    let computed := s.opr.a1 &&& s.eccu.mask
    let x := stored.extractLsb' 16 16 ^^^ stored.extractLsb' 0 16 ^^^ computed.extractLsb' 16 16
      ^^^ computed.extractLsb' 0 16
    let d := stored.extractLsb' 16 16 ^^^ computed.extractLsb' 16 16
    let a := s.opr.a2 + (d >>> 3).setWidth 32
    let old := s.mem.readByte a.toNat
    let new := old ^^^ ((1 : Byte) <<< (d &&& 7).toNat)
    (s.geo.valid = false → exec .eccCorrect s = .next (errorEntry .notInitialised 0 s))
    ∧ (s.geo.valid = true → stored = computed →
        exec .eccCorrect s = .next
          { s with
            stat := s.stat.ended
            res := { s.res with res0 := 0, res1 := 0 }
            slots := { ecc := s.slots.ecc.set 0 computed, secc := s.slots.secc.set 0 stored, corr := s.slots.corr.set 0 0 } })
    ∧ (s.geo.valid = true → stored ≠ computed → x = s.eccu.mask.extractLsb' 0 16 →
        exec .eccCorrect s = .next
          { s with
            stat := { s.stat.ended with corr := true }
            res := { s.res with res0 := 1, res1 := d.setWidth 32 }
            slots := { ecc := s.slots.ecc.set 0 computed, secc := s.slots.secc.set 0 stored, corr := s.slots.corr.set 0 (0x00010000 ||| d.setWidth 32) }
            mem := s.mem.writeByte a.toNat new
            events := .mw a 1 (new.setWidth 32) :: .mr a 1 (old.setWidth 32) :: s.events })
    ∧ (s.geo.valid = true → stored ≠ computed → x ≠ s.eccu.mask.extractLsb' 0 16 →
        exec .eccCorrect s = .next
          { s with
            stat := s.stat.raised .eccFailure
            res := { s.res with res0 := 2, res1 := 0 }
            slots := { ecc := s.slots.ecc.set 0 computed, secc := s.slots.secc.set 0 stored, corr := s.slots.corr.set 0 0x00020000 } })

/-! ## The bus access layer (`40_bus_access.md`) -/

/-- R117 and R118: BUS_CLE and BUS_ALE send one command or address cycle with the low byte of A0, whatever
its upper bits and whatever the bus width; nothing else happens. -/
def Obligations.BusCommandAndAddressCycles : Prop :=
  ∀ s : State, s.Quiet →
    exec .busCle s = .next
      { s with stat := s.stat.ended, events := .cle ((s.opr.a0.extractLsb' 0 8).setWidth 16) :: s.events }
    ∧ exec .busAle s = .next
      { s with stat := s.stat.ended, events := .ale ((s.opr.a0.extractLsb' 0 8).setWidth 16) :: s.events }

/-- R119 and R120: BUS_WDATA sends one data cycle with the low W bits of A0; BUS_RDATA performs one data
read cycle and returns the W bits the device drove; either way the ECC unit absorbs the bytes of the
cycle, low byte first, if it is running. -/
def Obligations.BusDataCycles : Prop :=
  ∀ s : State, s.Quiet →
    (let v := truncW s.cfg.params.nandBus16 (s.opr.a0.extractLsb' 0 16)
     exec .busWdata s = .next
      { s with
        stat := s.stat.ended
        eccu := if s.eccu.run then s.eccu.absorbBytes (cycleBytes s.cfg.params.nandBus16 v) else s.eccu
        events := .dw v :: s.events })
    ∧ ∀ (d : Half) (rest : List Half), s.dev.dr = d :: rest →
        let v := truncW s.cfg.params.nandBus16 d
        exec .busRdata s = .next
          { s with
            stat := s.stat.ended
            res := { s.res with res0 := v.setWidth 32 }
            eccu := if s.eccu.run then s.eccu.absorbBytes (cycleBytes s.cfg.params.nandBus16 v) else s.eccu
            dev := { s.dev with dr := rest }
            events := .dr v :: s.events }

/-! ## Waits and discovery (`41_nand_discovery_wait.md`) -/

/-- R131: NAND_WAIT_RDY succeeds at the first sample that reads ready, if one of the first TIMEOUT samples
does, and raises Timeout after TIMEOUT samples that read busy, at once when TIMEOUT is 0. -/
def Obligations.NandWaitRdyOp : Prop :=
  ∀ (s : State) (rest : List Bool), s.Quiet →
    (∀ k, k < s.opr.timeout.toNat → s.dev.rdy = List.replicate k false ++ true :: rest →
      ∃ l, exec .nandWaitRdy s = .next
        { s with
          stat := s.stat.ended
          dev := { s.dev with rdy := rest }
          loop := l
          events := (rdyEvents k).reverse ++ s.events })
    ∧ (s.dev.rdy = List.replicate s.opr.timeout.toNat false ++ rest →
      ∃ l, exec .nandWaitRdy s = .next
        { s with
          stat := s.stat.raised .timeout
          res := { s.res with res0 := 0 }
          dev := { s.dev with rdy := rest }
          loop := l
          events := List.replicate s.opr.timeout.toNat (.rdy false) ++ s.events })

/-- R133: NAND_WAIT_STATUS polls until the first status byte that shows ready, of at most TIMEOUT; the error
bit of that byte alone decides, and the kind is bit 0 of A0; after TIMEOUT bytes that do not show ready it
raises Timeout, whatever error bits they show, with no cycle at all when TIMEOUT is 0. -/
def Obligations.NandWaitStatusOp : Prop :=
  ∀ (s : State) (polls rest : List Half), s.Quiet → (∀ x ∈ polls, ¬ statusReady s.cfg.params x) →
    (∀ v, polls.length < s.opr.timeout.toNat → s.dev.dr = polls ++ v :: rest → statusReady s.cfg.params v →
      ∃ l,
        let st := (v.extractLsb' 0 8).setWidth 32
        let t := { s with
          res := { s.res with lastStat := st }
          eccu := s.eccu.absorbBytes (streamBytes s.cfg.params.nandBus16 (polls ++ [v]))
          dev := { s.dev with dr := rest }
          loop := l
          events := (statusEvents s.cfg.params (polls ++ [v])).reverse ++ s.events }
        (¬ statusFail s.cfg.params v → exec .nandWaitStatus s = .next { t with stat := s.stat.ended })
        ∧ (statusFail s.cfg.params v → exec .nandWaitStatus s = .next
            { t with
              stat := s.stat.raised (if s.opr.a0.getLsbD 0 then .eraseFailure else .programFailure)
              res := { t.res with res0 := st } }))
    ∧ (polls.length = s.opr.timeout.toNat → s.dev.dr = polls ++ rest →
      ∃ l, exec .nandWaitStatus s = .next
        { s with
          stat := s.stat.raised .timeout
          res := { s.res with res0 := 0, lastStat := lastStatus s.res.lastStat polls }
          eccu := s.eccu.absorbBytes (streamBytes s.cfg.params.nandBus16 polls)
          dev := { s.dev with dr := rest }
          loop := l
          events := (statusEvents s.cfg.params polls).reverse ++ s.events })

/-- R136 and R137: NAND_INIT resets the flash, waits for it, reads the two id bytes and looks the device up;
the first row of the table with its id gives the geometry and VALID = 1. If no row has the id it raises
UnknownDevice and if the flash is not ready in time Timeout, with the geometry cleared but for the id
bytes read. -/
def Obligations.NandInitOp : Prop :=
  ∀ (s : State) (restR : List Bool), s.Quiet →
    let p := s.cfg.params
    (∀ k m d restD, k < s.opr.timeout.toNat → s.dev.rdy = List.replicate k false ++ true :: restR →
      s.dev.dr = m :: d :: restD →
      ∃ l,
        let mb := m.extractLsb' 0 8
        let db := d.extractLsb' 0 8
        let t := { s with
          stat := s.stat.ended
          res := { s.res with res0 := mb.setWidth 32, res1 := db.setWidth 32 }
          eccu := { s.eccu.absorbBytes (streamBytes p.nandBus16 [m, d]) with mask := 0 }
          geo := { Geo.zero with mfr := mb, dev := db }
          dev := { s.dev with rdy := restR, dr := restD }
          loop := l
          events := ([cleEvent p.cmdReset] ++ rdyEvents k ++ [cleEvent p.cmdReadId, .ale (p.rdIdAddr.setWidth 16)]
            ++ drEvents p.nandBus16 [m, d]).reverse ++ s.events }
        (∀ pre row post, p.nandDeviceTable = pre ++ row :: post → (∀ r ∈ pre, r.devId ≠ db) → row.devId = db →
          exec .nandInit s = .next
            { t with
              geo := deriveGeo p row mb db
              eccu := { t.eccu with mask := deriveMask (deriveGeo p row mb db).bytesPerOp } })
        ∧ ((∀ r ∈ p.nandDeviceTable, r.devId ≠ db) →
          exec .nandInit s = .next { t with stat := s.stat.raised .unknownDevice }))
    ∧ (s.dev.rdy = List.replicate s.opr.timeout.toNat false ++ restR →
      ∃ l, exec .nandInit s = .next
        { s with
          stat := s.stat.raised .timeout
          res := { s.res with res0 := 0 }
          eccu := { s.eccu with mask := 0 }
          geo := Geo.zero
          dev := { s.dev with rdy := restR }
          loop := l
          events := List.replicate s.opr.timeout.toNat (.rdy false) ++ cleEvent p.cmdReset :: s.events })

/-- R138 to R143: the geometry derived from a table row that meets R9, field by field, and its mask; the
sub-page split is that of the five supported page sizes. -/
def Obligations.DerivedGeometry : Prop :=
  ∀ (c : Config.Profile) (row : Config.NandRow) (m d : Byte), row ∈ c.params.nandDeviceTable →
    let p := c.params
    let g := deriveGeo p row m d
    let size := row.bytesPerPage.toNat
    let bits := g.blkShift.toNat + row.numBlocks.toNat.log2
    g.valid = true ∧ g.mfr = m ∧ g.dev = d
    ∧ g.blocks = row.numBlocks ∧ g.ppb = row.pagesPerBlock ∧ g.pageSz = row.bytesPerPage
    ∧ g.bus16 = p.nandBus16 ∧ g.csOff = p.nandCsOff ∧ (g.bigBlock = true ↔ p.bigBlockThreshold < size)
    ∧ (g.bigBlock = true ↔ 1056 ≤ size)
    ∧ (g.numOps.toNat, g.bytesPerOp.toNat, g.sparePerOp.toNat)
        = (if size = 264 then (1, 256, 8) else if size = 528 then (1, 512, 16)
           else if size = 1056 then (2, 512, 16) else if size = 1584 then (3, 512, 16) else (4, 512, 16))
    ∧ g.colB.toNat = (if g.bigBlock then 2 else 1)
    ∧ g.pageShift.toNat = 8 * g.colB.toNat
    ∧ g.blkShift.toNat = g.pageShift.toNat + row.pagesPerBlock.toNat.log2
    ∧ g.colB.toNat + g.rowB.toNat = (if bits ≤ 24 then 3 else if bits ≤ 32 then 4 else 5)
    ∧ g.eccOff.toNat = (if g.bigBlock then p.eccOffBig else p.eccOffSmall)
    ∧ deriveMask g.bytesPerOp = (if g.bytesPerOp.toNat = 256 then 0x07FF07FF else 0x0FFF0FFF)
    ∧ g.Legal (deriveMask g.bytesPerOp)

/-! ## NAND page and block ops (`43_nand_page_block.md`) -/

/-- R190: for a legal geometry and an operand pair inside the device, the row is the page's index in the
device and fits the row's address cycles, so no address bit is lost; the cycles carry it least
significant byte first, after GEO_COLB zero bytes. -/
def Obligations.RowAddress : Prop :=
  ∀ (g : Geo) (mask block page : Word), g.Legal mask → block < g.blocks → page < g.ppb →
    let row := rowAddr g block page
    row.toNat = block.toNat * g.ppb.toNat + page.toNat ∧ row.toNat < 2 ^ (8 * g.rowB.toNat)
    ∧ ∀ s : State, s.Quiet → s.geo = g →
        addrCycles block page s = .ok ()
          { s with
            events := (List.replicate g.colB.toNat (Event.ale 0)
              ++ (List.range g.rowB.toNat).map fun k => Event.ale (BitVec.ofNat 16 (row.toNat / 256 ^ k % 256))).reverse
                ++ s.events }

/-- NAND_READ_PAGE once the ready poll has passed, by what the corrector decides about the page's
sub-pages (R193, R196 (e)): it succeeds, with every single-bit error repaired in the buffer, counted in
RES0 and flagged in CORR, unless a sub-page is uncorrectable; then it raises EccFailure for the first
such, with the earlier sub-pages corrected and it and the later ones as read. Host memory outside the
page's buffer is as before. -/
def Obligations.NandReadPageOp : Prop :=
  ∀ (s : State) (k : Nat) (data spare rest : List Half) (restR : List Bool), s.PageOpReady →
    let g := s.geo
    let mask := s.eccu.mask
    let n := g.numOps.toNat
    let len := n * g.bytesPerOp.toNat
    let dataBytes := streamBytes s.cfg.params.nandBus16 data
    let spareBytes := streamBytes s.cfg.params.nandBus16 spare
    let verdict := pageVerdict g mask dataBytes spareBytes
    k < s.opr.timeout.toNat → s.dev.rdy = List.replicate k false ++ true :: restR →
    s.dev.dr = data ++ spare ++ rest → dataBytes.length = len → spareBytes.length = n * g.sparePerOp.toNat →
    let done := fun (t : State) (c : Nat) =>
      t.busTrace = s.busTrace ++ readEvents s.cfg.params g s.opr.a0 s.opr.a1 k data spare
      ∧ t.buffer s.opr.a2 len = repairedPage g mask dataBytes spareBytes c
      ∧ ∀ x, (∀ j < len, bufAddr s.opr.a2 j ≠ x) → t.mem.readByte x = s.mem.readByte x
    let left := fun (t : State) (c checked : Nat) =>
      { s with
        stat := { s.stat with corr := s.stat.corr || (List.range c).any fun i => (verdict i).isSingle }
        eccu := EccUnit.absorbBytes ⟨0, 0, true, mask⟩ spareBytes
        slots := { ecc := Quad.upTo n (computedEcc g mask dataBytes), secc := Quad.upTo n (spareEcc g mask spareBytes), corr := Quad.upTo checked fun i => (verdict i).record }
        dev := { s.dev with rdy := restR, dr := rest }
        mem := t.mem
        spareBuf := t.spareBuf
        loop := t.loop
        events := t.events }
    ((∀ i < n, verdict i ≠ .uncorrectable) →
      ∃ t, exec .nandReadPage s = .next t ∧ done t n
        ∧ t = normalEnd
          { left t n n with
            res := { s.res with res0 := BitVec.ofNat 32 ((List.range n).countP fun i => (verdict i).isSingle) } })
    ∧ ∀ j < n, verdict j = .uncorrectable → (∀ i < j, verdict i ≠ .uncorrectable) →
      ∃ t, exec .nandReadPage s = .next t ∧ done t j
        ∧ t = errorEntry .eccFailure (BitVec.ofNat 32 j) (left t j (j + 1))

/-- NAND_VERIFY_PAGE once the ready poll has passed (R201, R202): it reads the page as NAND_READ_PAGE does, into
PAGEBUF; if a sub-page is uncorrectable it raises EccFailure for the first such, before anything is compared
(`60_exceptions.md` R266 (d)); otherwise it compares the corrected bytes with the host's, succeeds when all agree,
and raises VerifyFailure at the first that differs, with the byte held in RES1 and the byte expected in RES2. Host
memory is never written. -/
def Obligations.NandVerifyPageOp : Prop :=
  ∀ (s : State) (k : Nat) (data spare rest : List Half) (restR : List Bool), s.PageOpReady →
    let g := s.geo
    let mask := s.eccu.mask
    let n := g.numOps.toNat
    let len := n * g.bytesPerOp.toNat
    let dataBytes := streamBytes s.cfg.params.nandBus16 data
    let spareBytes := streamBytes s.cfg.params.nandBus16 spare
    let verdict := pageVerdict g mask dataBytes spareBytes
    let held := repairedPage g mask dataBytes spareBytes n
    let expected := s.buffer s.opr.a2 len
    k < s.opr.timeout.toNat → s.dev.rdy = List.replicate k false ++ true :: restR →
    s.dev.dr = data ++ spare ++ rest → dataBytes.length = len → spareBytes.length = n * g.sparePerOp.toNat →
    let left := fun (t : State) (c checked : Nat) =>
      { s with
        stat := { s.stat with corr := s.stat.corr || (List.range c).any fun i => (verdict i).isSingle }
        eccu := EccUnit.absorbBytes ⟨0, 0, true, mask⟩ spareBytes
        slots := { ecc := Quad.upTo n (computedEcc g mask dataBytes), secc := Quad.upTo n (spareEcc g mask spareBytes), corr := Quad.upTo checked fun i => (verdict i).record }
        dev := { s.dev with rdy := restR, dr := rest }
        pageBuf := t.pageBuf
        spareBuf := t.spareBuf
        loop := t.loop
        events := t.events }
    let done := fun (t : State) =>
      exec .nandVerifyPage s = .next t
      ∧ t.busTrace = s.busTrace ++ readEvents s.cfg.params g s.opr.a0 s.opr.a1 k data spare
    ((∀ i < n, verdict i ≠ .uncorrectable) →
      (held = expected →
        ∃ t, done t ∧ t = normalEnd
          { left t n n with
            res := { s.res with res0 := BitVec.ofNat 32 ((List.range n).countP fun i => (verdict i).isSingle) } })
      ∧ ∀ j < len, (∀ i < j, held.getD i 0 = expected.getD i 0) → held.getD j 0 ≠ expected.getD j 0 →
        ∃ t, done t ∧ t = errorEntry .verifyFailure (BitVec.ofNat 32 j)
          { left t n n with
            res := { s.res with res1 := (held.getD j 0).setWidth 32, res2 := (expected.getD j 0).setWidth 32 } })
    ∧ ∀ j < n, verdict j = .uncorrectable → (∀ i < j, verdict i ≠ .uncorrectable) →
      ∃ t, done t ∧ t = errorEntry .eccFailure (BitVec.ofNat 32 j) (left t j (j + 1))

/-- A page read or verify whose ready poll runs out: Timeout after the command and address cycles, no data
cycle, the buffer untouched, the slot registers cleared (R193, R196 (b)). -/
def Obligations.NandPageReadTimesOut : Prop :=
  ∀ (s : State) (restR : List Bool) (i : Instr), s.PageOpReady → i = .nandReadPage ∨ i = .nandVerifyPage →
    s.dev.rdy = List.replicate s.opr.timeout.toNat false ++ restR →
    ∃ l, exec i s = .next
      (errorEntry .timeout 0
        { s with
          slots := ⟨Quad.zero, Quad.zero, Quad.zero⟩
          dev := { s.dev with rdy := restR }
          loop := l
          events := List.replicate s.opr.timeout.toNat (Event.rdy false)
            ++ ([cleEvent s.cfg.params.cmdRead] ++ addrEvents s.geo s.opr.a0 s.opr.a1
              ++ (if s.geo.bigBlock then [cleEvent s.cfg.params.cmdReadConfirm] else [])).reverse ++ s.events })

/-- NAND_WRITE_PAGE with its operands in range: it sends the page's bytes, the spare area generated from
the ECC of each sub-page, and the confirm; then the two polls decide between success, ProgramFailure and
Timeout (R197, R198 (d)). Host memory is never written. -/
def Obligations.NandWritePageOp : Prop :=
  ∀ (s : State) (restR : List Bool) (restD : List Half), s.PageOpReady →
    let g := s.geo
    let p := s.cfg.params
    let mask := s.eccu.mask
    let n := g.numOps.toNat
    let data := s.buffer s.opr.a2 (n * g.bytesPerOp.toNat)
    let sent := writeEvents p g s.opr.a0 s.opr.a1 mask data
    let left := fun (t : State) (status : List Half) =>
      { s with
        res := { s.res with lastStat := lastStatus s.res.lastStat status }
        eccu := EccUnit.absorbBytes ⟨0, 0, true, mask⟩ (spareOf g mask data ++ streamBytes p.nandBus16 status)
        slots := { ecc := Quad.upTo n (computedEcc g mask data), secc := Quad.zero, corr := Quad.zero }
        loop := t.loop
        events := t.events }
    (∀ r : BlockRun, r.InTime p s.opr.timeout → s.dev.rdy = List.replicate r.busy false ++ true :: restR →
      s.dev.dr = r.status ++ restD →
      ∃ t, exec .nandWritePage s = .next t
        ∧ t.busTrace = s.busTrace ++ sent ++ rdyEvents r.busy ++ statusEvents p r.status
        ∧ let u := { left t r.status with dev := { s.dev with rdy := restR, dr := restD } }
          (¬ statusFail p r.last → t = normalEnd u)
          ∧ (statusFail p r.last → t = errorEntry .programFailure ((r.last.extractLsb' 0 8).setWidth 32) u))
    ∧ (s.dev.rdy = List.replicate s.opr.timeout.toNat false ++ restR →
      ∃ t, exec .nandWritePage s = .next t
        ∧ t.busTrace = s.busTrace ++ sent ++ List.replicate s.opr.timeout.toNat (Event.rdy false)
        ∧ t = errorEntry .timeout 0 { left t [] with dev := { s.dev with rdy := restR } })
    ∧ ∀ (k : Nat) (polls : List Half), k < s.opr.timeout.toNat → polls.length = s.opr.timeout.toNat →
      s.dev.rdy = List.replicate k false ++ true :: restR → s.dev.dr = polls ++ restD →
      (∀ x ∈ polls, ¬ statusReady p x) →
      ∃ t, exec .nandWritePage s = .next t
        ∧ t.busTrace = s.busTrace ++ sent ++ rdyEvents k ++ statusEvents p polls
        ∧ t = errorEntry .timeout 0 { left t polls with dev := { s.dev with rdy := restR, dr := restD } }

/-- R199: a page written and read back. The device answers the read's data and spare cycles with the
bytes the write sent: the read succeeds, the buffer holds the written bytes, nothing was corrected. With
one data bit different it still succeeds and the buffer holds the written bytes, one correction counted
and flagged. With two bits of one sub-page different it ends with EccFailure. -/
def Obligations.WrittenPageReadsBack : Prop :=
  ∀ (s t u : State) (k : Nat) (answers rest : List Half) (restR : List Bool),
    s.PageOpReady → s.events = [] → exec .nandWritePage s = .next t →
    u.PageOpReady → u.cfg = s.cfg → u.geo = s.geo → u.eccu.mask = s.eccu.mask →
    u.opr.a0 = s.opr.a0 → u.opr.a1 = s.opr.a1 → u.stat.corr = false →
    k < u.opr.timeout.toNat → u.dev.rdy = List.replicate k false ++ true :: restR →
    u.dev.dr = answers ++ rest → answers.length = t.written.length →
    let len := s.geo.numOps.toNat * s.geo.bytesPerOp.toNat
    let sent := streamBytes s.cfg.params.nandBus16 t.written
    let got := streamBytes s.cfg.params.nandBus16 answers
    ∃ v, exec .nandReadPage u = .next v
      ∧ (got = sent →
          v.stat = u.stat.ended ∧ v.res.res0 = 0 ∧ v.slots.ecc = v.slots.secc ∧ v.slots.corr = Quad.zero
          ∧ v.buffer u.opr.a2 len = s.buffer s.opr.a2 len)
      ∧ (∀ a < 8 * len, got = flipBit sent a →
          v.stat = { u.stat.ended with corr := true } ∧ v.res.res0 = 1
          ∧ v.buffer u.opr.a2 len = s.buffer s.opr.a2 len)
      ∧ ∀ a < 8 * len, ∀ c < 8 * len, a ≠ c →
          a / (8 * s.geo.bytesPerOp.toNat) = c / (8 * s.geo.bytesPerOp.toNat) →
          got = flipBit (flipBit sent a) c →
          v.stat = u.stat.raised .eccFailure
          ∧ v.res.res0 = BitVec.ofNat 32 (a / (8 * s.geo.bytesPerOp.toNat))

/-- NAND_ERASE_BLOCKS over a range inside the device, every block erased in time (R204, R205): the blocks
are erased one after the other, RES0 is the count and RES1 is 0; a count of 0 sends nothing. -/
def Obligations.NandEraseBlocksOp : Prop :=
  ∀ (s : State) (runs : List BlockRun) (restR : List Bool) (restD : List Half), s.Quiet → s.geo.valid = true →
    s.opr.a0.toNat + s.opr.a1.toNat ≤ s.geo.blocks.toNat → runs.length = s.opr.a1.toNat →
    (∀ r ∈ runs, r.InTime s.cfg.params s.opr.timeout ∧ ¬ statusFail s.cfg.params r.last) →
    s.dev.rdy = (runs.flatMap fun r => List.replicate r.busy false ++ [true]) ++ restR →
    s.dev.dr = runs.flatMap BlockRun.status ++ restD →
    ∃ l, exec .nandEraseBlocks s = .next
      { s with
        stat := s.stat.ended
        res := { s.res with res0 := s.opr.a1, res1 := 0, lastStat := lastStatus s.res.lastStat (runs.flatMap BlockRun.status) }
        eccu := s.eccu.absorbBytes (streamBytes s.cfg.params.nandBus16 (runs.flatMap BlockRun.status))
        dev := { s.dev with rdy := restR, dr := restD }
        loop := l
        events := (eraseRunEvents s.cfg.params s.geo s.opr.a0 runs).reverse ++ s.events }

/-- NAND_ERASE_BLOCKS stops at the first block that fails (R204): the blocks before it have been erased,
RES1 is the block, RES0 the status byte for EraseFailure and 0 for a time-out of either poll; no later
block is touched. -/
def Obligations.NandEraseBlocksStops : Prop :=
  ∀ (s : State) (runs : List BlockRun) (restR : List Bool) (restD : List Half), s.Quiet → s.geo.valid = true →
    s.opr.a0.toNat + s.opr.a1.toNat ≤ s.geo.blocks.toNat → runs.length < s.opr.a1.toNat →
    (∀ r ∈ runs, r.InTime s.cfg.params s.opr.timeout ∧ ¬ statusFail s.cfg.params r.last) →
    let p := s.cfg.params
    let block := s.opr.a0 + BitVec.ofNat 32 runs.length
    let rdyBefore := runs.flatMap fun r => List.replicate r.busy false ++ [true]
    let drBefore := runs.flatMap BlockRun.status
    let left := fun (l : LoopRegs) (status : List Half) (ev : List Event) =>
      { s with
        res := { s.res with res1 := block, lastStat := lastStatus s.res.lastStat (drBefore ++ status) }
        eccu := s.eccu.absorbBytes (streamBytes p.nandBus16 (drBefore ++ status))
        dev := { s.dev with rdy := restR, dr := restD }
        loop := l
        events := (eraseRunEvents p s.geo s.opr.a0 runs ++ eraseEvents p s.geo block ++ ev).reverse ++ s.events }
    (∀ r : BlockRun, r.InTime p s.opr.timeout → statusFail p r.last →
      s.dev.rdy = rdyBefore ++ List.replicate r.busy false ++ true :: restR →
      s.dev.dr = drBefore ++ r.status ++ restD →
      ∃ l, exec .nandEraseBlocks s = .next
        (errorEntry .eraseFailure ((r.last.extractLsb' 0 8).setWidth 32)
          (left l r.status (rdyEvents r.busy ++ statusEvents p r.status))))
    ∧ (s.dev.rdy = rdyBefore ++ List.replicate s.opr.timeout.toNat false ++ restR →
      s.dev.dr = drBefore ++ restD →
      ∃ l, exec .nandEraseBlocks s = .next
        (errorEntry .timeout 0 (left l [] (List.replicate s.opr.timeout.toNat (Event.rdy false)))))
    ∧ ∀ (k : Nat) (polls : List Half), k < s.opr.timeout.toNat → polls.length = s.opr.timeout.toNat →
      (∀ x ∈ polls, ¬ statusReady p x) →
      s.dev.rdy = rdyBefore ++ List.replicate k false ++ true :: restR → s.dev.dr = drBefore ++ polls ++ restD →
      ∃ l, exec .nandEraseBlocks s = .next
        (errorEntry .timeout 0 (left l polls (rdyEvents k ++ statusEvents p polls)))

/-- R206 and R207: NAND_UNPROTECT sends the two bounds of the block span, each a command and its row, and
nothing when the count is 0; NAND_PROTECT sends one command; neither polls or reads anything. Their
checks: a valid geometry, and for NAND_UNPROTECT a range inside the device by an exact sum. -/
def Obligations.NandProtectionOps : Prop :=
  ∀ s : State, s.Quiet →
    (s.geo.valid = false →
      exec .nandProtect s = .next (errorEntry .notInitialised 0 s)
      ∧ exec .nandUnprotect s = .next (errorEntry .notInitialised 0 s))
    ∧ (s.geo.valid = true →
      exec .nandProtect s = .next
        { s with stat := s.stat.ended, events := cleEvent s.cfg.params.cmdLock :: s.events }
      ∧ (s.geo.blocks.toNat < s.opr.a0.toNat + s.opr.a1.toNat →
          exec .nandUnprotect s = .next
            (errorEntry .outOfRange s.opr.a0 { s with res := { s.res with res1 := s.opr.a1 } }))
      ∧ (s.opr.a0.toNat + s.opr.a1.toNat ≤ s.geo.blocks.toNat → s.opr.a1 = 0 →
          exec .nandUnprotect s = .next { s with stat := s.stat.ended })
      ∧ (s.opr.a0.toNat + s.opr.a1.toNat ≤ s.geo.blocks.toNat → s.opr.a1 ≠ 0 →
          exec .nandUnprotect s = .next
            { s with
              stat := s.stat.ended
              events := ([cleEvent s.cfg.params.cmdUnlockLo] ++ rowEvents s.geo s.opr.a0 0
                ++ [cleEvent s.cfg.params.cmdUnlockHi] ++ rowEvents s.geo (s.opr.a0 + s.opr.a1 - 1) 0).reverse
                  ++ s.events }))

/-! ## NOR ops (`44_nor_ops.md`) -/

/-- R224: DiscoverBlockInfo and NOR_BLOCK_INFO. An address inside the device and inside region `r` of the
table gives the region's block size, the block that holds the address, which begins a whole number of
blocks into the region, and `r`; an address outside the device, or beyond the last region, raises
OutOfRange; an illegal configuration raises BadOperand. No event is sent. That no vendor is needed, as R224 and
vector T4 say, where `10_state.md` R39 speaks of every NOR op, is read from the spec by inference (log entry 14). -/
def Obligations.NorBlockInfoOp : Prop :=
  ∀ s : State, s.Quiet →
    let base := s.cfg.params.norBase.toNat
    let addr := s.opr.a0.toNat
    let regions := s.nor.regions.toList.take s.nor.nReg.toNat
    let extent := fun (l : List Region) => (l.map fun g => g.cnt.toNat * g.size.toNat).sum
    (∀ n, configReason s.cfg.params s.nor = some n →
      exec .norBlockInfo s = .next (errorEntry .badOperand n s))
    ∧ (s.nor.Legal s.cfg.params → (addr < base ∨ base + s.nor.size.toNat ≤ addr ∨ base + extent regions ≤ addr) →
      exec .norBlockInfo s = .next (errorEntry .outOfRange s.opr.a0 s))
    ∧ ∀ (pre post : List Region) (g : Region), s.nor.Legal s.cfg.params → regions = pre ++ g :: post →
      base ≤ addr → addr < base + s.nor.size.toNat →
      base + extent pre ≤ addr → addr < base + extent pre + g.cnt.toNat * g.size.toNat →
      ∃ block : Word,
        block.toNat ≤ addr ∧ addr < block.toNat + g.size.toNat
        ∧ (∃ k, block.toNat = base + extent pre + k * g.size.toNat)
        ∧ exec .norBlockInfo s = .next
          { s with
            stat := s.stat.ended
            res := { s.res with res0 := g.size, res1 := block, res2 := BitVec.ofNat 32 pre.length } }

/-- NOR_ATTACH with an AMD command set (R225, R226): the autoselect sequence, three id reads, the return to
read mode; the vendor and the ids are recorded; an unknown manufacturer is flagged by IdentifyFailed and
changes nothing else. -/
def Obligations.NorAttachAmd : Prop :=
  ∀ (s : State) (m d1 d2 : Word) (rest : List Word), s.Quiet → s.nor.Legal s.cfg.params →
    s.nor.cmdSet = 1 ∨ s.nor.cmdSet = 2 → s.dev.nr = m :: d1 :: d2 :: rest →
    let p := s.cfg.params
    let n := s.nor
    let ca := n.cmdAddr p.norBase
    let mfr := (n.lane0 (n.read m)) &&& 0xFF
    let t := { s with
      norId := { vendor := .amd, mfr := mfr, dev1 := n.lane0 (n.read d1), dev2 := n.lane0 (n.read d2) }
      res := { s.res with res0 := mfr, res1 := n.lane0 (n.read d1), res2 := n.lane0 (n.read d2) }
      dev := { s.dev with nr := rest }
      events := (prefixEvents p n ++ [cmdEvent n (ca p.amdAddr1) p.amdAutoselect, .nr (ca 0) (n.read m),
        .nr (ca 1) (n.read d1), .nr (ca 2) (n.read d2), cmdEvent n p.norBase p.amdReset]).reverse ++ s.events }
    (p.norKnownMfrs.contains (m.extractLsb' 0 8) = true → exec .norAttach s = .next { t with stat := s.stat.ended })
    ∧ (p.norKnownMfrs.contains (m.extractLsb' 0 8) = false →
      exec .norAttach s = .next { t with stat := s.stat.raised .identifyFailed })

/-- NOR_ATTACH with an Intel command set (R225, R227), and with one that selects no vendor: the vendor is
Unsupported, the ids are cleared, nothing is sent and UnsupportedDevice is raised. -/
def Obligations.NorAttachIntelOrNone : Prop :=
  ∀ s : State, s.Quiet → s.nor.Legal s.cfg.params →
    let p := s.cfg.params
    let n := s.nor
    let ca := n.cmdAddr p.norBase
    (∀ (m d1 : Word) (rest : List Word), s.nor.cmdSet = 3 ∨ s.nor.cmdSet = 4 → s.dev.nr = m :: d1 :: rest →
      let mfr := (n.lane0 (n.read m)) &&& 0xFF
      let t := { s with
        norId := { vendor := .intel, mfr := mfr, dev1 := n.lane0 (n.read d1), dev2 := 0 }
        res := { s.res with res0 := mfr, res1 := n.lane0 (n.read d1), res2 := 0 }
        dev := { s.dev with nr := rest }
        events := [cmdEvent n p.norBase p.intelReadId, .nr (ca 0) (n.read m), .nr (ca 1) (n.read d1),
          cmdEvent n p.norBase p.intelReadArray].reverse ++ s.events }
      (p.norKnownMfrs.contains (m.extractLsb' 0 8) = true → exec .norAttach s = .next { t with stat := s.stat.ended })
      ∧ (p.norKnownMfrs.contains (m.extractLsb' 0 8) = false →
        exec .norAttach s = .next { t with stat := s.stat.raised .identifyFailed }))
    ∧ (s.nor.cmdSet = 0 ∨ 5 ≤ s.nor.cmdSet.toNat →
      exec .norAttach s = .next
        (errorEntry .unsupportedDevice s.nor.cmdSet
          { s with norId := { vendor := .unsupported, mfr := 0, dev1 := 0, dev2 := 0 } }))

/-- NOR_ERASE_BLOCK on an AMD chip whose poll ends (R228): the two command sequences, the poll of bit 7 at
the block address, the all-ones pass over the block; it succeeds, or raises EraseFailure at the first word
that does not read all ones, with its value in RES1. -/
def Obligations.NorEraseBlockAmd : Prop :=
  ∀ (s : State) (b : BlockInfo) (polls ones rest : List Word) (v : Word), s.Quiet → s.norId.vendor = .amd →
    s.nor.Legal s.cfg.params → blockInfo s.cfg.params s.nor s.opr.a0 = some b → b.size.toNat % s.nor.wb = 0 →
    (∀ x ∈ polls, (s.nor.read x).getLsbD 7 = false) → (s.nor.read v).getLsbD 7 = true →
    (∀ x ∈ ones, s.nor.read x = s.nor.ones) →
    let p := s.cfg.params
    let n := s.nor
    let sent := prefixEvents p n ++ [cmdEvent n (n.cmdAddr p.norBase p.amdAddr1) p.amdEraseSetup]
      ++ prefixEvents p n ++ [cmdEvent n b.base p.amdEraseConfirm] ++ nrEvents n b.base (polls ++ [v])
    (ones.length = b.size.toNat / n.wb → s.dev.nr = polls ++ v :: ones ++ rest →
      exec .norEraseBlock s = .next
        { s with
          stat := s.stat.ended
          res := { s.res with res0 := b.base, res1 := b.size, lastStat := n.read v }
          dev := { s.dev with nr := rest }
          events := (sent ++ nrRun n b.base ones).reverse ++ s.events })
    ∧ ∀ w, ones.length < b.size.toNat / n.wb → n.read w ≠ n.ones → s.dev.nr = polls ++ v :: ones ++ w :: rest →
      exec .norEraseBlock s = .next
        (errorEntry .eraseFailure (b.base + BitVec.ofNat 32 (ones.length * n.wb))
          { s with
            res := { s.res with res1 := n.read w, lastStat := n.read v }
            dev := { s.dev with nr := rest }
            events := (sent ++ nrRun n b.base (ones ++ [w])).reverse ++ s.events })

/-- NOR_ERASE_BLOCK on an Intel chip (R228, R234): the two commands, the bounded spin on bit 7, the two
clean-up commands on every path; then success, EraseFailure for any of the status bits 3, 4 and 5, or
Timeout with the block address. -/
def Obligations.NorEraseBlockIntel : Prop :=
  ∀ (s : State) (b : BlockInfo) (polls rest : List Word), s.Quiet → s.norId.vendor = .intel →
    s.nor.Legal s.cfg.params → blockInfo s.cfg.params s.nor s.opr.a0 = some b → b.size.toNat % s.nor.wb = 0 →
    (∀ x ∈ polls, (s.nor.read x).getLsbD 7 = false) →
    let p := s.cfg.params
    let n := s.nor
    let sent := [cmdEvent n b.base p.intelEraseSetup, cmdEvent n b.base p.intelConfirm]
    (∀ v, polls.length < s.opr.timeout.toNat → (n.read v).getLsbD 7 = true → s.dev.nr = polls ++ v :: rest →
      ∃ l,
        let t := { s with
          res := { s.res with lastStat := n.read v }
          dev := { s.dev with nr := rest }
          loop := l
          events := (sent ++ nrEvents n b.base (polls ++ [v]) ++ intelCleanupEvents p n b.base).reverse ++ s.events }
        (n.read v &&& 0x38 = 0 → exec .norEraseBlock s = .next
          { t with stat := s.stat.ended, res := { t.res with res0 := b.base, res1 := b.size } })
        ∧ (n.read v &&& 0x38 ≠ 0 → exec .norEraseBlock s = .next (errorEntry .eraseFailure (n.read v) t)))
    ∧ (polls.length = s.opr.timeout.toNat → s.dev.nr = polls ++ rest →
      ∃ l, exec .norEraseBlock s = .next
        (errorEntry .timeout b.base
          { s with
            res := { s.res with lastStat := lastNorStatus n s.res.lastStat polls }
            dev := { s.dev with nr := rest }
            loop := l
            events := (sent ++ nrEvents n b.base polls ++ intelCleanupEvents p n b.base).reverse ++ s.events }))

/-- NOR_WRITE_WORD on an AMD chip (R231, R232), for every way its poll can end: with a read that matches the
data in the polled bits, or with bit 5 and a second read that does, and then the final read-back that
decides between success and VerifyFailure; or with bit 5 and a second read that does not match, which is
Timeout with the address. -/
def Obligations.NorWriteWordAmd : Prop :=
  ∀ (s : State) (polls rest : List Word), s.Quiet → s.norId.vendor = .amd → s.nor.Legal s.cfg.params →
    misaligned s.nor s.opr.a0 = false → norOutOfRange s.cfg.params s.nor s.opr.a0 s.nor.wb = false →
    let p := s.cfg.params
    let n := s.nor
    let a := s.opr.a0
    let d := n.read s.opr.a1
    (∀ x ∈ polls, amdPollsOn n d none x) →
    let sent := prefixEvents p n ++ [cmdEvent n (n.cmdAddr p.norBase p.amdAddr1) p.amdProgram, .nw a d]
    let left := fun (reads : List Word) (last : Word) =>
      { s with
        res := { s.res with lastStat := n.read last }
        dev := { s.dev with nr := rest }
        events := (sent ++ nrEvents n a reads).reverse ++ s.events }
    let verified := fun (reads : List Word) (last w : Word) =>
      (n.read w = d → exec .norWriteWord s = .next { left (reads ++ [w]) last with stat := s.stat.ended })
      ∧ (n.read w ≠ d → exec .norWriteWord s = .next
        (errorEntry .verifyFailure a
          { left (reads ++ [w]) last with
            res := { s.res with res1 := n.read w, res2 := d, lastStat := n.read last } }))
    (∀ v w, n.read v &&& n.pm = d &&& n.pm → s.dev.nr = polls ++ v :: w :: rest → verified (polls ++ [v]) v w)
    ∧ (∀ v v2 w, n.read v &&& n.pm ≠ d &&& n.pm → (n.read v).getLsbD 5 = true → n.read v2 &&& n.pm = d &&& n.pm →
        s.dev.nr = polls ++ v :: v2 :: w :: rest → verified (polls ++ [v, v2]) v2 w)
    ∧ ∀ v v2, n.read v &&& n.pm ≠ d &&& n.pm → (n.read v).getLsbD 5 = true → n.read v2 &&& n.pm ≠ d &&& n.pm →
        s.dev.nr = polls ++ v :: v2 :: rest →
        exec .norWriteWord s = .next (errorEntry .timeout a (left (polls ++ [v, v2]) v2))

/-- NOR_WRITE_WORD on an Intel chip (R231, R234): the command, the data, the spin and the clean-up; no
read-back. -/
def Obligations.NorWriteWordIntel : Prop :=
  ∀ (s : State) (polls rest : List Word), s.Quiet → s.norId.vendor = .intel → s.nor.Legal s.cfg.params →
    misaligned s.nor s.opr.a0 = false → norOutOfRange s.cfg.params s.nor s.opr.a0 s.nor.wb = false →
    (∀ x ∈ polls, (s.nor.read x).getLsbD 7 = false) →
    let p := s.cfg.params
    let n := s.nor
    let a := s.opr.a0
    let sent := [cmdEvent n a p.intelProgram, .nw a (n.read s.opr.a1)]
    (∀ v, polls.length < s.opr.timeout.toNat → (n.read v).getLsbD 7 = true → s.dev.nr = polls ++ v :: rest →
      ∃ l,
        let t := { s with
          res := { s.res with lastStat := n.read v }
          dev := { s.dev with nr := rest }
          loop := l
          events := (sent ++ nrEvents n a (polls ++ [v]) ++ intelCleanupEvents p n a).reverse ++ s.events }
        (n.read v &&& 0x38 = 0 → exec .norWriteWord s = .next { t with stat := s.stat.ended })
        ∧ (n.read v &&& 0x38 ≠ 0 → exec .norWriteWord s = .next (errorEntry .programFailure (n.read v) t)))
    ∧ (polls.length = s.opr.timeout.toNat → s.dev.nr = polls ++ rest →
      ∃ l, exec .norWriteWord s = .next
        (errorEntry .timeout a
          { s with
            res := { s.res with lastStat := lastNorStatus n s.res.lastStat polls }
            dev := { s.dev with nr := rest }
            loop := l
            events := (sent ++ nrEvents n a polls ++ intelCleanupEvents p n a).reverse ++ s.events }))

/-- NOR_WRITE_BUFFER on an AMD chip (R236): unlock, load, count, the words of host memory, confirm, the poll
at the last location; then, for every way the poll can end (R231: a read that matches, at once or after bit 5 or
the abort bit; bit 5 and a second read that does not match; the abort bit and one that does not), what
`State.AmdBufferEnds` says: the word-by-word verification with success or VerifyFailure at the first byte that
differs; Timeout; or the pair of reset commands and ProgramFailure, with the last address. -/
def Obligations.NorWriteBufferAmd : Prop :=
  ∀ (s : State) (b : BlockInfo), s.Quiet → s.norId.vendor = .amd →
    s.nor.Legal s.cfg.params → misaligned s.nor s.opr.a0 = false → badLength s.nor s.opr.a1 = false →
    norOutOfRange s.cfg.params s.nor s.opr.a0 s.opr.a1.toNat = false →
    blockInfo s.cfg.params s.nor s.opr.a0 = some b →
    s.opr.a0.toNat + s.opr.a1.toNat ≤ b.base.toNat + b.size.toNat →
    let p := s.cfg.params
    let n := s.nor
    let sent := prefixEvents p n ++ [cmdEvent n b.base p.amdWriteBufLoad] ++ loadEvents n b.base s.opr.a0 s.bufferData
      ++ [cmdEvent n b.base p.amdWriteBufConfirm]
    s.AmdBufferEnds b.base sent (exec .norWriteBuffer s)

/-- NOR_WRITE_BUFFER on an Intel chip (R236, R234): the availability poll, which sends its command again in
every round, the count and the words, the confirm, and the common end, with success, ProgramFailure, or Timeout
when the status spin runs out; and the time-out of the availability poll; each after the clean-up commands. -/
def Obligations.NorWriteBufferIntel : Prop :=
  ∀ (s : State) (b : BlockInfo) (busy polls rest : List Word), s.Quiet → s.norId.vendor = .intel →
    s.nor.Legal s.cfg.params → misaligned s.nor s.opr.a0 = false → badLength s.nor s.opr.a1 = false →
    norOutOfRange s.cfg.params s.nor s.opr.a0 s.opr.a1.toNat = false →
    blockInfo s.cfg.params s.nor s.opr.a0 = some b →
    s.opr.a0.toNat + s.opr.a1.toNat ≤ b.base.toNat + b.size.toNat →
    (∀ x ∈ busy, (s.nor.read x).getLsbD 7 = false) → (∀ x ∈ polls, (s.nor.read x).getLsbD 7 = false) →
    let p := s.cfg.params
    let n := s.nor
    let words := s.words s.opr.a2 (s.opr.a1.toNat / n.wb)
    let asked := fun (l : List Word) => l.flatMap fun x => [cmdEvent n b.base p.intelWriteBuf, Event.nr b.base (n.read x)]
    (∀ a v, busy.length < p.intelBufPollLimit.toNat → (n.read a).getLsbD 7 = true →
      polls.length < s.opr.timeout.toNat → (n.read v).getLsbD 7 = true →
      s.dev.nr = busy ++ a :: polls ++ v :: rest →
      ∃ t, exec .norWriteBuffer s = .next t
        ∧ t.busTrace = s.busTrace ++ asked (busy ++ [a]) ++ loadEvents n b.base s.opr.a0 words
          ++ [cmdEvent n b.base p.intelConfirm] ++ nrEvents n b.base (polls ++ [v]) ++ intelCleanupEvents p n b.base
        ∧ let u := { s with
            res := { s.res with lastStat := n.read v }
            dev := { s.dev with nr := rest }
            loop := t.loop
            events := t.events }
          (n.read v &&& 0x38 = 0 → t = normalEnd { u with res := { u.res with res0 := s.opr.a1 } })
          ∧ (n.read v &&& 0x38 ≠ 0 → t = errorEntry .programFailure (n.read v) u))
    ∧ (∀ a, busy.length < p.intelBufPollLimit.toNat → (n.read a).getLsbD 7 = true →
      polls.length = s.opr.timeout.toNat → s.dev.nr = busy ++ a :: polls ++ rest →
      ∃ t, exec .norWriteBuffer s = .next t
        ∧ t.busTrace = s.busTrace ++ asked (busy ++ [a]) ++ loadEvents n b.base s.opr.a0 words
          ++ [cmdEvent n b.base p.intelConfirm] ++ nrEvents n b.base polls ++ intelCleanupEvents p n b.base
        ∧ t = errorEntry .timeout b.base
          { s with
            res := { s.res with lastStat := lastNorStatus n s.res.lastStat (a :: polls) }
            dev := { s.dev with nr := rest }
            loop := t.loop
            events := t.events })
    ∧ (busy.length = p.intelBufPollLimit.toNat → s.dev.nr = busy ++ rest →
      ∃ t, exec .norWriteBuffer s = .next t
        ∧ t.busTrace = s.busTrace ++ asked busy ++ intelCleanupEvents p n b.base
        ∧ t = errorEntry .timeout b.base
          { s with
            res := { s.res with lastStat := lastNorStatus n s.res.lastStat busy }
            dev := { s.dev with nr := rest }
            loop := t.loop
            events := t.events })

/-- R240 and R241: the lock ops, an Intel capability: the set-up command, the lock or unlock command, the return
to read-array mode, all at the block's base address, which RES0 receives. -/
def Obligations.NorLockOps : Prop :=
  ∀ (s : State) (b : BlockInfo), s.Quiet → s.nor.Legal s.cfg.params → s.norId.vendor = .intel →
    blockInfo s.cfg.params s.nor s.opr.a0 = some b →
    let p := s.cfg.params
    let n := s.nor
    let left := fun (c : Byte) =>
      { s with
        stat := s.stat.ended
        res := { s.res with res0 := b.base }
        events := [cmdEvent n b.base p.intelLockSetup, cmdEvent n b.base c, cmdEvent n b.base p.intelReadArray].reverse
          ++ s.events }
    exec .norLockSet s = .next (left p.intelLockSet) ∧ exec .norLockClear s = .next (left p.intelLockClear)

/-- An Intel erase, word write or buffer write that has passed its checks ends, whatever the chip answers, with
the two clean-up commands as its last bus events, so that the chip is left in read-array mode (R234). -/
def Obligations.IntelCleanupOnEveryPath : Prop :=
  ∀ (s t : State) (i : Instr), s.Quiet → s.norId.vendor = .intel →
    i = .norEraseBlock ∨ i = .norWriteWord ∨ i = .norWriteBuffer → exec i s = .next t →
    t.events = s.events
    ∨ ∃ (a : Word) (ev : List Event), t.events = (intelCleanupEvents s.cfg.params s.nor a).reverse ++ ev ++ s.events

/-- The AMD polls are unbounded (R229), those of the erase (R228), of the word write (R231) and of the buffer write
(R236): as long as the chip's answers do not end the poll, whatever TIMEOUT is, the op neither ends nor raises
anything: BUSY stays 1, DONE stays as acceptance left it, PHASE is POLL; and the steps that follow go on polling
in the same way. How many reads one step makes (as many as answers are listed) is the model's choice (log
entry 9). -/
def Obligations.AmdPollIsUnbounded : Prop :=
  ∀ (s : State) (polls : List Word), s.Quiet → polls ≠ [] → s.dev.nr = polls →
    let p := s.cfg.params
    let n := s.nor
    let a := s.opr.a0
    let eraseGoesOn := ∀ x ∈ polls, (n.read x).getLsbD 7 = false
    let wordGoesOn := ∀ x ∈ polls, amdPollsOn n (n.read s.opr.a1) none x
    let bufferGoesOn := ∀ x ∈ polls, amdPollsOn n s.bufferPolled (some p.amdAbortBit) x
    let status := lastNorStatus n s.res.lastStat polls
    let leftPolling := fun (i : Instr) =>
      ∃ t, exec i s = .next t ∧ t.stat = { s.stat with phase := .poll }
        ∧ t.dev = { s.dev with nr := [] } ∧ t.res = { s.res with lastStat := status }
    let goesOn := fun (addr : Word) =>
      step s = .next
        { s with
          res := { s.res with lastStat := status }
          dev := { s.dev with nr := [] }
          events := (nrEvents n addr polls).reverse ++ s.events }
    (s.norId.vendor = .amd → n.Legal p →
      (∀ b, blockInfo p n a = some b → b.size.toNat % n.wb = 0 → eraseGoesOn → leftPolling .norEraseBlock)
      ∧ (misaligned n a = false → norOutOfRange p n a n.wb = false → wordGoesOn → leftPolling .norWriteWord)
      ∧ ∀ b, misaligned n a = false → badLength n s.opr.a1 = false → norOutOfRange p n a s.opr.a1.toNat = false →
        blockInfo p n a = some b → a.toNat + s.opr.a1.toNat ≤ b.base.toNat + b.size.toNat →
        bufferGoesOn → leftPolling .norWriteBuffer)
    ∧ (s.stat.busy = true → s.stat.phase = .poll →
      (∀ b, s.stat.opc = 0x21 → blockInfo p n a = some b → eraseGoesOn → goesOn b.base)
      ∧ (s.stat.opc = 0x22 → wordGoesOn → goesOn a)
      ∧ ∀ b, s.stat.opc = 0x23 → blockInfo p n a = some b → badLength n s.opr.a1 = false → bufferGoesOn →
        goesOn s.bufferLast)

/-- A poll that a step left unfinished goes on to the same end: with the answers that end it listed, the next
step finishes the erase as R228 says, the word write as R231 says and the buffer write as R236 says, and the op's
trace is that of one uninterrupted op. That an unfinished poll is split into steps is the model's choice (log
entry 9). -/
def Obligations.AmdPollGoesOnToItsEnd : Prop :=
  ∀ s : State, s.Quiet → s.stat.busy = true → s.stat.phase = .poll →
    let n := s.nor
    (∀ (b : BlockInfo) (polls ones rest : List Word) (v : Word), s.stat.opc = 0x21 →
      blockInfo s.cfg.params n s.opr.a0 = some b →
      (∀ x ∈ polls, (n.read x).getLsbD 7 = false) → (n.read v).getLsbD 7 = true → (∀ x ∈ ones, n.read x = n.ones) →
      let left := fun (more : List Word) =>
        { s with
          res := { s.res with lastStat := n.read v }
          dev := { s.dev with nr := rest }
          events := (nrEvents n b.base (polls ++ [v]) ++ nrRun n b.base (ones ++ more)).reverse ++ s.events }
      (ones.length = b.size.toNat / n.wb → s.dev.nr = polls ++ v :: ones ++ rest →
        step s = .next (normalEnd { left [] with res := { (left []).res with res0 := b.base, res1 := b.size } }))
      ∧ ∀ w, ones.length < b.size.toNat / n.wb → n.read w ≠ n.ones → s.dev.nr = polls ++ v :: ones ++ w :: rest →
        step s = .next
          (errorEntry .eraseFailure (b.base + BitVec.ofNat 32 (ones.length * n.wb))
            { left [w] with res := { (left [w]).res with res1 := n.read w } }))
    ∧ (s.stat.opc = 0x22 → s.AmdWordEnds [] (step s))
    ∧ ∀ b : BlockInfo, s.stat.opc = 0x23 → n.Legal s.cfg.params → badLength n s.opr.a1 = false →
      blockInfo s.cfg.params n s.opr.a0 = some b → s.AmdBufferEnds b.base [] (step s)

/-! ## The checks, in their order (`43_nand_page_block.md` R191, R204, `44_nor_ops.md` R221) -/

/-- The checks of the page and erase ops, in their order and before any event: NotInitialised, then
OutOfRange with the operands recorded; nothing else changes, the slot registers included
(R191, R204, R266 (a)). -/
def Obligations.PageAndEraseChecks : Prop :=
  ∀ (s : State) (i : Instr), s.Quiet →
    i = .nandReadPage ∨ i = .nandWritePage ∨ i = .nandVerifyPage ∨ i = .nandEraseBlocks →
    (s.geo.valid = false → exec i s = .next (errorEntry .notInitialised 0 s))
    ∧ (s.geo.valid = true →
      (if i = .nandEraseBlocks then s.geo.blocks.toNat < s.opr.a0.toNat + s.opr.a1.toNat
        else s.geo.blocks ≤ s.opr.a0 ∨ s.geo.ppb ≤ s.opr.a1) →
      exec i s = .next (errorEntry .outOfRange s.opr.a0 { s with res := { s.res with res1 := s.opr.a1 } }))

/-- The vendor and configuration checks of the NOR ops, in their order and before any event: an op that the
vendor lacks raises UnsupportedDevice with the command-set id; then an illegal chip width, combined width or
region count raises BadOperand 1, 2 or 3, and nothing else changes, the vendor included (R221, R225). NOR_ATTACH
(R225) and NOR_BLOCK_INFO (R224) make the configuration check alone; that NOR_BLOCK_INFO needs no vendor is read
from the spec by inference (log entry 14). -/
def Obligations.NorVendorAndConfigChecks : Prop :=
  ∀ (s : State) (i : Instr), s.Quiet →
    let isLock := i = .norLockSet ∨ i = .norLockClear
    let needsVendor := i = .norEraseBlock ∨ i = .norWriteWord ∨ i = .norWriteBuffer ∨ isLock
    needsVendor ∨ i = .norAttach ∨ i = .norBlockInfo →
    let lacks := (needsVendor ∧ s.norId.vendor = .unsupported) ∨ (isLock ∧ s.norId.vendor ≠ .intel)
    let n := s.nor
    let busW : Word := if s.cfg.params.norBus16 then 16 else 8
    let chipOk := n.chipW = 8 ∨ n.chipW = 16
    let totalOk := (n.totalW = 8 ∨ n.totalW = 16 ∨ n.totalW = 32) ∧ n.totalW.toNat % n.chipW.toNat = 0
      ∧ (n.totalW = busW ∨ n.totalW = 2 * busW)
    (lacks → exec i s = .next (errorEntry .unsupportedDevice n.cmdSet s))
    ∧ (¬ lacks → ¬ chipOk → exec i s = .next (errorEntry .badOperand 1 s))
    ∧ (¬ lacks → chipOk → ¬ totalOk → exec i s = .next (errorEntry .badOperand 2 s))
    ∧ (¬ lacks → chipOk → totalOk → 6 < n.nReg.toNat → exec i s = .next (errorEntry .badOperand 3 s))

/-- The operand checks of the NOR ops, in their order and before any event: a misaligned address is
BadOperand 4, a bad length 5, an address or range outside the device OutOfRange, a buffer that crosses its
block's end 6, a block size that is no whole number of words 7 (R221, R228, R231, R236, R240). -/
def Obligations.NorOperandChecks : Prop :=
  ∀ s : State, s.Quiet → s.norId.vendor ≠ .unsupported → s.nor.Legal s.cfg.params →
    let n := s.nor
    let p := s.cfg.params
    let a := s.opr.a0
    let len := s.opr.a1.toNat
    let aligned := a.toNat % n.wb = 0
    let lenOk := len ≠ 0 ∧ len % n.wb = 0 ∧ len ≤ n.bufSz.toNat ∧ len ≤ 256 * n.wb
    let inside := fun (k : Nat) => p.norBase.toNat ≤ a.toNat ∧ a.toNat - p.norBase.toNat + k ≤ n.size.toNat
    let bad := fun (i : Instr) (r : Word) => exec i s = .next (errorEntry .badOperand r s)
    let out := fun (i : Instr) => exec i s = .next (errorEntry .outOfRange a s)
    (¬ aligned → bad .norWriteWord 4 ∧ bad .norWriteBuffer 4)
    ∧ (aligned → ¬ inside n.wb → out .norWriteWord)
    ∧ (aligned → ¬ lenOk → bad .norWriteBuffer 5)
    ∧ (aligned → lenOk → ¬ inside len → out .norWriteBuffer)
    ∧ (blockInfo p n a = none →
        out .norEraseBlock ∧ (aligned → lenOk → out .norWriteBuffer)
        ∧ (s.norId.vendor = .intel → out .norLockSet ∧ out .norLockClear))
    ∧ ∀ b, blockInfo p n a = some b →
        (b.size.toNat % n.wb ≠ 0 → bad .norEraseBlock 7)
        ∧ (aligned → lenOk → inside len → b.base.toNat + b.size.toNat < a.toNat + len → bad .norWriteBuffer 6)

/-! ## The whole machine -/

/-- R60: an access of 1, 2 or 4 bytes is little-endian at any address, wraps at the end of the address
space, and writes the bytes it names and no other; the canonical form of the memory is kept. -/
def Obligations.BufferMemory : Prop :=
  ∀ (m : Memory) (a v : Word) (n : Nat), m.wf = true → n = 1 ∨ n = 2 ∨ n = 4 →
    (∀ k < n, (m.readLE a n).extractLsb' (8 * k) 8 = m.readByte (a + BitVec.ofNat 32 k).toNat)
    ∧ (∀ k < n, (m.writeLE a n v).readByte (a + BitVec.ofNat 32 k).toNat = v.extractLsb' (8 * k) 8)
    ∧ (∀ x, (∀ k < n, (a + BitVec.ofNat 32 k).toNat ≠ x) → (m.writeLE a n v).readByte x = m.readByte x)
    ∧ (m.writeLE a n v).wf = true
    ∧ (m.writeLE a n v).readLE a n = truncN (8 * n) v

/-- Who writes what, over all ops (R21, R30, R35, R39, R28, R45): no op writes an operand register, TIMEOUT,
the NOR configuration or a strap; only NAND_INIT writes the geometry and ECCMASK; only NOR_ATTACH the vendor
and the ids; OVR is never cleared; CORR is set only by the two page reads and ECC_CORRECT; nothing already
sent is taken back. Said of every outcome, success or error. -/
def Obligations.WhoWritesWhat : Prop :=
  ∀ (i : Instr) (s t : State), s.NoReset → exec i s = .next t →
    t.opr = s.opr ∧ t.nor = s.nor ∧ t.cfg = s.cfg ∧ t.resetLine = s.resetLine ∧ t.stat.opc = s.stat.opc
    ∧ (i ≠ .nandInit → t.geo = s.geo ∧ t.eccu.mask = s.eccu.mask)
    ∧ (i ≠ .norAttach → t.norId = s.norId)
    ∧ (s.stat.ovr = true → t.stat.ovr = true)
    ∧ (i ≠ .nandReadPage → i ≠ .nandVerifyPage → i ≠ .eccCorrect → t.stat.corr = s.stat.corr)
    ∧ (i ≠ .nandWaitStatus → i ≠ .nandWritePage → i ≠ .nandEraseBlocks → i ≠ .norEraseBlock → i ≠ .norWriteWord →
        i ≠ .norWriteBuffer → t.res.lastStat = s.res.lastStat)
    ∧ (s.eccu.run = true → t.eccu.run = true)
    ∧ s.events <:+ t.events

/-- Host memory is written by NAND_READ_PAGE, inside its buffer, and by ECC_CORRECT, one byte inside its
sub-page, and by no other op, whatever the devices answer (R61). -/
def Obligations.WhoWritesHostMemory : Prop :=
  ∀ (i : Instr) (s t : State), s.GeoInv → s.NoReset → exec i s = .next t →
    (i ≠ .nandReadPage → i ≠ .eccCorrect → t.mem = s.mem)
    ∧ (i = .nandReadPage → ∀ x,
        (∀ j < s.geo.numOps.toNat * s.geo.bytesPerOp.toNat, bufAddr s.opr.a2 j ≠ x) →
        t.mem.readByte x = s.mem.readByte x)
    ∧ (i = .eccCorrect → ∃ j < 512, ∀ x, bufAddr s.opr.a2 j ≠ x → t.mem.readByte x = s.mem.readByte x)
    ∧ (i = .eccCorrect → ∀ x, (∀ j < s.geo.bytesPerOp.toNat, bufAddr s.opr.a2 j ≠ x) →
        t.mem.readByte x = s.mem.readByte x)

/-- The NOR ops touch no NAND state: not the geometry, the ECC unit, the ECC slots, the scratch memories, nor
host memory; and they take no answer of the NAND device (R240 to R242). The NAND, ECC and bus ops take no
answer of the NOR device. -/
def Obligations.NandAndNorStateAreApart : Prop :=
  ∀ (i : Instr) (s t : State), s.NoReset → exec i s = .next t →
    let isNor := i = .norAttach ∨ i = .norEraseBlock ∨ i = .norWriteWord ∨ i = .norWriteBuffer ∨ i = .norLockSet
      ∨ i = .norLockClear ∨ i = .norBlockInfo
    (isNor → t.geo = s.geo ∧ t.eccu = s.eccu ∧ t.slots = s.slots ∧ t.pageBuf = s.pageBuf
      ∧ t.spareBuf = s.spareBuf ∧ t.mem = s.mem ∧ t.dev.dr = s.dev.dr ∧ t.dev.rdy = s.dev.rdy)
    ∧ (¬ isNor → t.dev.nr = s.dev.nr)

/-- Every op ends, whatever the devices answer, with BUSY 0, DONE 1, PHASE IDLE, an error exactly when ERR
says so; the one exception is an AMD poll, which leaves the op running in phase POLL (R264, R265, R270); in
steps as log entry 9 says. And every op answers: none stops the machine. -/
def Obligations.EveryOpEnds : Prop :=
  ∀ (i : Instr) (s : State), s.NoReset → s.stat.err = false → s.stat.errCode = 0 →
    ∃ t, exec i s = .next t
      ∧ ((t.stat.busy = false ∧ t.stat.done = true ∧ t.stat.phase = .idle ∧ (t.stat.err = true ↔ t.stat.errCode ≠ 0))
        ∨ (s.norId.vendor = .amd ∧ (i = .norEraseBlock ∨ i = .norWriteWord ∨ i = .norWriteBuffer)
          ∧ t.stat.busy = s.stat.busy ∧ t.stat.done = s.stat.done ∧ t.stat.err = false ∧ t.stat.phase = .poll))

/-- The state right after reset meets the invariant. That host memory, PAGEBUF and SPAREBUF list nothing there is
the model's choice (log entries 3 and 4). -/
def Obligations.InvAtReset : Prop := State.reset.Inv

/-- Every step keeps STAT consistent: idle, or an AMD poll under way; ERR and ERRCODE agree; the reserved codes
7, 10 and 11 never appear (R25, R26, R260). -/
def Obligations.StatStaysConsistent : Prop :=
  ∀ s t : State, s.StatInv → step s = .next t → t.StatInv

/-- Every step, an op of any kind with any answers or an act of the host or of RESET, keeps the whole invariant:
canonical memories of the right size, a legal or cleared geometry, the accumulator's and the slots' formats,
a consistent STAT, the reset state while RESET is asserted. -/
def Obligations.InvKept : Prop :=
  ∀ s t : State, s.Inv → step s = .next t → t.Inv

/-- From a state that meets the invariant a step never stops the machine: neither a fault nor a refusal (R61,
R267: every access succeeds, every error leaves NECC ready). -/
def Obligations.NothingStopsTheMachine : Prop :=
  ∀ s : State, s.Inv → Continues (step s)
end

