-- ==== Sys2Proof/Laws/State.lean ====
section
/-! SUPPORT. One lemma per field for each named change of the state, so that no later proof unfolds a
record update. -/

namespace Sys2Proof.Machine

@[simp] theorem errorEntry_cfg (k : ErrKind) (info : Word) (s : State) : (errorEntry k info s).cfg = s.cfg := rfl
@[simp] theorem errorEntry_stat (k : ErrKind) (info : Word) (s : State) : (errorEntry k info s).stat = s.stat.raised k := rfl
@[simp] theorem errorEntry_opr (k : ErrKind) (info : Word) (s : State) : (errorEntry k info s).opr = s.opr := rfl
@[simp] theorem errorEntry_res (k : ErrKind) (info : Word) (s : State) : (errorEntry k info s).res = { s.res with res0 := info } := rfl
@[simp] theorem errorEntry_eccu (k : ErrKind) (info : Word) (s : State) : (errorEntry k info s).eccu = s.eccu := rfl
@[simp] theorem errorEntry_slots (k : ErrKind) (info : Word) (s : State) : (errorEntry k info s).slots = s.slots := rfl
@[simp] theorem errorEntry_geo (k : ErrKind) (info : Word) (s : State) : (errorEntry k info s).geo = s.geo := rfl
@[simp] theorem errorEntry_nor (k : ErrKind) (info : Word) (s : State) : (errorEntry k info s).nor = s.nor := rfl
@[simp] theorem errorEntry_norId (k : ErrKind) (info : Word) (s : State) : (errorEntry k info s).norId = s.norId := rfl
@[simp] theorem errorEntry_loop (k : ErrKind) (info : Word) (s : State) : (errorEntry k info s).loop = s.loop := rfl
@[simp] theorem errorEntry_pageBuf (k : ErrKind) (info : Word) (s : State) : (errorEntry k info s).pageBuf = s.pageBuf := rfl
@[simp] theorem errorEntry_spareBuf (k : ErrKind) (info : Word) (s : State) : (errorEntry k info s).spareBuf = s.spareBuf := rfl
@[simp] theorem errorEntry_mem (k : ErrKind) (info : Word) (s : State) : (errorEntry k info s).mem = s.mem := rfl
@[simp] theorem errorEntry_resetLine (k : ErrKind) (info : Word) (s : State) : (errorEntry k info s).resetLine = s.resetLine := rfl
@[simp] theorem errorEntry_dev (k : ErrKind) (info : Word) (s : State) : (errorEntry k info s).dev = s.dev := rfl
@[simp] theorem errorEntry_host (k : ErrKind) (info : Word) (s : State) : (errorEntry k info s).host = s.host := rfl
@[simp] theorem errorEntry_events (k : ErrKind) (info : Word) (s : State) : (errorEntry k info s).events = s.events := rfl

@[simp] theorem normalEnd_cfg (s : State) : (normalEnd s).cfg = s.cfg := rfl
@[simp] theorem normalEnd_stat (s : State) : (normalEnd s).stat = s.stat.ended := rfl
@[simp] theorem normalEnd_opr (s : State) : (normalEnd s).opr = s.opr := rfl
@[simp] theorem normalEnd_res (s : State) : (normalEnd s).res = s.res := rfl
@[simp] theorem normalEnd_eccu (s : State) : (normalEnd s).eccu = s.eccu := rfl
@[simp] theorem normalEnd_slots (s : State) : (normalEnd s).slots = s.slots := rfl
@[simp] theorem normalEnd_geo (s : State) : (normalEnd s).geo = s.geo := rfl
@[simp] theorem normalEnd_nor (s : State) : (normalEnd s).nor = s.nor := rfl
@[simp] theorem normalEnd_norId (s : State) : (normalEnd s).norId = s.norId := rfl
@[simp] theorem normalEnd_loop (s : State) : (normalEnd s).loop = s.loop := rfl
@[simp] theorem normalEnd_pageBuf (s : State) : (normalEnd s).pageBuf = s.pageBuf := rfl
@[simp] theorem normalEnd_spareBuf (s : State) : (normalEnd s).spareBuf = s.spareBuf := rfl
@[simp] theorem normalEnd_mem (s : State) : (normalEnd s).mem = s.mem := rfl
@[simp] theorem normalEnd_resetLine (s : State) : (normalEnd s).resetLine = s.resetLine := rfl
@[simp] theorem normalEnd_dev (s : State) : (normalEnd s).dev = s.dev := rfl
@[simp] theorem normalEnd_host (s : State) : (normalEnd s).host = s.host := rfl
@[simp] theorem normalEnd_events (s : State) : (normalEnd s).events = s.events := rfl

@[simp] theorem accept_cfg (w : Word) (s : State) : (accept w s).cfg = s.cfg := rfl
@[simp] theorem accept_stat (w : Word) (s : State) : (accept w s).stat = s.stat.accepted (w.extractLsb' 0 8) := rfl
@[simp] theorem accept_opr (w : Word) (s : State) : (accept w s).opr = s.opr := rfl
@[simp] theorem accept_res (w : Word) (s : State) : (accept w s).res = { s.res with res0 := 0, res1 := 0, res2 := 0 } := rfl
@[simp] theorem accept_eccu (w : Word) (s : State) : (accept w s).eccu = s.eccu := rfl
@[simp] theorem accept_slots (w : Word) (s : State) : (accept w s).slots = s.slots := rfl
@[simp] theorem accept_geo (w : Word) (s : State) : (accept w s).geo = s.geo := rfl
@[simp] theorem accept_nor (w : Word) (s : State) : (accept w s).nor = s.nor := rfl
@[simp] theorem accept_norId (w : Word) (s : State) : (accept w s).norId = s.norId := rfl
@[simp] theorem accept_loop (w : Word) (s : State) : (accept w s).loop = s.loop := rfl
@[simp] theorem accept_pageBuf (w : Word) (s : State) : (accept w s).pageBuf = s.pageBuf := rfl
@[simp] theorem accept_spareBuf (w : Word) (s : State) : (accept w s).spareBuf = s.spareBuf := rfl
@[simp] theorem accept_mem (w : Word) (s : State) : (accept w s).mem = s.mem := rfl
@[simp] theorem accept_resetLine (w : Word) (s : State) : (accept w s).resetLine = s.resetLine := rfl
@[simp] theorem accept_dev (w : Word) (s : State) : (accept w s).dev = s.dev := rfl
@[simp] theorem accept_host (w : Word) (s : State) : (accept w s).host = s.host := rfl
@[simp] theorem accept_events (w : Word) (s : State) : (accept w s).events = [] := rfl

@[simp] theorem writeReg_cfg (s : State) (i : Nat) (v : Word) : (writeReg s i v).cfg = s.cfg := rfl
@[simp] theorem writeReg_stat (s : State) (i : Nat) (v : Word) : (writeReg s i v).stat = s.stat := rfl
@[simp] theorem writeReg_opr (s : State) (i : Nat) (v : Word) : (writeReg s i v).opr = s.opr.write i v := rfl
@[simp] theorem writeReg_res (s : State) (i : Nat) (v : Word) : (writeReg s i v).res = s.res := rfl
@[simp] theorem writeReg_eccu (s : State) (i : Nat) (v : Word) : (writeReg s i v).eccu = s.eccu := rfl
@[simp] theorem writeReg_slots (s : State) (i : Nat) (v : Word) : (writeReg s i v).slots = s.slots := rfl
@[simp] theorem writeReg_geo (s : State) (i : Nat) (v : Word) : (writeReg s i v).geo = s.geo := rfl
@[simp] theorem writeReg_nor (s : State) (i : Nat) (v : Word) : (writeReg s i v).nor = s.nor.write i v := rfl
@[simp] theorem writeReg_norId (s : State) (i : Nat) (v : Word) : (writeReg s i v).norId = s.norId := rfl
@[simp] theorem writeReg_loop (s : State) (i : Nat) (v : Word) : (writeReg s i v).loop = s.loop := rfl
@[simp] theorem writeReg_pageBuf (s : State) (i : Nat) (v : Word) : (writeReg s i v).pageBuf = s.pageBuf := rfl
@[simp] theorem writeReg_spareBuf (s : State) (i : Nat) (v : Word) : (writeReg s i v).spareBuf = s.spareBuf := rfl
@[simp] theorem writeReg_mem (s : State) (i : Nat) (v : Word) : (writeReg s i v).mem = s.mem := rfl
@[simp] theorem writeReg_resetLine (s : State) (i : Nat) (v : Word) : (writeReg s i v).resetLine = s.resetLine := rfl
@[simp] theorem writeReg_dev (s : State) (i : Nat) (v : Word) : (writeReg s i v).dev = s.dev := rfl
@[simp] theorem writeReg_host (s : State) (i : Nat) (v : Word) : (writeReg s i v).host = s.host := rfl
@[simp] theorem writeReg_events (s : State) (i : Nat) (v : Word) : (writeReg s i v).events = s.events := rfl

@[simp] theorem answered_cfg (a : HostAnswer) (s : State) : (answered a s).cfg = s.cfg := rfl
@[simp] theorem answered_stat (a : HostAnswer) (s : State) : (answered a s).stat = s.stat := rfl
@[simp] theorem answered_opr (a : HostAnswer) (s : State) : (answered a s).opr = s.opr := rfl
@[simp] theorem answered_res (a : HostAnswer) (s : State) : (answered a s).res = s.res := rfl
@[simp] theorem answered_eccu (a : HostAnswer) (s : State) : (answered a s).eccu = s.eccu := rfl
@[simp] theorem answered_slots (a : HostAnswer) (s : State) : (answered a s).slots = s.slots := rfl
@[simp] theorem answered_geo (a : HostAnswer) (s : State) : (answered a s).geo = s.geo := rfl
@[simp] theorem answered_nor (a : HostAnswer) (s : State) : (answered a s).nor = s.nor := rfl
@[simp] theorem answered_norId (a : HostAnswer) (s : State) : (answered a s).norId = s.norId := rfl
@[simp] theorem answered_loop (a : HostAnswer) (s : State) : (answered a s).loop = s.loop := rfl
@[simp] theorem answered_pageBuf (a : HostAnswer) (s : State) : (answered a s).pageBuf = s.pageBuf := rfl
@[simp] theorem answered_spareBuf (a : HostAnswer) (s : State) : (answered a s).spareBuf = s.spareBuf := rfl
@[simp] theorem answered_mem (a : HostAnswer) (s : State) : (answered a s).mem = s.mem := rfl
@[simp] theorem answered_resetLine (a : HostAnswer) (s : State) : (answered a s).resetLine = s.resetLine := rfl
@[simp] theorem answered_dev (a : HostAnswer) (s : State) : (answered a s).dev = s.dev := rfl
@[simp] theorem answered_host (a : HostAnswer) (s : State) : (answered a s).host = { s.host with answers := a :: s.host.answers } := rfl
@[simp] theorem answered_events (a : HostAnswer) (s : State) : (answered a s).events = s.events := rfl

@[simp] theorem resetAsserted_cfg (s : State) : (resetAsserted s).cfg = s.cfg := rfl
@[simp] theorem resetAsserted_stat (s : State) : (resetAsserted s).stat = Stat.reset := rfl
@[simp] theorem resetAsserted_opr (s : State) : (resetAsserted s).opr = ⟨0, 0, 0, 0, 0⟩ := rfl
@[simp] theorem resetAsserted_res (s : State) : (resetAsserted s).res = ⟨0, 0, 0, 0⟩ := rfl
@[simp] theorem resetAsserted_eccu (s : State) : (resetAsserted s).eccu = ⟨0, 0, false, 0⟩ := rfl
@[simp] theorem resetAsserted_slots (s : State) : (resetAsserted s).slots = ⟨Quad.zero, Quad.zero, Quad.zero⟩ := rfl
@[simp] theorem resetAsserted_geo (s : State) : (resetAsserted s).geo = Geo.zero := rfl
@[simp] theorem resetAsserted_nor (s : State) : (resetAsserted s).nor = NorCfg.zero := rfl
@[simp] theorem resetAsserted_norId (s : State) : (resetAsserted s).norId = ⟨.unsupported, 0, 0, 0⟩ := rfl
@[simp] theorem resetAsserted_loop (s : State) : (resetAsserted s).loop = ⟨0, 0, 0, 0⟩ := rfl
@[simp] theorem resetAsserted_pageBuf (s : State) : (resetAsserted s).pageBuf = s.pageBuf := rfl
@[simp] theorem resetAsserted_spareBuf (s : State) : (resetAsserted s).spareBuf = s.spareBuf := rfl
@[simp] theorem resetAsserted_mem (s : State) : (resetAsserted s).mem = s.mem := rfl
@[simp] theorem resetAsserted_resetLine (s : State) : (resetAsserted s).resetLine = true := rfl
@[simp] theorem resetAsserted_dev (s : State) : (resetAsserted s).dev = s.dev := rfl
@[simp] theorem resetAsserted_host (s : State) : (resetAsserted s).host = s.host := rfl
@[simp] theorem resetAsserted_events (s : State) : (resetAsserted s).events = s.events := rfl

@[simp] theorem Stat.accepted_busy (t : Stat) (c : Byte) : (t.accepted c).busy = true := rfl
@[simp] theorem Stat.accepted_done (t : Stat) (c : Byte) : (t.accepted c).done = false := rfl
@[simp] theorem Stat.accepted_err (t : Stat) (c : Byte) : (t.accepted c).err = false := rfl
@[simp] theorem Stat.accepted_corr (t : Stat) (c : Byte) : (t.accepted c).corr = false := rfl
@[simp] theorem Stat.accepted_ovr (t : Stat) (c : Byte) : (t.accepted c).ovr = t.ovr := rfl
@[simp] theorem Stat.accepted_errCode (t : Stat) (c : Byte) : (t.accepted c).errCode = 0 := rfl
@[simp] theorem Stat.accepted_phase (t : Stat) (c : Byte) : (t.accepted c).phase = .check := rfl
@[simp] theorem Stat.accepted_opc (t : Stat) (c : Byte) : (t.accepted c).opc = c := rfl

@[simp] theorem Stat.raised_busy (t : Stat) (k : ErrKind) : (t.raised k).busy = false := rfl
@[simp] theorem Stat.raised_done (t : Stat) (k : ErrKind) : (t.raised k).done = true := rfl
@[simp] theorem Stat.raised_err (t : Stat) (k : ErrKind) : (t.raised k).err = true := rfl
@[simp] theorem Stat.raised_corr (t : Stat) (k : ErrKind) : (t.raised k).corr = t.corr := rfl
@[simp] theorem Stat.raised_ovr (t : Stat) (k : ErrKind) : (t.raised k).ovr = t.ovr := rfl
@[simp] theorem Stat.raised_errCode (t : Stat) (k : ErrKind) : (t.raised k).errCode = k.code := rfl
@[simp] theorem Stat.raised_phase (t : Stat) (k : ErrKind) : (t.raised k).phase = .idle := rfl
@[simp] theorem Stat.raised_opc (t : Stat) (k : ErrKind) : (t.raised k).opc = t.opc := rfl

@[simp] theorem Stat.ended_busy (t : Stat) : (t.ended).busy = false := rfl
@[simp] theorem Stat.ended_done (t : Stat) : (t.ended).done = true := rfl
@[simp] theorem Stat.ended_err (t : Stat) : (t.ended).err = t.err := rfl
@[simp] theorem Stat.ended_corr (t : Stat) : (t.ended).corr = t.corr := rfl
@[simp] theorem Stat.ended_ovr (t : Stat) : (t.ended).ovr = t.ovr := rfl
@[simp] theorem Stat.ended_errCode (t : Stat) : (t.ended).errCode = t.errCode := rfl
@[simp] theorem Stat.ended_phase (t : Stat) : (t.ended).phase = .idle := rfl
@[simp] theorem Stat.ended_opc (t : Stat) : (t.ended).opc = t.opc := rfl

theorem Device.drValue_cons (d : Device) (v : Half) (rest : List Half) (h : d.dr = v :: rest) :
    d.drValue = v := by
  simp [Device.drValue, h]
theorem Device.drRest_cons (d : Device) (v : Half) (rest : List Half) (h : d.dr = v :: rest) :
    d.drRest = { d with dr := rest } := by
  simp [Device.drRest, h]
@[simp] theorem Device.drValue_mk_cons (v : Half) (rest : List Half) (b : List Bool) (c : List Word) (n : Nat) :
    (Device.mk (v :: rest) b c n).drValue = v := rfl
@[simp] theorem Device.drRest_mk_cons (v : Half) (rest : List Half) (b : List Bool) (c : List Word) (n : Nat) :
    (Device.mk (v :: rest) b c n).drRest = Device.mk rest b c n := rfl

theorem Device.rdyValue_cons (d : Device) (v : Bool) (rest : List Bool) (h : d.rdy = v :: rest) :
    d.rdyValue = v := by
  simp [Device.rdyValue, h]
theorem Device.rdyRest_cons (d : Device) (v : Bool) (rest : List Bool) (h : d.rdy = v :: rest) :
    d.rdyRest = { d with rdy := rest } := by
  simp [Device.rdyRest, h]
@[simp] theorem Device.rdyValue_mk_cons (v : Bool) (rest : List Bool) (a : List Half) (c : List Word) (n : Nat) :
    (Device.mk a (v :: rest) c n).rdyValue = v := rfl
@[simp] theorem Device.rdyRest_mk_cons (v : Bool) (rest : List Bool) (a : List Half) (c : List Word) (n : Nat) :
    (Device.mk a (v :: rest) c n).rdyRest = Device.mk a rest c n := rfl

theorem Device.nrValue_cons (d : Device) (v : Word) (rest : List Word) (h : d.nr = v :: rest) :
    d.nrValue = v := by
  simp [Device.nrValue, h]
theorem Device.nrRest_cons (d : Device) (v : Word) (rest : List Word) (h : d.nr = v :: rest) :
    d.nrRest = { d with nr := rest } := by
  simp [Device.nrRest, h]
@[simp] theorem Device.nrValue_mk_cons (v : Word) (rest : List Word) (a : List Half) (b : List Bool) (n : Nat) :
    (Device.mk a b (v :: rest) n).nrValue = v := rfl
@[simp] theorem Device.nrRest_mk_cons (v : Word) (rest : List Word) (a : List Half) (b : List Bool) (n : Nat) :
    (Device.mk a b (v :: rest) n).nrRest = Device.mk a b rest n := rfl

@[simp] theorem EccUnit.absorb_run (e : EccUnit) (d : Byte) : (e.absorb d).run = e.run := by
  unfold EccUnit.absorb; split <;> rfl
@[simp] theorem EccUnit.absorb_mask (e : EccUnit) (d : Byte) : (e.absorb d).mask = e.mask := by
  unfold EccUnit.absorb; split <;> rfl

@[simp] theorem EccUnit.absorbCycle_run (e : EccUnit) (b : Bool) (v : Half) : (e.absorbCycle b v).run = e.run := by
  unfold EccUnit.absorbCycle; split <;> simp
@[simp] theorem EccUnit.absorbCycle_mask (e : EccUnit) (b : Bool) (v : Half) : (e.absorbCycle b v).mask = e.mask := by
  unfold EccUnit.absorbCycle; split <;> simp

@[simp] theorem EccUnit.restarted_acc (e : EccUnit) : e.restarted.acc = 0 := rfl
@[simp] theorem EccUnit.restarted_bitPos (e : EccUnit) : e.restarted.bitPos = 0 := rfl
@[simp] theorem EccUnit.restarted_run (e : EccUnit) : e.restarted.run = true := rfl
@[simp] theorem EccUnit.restarted_mask (e : EccUnit) : e.restarted.mask = e.mask := rfl

end Sys2Proof.Machine
end

