-- ==== Sys2Proof/Laws/Op.lean ====
section
/-! SUPPORT. How a piece of pseudocode runs: the equations of the `Op` monad, its loops, and what the
boundary before an event can do. -/

namespace Sys2Proof.Machine

variable {α β : Type}

/-! ## Equations -/

@[simp] theorem Op.run_pure (a : α) (s : State) : (pure a : Op α) s = .ok a s := rfl

@[simp] theorem Op.run_get (s : State) : (get : Op State) s = .ok s s := rfl

theorem Op.run_bind (m : Op α) (f : α → Op β) (s : State) :
    (m >>= f) s = match m s with
      | .ok a s' => f a s'
      | .error e s' => .error e s' := by
  show EStateM.bind m f s = _
  unfold EStateM.bind
  cases m s <;> rfl

/-- The first part goes on: the rest runs from where it left off. -/
theorem Op.bind_ok {m : Op α} {f : α → Op β} {s s' : State} {a : α} (h : m s = .ok a s') :
    (m >>= f) s = f a s' := by
  rw [Op.run_bind, h]

/-- The first part ends the op: the rest does not run. -/
theorem Op.bind_error {m : Op α} {f : α → Op β} {s s' : State} {e : Ended} (h : m s = .error e s') :
    (m >>= f) s = .error e s' := by
  rw [Op.run_bind, h]

@[simp] theorem update_run (f : State → State) (s : State) : update f s = .ok () (f s) := rfl

@[simp] theorem params_run (s : State) : params s = .ok s.cfg.params s := rfl

@[simp] theorem raise_run (k : ErrKind) (info : Word) (s : State) :
    (raise k info : Op α) s = .error .raised (errorEntry k info s) := rfl

@[simp] theorem raiseIf_true (k : ErrKind) (info : Word) (s : State) :
    raiseIf true k info s = .error .raised (errorEntry k info s) := rfl

@[simp] theorem raiseIf_false (k : ErrKind) (info : Word) (s : State) :
    raiseIf false k info s = .ok () s := rfl

@[simp] theorem keepPolling_run (s : State) : keepPolling s = .error .polling s := rfl

@[simp] theorem setPhase_run (p : Phase) (s : State) :
    setPhase p s = .ok () { s with stat := { s.stat with phase := p } } := rfl
@[simp] theorem setRes0_run (v : Word) (s : State) :
    setRes0 v s = .ok () { s with res := { s.res with res0 := v } } := rfl
@[simp] theorem setRes1_run (v : Word) (s : State) :
    setRes1 v s = .ok () { s with res := { s.res with res1 := v } } := rfl
@[simp] theorem setRes2_run (v : Word) (s : State) :
    setRes2 v s = .ok () { s with res := { s.res with res2 := v } } := rfl
@[simp] theorem setLastStat_run (v : Word) (s : State) :
    setLastStat v s = .ok () { s with res := { s.res with lastStat := v } } := rfl
@[simp] theorem setCorr_run (s : State) :
    setCorr s = .ok () { s with stat := { s.stat with corr := true } } := rfl
@[simp] theorem setOpIdx_run (i : Nat) (s : State) :
    setOpIdx i s = .ok () { s with loop := { s.loop with opIdx := BitVec.ofNat 2 i } } := rfl
@[simp] theorem setBlkIdx_run (b : Word) (s : State) :
    setBlkIdx b s = .ok () { s with loop := { s.loop with blkIdx := b } } := rfl
@[simp] theorem setPollCnt_run (n : Nat) (s : State) :
    setPollCnt n s = .ok () { s with loop := { s.loop with pollCnt := BitVec.ofNat 32 n } } := rfl
@[simp] theorem setXferCnt_run (n : Nat) (s : State) :
    setXferCnt n s = .ok () { s with loop := { s.loop with xferCnt := BitVec.ofNat 32 n } } := rfl
@[simp] theorem setSpare_run (k : Nat) (b : Byte) (s : State) :
    setSpare k b s = .ok () { s with spareBuf := s.spareBuf.writeByte k b } := rfl
@[simp] theorem setEcc_run (i : Nat) (v : Word) (s : State) :
    setEcc i v s = .ok () { s with slots := { s.slots with ecc := s.slots.ecc.set i v } } := rfl
@[simp] theorem setSecc_run (i : Nat) (v : Word) (s : State) :
    setSecc i v s = .ok () { s with slots := { s.slots with secc := s.slots.secc.set i v } } := rfl
@[simp] theorem setCorrSlot_run (i : Nat) (v : Word) (s : State) :
    setCorrSlot i v s = .ok () { s with slots := { s.slots with corr := s.slots.corr.set i v } } := rfl
@[simp] theorem absorbCycle_run (v : Half) (s : State) :
    absorbCycle v s = .ok () { s with eccu := s.eccu.absorbCycle s.cfg.params.nandBus16 v } := rfl
@[simp] theorem eccReadRestart_run (s : State) :
    eccReadRestart s = .ok (s.eccu.acc &&& s.eccu.mask) { s with eccu := ⟨0, 0, true, s.eccu.mask⟩ } := rfl

theorem forUp_zero (f : Nat → Op Unit) (i : Nat) (s : State) : forUp f i 0 s = .ok () s := rfl

theorem forUp_succ (f : Nat → Op Unit) (i n : Nat) (s : State) :
    forUp f i (n + 1) s = (f i >>= fun _ => forUp f (i + 1) n) s := rfl

theorem transfer_zero (u : Nat) (f : Nat → Op Unit) (k : Nat) (s : State) :
    transfer u f k 0 s = setXferCnt 0 s := rfl

theorem transfer_succ (u : Nat) (f : Nat → Op Unit) (k n : Nat) (s : State) :
    transfer u f k (n + 1) s
      = (setXferCnt ((n + 1) * u) >>= fun _ => f k >>= fun _ => transfer u f (k + 1) n) s := rfl

/-! ## What an op can do: relations between the state before and the states it can end in -/

/-- Wherever `m` ends, on or off its path, the state stands in relation `R` to where it began. -/
def Op.Rel (R : State → State → Prop) (m : Op α) : Prop :=
  ∀ s, match m s with
    | .ok _ s' => R s s'
    | .error _ s' => R s s'

theorem Op.Rel.ok {R : State → State → Prop} {m : Op α} (h : Op.Rel R m) {s s' : State} {a : α}
    (he : m s = .ok a s') : R s s' := by
  have := h s; rw [he] at this; exact this

theorem Op.Rel.error {R : State → State → Prop} {m : Op α} (h : Op.Rel R m) {s s' : State} {e : Ended}
    (he : m s = .error e s') : R s s' := by
  have := h s; rw [he] at this; exact this

theorem Op.Rel.pure {R : State → State → Prop} (hr : ∀ s, R s s) (a : α) :
    Op.Rel R (Pure.pure a : Op α) := hr

theorem Op.Rel.get {R : State → State → Prop} (hr : ∀ s, R s s) :
    Op.Rel R (MonadState.get : Op State) := hr

theorem Op.Rel.params {R : State → State → Prop} (hr : ∀ s, R s s) :
    Op.Rel R Machine.params := hr

theorem Op.Rel.update {R : State → State → Prop} {f : State → State} (h : ∀ s, R s (f s)) :
    Op.Rel R (Machine.update f) := h

theorem Op.Rel.raise {R : State → State → Prop} {k : ErrKind} {info : Word}
    (h : ∀ s, R s (errorEntry k info s)) : Op.Rel R (Machine.raise k info : Op α) := h

theorem Op.Rel.raiseIf {R : State → State → Prop} (hr : ∀ s, R s s) {c : Bool} {k : ErrKind} {info : Word}
    (h : ∀ s, R s (errorEntry k info s)) : Op.Rel R (Machine.raiseIf c k info) := by
  cases c
  · exact hr
  · exact h

theorem Op.Rel.keepPolling {R : State → State → Prop} (hr : ∀ s, R s s) :
    Op.Rel R Machine.keepPolling := hr

theorem Op.Rel.bind {R : State → State → Prop} (ht : ∀ a b c, R a b → R b c → R a c)
    {m : Op α} {f : α → Op β} (hm : Op.Rel R m) (hf : ∀ a, Op.Rel R (f a)) : Op.Rel R (m >>= f) := by
  intro s
  rw [Op.run_bind]
  cases h : m s with
  | ok a s1 =>
    have h1 := hm.ok h
    cases h2 : f a s1 with
    | ok b s2 => simpa [h2] using ht _ _ _ h1 ((hf a).ok h2)
    | error e s2 => simpa [h2] using ht _ _ _ h1 ((hf a).error h2)
  | error e s1 => simpa using hm.error h

theorem Op.Rel.ite {R : State → State → Prop} {c : Prop} [Decidable c] {m n : Op α}
    (hm : Op.Rel R m) (hn : Op.Rel R n) : Op.Rel R (if c then m else n) := by
  split
  · exact hm
  · exact hn

theorem Op.Rel.forUp {R : State → State → Prop} (hr : ∀ s, R s s) (ht : ∀ a b c, R a b → R b c → R a c)
    {f : Nat → Op Unit} (hf : ∀ i, Op.Rel R (f i)) : ∀ n i, Op.Rel R (Machine.forUp f i n)
  | 0, _ => hr
  | n + 1, i => Op.Rel.bind ht (hf i) fun _ => Op.Rel.forUp hr ht hf n (i + 1)

theorem Op.Rel.transfer {R : State → State → Prop} (ht : ∀ a b c, R a b → R b c → R a c)
    (hx : ∀ n, Op.Rel R (setXferCnt n)) {u : Nat} {f : Nat → Op Unit} (hf : ∀ i, Op.Rel R (f i)) :
    ∀ n i, Op.Rel R (Machine.transfer u f i n)
  | 0, _ => hx 0
  | n + 1, i =>
    Op.Rel.bind ht (hx _) fun _ => Op.Rel.bind ht (hf i) fun _ => Op.Rel.transfer ht hx hf n (i + 1)

/-- What holds of an op holds of its whole run, if ending normally keeps it. -/
theorem Op.Rel.runOp {R : State → State → Prop} (ht : ∀ a b c, R a b → R b c → R a c)
    (htick : Op.Rel R tick) (hend : ∀ s, R s (normalEnd s)) {m : Op Unit} (hm : Op.Rel R m) {s s' : State}
    (h : runOp m s = .next s') : R s s' := by
  have hb : Op.Rel R (tick >>= fun _ => m) := Op.Rel.bind ht htick fun _ => hm
  unfold Machine.runOp at h
  split at h
  · next he => cases h; exact ht _ _ _ (hb.ok he) (hend _)
  · next he => cases h; exact hb.error he

theorem Op.Rel.continueOp {R : State → State → Prop} (ht : ∀ a b c, R a b → R b c → R a c)
    (hend : ∀ s, R s (normalEnd s)) {m : Op Unit} (hm : Op.Rel R m) {s s' : State}
    (h : continueOp m s = .next s') : R s s' := by
  unfold Machine.continueOp at h
  split at h
  · next he => cases h; exact ht _ _ _ (hm.ok he) (hend _)
  · next he => cases h; exact hm.error he

/-- A run of an op always gives a next state: no meaning stops the machine. -/
theorem runOp_next (m : Op Unit) (s : State) : ∃ s', runOp m s = .next s' := by
  unfold runOp
  split <;> exact ⟨_, rfl⟩

theorem continueOp_next (m : Op Unit) (s : State) : ∃ s', continueOp m s = .next s' := by
  unfold continueOp
  split <;> exact ⟨_, rfl⟩

/-! ## The loops -/

/-- Steps `g i`, `g (i+1)`, … applied to a state. -/
def iterUp (g : Nat → State → State) : Nat → Nat → State → State
  | _, 0, s => s
  | i, n + 1, s => iterUp g (i + 1) n (g i s)

/-- A counted loop whose body always goes on, as long as `P` holds, which it keeps. -/
theorem forUp_run {f : Nat → Op Unit} {g : Nat → State → State} {P : State → Prop} :
    ∀ (n i : Nat) (s : State),
      (∀ j s, i ≤ j → j < i + n → P s → f j s = .ok () (g j s) ∧ P (g j s)) → P s →
      forUp f i n s = .ok () (iterUp g i n s) ∧ P (iterUp g i n s)
  | 0, _, _, _, hs => ⟨rfl, hs⟩
  | n + 1, i, s, h, hs => by
    obtain ⟨h1, h2⟩ := h i s (Nat.le_refl i) (by omega) hs
    rw [forUp_succ, Op.bind_ok h1]
    exact forUp_run n (i + 1) (g i s) (fun j s hj hj' => h j s (by omega) (by omega)) h2

/-- XFERCNT set. -/
def withXfer (n : Nat) (s : State) : State :=
  { s with loop := { s.loop with xferCnt := BitVec.ofNat 32 n } }

/-- The same for a transfer, which keeps XFERCNT as it goes. -/
theorem transfer_run {u : Nat} {f : Nat → Op Unit} {g : Nat → State → State} {P : State → Prop}
    (hx : ∀ s n, P s → P (withXfer n s)) :
    ∀ (n i : Nat) (s : State),
      (∀ j s, i ≤ j → j < i + n → P s → f j s = .ok () (g j s) ∧ P (g j s)) → P s →
      ∃ s', transfer u f i n s = .ok () s' ∧ P s'
        ∧ s' = withXfer 0 (iterUp (fun j s => g j (withXfer ((i + n - j) * u) s)) i n s)
  | 0, i, s, _, hs => ⟨_, rfl, hx s 0 hs, rfl⟩
  | n + 1, i, s, h, hs => by
    obtain ⟨h1, h2⟩ := h i _ (Nat.le_refl i) (by omega) (hx s ((n + 1) * u) hs)
    obtain ⟨s', e1, e2, e3⟩ := transfer_run (u := u) hx n (i + 1) _
      (fun j s hj hj' => h j s (by omega) (by omega)) h2
    refine ⟨s', ?_, e2, ?_⟩
    · have e0 : setXferCnt ((n + 1) * u) s = .ok () (withXfer ((n + 1) * u) s) := rfl
      rw [transfer_succ, Op.bind_ok e0, Op.bind_ok h1, e1]
    · rw [e3]
      have e : i + (n + 1) - i = n + 1 := by omega
      have e' : i + 1 + n = i + (n + 1) := by omega
      simp only [iterUp, e, e']

/-! ## The boundary before an event -/

/-- In a quiet environment nothing happens at a boundary. -/
@[simp] theorem tick_quiet {s : State} (h : s.host.busy = []) : tick s = .ok () s := by
  unfold tick
  rw [h]

/-- `s'` is `s` but for OVR, which is never cleared, and for the host's own side. -/
def Noise (s s' : State) : Prop :=
  s' = { s with stat := { s.stat with ovr := s'.stat.ovr }, host := s'.host }
  ∧ (s.stat.ovr = true → s'.stat.ovr = true)

theorem Noise.refl (s : State) : Noise s s := ⟨rfl, id⟩

theorem Noise.trans {a b c : State} (h : Noise a b) (h' : Noise b c) : Noise a c := by
  obtain ⟨h1, h2⟩ := h
  obtain ⟨h3, h4⟩ := h'
  refine ⟨?_, fun x => h4 (h2 x)⟩
  rw [h3, h1]

/-- What the environment's acts can do to a running op: noise, or its end by RESET. -/
theorem busyActs_cases (acts : List BusyAct) (s : State) :
    (∃ s', busyActs acts s = .ok () s' ∧ Noise s s')
    ∨ (∃ s1 s', busyActs acts s = .error .aborted (resetAsserted s') ∧ Noise s s1
        ∧ s' = { s1 with host := s'.host }) := by
  induction acts generalizing s with
  | nil => exact .inl ⟨s, rfl, Noise.refl s⟩
  | cons a rest ih =>
    cases a with
    | write i v =>
      have hn : Noise s { s with stat := { s.stat with ovr := true } } := ⟨rfl, fun _ => rfl⟩
      rcases ih { s with stat := { s.stat with ovr := true } } with ⟨s', e, h⟩ | ⟨s1, s', e, h, h'⟩
      · exact .inl ⟨s', e, hn.trans h⟩
      · exact .inr ⟨s1, s', e, hn.trans h, h'⟩
    | read i =>
      have hn : Noise s { s with host := { s.host with answers := .reg i (readReg s i) :: s.host.answers } } :=
        ⟨rfl, id⟩
      rcases ih { s with host := { s.host with answers := .reg i (readReg s i) :: s.host.answers } }
        with ⟨s', e, h⟩ | ⟨s1, s', e, h, h'⟩
      · exact .inl ⟨s', e, hn.trans h⟩
      · exact .inr ⟨s1, s', e, hn.trans h, h'⟩
    | assertReset =>
      exact .inr ⟨s, _, rfl, Noise.refl s, rfl⟩

/-- All a boundary can do. -/
theorem tick_cases (s : State) :
    (∃ s', tick s = .ok () s' ∧ Noise s s')
    ∨ (∃ s1 s', tick s = .error .aborted (resetAsserted s') ∧ Noise s s1
        ∧ s' = { s1 with host := s'.host }) := by
  unfold tick
  split
  · exact .inl ⟨s, rfl, Noise.refl s⟩
  · next acts rest _ =>
    have hn : Noise s { s with host := { s.host with busy := rest } } := ⟨rfl, id⟩
    rcases busyActs_cases acts { s with host := { s.host with busy := rest } }
      with ⟨s', e, h⟩ | ⟨s1, s', e, h, h'⟩
    · exact .inl ⟨s', e, hn.trans h⟩
    · exact .inr ⟨s1, s', e, hn.trans h, h'⟩

/-- A relation the boundary keeps: it holds across noise and across the end by RESET. -/
theorem Op.Rel.tick {R : State → State → Prop} (hn : ∀ s s', Noise s s' → R s s')
    (ha : ∀ s s1 s', Noise s s1 → s' = { s1 with host := s'.host } → R s (resetAsserted s')) :
    Op.Rel R Machine.tick := by
  intro s
  rcases tick_cases s with ⟨s', e, h⟩ | ⟨s1, s', e, h, h'⟩
  · rw [e]; exact hn _ _ h
  · rw [e]; exact ha _ _ _ h h'

end Sys2Proof.Machine
end

