-- ==== Sys2Proof/Laws/Prims.lean ====
section
/-! SUPPORT. The shared operations in a quiet environment: each says once what the operation answers and
the state it leaves. -/

namespace Sys2Proof.Machine

@[simp] theorem askDr_run (s : State) : askDr s = .ok s.dev.drValue { s with dev := s.dev.drRest } := rfl
@[simp] theorem askRdy_run (s : State) : askRdy s = .ok s.dev.rdyValue { s with dev := s.dev.rdyRest } := rfl
@[simp] theorem askNr_run (s : State) : askNr s = .ok s.dev.nrValue { s with dev := s.dev.nrRest } := rfl
@[simp] theorem record_run (e : Event) (s : State) : record e s = .ok () { s with events := e :: s.events } := rfl

@[simp] theorem emit_run {s : State} (h : s.host.busy = []) (e : Event) :
    emit e s = .ok () { s with events := e :: s.events } := by
  unfold emit
  rw [Op.bind_ok (tick_quiet h)]
  rfl

@[simp] theorem cle_run {s : State} (h : s.host.busy = []) (v : Byte) :
    cle v s = .ok () { s with events := .cle (v.setWidth 16) :: s.events } := emit_run h _

@[simp] theorem ale_run {s : State} (h : s.host.busy = []) (v : Byte) :
    ale v s = .ok () { s with events := .ale (v.setWidth 16) :: s.events } := emit_run h _

/-- A data write cycle: the event, and the accumulator. -/
@[simp] theorem datW_run {s : State} (h : s.host.busy = []) (v : Half) :
    datW v s = .ok ()
      { s with events := .dw (truncW s.cfg.params.nandBus16 v) :: s.events, eccu := s.eccu.absorbCycle s.cfg.params.nandBus16 (truncW s.cfg.params.nandBus16 v) } := by
  unfold datW
  rw [Op.bind_ok (params_run s), Op.bind_ok (emit_run h _)]
  rfl

/-- A data read cycle: the answer, the event, and the accumulator. -/
@[simp] theorem datR_run {s : State} (h : s.host.busy = []) :
    datR s = .ok (truncW s.cfg.params.nandBus16 s.dev.drValue)
      { s with
        dev := s.dev.drRest
        events := .dr (truncW s.cfg.params.nandBus16 s.dev.drValue) :: s.events
        eccu := s.eccu.absorbCycle s.cfg.params.nandBus16 (truncW s.cfg.params.nandBus16 s.dev.drValue) } := by
  unfold datR
  rw [Op.bind_ok (params_run s), Op.bind_ok (tick_quiet h)]
  rw [Op.bind_ok (askDr_run s), Op.bind_ok (record_run _ _), Op.bind_ok (absorbCycle_run _ _), Op.run_pure]

@[simp] theorem readByte_run {s : State} (h : s.host.busy = []) :
    readByte s = .ok ((truncW s.cfg.params.nandBus16 s.dev.drValue).extractLsb' 0 8)
      { s with
        dev := s.dev.drRest
        events := .dr (truncW s.cfg.params.nandBus16 s.dev.drValue) :: s.events
        eccu := s.eccu.absorbCycle s.cfg.params.nandBus16 (truncW s.cfg.params.nandBus16 s.dev.drValue) } := by
  unfold readByte
  rw [Op.bind_ok (datR_run h)]
  rfl

/-- A ready sample. -/
@[simp] theorem rdy_run {s : State} (h : s.host.busy = []) :
    rdy s = .ok s.dev.rdyValue { s with dev := s.dev.rdyRest, events := .rdy s.dev.rdyValue :: s.events } := by
  unfold rdy
  rw [Op.bind_ok (tick_quiet h)]
  rw [Op.bind_ok (askRdy_run s), Op.bind_ok (record_run _ _), Op.run_pure]

/-- A NOR store. -/
@[simp] theorem norW_run {s : State} (h : s.host.busy = []) (a v : Word) :
    norW a v s = .ok () { s with events := .nw a (truncN s.nor.wn v) :: s.events } := by
  unfold norW
  rw [Op.bind_ok (Op.run_get s)]
  exact emit_run h _

/-- A NOR load. -/
@[simp] theorem norR_run {s : State} (h : s.host.busy = []) (a : Word) :
    norR a s = .ok (truncN s.nor.wn s.dev.nrValue)
      { s with dev := s.dev.nrRest, events := .nr a (truncN s.nor.wn s.dev.nrValue) :: s.events } := by
  unfold norR
  rw [Op.bind_ok (Op.run_get s), Op.bind_ok (tick_quiet h), Op.bind_ok (askNr_run s),
    Op.bind_ok (record_run _ _), Op.run_pure]

/-- A replicated command byte: what is stored already fits the word. -/
@[simp] theorem norCmd_run {s : State} (h : s.host.busy = []) (a : Word) (c : Byte) :
    norCmd a c s = .ok () { s with events := .nw a (truncN s.nor.wn (s.nor.rep c)) :: s.events } := by
  unfold norCmd
  rw [Op.bind_ok (Op.run_get s)]
  exact norW_run h _ _

/-- Truncating twice to the same width is truncating once. -/
@[simp] theorem truncN_truncN (n : Nat) (v : Word) : truncN n (truncN n v) = truncN n v := by
  unfold truncN
  congr 1
  have h : v.toNat % 2 ^ n < 2 ^ 32 := Nat.lt_of_le_of_lt (Nat.mod_le _ _) v.isLt
  rw [BitVec.toNat_ofNat, Nat.mod_eq_of_lt h, Nat.mod_mod]

@[simp] theorem truncN_rep (n : NorCfg) (c : Byte) : truncN n.wn (n.rep c) = n.rep c :=
  truncN_truncN _ _

@[simp] theorem memRead_host_run {s : State} (h : s.host.busy = []) (a : Word) (n : Nat) :
    memRead .host a n s
      = .ok (s.mem.readLE a n) { s with events := .mr a n (s.mem.readLE a n) :: s.events } := by
  simp only [memRead]
  rw [Op.bind_ok (tick_quiet h), Op.bind_ok (Op.run_get s), Op.bind_ok (record_run _ _), Op.run_pure]

@[simp] theorem memRead_page_run (a : Word) (n : Nat) (s : State) :
    memRead .page a n s = .ok (s.pageBuf.readLE a n) s := rfl

@[simp] theorem memWrite_host_run {s : State} (h : s.host.busy = []) (a : Word) (n : Nat) (v : Word) :
    memWrite .host a n v s
      = .ok () { s with events := .mw a n v :: s.events, mem := s.mem.writeLE a n v } := by
  simp only [memWrite]
  rw [Op.bind_ok (emit_run h _)]
  rfl

@[simp] theorem memWrite_page_run (a : Word) (n : Nat) (v : Word) (s : State) :
    memWrite .page a n v s = .ok () { s with pageBuf := s.pageBuf.writeLE a n v } := rfl

/-- The corrector when the two words agree: nothing happens. -/
theorem correct_equal_run {s : State} {stored computed : Word} (h : stored = computed)
    (t : Space) (base : Word) : correct t stored computed base s = .ok (0, 0) s := by
  unfold correct
  rw [Op.bind_ok (Op.run_get s)]
  simp [eccVerdict, h]

/-- The corrector when the words differ and the syndrome is not that of one bit: nothing happens. -/
theorem correct_uncorrectable_run {s : State} {stored computed : Word}
    (h : eccVerdict s.eccu.mask stored computed = .uncorrectable) (t : Space) (base : Word) :
    correct t stored computed base s = .ok (2, 0) s := by
  unfold correct
  rw [Op.bind_ok (Op.run_get s)]
  simp [h]

/-- The corrector repairing one bit in host memory: one read, one write. -/
@[simp] theorem correct_single_host_run {s : State} {stored computed : Word} {d : Half}
    (hb : s.host.busy = []) (h : eccVerdict s.eccu.mask stored computed = .single d) (base : Word) :
    correct .host stored computed base s =
      let a := base + (d >>> 3).setWidth 32
      let v := s.mem.readLE a 1
      let v' := v ^^^ ((1 : Word) <<< (d &&& 7).toNat)
      .ok (1, d) { s with events := .mw a 1 v' :: .mr a 1 v :: s.events, mem := s.mem.writeLE a 1 v' } := by
  unfold correct
  rw [Op.bind_ok (Op.run_get s)]
  simp only [h]
  rw [Op.bind_ok (memRead_host_run hb _ _), Op.bind_ok (memWrite_host_run (by exact hb) _ _ _)]
  rfl

/-- The corrector repairing one bit in PAGEBUF. -/
theorem correct_single_page_run {s : State} {stored computed : Word} {d : Half}
    (h : eccVerdict s.eccu.mask stored computed = .single d) (base : Word) :
    correct .page stored computed base s =
      let a := base + (d >>> 3).setWidth 32
      let v' := s.pageBuf.readLE a 1 ^^^ ((1 : Word) <<< (d &&& 7).toNat)
      .ok (1, d) { s with pageBuf := s.pageBuf.writeLE a 1 v' } := by
  unfold correct
  rw [Op.bind_ok (Op.run_get s)]
  simp only [h]
  rfl

/-! ## Running an op in a quiet environment -/

/-- In a quiet environment the boundary after acceptance does nothing: the op ends normally. -/
theorem runOp_ok {m : Op Unit} {s s' : State} (h : s.host.busy = []) (hm : m s = .ok () s') :
    runOp m s = .next (normalEnd s') := by
  have e : (tick >>= fun _ => m) s = .ok () s' := by rw [Op.bind_ok (tick_quiet h), hm]
  simp only [runOp, e]

/-- Or it stops before its last step. -/
theorem runOp_error {m : Op Unit} {s s' : State} {e : Ended} (h : s.host.busy = []) (hm : m s = .error e s') :
    runOp m s = .next s' := by
  have e : (tick >>= fun _ => m) s = .error e s' := by rw [Op.bind_ok (tick_quiet h), hm]
  simp only [runOp, e]

end Sys2Proof.Machine
end

