-- ==== Sys2Proof/Laws/Wait.lean ====
section
/-! SUPPORT. The NAND polls in a quiet environment (`41_nand_discovery_wait.md` R130, R132), and what a
data cycle's answer carries. -/

namespace Sys2Proof.Machine

theorem replicate_append_cons {α : Type} (k : Nat) (x : α) (l : List α) :
    List.replicate k x ++ x :: l = x :: (List.replicate k x ++ l) := by
  induction k with
  | zero => rfl
  | succ k ih => simp [List.replicate_succ, ih]

/-- The low byte of a NAND answer does not depend on the bus width. -/
@[simp] theorem extractLsb'_truncW (b : Bool) (v : Half) :
    (truncW b v).extractLsb' 0 8 = v.extractLsb' 0 8 := by
  unfold truncW
  split
  · rfl
  · ext i hi; simp [hi]; omega

@[simp] theorem truncW_truncW (b : Bool) (v : Half) : truncW b (truncW b v) = truncW b v := by
  cases b
  · simp only [truncW, Bool.false_eq_true, if_false]
    congr 1
    ext i hi; simp [hi]; omega
  · rfl

/-- Absorbing a cycle absorbs the bytes it carries, whatever the width (`42_ecc.md` R162). -/
theorem EccUnit.absorbCycle_eq (e : EccUnit) (b : Bool) (v : Half) :
    e.absorbCycle b v = e.absorbBytes (cycleBytes b v) := by
  cases b <;> rfl

@[simp] theorem cycleBytes_truncW (b : Bool) (v : Half) : cycleBytes b (truncW b v) = cycleBytes b v := by
  cases b
  · simp [cycleBytes, truncW]
    ext i hi; simp [hi]; omega
  · rfl

@[simp] theorem EccUnit.absorbCycle_truncW (e : EccUnit) (b : Bool) (v : Half) :
    e.absorbCycle b (truncW b v) = e.absorbCycle b v := by
  simp [EccUnit.absorbCycle_eq]

@[simp] theorem EccUnit.absorbBytes_nil (e : EccUnit) : e.absorbBytes [] = e := rfl

@[simp] theorem EccUnit.absorbBytes_cons (e : EccUnit) (d : Byte) (l : List Byte) :
    e.absorbBytes (d :: l) = (e.absorb d).absorbBytes l := rfl

theorem EccUnit.absorbBytes_append (e : EccUnit) (l l' : List Byte) :
    e.absorbBytes (l ++ l') = (e.absorbBytes l).absorbBytes l' := by
  simp [EccUnit.absorbBytes]

@[simp] theorem EccUnit.absorbBytes_mask (e : EccUnit) (l : List Byte) : (e.absorbBytes l).mask = e.mask := by
  induction l generalizing e with
  | nil => rfl
  | cons d l ih => simp [ih]

@[simp] theorem EccUnit.absorbBytes_run (e : EccUnit) (l : List Byte) : (e.absorbBytes l).run = e.run := by
  induction l generalizing e with
  | nil => rfl
  | cons d l ih => simp [ih]

/-! ## The ready poll -/

/-- The device is busy `k` times and then ready, within the bound. -/
theorem waitRdyLoop_ready (k : Nat) : ∀ (n : Nat) (s : State) (rest : List Bool), s.host.busy = [] →
    k < n → s.dev.rdy = List.replicate k false ++ true :: rest →
    waitRdyLoop n s = .ok ()
      { s with
        loop := { s.loop with pollCnt := BitVec.ofNat 32 (n - k) }
        dev := { s.dev with rdy := rest }
        events := (rdyEvents k).reverse ++ s.events } := by
  induction k with
  | zero =>
    intro n s rest hb hk hr
    obtain ⟨n, rfl⟩ : ∃ m, n = m + 1 := ⟨n - 1, by omega⟩
    have hr : s.dev.rdy = true :: rest := by simpa using hr
    have h1 := Device.rdyValue_cons _ _ _ hr
    have h2 := Device.rdyRest_cons _ _ _ hr
    simp [waitRdyLoop, Op.run_bind, hb, h1, h2, rdyEvents]
  | succ k ih =>
    intro n s rest hb hk hr
    obtain ⟨n, rfl⟩ : ∃ m, n = m + 1 := ⟨n - 1, by omega⟩
    have hr : s.dev.rdy = false :: (List.replicate k false ++ true :: rest) := by
      simpa [List.replicate_succ] using hr
    have h1 := Device.rdyValue_cons _ _ _ hr
    have h2 := Device.rdyRest_cons _ _ _ hr
    simp only [waitRdyLoop, Op.run_bind, setPollCnt_run, rdy_run, hb, h1, h2, Bool.false_eq_true, if_false]
    rw [ih n _ rest (by simpa using hb) (by omega) (by simp)]
    have e : n + 1 - (k + 1) = n - k := by omega
    simp [rdyEvents, e, List.replicate_succ, replicate_append_cons]

/-- The device is busy as long as the bound allows. -/
theorem waitRdyLoop_timeout : ∀ (n : Nat) (s : State) (rest : List Bool), s.host.busy = [] →
    s.dev.rdy = List.replicate n false ++ rest →
    waitRdyLoop n s = .error .raised
      (errorEntry .timeout 0
        { s with
          loop := { s.loop with pollCnt := 0 }
          dev := { s.dev with rdy := rest }
          events := List.replicate n (.rdy false) ++ s.events })
  | 0, s, rest, hb, hr => by
    have hr : s.dev.rdy = rest := by simpa using hr
    simp [waitRdyLoop, Op.run_bind, ← hr]
  | n + 1, s, rest, hb, hr => by
    have hr : s.dev.rdy = false :: (List.replicate n false ++ rest) := by
      simpa [List.replicate_succ] using hr
    have h1 := Device.rdyValue_cons _ _ _ hr
    have h2 := Device.rdyRest_cons _ _ _ hr
    simp only [waitRdyLoop, Op.run_bind, setPollCnt_run, rdy_run, hb, h1, h2, Bool.false_eq_true, if_false]
    rw [waitRdyLoop_timeout n _ rest (by simpa using hb) (by simp)]
    simp [List.replicate_succ, replicate_append_cons]

/-- `WaitRdy` when the device is ready in time. -/
theorem waitRdy_ready {s : State} {k : Nat} {rest : List Bool} (hb : s.host.busy = [])
    (hk : k < s.opr.timeout.toNat) (hr : s.dev.rdy = List.replicate k false ++ true :: rest) :
    waitRdy s = .ok ()
      { s with
        loop := { s.loop with pollCnt := BitVec.ofNat 32 (s.opr.timeout.toNat - k) }
        dev := { s.dev with rdy := rest }
        events := (rdyEvents k).reverse ++ s.events } := by
  simp only [waitRdy, Op.run_bind, Op.run_get]
  exact waitRdyLoop_ready k _ s rest hb hk hr

/-- `WaitRdy` when it is not. -/
theorem waitRdy_timeout {s : State} {rest : List Bool} (hb : s.host.busy = [])
    (hr : s.dev.rdy = List.replicate s.opr.timeout.toNat false ++ rest) :
    waitRdy s = .error .raised
      (errorEntry .timeout 0
        { s with
          loop := { s.loop with pollCnt := 0 }
          dev := { s.dev with rdy := rest }
          events := List.replicate s.opr.timeout.toNat (.rdy false) ++ s.events }) := by
  simp only [waitRdy, Op.run_bind, Op.run_get]
  exact waitRdyLoop_timeout _ s rest hb hr

/-! ## The status poll -/

/-- The state after status polls with these answers. -/
def afterStatus (l : List Half) (rest : List Half) (s : State) : State :=
  { s with
    dev := { s.dev with dr := rest }
    res := { s.res with lastStat := lastStatus s.res.lastStat l }
    eccu := s.eccu.absorbBytes (streamBytes s.cfg.params.nandBus16 l)
    events := (statusEvents s.cfg.params l).reverse ++ s.events }

@[simp] theorem afterStatus_host (l rest : List Half) (s : State) : (afterStatus l rest s).host = s.host := rfl
@[simp] theorem afterStatus_cfg (l rest : List Half) (s : State) : (afterStatus l rest s).cfg = s.cfg := rfl
@[simp] theorem afterStatus_opr (l rest : List Half) (s : State) : (afterStatus l rest s).opr = s.opr := rfl
@[simp] theorem afterStatus_geo (l rest : List Half) (s : State) : (afterStatus l rest s).geo = s.geo := rfl
@[simp] theorem afterStatus_dev (l rest : List Half) (s : State) :
    (afterStatus l rest s).dev = { s.dev with dr := rest } := rfl

/-- The state in the middle of a status poll: one iteration done. -/
def statusStep (n : Nat) (v : Half) (rest : List Half) (s : State) : State :=
  { s with
    loop := { s.loop with pollCnt := BitVec.ofNat 32 n }
    dev := { s.dev with dr := rest }
    res := { s.res with lastStat := (v.extractLsb' 0 8).setWidth 32 }
    eccu := s.eccu.absorbCycle s.cfg.params.nandBus16 v
    events := .dr (truncW s.cfg.params.nandBus16 v) :: cleEvent s.cfg.params.cmdStatus :: s.events }

/-- One iteration of the status poll. -/
theorem waitStatusLoop_step (fk : ErrKind) (n : Nat) (s : State) (v : Half) (rest : List Half)
    (hb : s.host.busy = []) (hr : s.dev.dr = v :: rest) :
    waitStatusLoop fk (n + 1) s =
      if v.extractLsb' 0 8 &&& s.cfg.params.stReady ≠ 0 then
        raiseIf (v.extractLsb' 0 8 &&& s.cfg.params.stFail != 0) fk ((v.extractLsb' 0 8).setWidth 32)
          (statusStep (n + 1) v rest s)
      else waitStatusLoop fk n (statusStep (n + 1) v rest s) := by
  have h1 := Device.drValue_cons _ _ _ hr
  have h2 := Device.drRest_cons _ _ _ hr
  simp only [waitStatusLoop, Op.run_bind, setPollCnt_run, params_run, cle_run, hb, readByte_run, h1, h2,
    extractLsb'_truncW, setLastStat_run, EccUnit.absorbCycle_truncW]
  split <;> rfl

theorem statusStep_after (n : Nat) (v : Half) (l rest rest' : List Half) (s : State) :
    afterStatus l rest (statusStep n v rest' s)
      = { afterStatus (v :: l) rest s with loop := { s.loop with pollCnt := BitVec.ofNat 32 n } } := by
  have e : lastStatus ((v.extractLsb' 0 8).setWidth 32) l = lastStatus s.res.lastStat (v :: l) := by
    cases l with
    | nil => rfl
    | cons a l => simp [lastStatus, List.getLast?_cons]
  simp [afterStatus, statusStep, e, statusEvents, streamBytes, EccUnit.absorbBytes_append,
    EccUnit.absorbCycle_eq]

/-- The poll ends with the first answer that shows ready, within the bound; its error bit decides. -/
theorem waitStatusLoop_ready (fk : ErrKind) : ∀ (l : List Half) (n : Nat) (s : State) (v : Half)
    (rest : List Half), s.host.busy = [] → l.length < n → s.dev.dr = l ++ v :: rest →
    (∀ x ∈ l, ¬ statusReady s.cfg.params x) → statusReady s.cfg.params v →
    waitStatusLoop fk n s =
      raiseIf (v.extractLsb' 0 8 &&& s.cfg.params.stFail != 0) fk ((v.extractLsb' 0 8).setWidth 32)
        { afterStatus (l ++ [v]) rest s with
          loop := { s.loop with pollCnt := BitVec.ofNat 32 (n - l.length) } }
  | [], n, s, v, rest, hb, hl, hr, hbusy, hv => by
    obtain ⟨n, rfl⟩ : ∃ m, n = m + 1 := ⟨n - 1, by simp at hl; omega⟩
    have hv : v.extractLsb' 0 8 &&& s.cfg.params.stReady ≠ 0 := hv
    rw [waitStatusLoop_step fk n s v rest hb hr, if_pos hv]
    congr 1
    have := statusStep_after (n + 1) v [] rest rest s
    rw [List.nil_append, List.length_nil, Nat.sub_zero, ← this]
    simp [afterStatus, statusStep, lastStatus, statusEvents, streamBytes]
  | x :: l, n, s, v, rest, hb, hl, hr, hbusy, hv => by
    obtain ⟨n, rfl⟩ : ∃ m, n = m + 1 := ⟨n - 1, by simp at hl; omega⟩
    have hx : ¬ (x.extractLsb' 0 8 &&& s.cfg.params.stReady ≠ 0) := hbusy x (by simp)
    rw [waitStatusLoop_step fk n s x (l ++ v :: rest) hb hr, if_neg hx]
    rw [waitStatusLoop_ready fk l n (statusStep (n + 1) x (l ++ v :: rest) s) v rest hb (by simpa using hl) rfl
      (fun y hy => hbusy y (by simp [hy])) hv, statusStep_after]
    have e : n + 1 - (x :: l).length = n - l.length := by simp
    rw [e]
    rfl

/-- No answer within the bound shows ready. -/
theorem waitStatusLoop_timeout (fk : ErrKind) : ∀ (l : List Half) (s : State) (rest : List Half),
    s.host.busy = [] → s.dev.dr = l ++ rest → (∀ x ∈ l, ¬ statusReady s.cfg.params x) →
    waitStatusLoop fk l.length s = .error .raised
      (errorEntry .timeout 0
        { afterStatus l rest s with loop := { s.loop with pollCnt := 0 } })
  | [], s, rest, hb, hr, _ => by
    have hr : s.dev.dr = rest := by simpa using hr
    simp [waitStatusLoop, Op.run_bind, ← hr, afterStatus, lastStatus, statusEvents, streamBytes]
  | x :: l, s, rest, hb, hr, hbusy => by
    have hx : ¬ (x.extractLsb' 0 8 &&& s.cfg.params.stReady ≠ 0) := hbusy x (by simp)
    rw [List.length_cons, waitStatusLoop_step fk l.length s x (l ++ rest) hb hr, if_neg hx]
    rw [waitStatusLoop_timeout fk l (statusStep (l.length + 1) x (l ++ rest) s) rest hb rfl
      (fun y hy => hbusy y (by simp [hy])), statusStep_after]
    rfl

end Sys2Proof.Machine
end

