-- ==== Sys2Proof/Laws/Ecc.lean ====
section
/-! SUPPORT. The ECC unit: what absorbing bytes adds to the accumulator (`42_ecc.md` R160, R161), which
bits can be non-zero, and the layout of the stored word (R168, R170). -/

namespace Sys2Proof.Machine

/-! ## Absorbing is adding -/

/-- What the listed bits of a byte at bit address `pos` contribute. -/
theorem absorbBits_acc (d : Byte) (pos : BitVec 12) : ∀ (bs : List Nat) (acc : Word),
    absorbBits d pos bs acc = acc ^^^ absorbBits d pos bs 0
  | [], acc => by simp [absorbBits]
  | b :: bs, acc => by
    simp only [absorbBits]
    rw [absorbBits_acc d pos bs (if d.getLsbD b then acc ^^^ _ else acc),
      absorbBits_acc d pos bs (if d.getLsbD b then 0 ^^^ _ else 0)]
    split <;> simp [BitVec.xor_assoc]

/-- The bits of the XOR of two bytes contribute the XOR of what the bytes' bits contribute. -/
theorem absorbBits_xor (d d' : Byte) (pos : BitVec 12) : ∀ bs : List Nat,
    absorbBits (d ^^^ d') pos bs 0 = absorbBits d pos bs 0 ^^^ absorbBits d' pos bs 0
  | [] => by simp [absorbBits]
  | b :: bs => by
    simp only [absorbBits, BitVec.getLsbD_xor]
    rw [absorbBits_acc (d ^^^ d'), absorbBits_acc d, absorbBits_acc d', absorbBits_xor d d' pos bs]
    generalize absorbBits d pos bs 0 = x
    generalize absorbBits d' pos bs 0 = y
    generalize contrib (pos + BitVec.ofNat 12 b) = c
    have e1 : c ^^^ (x ^^^ y) = c ^^^ x ^^^ y := (BitVec.xor_assoc _ _ _).symm
    have e2 : x ^^^ (c ^^^ y) = c ^^^ (x ^^^ y) := by
      rw [← BitVec.xor_assoc, BitVec.xor_comm x c, BitVec.xor_assoc]
    have e3 : c ^^^ x ^^^ (c ^^^ y) = x ^^^ y := by
      rw [BitVec.xor_comm c x, BitVec.xor_assoc, ← BitVec.xor_assoc c c y, BitVec.xor_self, BitVec.zero_xor]
    cases d.getLsbD b <;> cases d'.getLsbD b <;> simp [e1, e2, e3]

/-- What a byte at bit address `pos` contributes. -/
def byteEcc (d : Byte) (pos : BitVec 12) : Word := absorbBits d pos [0, 1, 2, 3, 4, 5, 6, 7] 0

theorem byteEcc_xor (d d' : Byte) (pos : BitVec 12) :
    byteEcc (d ^^^ d') pos = byteEcc d pos ^^^ byteEcc d' pos := absorbBits_xor d d' pos _

@[simp] theorem byteEcc_zero (pos : BitVec 12) : byteEcc 0 pos = 0 := by
  simp [byteEcc, absorbBits]

theorem getLsbD_bit : ∀ b < 8, ∀ i < 8, ((1 : Byte) <<< b).getLsbD i = decide (i = b) := by decide

/-- A byte with the single bit `b` set contributes the address of that bit. -/
theorem byteEcc_single (b : Nat) (hb : b < 8) (pos : BitVec 12) :
    byteEcc ((1 : Byte) <<< b) pos = contrib (pos + BitVec.ofNat 12 b) := by
  have h := getLsbD_bit b hb
  have h' : b = 0 ∨ b = 1 ∨ b = 2 ∨ b = 3 ∨ b = 4 ∨ b = 5 ∨ b = 6 ∨ b = 7 := by omega
  simp only [byteEcc, absorbBits, h 0 (by omega), h 1 (by omega), h 2 (by omega), h 3 (by omega),
    h 4 (by omega), h 5 (by omega), h 6 (by omega), h 7 (by omega)]
  rcases h' with rfl | rfl | rfl | rfl | rfl | rfl | rfl | rfl <;> simp

/-- What a byte stream from bit address `pos` on contributes. -/
def streamEcc : BitVec 12 → List Byte → Word
  | _, [] => 0
  | pos, d :: l => byteEcc d pos ^^^ streamEcc (pos + 8) l

/-- The accumulator after a stream: what it held, and what the stream adds. -/
theorem absorbBytes_acc (l : List Byte) : ∀ e : EccUnit, e.run = true →
    e.absorbBytes l = { e with acc := e.acc ^^^ streamEcc e.bitPos l
                               bitPos := e.bitPos + BitVec.ofNat 12 (8 * l.length) } := by
  induction l with
  | nil => intro e _; simp [streamEcc]
  | cons d l ih =>
    intro e h
    have h1 : e.absorb d = { e with acc := e.acc ^^^ byteEcc d e.bitPos, bitPos := e.bitPos + 8 } := by
      simp only [EccUnit.absorb, h, if_true]
      rw [absorbBits_acc]
      rfl
    rw [EccUnit.absorbBytes_cons, ih _ (by simpa using h), h1]
    have e8 : e.bitPos + 8 + BitVec.ofNat 12 (8 * l.length) = e.bitPos + BitVec.ofNat 12 (8 * (l.length + 1)) := by
      rw [BitVec.add_assoc]
      congr 1
      apply BitVec.eq_of_toNat_eq
      simp [BitVec.toNat_add]
      omega
    simp only [streamEcc, List.length_cons, e8]
    rw [BitVec.xor_assoc]

/-- An accumulator that is not running ignores the stream. -/
theorem absorbBytes_stopped (l : List Byte) : ∀ e : EccUnit, e.run = false → e.absorbBytes l = e := by
  induction l with
  | nil => intro e _; rfl
  | cons d l ih =>
    intro e h
    have h1 : e.absorb d = e := by simp [EccUnit.absorb, h]
    rw [EccUnit.absorbBytes_cons, h1, ih e h]

/-- `E(x)` is the sum over the stream from bit address 0 on. -/
theorem eccOfBytes_eq (l : List Byte) : eccOfBytes l = streamEcc 0 l := by
  have h := absorbBytes_acc l ⟨0, 0, true, 0⟩ rfl
  show (EccUnit.absorbBytes ⟨0, 0, true, 0⟩ l).acc = _
  rw [h]
  simp

/-- After a restart, the accumulator holds the ECC of what was absorbed since. -/
theorem absorbBytes_restarted_acc (mask : Word) (l : List Byte) :
    (EccUnit.absorbBytes ⟨0, 0, true, mask⟩ l).acc = eccOfBytes l := by
  rw [absorbBytes_acc l _ rfl, eccOfBytes_eq]
  simp

theorem streamEcc_append (l l' : List Byte) : ∀ pos,
    streamEcc pos (l ++ l') = streamEcc pos l ^^^ streamEcc (pos + BitVec.ofNat 12 (8 * l.length)) l' := by
  induction l with
  | nil => intro pos; simp [streamEcc]
  | cons d l ih =>
    intro pos
    have e8 : pos + 8 + BitVec.ofNat 12 (8 * l.length) = pos + BitVec.ofNat 12 (8 * (l.length + 1)) := by
      rw [BitVec.add_assoc]
      congr 1
      apply BitVec.eq_of_toNat_eq
      simp [BitVec.toNat_add]
      omega
    simp only [List.cons_append, streamEcc, ih, List.length_cons, e8, BitVec.xor_assoc]

/-! ## The bits that can be non-zero -/

theorem xor_and (x y m : Word) : (x ^^^ y) &&& m = (x &&& m) ^^^ (y &&& m) := by
  apply BitVec.eq_of_getLsbD_eq
  intro i _
  simp only [BitVec.getLsbD_and, BitVec.getLsbD_xor]
  cases x.getLsbD i <;> cases y.getLsbD i <;> cases m.getLsbD i <;> rfl

theorem contrib_bits (a : BitVec 12) : contrib a &&& 0xF000F000 = 0 := by
  apply BitVec.eq_of_getLsbD_eq
  intro i hi
  simp only [contrib, BitVec.getLsbD_and, BitVec.getLsbD_or, BitVec.getLsbD_shiftLeft, BitVec.getLsbD_setWidth,
    BitVec.getLsbD_not]
  interval_cases i <;> simp

theorem absorbBits_bits (d : Byte) (pos : BitVec 12) : ∀ (bs : List Nat) (acc : Word),
    acc &&& 0xF000F000 = 0 → absorbBits d pos bs acc &&& 0xF000F000 = 0
  | [], _, h => h
  | b :: bs, acc, h => by
    refine absorbBits_bits d pos bs _ ?_
    split
    · rw [xor_and, h, contrib_bits]
      rfl
    · exact h

theorem absorb_bits (e : EccUnit) (d : Byte) (h : e.acc &&& 0xF000F000 = 0) :
    (e.absorb d).acc &&& 0xF000F000 = 0 := by
  unfold EccUnit.absorb
  split
  · exact absorbBits_bits d _ _ _ h
  · exact h

/-! ## The stored word -/

/-- The byte swap undoes itself. -/
theorem bswap32_bswap32 (w : Word) : bswap32 (bswap32 w) = w := by
  apply BitVec.eq_of_getLsbD_eq
  intro i hi
  simp only [bswap32, BitVec.getLsbD_append, BitVec.getLsbD_extractLsb']
  interval_cases i <;> simp

theorem and_and_mask (v mask bits : Word) (h : mask &&& bits = 0) : (v &&& mask) &&& bits = 0 := by
  rw [BitVec.and_assoc, h]
  exact BitVec.and_zero

end Sys2Proof.Machine
end

