-- ==== Sys2Proof/Laws/Memory.lean ====
section
/-! SUPPORT. Byte memory: what a read sees after a write, and that every operation keeps the canonical
form and the address bound. -/

namespace Sys2Proof.Machine

theorem Memory.wfFrom_mono {lo lo' : Nat} (h : lo ≤ lo') :
    ∀ m : Memory, Memory.wfFrom lo' m = true → Memory.wfFrom lo m = true
  | [], _ => rfl
  | (a, b) :: rest, hm => by
    simp only [Memory.wfFrom, Bool.and_eq_true, decide_eq_true_eq] at hm ⊢
    exact ⟨⟨by omega, hm.1.2⟩, hm.2⟩

/-- In a canonical memory that begins at `lo`, an address below `lo` is unlisted. -/
theorem Memory.readByte_below {lo n : Nat} (h : n < lo) :
    ∀ m : Memory, Memory.wfFrom lo m = true → m.readByte n = Memory.unlisted
  | [], _ => rfl
  | (a, b) :: rest, hm => by
    simp only [Memory.wfFrom, Bool.and_eq_true, decide_eq_true_eq] at hm
    have hne : a ≠ n := by omega
    simp only [Memory.readByte, hne, if_false]
    exact Memory.readByte_below (by omega) rest hm.2

/-- A write leaves every other byte alone, in any memory. -/
theorem Memory.readByte_writeByte_other (n n' : Nat) (v : Byte) (h : n' ≠ n) :
    ∀ m : Memory, (m.writeByte n v).readByte n' = m.readByte n'
  | [] => by
    unfold Memory.writeByte
    split
    · rfl
    · simp [Memory.readByte, Ne.symm h]
  | (a, b) :: rest => by
    unfold Memory.writeByte
    split
    · split
      · rfl
      · simp [Memory.readByte, Ne.symm h]
    · split
      · next h2 =>
        subst h2
        split <;> simp [Memory.readByte, Ne.symm h]
      · simp only [Memory.readByte]
        split
        · rfl
        · exact Memory.readByte_writeByte_other n n' v h rest

/-- A byte written reads back, in a canonical memory. -/
theorem Memory.readByte_writeByte_from (n : Nat) (v : Byte) :
    ∀ (lo : Nat) (m : Memory), Memory.wfFrom lo m = true → (m.writeByte n v).readByte n = v
  | _, [], _ => by
    unfold Memory.writeByte
    split
    · next h => subst h; rfl
    · simp [Memory.readByte]
  | lo, (a, b) :: rest, hm => by
    have hm' := hm
    simp only [Memory.wfFrom, Bool.and_eq_true, decide_eq_true_eq] at hm
    unfold Memory.writeByte
    split
    · next hlt =>
      split
      · next h =>
        subst h
        have hne : a ≠ n := by omega
        simp only [Memory.readByte, hne, if_false]
        exact Memory.readByte_below (by omega) rest hm.2
      · simp [Memory.readByte]
    · split
      · next heq =>
        subst heq
        split
        · next h => subst h; exact Memory.readByte_below (by omega) rest hm.2
        · simp [Memory.readByte]
      · next hne =>
        have hne' : a ≠ n := fun h => hne h.symm
        simp only [Memory.readByte, hne', if_false]
        exact Memory.readByte_writeByte_from n v (a + 1) rest hm.2

theorem Memory.readByte_writeByte_same (m : Memory) (n : Nat) (v : Byte) (h : m.wf = true) :
    (m.writeByte n v).readByte n = v :=
  Memory.readByte_writeByte_from n v 0 m h

theorem Memory.wfFrom_writeByte (n : Nat) (v : Byte) :
    ∀ (lo : Nat) (m : Memory), lo ≤ n → Memory.wfFrom lo m = true →
      Memory.wfFrom lo (m.writeByte n v) = true
  | lo, [], hn, _ => by
    unfold Memory.writeByte
    split
    · rfl
    · next h => simp [Memory.wfFrom, hn, h]
  | lo, (a, b) :: rest, hn, hm => by
    have hm' := hm
    simp only [Memory.wfFrom, Bool.and_eq_true, decide_eq_true_eq] at hm
    unfold Memory.writeByte
    split
    · next hlt =>
      split
      · exact hm'
      · next h =>
        simp only [Memory.wfFrom, Bool.and_eq_true, decide_eq_true_eq]
        exact ⟨⟨hn, h⟩, ⟨by omega, hm.1.2⟩, hm.2⟩
    · split
      · next heq =>
        subst heq
        split
        · exact Memory.wfFrom_mono (by omega) rest hm.2
        · next h =>
          simp only [Memory.wfFrom, Bool.and_eq_true, decide_eq_true_eq]
          exact ⟨⟨hn, h⟩, hm.2⟩
      · next hne =>
        simp only [Memory.wfFrom, Bool.and_eq_true, decide_eq_true_eq]
        exact ⟨hm.1, Memory.wfFrom_writeByte n v (a + 1) rest (by omega) hm.2⟩

/-- A one-byte write keeps the canonical form. -/
theorem Memory.wf_writeByte (m : Memory) (n : Nat) (v : Byte) (h : m.wf = true) :
    (m.writeByte n v).wf = true :=
  Memory.wfFrom_writeByte n v 0 m (Nat.zero_le n) h

/-- A write below the bound keeps the address bound. -/
theorem Memory.below_writeByte (k n : Nat) (v : Byte) (hn : n < k) :
    ∀ m : Memory, Memory.below k m = true → Memory.below k (m.writeByte n v) = true
  | [], _ => by
    unfold Memory.writeByte
    split <;> simp [Memory.below, hn]
  | (a, b) :: rest, hm => by
    have hcons : a < k ∧ Memory.below k rest = true := by
      simpa [Memory.below] using hm
    unfold Memory.writeByte
    split
    · split
      · exact hm
      · simpa [Memory.below, hn] using hm
    · split
      · split
        · exact hcons.2
        · have h := hcons.2
          simp only [Memory.below] at h
          simp [Memory.below, hn, h]
      · have h := Memory.below_writeByte k n v hn rest hcons.2
        simp only [Memory.below] at h
        simp [Memory.below, hcons.1, h]

/-- A wide write keeps the canonical form. -/
theorem Memory.wf_writeLE (a : Word) :
    ∀ (n : Nat) (m : Memory) (v : Word) , m.wf = true → (m.writeLE a n v).wf = true
  | 0, _, _, h => h
  | n + 1, m, v, h =>
    Memory.wf_writeLE (a + 1) n (m.writeByte a.toNat (v.setWidth 8)) (v >>> 8)
      (Memory.wf_writeByte m _ _ h)

/-- A wide write keeps host memory within 32-bit addresses. -/
theorem Memory.below_writeLE (a : Word) :
    ∀ (n : Nat) (m : Memory) (v : Word), m.below (2 ^ 32) = true →
      (m.writeLE a n v).below (2 ^ 32) = true
  | 0, _, _, h => h
  | n + 1, m, v, h =>
    Memory.below_writeLE (a + 1) n (m.writeByte a.toNat (v.setWidth 8)) (v >>> 8)
      (Memory.below_writeByte _ _ _ a.isLt m h)

/-- A wide write leaves every byte outside its range alone. -/
theorem Memory.readByte_writeLE_other :
    ∀ (n : Nat) (a : Word) (m : Memory) (v : Word) (x : Nat),
      (∀ j < n, (a + BitVec.ofNat 32 j).toNat ≠ x) → (m.writeLE a n v).readByte x = m.readByte x
  | 0, _, _, _, _, _ => rfl
  | n + 1, a, m, v, x, h => by
    have h0 : a.toNat ≠ x := by simpa using h 0 (by omega)
    rw [Memory.writeLE, Memory.readByte_writeLE_other n (a + 1) _ _ x]
    · exact Memory.readByte_writeByte_other _ _ _ (Ne.symm h0) m
    · intro j hj
      have := h (j + 1) (by omega)
      rw [show BitVec.ofNat 32 (j + 1) = 1 + BitVec.ofNat 32 j by
        rw [Nat.add_comm, BitVec.ofNat_add]; rfl, ← BitVec.add_assoc] at this
      exact this

/-- A one-byte read of the little-endian operation is the byte there. -/
theorem Memory.readLE_one (m : Memory) (a : Word) :
    m.readLE a 1 = (m.readByte a.toNat).setWidth 32 := by
  simp [Memory.readLE]

/-- A one-byte write of the little-endian operation is the byte write. -/
theorem Memory.writeLE_one (m : Memory) (a v : Word) :
    m.writeLE a 1 v = m.writeByte a.toNat (v.setWidth 8) := rfl

end Sys2Proof.Machine
end

