-- ==== Sys2Proof/Laws/Stream.lean ====
section
/-! SUPPORT. The byte streams in a quiet environment (`40_bus_access.md` R115): what each leaves in the
accumulator, in memory and in the trace. -/

namespace Sys2Proof.Machine

/-! ## Lists of cycles and bytes -/

@[simp] theorem streamBytes_nil (b : Bool) : streamBytes b [] = [] := rfl

@[simp] theorem streamBytes_cons (b : Bool) (v : Half) (l : List Half) :
    streamBytes b (v :: l) = cycleBytes b v ++ streamBytes b l := rfl

theorem streamBytes_append (b : Bool) (l l' : List Half) :
    streamBytes b (l ++ l') = streamBytes b l ++ streamBytes b l' := by
  simp [streamBytes]

theorem streamBytes_length (b : Bool) (l : List Half) :
    (streamBytes b l).length = (if b then 2 else 1) * l.length := by
  induction l with
  | nil => cases b <;> rfl
  | cons v l ih =>
    rw [streamBytes_cons, List.length_append, ih, List.length_cons]
    cases b <;> simp only [cycleBytes] <;> simp <;> omega

/-- The bytes of the cycles that carry a stream are the stream. -/
theorem streamBytes_byteCycles (b : Bool) : ∀ l : List Byte, (b = true → l.length % 2 = 0) →
    streamBytes b (byteCycles b l) = l
  | [], _ => rfl
  | [d], h => by
    cases b
    · simp [byteCycles, cycleBytes]
      ext i hi; simp [hi]; omega
    · simp at h
  | d :: d' :: l, h => by
    cases b
    · have ih := streamBytes_byteCycles false (d' :: l) (by simp)
      have e : (d.setWidth 16).extractLsb' 0 8 = d := by ext i hi; simp [hi]; omega
      simp only [byteCycles, Bool.false_eq_true, if_false, streamBytes_cons, ih]
      simp [cycleBytes, e]
    · have hl : l.length % 2 = 0 := by have := h rfl; simp at this; omega
      have ih := streamBytes_byteCycles true l (fun _ => hl)
      have e1 : (d' ++ d).extractLsb' 0 8 = d := by
        apply BitVec.eq_of_getLsbD_eq
        intro i hi
        have := BitVec.getLsbD_append (x := d') (y := d) (i := i)
        rw [BitVec.getLsbD_extractLsb']
        simp only [hi, if_true, decide_true, Bool.true_and, Nat.zero_add] at this ⊢
        exact this
      have e2 : (d' ++ d).extractLsb' 8 8 = d' := by
        apply BitVec.eq_of_getLsbD_eq
        intro i hi
        have := BitVec.getLsbD_append (x := d') (y := d) (i := 8 + i)
        rw [BitVec.getLsbD_extractLsb']
        have e : ¬ 8 + i < 8 := by omega
        have e' : 8 + i - 8 = i := by omega
        simp only [hi, e, e', if_false, decide_true, Bool.true_and] at this ⊢
        exact this
      simp only [byteCycles, if_true, streamBytes_cons, ih, cycleBytes, e1, e2]
      rfl

theorem byteCycles_length_false (l : List Byte) : (byteCycles false l).length = l.length := by
  induction l with
  | nil => rfl
  | cons d l ih =>
    cases l with
    | nil => rfl
    | cons d' l => simpa [byteCycles] using ih

@[simp] theorem byteCycles_false (l : List Byte) : byteCycles false l = l.map (·.setWidth 16) := by
  induction l with
  | nil => rfl
  | cons d l ih =>
    cases l with
    | nil => rfl
    | cons d' l => simpa [byteCycles] using ih

/-! ## Bytes into memory -/

/-- Bytes stored one after the other, addresses modulo 2^32 (`20_memory.md` R60). -/
def Memory.writeBytesAt (m : Memory) (a : Word) : List Byte → Memory
  | [] => m
  | d :: l => Memory.writeBytesAt (m.writeByte a.toNat d) (a + 1) l

@[simp] theorem Memory.writeBytesAt_nil (m : Memory) (a : Word) : m.writeBytesAt a [] = m := rfl

theorem Memory.writeBytesAt_append (l l' : List Byte) : ∀ (m : Memory) (a : Word),
    m.writeBytesAt a (l ++ l')
      = (m.writeBytesAt a l).writeBytesAt (a + BitVec.ofNat 32 l.length) l' := by
  induction l with
  | nil => intro m a; simp
  | cons d l ih =>
    intro m a
    have e : a + 1 + BitVec.ofNat 32 l.length = a + BitVec.ofNat 32 (l.length + 1) := by
      rw [BitVec.add_assoc, Nat.add_comm l.length 1, BitVec.ofNat_add]
      rfl
    simp only [List.cons_append, Memory.writeBytesAt, ih, List.length_cons, e]

/-- A store of one byte. -/
theorem Memory.writeLE_byte (m : Memory) (a : Word) (d : Half) :
    m.writeLE a 1 (d.setWidth 32) = m.writeBytesAt a [d.extractLsb' 0 8] := by
  have e : (d.setWidth 32).setWidth 8 = d.extractLsb' 0 8 := by
    ext i hi; simp
  simp only [Memory.writeLE, Memory.writeBytesAt, e]

/-- A store of the two bytes of a half-word. -/
theorem Memory.writeLE_half (m : Memory) (a : Word) (d : Half) :
    m.writeLE a 2 (d.setWidth 32) = m.writeBytesAt a [d.extractLsb' 0 8, d.extractLsb' 8 8] := by
  have e : (d.setWidth 32).setWidth 8 = d.extractLsb' 0 8 := by
    ext i hi; simp
  have e' : (d.setWidth 32 >>> 8).setWidth 8 = d.extractLsb' 8 8 := by
    apply BitVec.eq_of_getLsbD_eq
    intro i hi
    simp [hi]
    omega
  simp only [Memory.writeLE, Memory.writeBytesAt, e, e']

theorem Memory.wf_writeBytesAt (l : List Byte) : ∀ (m : Memory) (a : Word), m.wf = true →
    (m.writeBytesAt a l).wf = true := by
  induction l with
  | nil => intro m a h; exact h
  | cons d l ih => intro m a h; exact ih _ _ (Memory.wf_writeByte _ _ _ h)

/-- Bytes outside the stored range are left alone. -/
theorem Memory.readByte_writeBytesAt_other (l : List Byte) : ∀ (m : Memory) (a : Word) (x : Nat),
    (∀ j < l.length, bufAddr a j ≠ x) → (m.writeBytesAt a l).readByte x = m.readByte x := by
  induction l with
  | nil => intro m a x _; rfl
  | cons d l ih =>
    intro m a x h
    have h0 : a.toNat ≠ x := by simpa [bufAddr] using h 0 (by simp)
    rw [Memory.writeBytesAt, ih]
    · exact Memory.readByte_writeByte_other _ _ _ (Ne.symm h0) m
    · intro j hj
      have := h (j + 1) (by simpa using hj)
      have e : a + 1 + BitVec.ofNat 32 j = a + BitVec.ofNat 32 (j + 1) := by
        rw [BitVec.add_assoc, Nat.add_comm j 1, BitVec.ofNat_add]
        rfl
      simpa only [bufAddr, e] using this

theorem bufAddr_inj (a : Word) {i j : Nat} (hi : i < 2 ^ 32) (hj : j < 2 ^ 32)
    (h : bufAddr a i = bufAddr a j) : i = j := by
  simp only [bufAddr] at h
  have h := BitVec.eq_of_toNat_eq h
  have h := BitVec.add_right_inj a |>.mp h
  have h := congrArg BitVec.toNat h
  rw [BitVec.toNat_ofNat, BitVec.toNat_ofNat, Nat.mod_eq_of_lt hi, Nat.mod_eq_of_lt hj] at h
  exact h

theorem bufAddr_succ (a : Word) (j : Nat) : bufAddr (a + 1) j = bufAddr a (j + 1) := by
  have e : a + 1 + BitVec.ofNat 32 j = a + BitVec.ofNat 32 (j + 1) := by
    rw [BitVec.add_assoc, Nat.add_comm j 1, BitVec.ofNat_add]
    rfl
  simp only [bufAddr, e]

/-- Bytes stored read back, in a canonical memory. -/
theorem Memory.readByte_writeBytesAt (l : List Byte) : ∀ (m : Memory) (a : Word), m.wf = true →
    l.length ≤ 2 ^ 32 → ∀ j < l.length, (m.writeBytesAt a l).readByte (bufAddr a j) = l.getD j 0 := by
  induction l with
  | nil => intro m a _ _ j hj; simp at hj
  | cons d l ih =>
    intro m a h hl j hj
    simp at hj hl
    cases j with
    | zero =>
      rw [Memory.writeBytesAt, Memory.readByte_writeBytesAt_other]
      · have e : bufAddr a 0 = a.toNat := by simp [bufAddr]
        rw [e, Memory.readByte_writeByte_same _ _ _ h]
        rfl
      · intro i hi he
        rw [bufAddr_succ] at he
        have := bufAddr_inj a (by omega) (by omega) he
        omega
    | succ j =>
      rw [Memory.writeBytesAt, ← bufAddr_succ, ih _ _ (Memory.wf_writeByte _ _ _ h) (by omega) j (by omega)]
      rfl

end Sys2Proof.Machine
end

