-- ==== Sys2Proof/Laws/Transfer.lean ====
section
/-! SUPPORT. The four byte-stream operations in a quiet environment (`40_bus_access.md` R115). -/

namespace Sys2Proof.Machine

/-- One of two things, by the space a transfer addresses. -/
def Space.pick {α : Type} (t : Space) (host page : α) : α :=
  match t with
  | .host => host
  | .page => page

@[simp] theorem Space.pick_host {α : Type} (a b : α) : Space.host.pick a b = a := rfl
@[simp] theorem Space.pick_page {α : Type} (a b : α) : Space.page.pick a b = b := rfl

@[simp] theorem filter_append_onBus (l l' : List Event) :
    (l ++ l').filter Event.onBus = l.filter Event.onBus ++ l'.filter Event.onBus := List.filter_append l l'

/-! ## Reading into memory -/

/-- The state after cycles `l` have been read into space `t` at `a`; `ev` is what the trace gains. -/
def afterRead (t : Space) (a : Word) (l rest : List Half) (ev : List Event) (s : State) : State :=
  { s with
    dev := { s.dev with dr := rest }
    eccu := s.eccu.absorbBytes (streamBytes s.cfg.params.nandBus16 l)
    mem := t.pick (s.mem.writeBytesAt a (streamBytes s.cfg.params.nandBus16 l)) s.mem
    pageBuf := t.pick s.pageBuf (s.pageBuf.writeBytesAt a (streamBytes s.cfg.params.nandBus16 l))
    loop := { s.loop with xferCnt := 0 }
    events := ev ++ s.events }

theorem Memory.writeLE_cycle (m : Memory) (a : Word) (b : Bool) (d : Half) :
    m.writeLE a (if b then 2 else 1) ((truncW b d).setWidth 32) = m.writeBytesAt a (cycleBytes b d) := by
  cases b
  · rw [if_neg (by simp), Memory.writeLE_byte, extractLsb'_truncW]
    rfl
  · rw [if_pos rfl, truncW, if_pos rfl, Memory.writeLE_half]
    rfl

theorem cycleBytes_length (b : Bool) (v : Half) : (cycleBytes b v).length = if b then 2 else 1 := by
  cases b <;> rfl

/-- The transfer loop of a read. -/
theorem readLoop_run (t : Space) (u : Nat) (addr : Nat → Word) : ∀ (l : List Half) (k : Nat) (s : State)
    (rest : List Half), s.host.busy = [] → s.dev.dr = l ++ rest → u = (if s.cfg.params.nandBus16 then 2 else 1) →
    (∀ j, addr (j + 1) = addr j + BitVec.ofNat 32 u) →
    ∃ ev, transfer u (fun k => do
        let d ← datR
        memWrite t (addr k) u (d.setWidth 32)) k l.length s
      = .ok () (afterRead t (addr k) l rest ev s)
      ∧ ev.filter Event.onBus = (drEvents s.cfg.params.nandBus16 l).reverse
  | [], k, s, rest, hb, hr, hu, ha => by
    have hr : s.dev.dr = rest := by simpa using hr
    refine ⟨[], ?_, rfl⟩
    rw [List.length_nil, transfer_zero, setXferCnt_run]
    cases t <;> simp [afterRead, ← hr]
  | v :: l, k, s, rest, hb, hr, hu, ha => by
    have h1 := Device.drValue_cons _ _ _ (show s.dev.dr = v :: (l ++ rest) from hr)
    have h2 := Device.drRest_cons _ _ _ (show s.dev.dr = v :: (l ++ rest) from hr)
    let b := s.cfg.params.nandBus16
    -- one round
    have hround : ∃ ev0, (fun k => do
          let d ← datR
          memWrite t (addr k) u (d.setWidth 32) : Nat → Op Unit) k (withXfer ((l.length + 1) * u) s)
        = .ok () { afterRead t (addr k) [v] (l ++ rest) ev0 s with
                   loop := { s.loop with xferCnt := BitVec.ofNat 32 ((l.length + 1) * u) } }
        ∧ ev0.filter Event.onBus = [.dr (truncW b v)] := by
      cases t
      · refine ⟨[.mw (addr k) u ((truncW b v).setWidth 32), .dr (truncW b v)], ?_, rfl⟩
        simp only [Op.run_bind]
        rw [datR_run (by simpa [withXfer] using hb)]
        simp only []
        rw [memWrite_host_run (by simpa [withXfer] using hb)]
        have e := Memory.writeLE_cycle s.mem (addr k) s.cfg.params.nandBus16 v
        rw [← hu] at e
        simp [withXfer, afterRead, h1, h2, b, e, EccUnit.absorbCycle_eq]
      · refine ⟨[.dr (truncW b v)], ?_, rfl⟩
        simp only [Op.run_bind]
        rw [datR_run (by simpa [withXfer] using hb)]
        simp only []
        rw [memWrite_page_run]
        have e := Memory.writeLE_cycle s.pageBuf (addr k) s.cfg.params.nandBus16 v
        rw [← hu] at e
        simp [withXfer, afterRead, h1, h2, b, e, EccUnit.absorbCycle_eq]
    obtain ⟨ev0, h3, h4⟩ := hround
    obtain ⟨ev, h5, h6⟩ := readLoop_run t u addr l (k + 1)
      { afterRead t (addr k) [v] (l ++ rest) ev0 s with
        loop := { s.loop with xferCnt := BitVec.ofNat 32 ((l.length + 1) * u) } } rest
      hb rfl hu ha
    refine ⟨ev ++ ev0, ?_, ?_⟩
    · have e0 : setXferCnt ((l.length + 1) * u) s = .ok () (withXfer ((l.length + 1) * u) s) := rfl
      rw [List.length_cons, transfer_succ, Op.bind_ok e0, Op.bind_ok h3, h5]
      have e : addr (k + 1) = addr k + BitVec.ofNat 32 (cycleBytes s.cfg.params.nandBus16 v).length := by
        rw [ha, cycleBytes_length, hu]
      cases t <;>
        simp [afterRead, EccUnit.absorbBytes_append, Memory.writeBytesAt_append, e]
    · rw [filter_append_onBus, h6, h4]
      simp [drEvents, afterRead, b]

/-- `ReadBytes_T`: `l` are the device's answers. -/
theorem readBytes_run (t : Space) (dst : Word) (n : Nat) {s : State} {l rest : List Half} (hb : s.host.busy = [])
    (hr : s.dev.dr = l ++ rest) (hn : (streamBytes s.cfg.params.nandBus16 l).length = n) :
    ∃ ev, readBytes t dst n s = .ok () (afterRead t dst l rest ev s)
      ∧ ev.filter Event.onBus = (drEvents s.cfg.params.nandBus16 l).reverse := by
  rw [streamBytes_length] at hn
  unfold readBytes
  rw [Op.bind_ok (params_run s)]
  cases hw : s.cfg.params.nandBus16 with
  | true =>
    have e : n / 2 = l.length := by simp [hw] at hn; omega
    obtain ⟨ev, h1, h2⟩ := readLoop_run t 2 (fun k => dst + BitVec.ofNat 32 (2 * k)) l 0 s rest hb hr
      (by simp [hw]) (fun j => by
        rw [BitVec.add_assoc, ← BitVec.ofNat_add, Nat.mul_succ])
    refine ⟨ev, ?_, by rw [h2, hw]⟩
    simp only [if_true, e]
    rw [h1]
    simp
  | false =>
    have e : n = l.length := by simp [hw] at hn; omega
    obtain ⟨ev, h1, h2⟩ := readLoop_run t 1 (fun k => dst + BitVec.ofNat 32 k) l 0 s rest hb hr
      (by simp [hw]) (fun j => by
        rw [BitVec.add_assoc, ← BitVec.ofNat_add])
    refine ⟨ev, ?_, by rw [h2, hw]⟩
    simp only [Bool.false_eq_true, if_false, e]
    rw [h1]
    simp

/-! ## Writing from memory or from a list -/

/-- The state after a stream of bytes has been sent; `ev` is what the trace gains. -/
def afterWrite (l : List Byte) (ev : List Event) (s : State) : State :=
  { s with
    eccu := s.eccu.absorbBytes l
    loop := { s.loop with xferCnt := 0 }
    events := ev ++ s.events }

/-- A transfer loop that sends data cycles: `cyc k` is the cycle of round `k`, and what a round may put
in the trace before it is no bus event. -/
theorem writeLoop_run (u : Nat) (f : Nat → Op Unit) (cyc : Nat → Half) (pre : Nat → List Event)
    (hpre : ∀ k, (pre k).filter Event.onBus = []) : ∀ (n k : Nat) (s : State), s.host.busy = [] →
    (∀ j s', k ≤ j → j < k + n → s'.host.busy = [] → s'.cfg = s.cfg → s'.mem = s.mem → f j s' = .ok ()
      { s' with
        events := .dw (truncW s.cfg.params.nandBus16 (cyc j)) :: (pre j ++ s'.events)
        eccu := s'.eccu.absorbCycle s.cfg.params.nandBus16 (cyc j) }) →
    ∃ ev, transfer u f k n s = .ok ()
        (afterWrite (streamBytes s.cfg.params.nandBus16 ((List.range' k n).map cyc)) ev s)
      ∧ ev.filter Event.onBus
          = ((List.range' k n).map fun k => Event.dw (truncW s.cfg.params.nandBus16 (cyc k))).reverse
  | 0, k, s, hb, _ => ⟨[], by rw [transfer_zero, setXferCnt_run]; rfl, rfl⟩
  | n + 1, k, s, hb, hf => by
    have h3 := hf k (withXfer ((n + 1) * u) s) (Nat.le_refl k) (by omega) hb rfl rfl
    obtain ⟨ev, h5, h6⟩ := writeLoop_run u f cyc pre hpre n (k + 1)
      { withXfer ((n + 1) * u) s with
        events := .dw (truncW s.cfg.params.nandBus16 (cyc k)) :: (pre k ++ s.events)
        eccu := s.eccu.absorbCycle s.cfg.params.nandBus16 (cyc k) }
      hb (fun j s' hj hj' h h' h'' => hf j s' (by omega) (by omega) h h' h'')
    refine ⟨ev ++ (.dw (truncW s.cfg.params.nandBus16 (cyc k)) :: pre k), ?_, ?_⟩
    · have e0 : setXferCnt ((n + 1) * u) s = .ok () (withXfer ((n + 1) * u) s) := rfl
      rw [transfer_succ, Op.bind_ok e0, Op.bind_ok h3]
      refine h5.trans ?_
      simp [afterWrite, withXfer, List.range'_succ, EccUnit.absorbBytes_append, EccUnit.absorbCycle_eq]
    · rw [filter_append_onBus, h6]
      have e : List.filter Event.onBus (Event.dw (truncW s.cfg.params.nandBus16 (cyc k)) :: pre k)
          = [Event.dw (truncW s.cfg.params.nandBus16 (cyc k))] := by
        rw [List.filter_cons_of_pos (by rfl), hpre]
      rw [e]
      simp [withXfer, List.range'_succ]

theorem byteCycles_true : ∀ l : List Byte, l.length % 2 = 0 →
    byteCycles true l = (List.range (l.length / 2)).map fun k => l.getD (2 * k + 1) 0 ++ l.getD (2 * k) 0
  | [], _ => rfl
  | [_], h => by simp at h
  | d :: d' :: l, h => by
    have hl : l.length % 2 = 0 := by simp at h; omega
    have e : (d :: d' :: l).length / 2 = l.length / 2 + 1 := by
      simp only [List.length_cons]
      omega
    rw [e, List.range_succ_eq_map, List.map_cons, List.map_map]
    simp only [byteCycles, if_true]
    rw [byteCycles_true l hl]
    rfl

theorem truncW_setWidth (b : Bool) (d : Byte) : truncW b (d.setWidth 16) = d.setWidth 16 := by
  cases b
  · simp only [truncW, Bool.false_eq_true, if_false]
    congr 1
    ext i hi; simp [hi]; omega
  · rfl

/-- The transfer loop of a write that sends the byte list `b`. -/
theorem writeList_run (f8 f16 : Nat → Op Unit) (pre : Nat → List Event)
    (hpre : ∀ k, (pre k).filter Event.onBus = []) {s : State} (b : List Byte) (hb : s.host.busy = [])
    (hn : s.cfg.params.nandBus16 = true → b.length % 2 = 0)
    (h8 : s.cfg.params.nandBus16 = false → ∀ k s', k < b.length → s'.host.busy = [] → s'.cfg = s.cfg → s'.mem = s.mem →
      f8 k s' = .ok ()
      { s' with
        events := .dw ((b.getD k 0).setWidth 16) :: (pre k ++ s'.events)
        eccu := s'.eccu.absorbCycle false ((b.getD k 0).setWidth 16) })
    (h16 : s.cfg.params.nandBus16 = true → ∀ k s', 2 * k + 1 < b.length → s'.host.busy = [] → s'.cfg = s.cfg → s'.mem = s.mem →
      f16 k s' = .ok ()
      { s' with
        events := .dw (b.getD (2 * k + 1) 0 ++ b.getD (2 * k) 0) :: (pre k ++ s'.events)
        eccu := s'.eccu.absorbCycle true (b.getD (2 * k + 1) 0 ++ b.getD (2 * k) 0) }) :
    ∃ ev, (if s.cfg.params.nandBus16 then transfer 2 f16 0 (b.length / 2) else transfer 1 f8 0 b.length) s
        = .ok () (afterWrite b ev s)
      ∧ ev.filter Event.onBus = (dwEvents s.cfg.params.nandBus16 b).reverse := by
  cases hw : s.cfg.params.nandBus16 with
  | true =>
    obtain ⟨ev, h1, h2⟩ := writeLoop_run 2 f16 (fun k => b.getD (2 * k + 1) 0 ++ b.getD (2 * k) 0) pre hpre
      (b.length / 2) 0 s hb (fun k s' _ hk a1 a2 a3 => by
        rw [h16 hw k s' (by omega) a1 a2 a3, hw]
        rfl)
    have e := byteCycles_true b (hn hw)
    rw [List.range_eq_range'] at e
    refine ⟨ev, ?_, ?_⟩
    · simp only [if_true]
      rw [h1, ← e, hw, streamBytes_byteCycles true b (fun _ => hn hw)]
    · rw [h2, hw, dwEvents, e, List.map_map]
      rfl
  | false =>
    obtain ⟨ev, h1, h2⟩ := writeLoop_run 1 f8 (fun k => (b.getD k 0).setWidth 16) pre hpre b.length 0 s hb
      (fun k s' _ hk a1 a2 a3 => by
        rw [h8 hw k s' (by omega) a1 a2 a3, hw, truncW_setWidth])
    have e : byteCycles false b = (List.range' 0 b.length).map fun k => (b.getD k 0).setWidth 16 := by
      rw [byteCycles_false, ← List.range_eq_range']
      apply List.ext_getElem
      · simp
      · intro i h1 h2
        simp at h1
        simp [List.getD, h1]
    refine ⟨ev, ?_, ?_⟩
    · simp only [Bool.false_eq_true, if_false]
      rw [h1, ← e, hw, streamBytes_byteCycles false b (by simp)]
    · rw [h2, hw, dwEvents, e, List.map_map]
      simp only [truncW_setWidth]
      rfl

/-- `WriteStream(b)` of a list that fits whole cycles. -/
theorem writeStream_run {s : State} (b : List Byte) (hb : s.host.busy = [])
    (hn : s.cfg.params.nandBus16 = true → b.length % 2 = 0) :
    ∃ ev, writeStream b s = .ok () (afterWrite b ev s)
      ∧ ev.filter Event.onBus = (dwEvents s.cfg.params.nandBus16 b).reverse := by
  unfold writeStream
  rw [Op.bind_ok (params_run s)]
  refine writeList_run _ _ (fun _ => []) (fun _ => rfl) b hb hn ?_ ?_
  · intro hw k s' _ h1 h2 h3
    rw [datW_run h1, h2, hw, truncW_setWidth]
    rfl
  · intro hw k s' _ h1 h2 h3
    rw [datW_run h1, h2, hw]
    rfl

theorem readLE_one_half (m : Memory) (a : Word) :
    (m.readLE a 1).setWidth 16 = (m.readByte a.toNat).setWidth 16 := by
  rw [Memory.readLE_one]
  ext i hi
  simp

theorem readLE_two_half (m : Memory) (a : Word) :
    (m.readLE a 2).setWidth 16 = m.readByte (a + 1).toNat ++ m.readByte a.toNat := by
  simp only [Memory.readLE]
  generalize m.readByte a.toNat = x
  generalize m.readByte (a + 1).toNat = y
  apply BitVec.eq_of_getLsbD_eq
  intro i hi
  have := BitVec.getLsbD_append (x := y) (y := x) (i := i)
  rw [this]
  simp [hi]
  by_cases h : i < 8
  · simp [h]
  · have h1 : i - 8 < 8 := by omega
    simp [h, BitVec.getLsbD_of_ge x i (by omega)]

theorem buffer_getD (s : State) (src : Word) (n k : Nat) (h : k < n) :
    (s.buffer src n).getD k 0 = s.mem.readByte (bufAddr src k) := by
  simp [State.buffer, List.getD, h]

@[simp] theorem buffer_length (s : State) (src : Word) (n : Nat) : (s.buffer src n).length = n := by
  simp [State.buffer]

/-- `WriteBytes(src, n)`: the bytes are those of host memory. -/
theorem writeBytes_run {s : State} (src : Word) (n : Nat) (hb : s.host.busy = [])
    (hn : s.cfg.params.nandBus16 = true → n % 2 = 0) :
    ∃ ev, writeBytes src n s = .ok () (afterWrite (s.buffer src n) ev s)
      ∧ ev.filter Event.onBus = (dwEvents s.cfg.params.nandBus16 (s.buffer src n)).reverse := by
  let pre : Nat → List Event := fun k =>
    if s.cfg.params.nandBus16 then
      [.mr (src + BitVec.ofNat 32 (2 * k)) 2 (s.mem.readLE (src + BitVec.ofNat 32 (2 * k)) 2)]
    else [.mr (src + BitVec.ofNat 32 k) 1 (s.mem.readLE (src + BitVec.ofNat 32 k) 1)]
  have hpre : ∀ k, (pre k).filter Event.onBus = [] := by
    intro k
    simp only [pre]
    split <;> rfl
  unfold writeBytes
  rw [Op.bind_ok (params_run s)]
  have h := writeList_run
    (fun k => do
      let v ← memRead .host (src + BitVec.ofNat 32 k) 1
      datW (v.setWidth 16))
    (fun k => do
      let v ← memRead .host (src + BitVec.ofNat 32 (2 * k)) 2
      datW (v.setWidth 16)) pre hpre (s := s) (s.buffer src n) hb (by simpa using hn) ?_ ?_
  · simpa using h
  · intro hw k s' hk h1 h2 h3
    simp only [buffer_length] at hk
    simp only [Op.run_bind]
    rw [memRead_host_run h1]
    simp only []
    rw [datW_run (by exact h1), buffer_getD _ _ _ _ hk]
    simp only [h2, h3, hw, readLE_one_half, truncW_setWidth, pre]
    rfl
  · intro hw k s' hk h1 h2 h3
    simp only [buffer_length] at hk
    simp only [Op.run_bind]
    rw [memRead_host_run h1]
    simp only []
    rw [datW_run (by exact h1), buffer_getD _ _ _ _ hk, buffer_getD _ _ _ _ (by omega)]
    have e : bufAddr src (2 * k + 1) = (src + BitVec.ofNat 32 (2 * k) + 1).toNat := by
      simp only [bufAddr, BitVec.add_assoc]
      rw [BitVec.ofNat_add]
      rfl
    simp only [h2, h3, hw, readLE_two_half, pre, e]
    rfl

/-! ## The spare chunk -/

/-- SPAREBUF after bytes have been stored from position `k` on. -/
def Memory.putAt (m : Memory) (k : Nat) : List Byte → Memory
  | [] => m
  | d :: l => Memory.putAt (m.writeByte k d) (k + 1) l

theorem Memory.putAt_append (l l' : List Byte) : ∀ (m : Memory) (k : Nat),
    m.putAt k (l ++ l') = (m.putAt k l).putAt (k + l.length) l' := by
  induction l with
  | nil => intro m k; rfl
  | cons d l ih =>
    intro m k
    simp only [List.cons_append, Memory.putAt, ih, List.length_cons]
    congr 1
    omega

theorem Memory.wf_putAt (l : List Byte) : ∀ (m : Memory) (k : Nat), m.wf = true → (m.putAt k l).wf = true := by
  induction l with
  | nil => intro m k h; exact h
  | cons d l ih => intro m k h; exact ih _ _ (Memory.wf_writeByte _ _ _ h)

theorem Memory.readByte_putAt_other (l : List Byte) : ∀ (m : Memory) (k x : Nat),
    x < k ∨ k + l.length ≤ x → (m.putAt k l).readByte x = m.readByte x := by
  induction l with
  | nil => intro m k x _; rfl
  | cons d l ih =>
    intro m k x h
    simp only [List.length_cons] at h
    rw [Memory.putAt, ih _ _ _ (by omega), Memory.readByte_writeByte_other _ _ _ (by omega)]

theorem Memory.readByte_putAt (l : List Byte) : ∀ (m : Memory) (k : Nat), m.wf = true →
    ∀ j < l.length, (m.putAt k l).readByte (k + j) = l.getD j 0 := by
  induction l with
  | nil => intro m k _ j hj; simp at hj
  | cons d l ih =>
    intro m k h j hj
    simp only [List.length_cons] at hj
    cases j with
    | zero =>
      rw [Memory.putAt, Memory.readByte_putAt_other _ _ _ _ (by omega), Nat.add_zero,
        Memory.readByte_writeByte_same _ _ _ h]
      rfl
    | succ j =>
      have := ih (m.writeByte k d) (k + 1) (Memory.wf_writeByte _ _ _ h) j (by omega)
      rw [Memory.putAt, show k + (j + 1) = k + 1 + j by omega, this]
      rfl

/-- The state after a chunk has been read into SPAREBUF from position `k` on. -/
def afterSpare (k : Nat) (l rest : List Half) (s : State) : State :=
  { s with
    dev := { s.dev with dr := rest }
    eccu := s.eccu.absorbBytes (streamBytes s.cfg.params.nandBus16 l)
    spareBuf := s.spareBuf.putAt k (streamBytes s.cfg.params.nandBus16 l)
    loop := { s.loop with xferCnt := 0 }
    events := (drEvents s.cfg.params.nandBus16 l).reverse ++ s.events }

/-- The transfer loop of a spare read: one round stores the bytes of one cycle. -/
theorem spareLoop_run (u : Nat) (f : Nat → Op Unit) : ∀ (l : List Half) (k : Nat) (s : State)
    (rest : List Half), s.host.busy = [] → s.dev.dr = l ++ rest → u = (if s.cfg.params.nandBus16 then 2 else 1) →
    (∀ j s' v rest, s'.host.busy = [] → s'.cfg = s.cfg → s'.dev.dr = v :: rest → f j s' = .ok ()
      { s' with
        dev := { s'.dev with dr := rest }
        eccu := s'.eccu.absorbBytes (cycleBytes s.cfg.params.nandBus16 v)
        spareBuf := s'.spareBuf.putAt (u * j) (cycleBytes s.cfg.params.nandBus16 v)
        events := .dr (truncW s.cfg.params.nandBus16 v) :: s'.events }) →
    transfer u f k l.length s = .ok () (afterSpare (u * k) l rest s)
  | [], k, s, rest, hb, hr, hu, hf => by
    have hr : s.dev.dr = rest := by simpa using hr
    rw [List.length_nil, transfer_zero, setXferCnt_run]
    simp [afterSpare, ← hr, Memory.putAt, drEvents]
  | v :: l, k, s, rest, hb, hr, hu, hf => by
    have h3 := hf k (withXfer ((l.length + 1) * u) s) v (l ++ rest) hb rfl hr
    have e0 : setXferCnt ((l.length + 1) * u) s = .ok () (withXfer ((l.length + 1) * u) s) := rfl
    have h5 := spareLoop_run u f l (k + 1)
      { withXfer ((l.length + 1) * u) s with
        dev := { s.dev with dr := l ++ rest }
        eccu := s.eccu.absorbBytes (cycleBytes s.cfg.params.nandBus16 v)
        spareBuf := s.spareBuf.putAt (u * k) (cycleBytes s.cfg.params.nandBus16 v)
        events := .dr (truncW s.cfg.params.nandBus16 v) :: s.events }
      rest hb rfl hu hf
    rw [List.length_cons, transfer_succ, Op.bind_ok e0, Op.bind_ok h3]
    refine h5.trans ?_
    have e : u * (k + 1) = u * k + (cycleBytes s.cfg.params.nandBus16 v).length := by
      rw [cycleBytes_length, ← hu, Nat.mul_succ]
    simp [afterSpare, withXfer, EccUnit.absorbBytes_append, Memory.putAt_append, e, drEvents]

/-- `ReadStream(n)`: `l` are the device's answers; their bytes end up in SPAREBUF. -/
theorem readStream_run (n : Nat) {s : State} {l rest : List Half} (hb : s.host.busy = [])
    (hr : s.dev.dr = l ++ rest) (hn : (streamBytes s.cfg.params.nandBus16 l).length = n) :
    readStream n s = .ok () (afterSpare 0 l rest s) := by
  rw [streamBytes_length] at hn
  unfold readStream
  rw [Op.bind_ok (params_run s)]
  cases hw : s.cfg.params.nandBus16 with
  | true =>
    have e : n / 2 = l.length := by simp [hw] at hn; omega
    simp only [if_true, e]
    refine spareLoop_run 2 _ l 0 s rest hb hr (by simp [hw]) ?_
    intro j s' v rest h1 h2 h3
    have h4 := Device.drValue_cons _ _ _ h3
    have h5 := Device.drRest_cons _ _ _ h3
    simp only [Op.run_bind]
    rw [datR_run h1]
    simp only [h2, h4, h5, hw, setSpare_run, EccUnit.absorbCycle_eq]
    rfl
  | false =>
    have e : n = l.length := by simp [hw] at hn; omega
    simp only [Bool.false_eq_true, if_false, e]
    refine spareLoop_run 1 _ l 0 s rest hb hr (by simp [hw]) ?_
    intro j s' v rest h1 h2 h3
    have h4 := Device.drValue_cons _ _ _ h3
    have h5 := Device.drRest_cons _ _ _ h3
    simp only [Op.run_bind]
    rw [datR_run h1]
    simp only [h2, h4, h5, hw, setSpare_run, EccUnit.absorbCycle_eq,
      cycleBytes_truncW, extractLsb'_truncW, Nat.one_mul]
    rfl

end Sys2Proof.Machine
end

