-- ==== Sys2Proof/Laws/Page.lean ====
section
/-! SUPPORT. The pieces of the page ops in a quiet environment (`43_nand_page_block.md` R190, R193,
R197): address cycles, the data and spare phases, the corrector's pass over the sub-pages. -/

namespace Sys2Proof.Machine

/-! ## Address cycles -/

theorem forUp_ale (f : Nat → Byte) : ∀ (n i : Nat) (s : State), s.host.busy = [] →
    forUp (fun k => ale (f k)) i n s = .ok ()
      { s with events := ((List.range' i n).map fun k => Event.ale ((f k).setWidth 16)).reverse ++ s.events }
  | 0, i, s, _ => rfl
  | n + 1, i, s, hb => by
    rw [forUp_succ, Op.bind_ok (ale_run hb (f i)), forUp_ale f n (i + 1) _ (by exact hb)]
    simp [List.range'_succ]

theorem rowCycles_run {s : State} (hb : s.host.busy = []) (block page : Word) :
    rowCycles block page s = .ok () { s with events := (rowEvents s.geo block page).reverse ++ s.events } := by
  unfold rowCycles
  rw [Op.bind_ok (Op.run_get s), forUp_ale _ _ _ s hb]
  simp [rowEvents, List.range_eq_range']

theorem addrCycles_run {s : State} (hb : s.host.busy = []) (block page : Word) :
    addrCycles block page s = .ok () { s with events := (addrEvents s.geo block page).reverse ++ s.events } := by
  unfold addrCycles
  have h := forUp_ale (fun _ => 0) s.geo.colB.toNat 0 s hb
  have e : (List.range' 0 s.geo.colB.toNat).map (fun _ => Event.ale ((0 : Byte).setWidth 16))
      = List.replicate s.geo.colB.toNat (.ale 0) := by
    rw [List.map_const', List.length_range']
    rfl
  rw [e] at h
  rw [Op.bind_ok (Op.run_get s), Op.bind_ok h, rowCycles_run (by exact hb)]
  simp [addrEvents]

/-! ## The slot files -/

theorem Quad.get_set (q : Quad) {i : Nat} (hi : i < 4) (v : Word) (j : Nat) :
    (q.set i v).get j = if i = j then v else q.get j := by
  match i, hi with
  | 0, _ => match j with | 0 | 1 | 2 | 3 => rfl | _ + 4 => rfl
  | 1, _ => match j with | 0 | 1 | 2 | 3 => rfl | _ + 4 => rfl
  | 2, _ => match j with | 0 | 1 | 2 | 3 => rfl | _ + 4 => rfl
  | 3, _ => match j with | 0 | 1 | 2 | 3 => rfl | _ + 4 => rfl

theorem Quad.ext_get {q q' : Quad} (h : ∀ i < 4, q.get i = q'.get i) : q = q' := by
  cases q
  cases q'
  have h0 := h 0 (by omega)
  have h1 := h 1 (by omega)
  have h2 := h 2 (by omega)
  have h3 := h 3 (by omega)
  simp only [Quad.get] at h0 h1 h2 h3
  subst h0 h1 h2 h3
  rfl

theorem Quad.get_upTo (k : Nat) (f : Nat → Word) (i : Nat) (hi : i < 4) :
    (Quad.upTo k f).get i = if i < k then f i else 0 := by
  match i, hi with
  | 0, _ => rfl
  | 1, _ => rfl
  | 2, _ => rfl
  | 3, _ => rfl

/-- Filling one more entry. -/
theorem Quad.upTo_succ (k : Nat) (hk : k < 4) (f : Nat → Word) :
    (Quad.upTo k f).set k (f k) = Quad.upTo (k + 1) f := by
  apply Quad.ext_get
  intro i hi
  rw [Quad.get_set _ hk, Quad.get_upTo _ _ _ hi, Quad.get_upTo _ _ _ hi]
  by_cases h : k = i
  · subst h; simp
  · by_cases h' : i < k
    · simp [h, h', Nat.lt_succ_of_lt h']
    · have : ¬ i < k + 1 := by omega
      simp [h, h', this]

@[simp] theorem Quad.upTo_zero (f : Nat → Word) : Quad.upTo 0 f = Quad.zero := rfl

/-! ## Cutting streams -/

theorem streamBytes_take (b : Bool) (c : Nat) (l : List Half) :
    streamBytes b (l.take c) = (streamBytes b l).take ((if b then 2 else 1) * c) := by
  induction l generalizing c with
  | nil => simp
  | cons v l ih =>
    cases c with
    | zero => simp
    | succ c =>
      rw [List.take_succ_cons, streamBytes_cons, streamBytes_cons, ih, List.take_append]
      have e : (cycleBytes b v).length = if b then 2 else 1 := cycleBytes_length b v
      rw [e, List.take_of_length_le (l := cycleBytes b v) (by rw [e, Nat.mul_succ]; omega)]
      congr 2
      rw [Nat.mul_succ]
      omega

theorem streamBytes_drop (b : Bool) (c : Nat) (l : List Half) :
    streamBytes b (l.drop c) = (streamBytes b l).drop ((if b then 2 else 1) * c) := by
  induction l generalizing c with
  | nil => simp
  | cons v l ih =>
    cases c with
    | zero => simp
    | succ c =>
      rw [List.drop_succ_cons, streamBytes_cons, ih, List.drop_append]
      have e : (cycleBytes b v).length = if b then 2 else 1 := cycleBytes_length b v
      rw [e, List.drop_of_length_le (l := cycleBytes b v) (by rw [e, Nat.mul_succ]; omega), List.nil_append]
      congr 1
      rw [Nat.mul_succ]
      omega

/-- The cycles of chunk `i`, when a chunk is `c` cycles. -/
theorem streamBytes_chunk (b : Bool) (c i : Nat) (l : List Half) :
    streamBytes b ((l.drop (i * c)).take c) = chunk ((if b then 2 else 1) * c) i (streamBytes b l) := by
  rw [streamBytes_take, streamBytes_drop, chunk]
  congr 2
  rw [Nat.mul_left_comm]

/-! ## The data phase of a read -/

theorem chunk_length {α : Type} (n i : Nat) (l : List α) (h : (i + 1) * n ≤ l.length) : (chunk n i l).length = n := by
  rw [chunk, List.length_take, List.length_drop]
  have : (i + 1) * n = i * n + n := by rw [Nat.add_mul, Nat.one_mul]
  omega

/-- The masked ECC of chunk `i` of the bytes that the cycles `data` carry. -/
def maskedEcc (s : State) (bytes : Nat) (data : List Half) (i : Nat) : Word :=
  eccOfBytes (chunk bytes i (streamBytes s.cfg.params.nandBus16 data)) &&& s.eccu.mask

/-- The state after `k` sub-pages of the data phase, of which `data` are the answers: the accumulator
just restarted, the sub-pages' ECC in `ecc`. -/
def afterData (t : Space) (base : Word) (bytes c k : Nat) (data rest : List Half) (ev : List Event)
    (s s' : State) : Prop :=
  ∃ l, s' = { s with
    dev := { s.dev with dr := data.drop (k * c) ++ rest }
    eccu := ⟨0, 0, true, s.eccu.mask⟩
    slots := { s.slots with ecc := Quad.upTo k (maskedEcc s bytes data) }
    mem := t.pick (s.mem.writeBytesAt base ((streamBytes s.cfg.params.nandBus16 data).take (k * bytes))) s.mem
    pageBuf := t.pick s.pageBuf (s.pageBuf.writeBytesAt base ((streamBytes s.cfg.params.nandBus16 data).take (k * bytes)))
    loop := l
    events := ev ++ s.events }
  ∧ ev.filter Event.onBus = (drEvents s.cfg.params.nandBus16 (data.take (k * c))).reverse

theorem take_succ_chunk {α : Type} (n k : Nat) (l : List α) :
    l.take ((k + 1) * n) = l.take (k * n) ++ chunk n k l := by
  rw [chunk, Nat.add_mul, Nat.one_mul, List.take_add]

/-- One more sub-page of the data phase. -/
theorem readSubPage_run (t : Space) (base : Word) (bpo : BitVec 10) (c : Nat) {k : Nat} {data rest : List Half}
    {ev : List Event} {s s' : State} (hb : s.host.busy = [])
    (hc : bpo.toNat = (if s.cfg.params.nandBus16 then 2 else 1) * c) (hk : k < 4)
    (hl : (k + 1) * c ≤ data.length) (h : afterData t base bpo.toNat c k data rest ev s s') :
    ∃ ev' s'', readSubPage t base bpo k s' = .ok () s''
      ∧ afterData t base bpo.toNat c (k + 1) data rest ev' s s'' := by
  obtain ⟨l, rfl, hev⟩ := h
  unfold readSubPage
  rw [Op.bind_ok (setOpIdx_run k _)]
  have hlen : (data.drop (k * c)).take c ++ (data.drop ((k + 1) * c) ++ rest) = data.drop (k * c) ++ rest := by
    rw [← List.append_assoc]
    congr 1
    rw [Nat.add_mul, Nat.one_mul, ← List.drop_drop, List.take_append_drop]
  have hn : (streamBytes s.cfg.params.nandBus16 ((data.drop (k * c)).take c)).length = bpo.toNat := by
    rw [streamBytes_length, hc, List.length_take, List.length_drop]
    have : (k + 1) * c = k * c + c := by rw [Nat.add_mul, Nat.one_mul]
    rw [Nat.min_eq_left (by omega)]
  obtain ⟨ev2, h1, h2⟩ := readBytes_run t (subPageBase base k bpo) bpo.toNat
    (s := { s with
      dev := { s.dev with dr := data.drop (k * c) ++ rest }
      eccu := ⟨0, 0, true, s.eccu.mask⟩
      slots := { s.slots with ecc := Quad.upTo k (maskedEcc s bpo.toNat data) }
      mem := t.pick (s.mem.writeBytesAt base ((streamBytes s.cfg.params.nandBus16 data).take (k * bpo.toNat))) s.mem
      pageBuf := t.pick s.pageBuf (s.pageBuf.writeBytesAt base ((streamBytes s.cfg.params.nandBus16 data).take (k * bpo.toNat)))
      loop := { l with opIdx := BitVec.ofNat 2 k }
      events := ev ++ s.events })
    (l := (data.drop (k * c)).take c) (rest := data.drop ((k + 1) * c) ++ rest) hb hlen.symm hn
  refine ⟨ev2 ++ ev, ?_, ?_, ?_⟩
  rotate_left
  · rw [Op.bind_ok h1, Op.bind_ok (eccReadRestart_run _), setEcc_run]
  · refine ⟨{ l with opIdx := BitVec.ofNat 2 k, xferCnt := 0 }, ?_, ?_⟩
    · have e1 : streamBytes s.cfg.params.nandBus16 ((data.drop (k * c)).take c)
          = chunk bpo.toNat k (streamBytes s.cfg.params.nandBus16 data) := by
        rw [streamBytes_chunk, hc]
      have e2 : (EccUnit.absorbBytes ⟨0, 0, true, s.eccu.mask⟩
            (chunk bpo.toNat k (streamBytes s.cfg.params.nandBus16 data))).acc
          = eccOfBytes (chunk bpo.toNat k (streamBytes s.cfg.params.nandBus16 data)) :=
        absorbBytes_restarted_acc _ _
      have e3 := Quad.upTo_succ k hk (maskedEcc s bpo.toNat data)
      have e5 : eccOfBytes (chunk bpo.toNat k (streamBytes s.cfg.params.nandBus16 data)) &&& s.eccu.mask
          = maskedEcc s bpo.toNat data k := rfl
      have hbl : k * bpo.toNat ≤ (streamBytes s.cfg.params.nandBus16 data).length := by
        rw [streamBytes_length, hc]
        have : (k + 1) * c = k * c + c := by rw [Nat.add_mul, Nat.one_mul]
        rw [Nat.mul_left_comm]
        exact Nat.mul_le_mul_left _ (by omega)
      have e4 : ∀ m : Memory, (m.writeBytesAt base
            ((streamBytes s.cfg.params.nandBus16 data).take (k * bpo.toNat))).writeBytesAt (subPageBase base k bpo)
            (chunk bpo.toNat k (streamBytes s.cfg.params.nandBus16 data))
          = m.writeBytesAt base ((streamBytes s.cfg.params.nandBus16 data).take ((k + 1) * bpo.toNat)) := by
        intro m
        rw [take_succ_chunk, Memory.writeBytesAt_append, List.length_take, Nat.min_eq_left hbl]
        rfl
      cases t
      · simp only [Space.pick_host] at *
        simp only [afterRead, e1, e2, e5, e3, Space.pick_host, EccUnit.absorbBytes_mask, List.append_assoc, e4]
      · simp only [Space.pick_page] at *
        simp only [afterRead, e1, e2, e5, e3, Space.pick_page, EccUnit.absorbBytes_mask, List.append_assoc, e4]
    · rw [filter_append_onBus, h2, hev, take_succ_chunk]
      simp [drEvents, chunk]

/-- The whole data phase: `n` sub-pages. -/
theorem dataPhase_run (t : Space) (base : Word) (bpo : BitVec 10) (c : Nat) {data rest : List Half} {s : State}
    (hb : s.host.busy = []) (hc : bpo.toNat = (if s.cfg.params.nandBus16 then 2 else 1) * c) :
    ∀ (n k : Nat) (ev : List Event) (s' : State), k + n ≤ 4 → (k + n) * c ≤ data.length →
      afterData t base bpo.toNat c k data rest ev s s' →
      ∃ ev' s'', forUp (readSubPage t base bpo) k n s' = .ok () s''
        ∧ afterData t base bpo.toNat c (k + n) data rest ev' s s''
  | 0, k, ev, s', _, _, h => ⟨ev, s', rfl, h⟩
  | n + 1, k, ev, s', hk, hl, h => by
    have h0 : (k + 1) * c ≤ (k + (n + 1)) * c := Nat.mul_le_mul_right _ (by omega)
    obtain ⟨ev1, s1, h1, h2⟩ := readSubPage_run t base bpo c hb hc (by omega) (by omega) h
    obtain ⟨ev2, s2, h3, h4⟩ := dataPhase_run t base bpo c hb hc n (k + 1) ev1 s1 (by omega)
      (by rw [show k + 1 + n = k + (n + 1) by omega]; exact hl) h2
    refine ⟨ev2, s2, ?_, by rw [show k + (n + 1) = k + 1 + n by omega]; exact h4⟩
    rw [forUp_succ, Op.bind_ok h1, h3]

/-! ## The spare phase of a read -/

/-- The state after `k` spare chunks, of which `spare` are the answers. -/
def afterChunks (c k : Nat) (spare rest : List Half) (s s' : State) : Prop :=
  ∃ l sb, s' = { s with
    dev := { s.dev with dr := spare.drop (k * c) ++ rest }
    eccu := s.eccu.absorbBytes (streamBytes s.cfg.params.nandBus16 (spare.take (k * c)))
    slots := { s.slots with secc := Quad.upTo k (spareEcc s.geo s.eccu.mask (streamBytes s.cfg.params.nandBus16 spare)) }
    spareBuf := sb
    loop := l
    events := (drEvents s.cfg.params.nandBus16 (spare.take (k * c))).reverse ++ s.events }
  ∧ sb.wf = true

/-- One more spare chunk. -/
theorem readSpare_run (c : Nat) {k : Nat} {spare rest : List Half} {s s' : State} (hb : s.host.busy = [])
    (hc : s.geo.sparePerOp.toNat = (if s.cfg.params.nandBus16 then 2 else 1) * c) (hk : k < 4)
    (ho : s.geo.eccOff.toNat + 4 ≤ s.geo.sparePerOp.toNat)
    (hl : (k + 1) * c ≤ spare.length) (h : afterChunks c k spare rest s s') :
    ∃ s'', readSpare s.geo.sparePerOp k s' = .ok () s'' ∧ afterChunks c (k + 1) spare rest s s'' := by
  obtain ⟨l, sb, rfl, hsb⟩ := h
  unfold readSpare
  rw [Op.bind_ok (setOpIdx_run k _)]
  have hlen : (spare.drop (k * c)).take c ++ (spare.drop ((k + 1) * c) ++ rest) = spare.drop (k * c) ++ rest := by
    rw [← List.append_assoc]
    congr 1
    rw [Nat.add_mul, Nat.one_mul, ← List.drop_drop, List.take_append_drop]
  have hn : (streamBytes s.cfg.params.nandBus16 ((spare.drop (k * c)).take c)).length = s.geo.sparePerOp.toNat := by
    rw [streamBytes_length, hc, List.length_take, List.length_drop]
    have : (k + 1) * c = k * c + c := by rw [Nat.add_mul, Nat.one_mul]
    rw [Nat.min_eq_left (by omega)]
  have h1 := readStream_run s.geo.sparePerOp.toNat
    (s := { s with
      dev := { s.dev with dr := spare.drop (k * c) ++ rest }
      eccu := s.eccu.absorbBytes (streamBytes s.cfg.params.nandBus16 (spare.take (k * c)))
      slots := { s.slots with secc := Quad.upTo k (spareEcc s.geo s.eccu.mask (streamBytes s.cfg.params.nandBus16 spare)) }
      spareBuf := sb
      loop := { l with opIdx := BitVec.ofNat 2 k }
      events := (drEvents s.cfg.params.nandBus16 (spare.take (k * c))).reverse ++ s.events })
    (l := (spare.drop (k * c)).take c) (rest := spare.drop ((k + 1) * c) ++ rest) hb hlen.symm hn
  refine ⟨?_, ?_, ?_⟩
  rotate_left
  · rw [Op.bind_ok h1, Op.bind_ok (Op.run_get _), setSecc_run]
  · refine ⟨{ l with opIdx := BitVec.ofNat 2 k, xferCnt := 0 }, _, ?_,
      Memory.wf_putAt (chunk s.geo.sparePerOp.toNat k (streamBytes s.cfg.params.nandBus16 spare)) sb 0 hsb⟩
    have e1 : streamBytes s.cfg.params.nandBus16 ((spare.drop (k * c)).take c)
        = chunk s.geo.sparePerOp.toNat k (streamBytes s.cfg.params.nandBus16 spare) := by
      rw [streamBytes_chunk, hc]
    have hcl : (chunk s.geo.sparePerOp.toNat k (streamBytes s.cfg.params.nandBus16 spare)).length
        = s.geo.sparePerOp.toNat := by rw [← e1]; exact hn
    have e2 : ∀ j < s.geo.sparePerOp.toNat,
        (sb.putAt 0 (chunk s.geo.sparePerOp.toNat k (streamBytes s.cfg.params.nandBus16 spare))).readByte j
          = (chunk s.geo.sparePerOp.toNat k (streamBytes s.cfg.params.nandBus16 spare)).getD j 0 := by
      intro j hj
      have := Memory.readByte_putAt (chunk s.geo.sparePerOp.toNat k (streamBytes s.cfg.params.nandBus16 spare)) sb 0
        hsb j (by rw [hcl]; exact hj)
      rwa [Nat.zero_add] at this
    have e3 := Quad.upTo_succ k hk (spareEcc s.geo s.eccu.mask (streamBytes s.cfg.params.nandBus16 spare))
    have e4 : spareEcc s.geo s.eccu.mask (streamBytes s.cfg.params.nandBus16 spare) k
        = storedEcc s.eccu.mask
          ((sb.putAt 0 (chunk s.geo.sparePerOp.toNat k (streamBytes s.cfg.params.nandBus16 spare))).readByte s.geo.eccOff.toNat)
          ((sb.putAt 0 (chunk s.geo.sparePerOp.toNat k (streamBytes s.cfg.params.nandBus16 spare))).readByte (s.geo.eccOff.toNat + 1))
          ((sb.putAt 0 (chunk s.geo.sparePerOp.toNat k (streamBytes s.cfg.params.nandBus16 spare))).readByte (s.geo.eccOff.toNat + 2))
          ((sb.putAt 0 (chunk s.geo.sparePerOp.toNat k (streamBytes s.cfg.params.nandBus16 spare))).readByte (s.geo.eccOff.toNat + 3)) := by
      rw [e2 _ (by omega), e2 _ (by omega), e2 _ (by omega), e2 _ (by omega)]
      rfl
    have e5 : (spare.drop (k * c)).take c = chunk c k spare := rfl
    rw [← e3, e4]
    simp only [afterSpare, storedEccOfSpare, EccUnit.absorbBytes_mask, e1, take_succ_chunk, streamBytes_append,
      EccUnit.absorbBytes_append, drEvents, List.map_append, List.reverse_append, List.append_assoc]
    rw [e5, ← e1, e5]

/-- The whole spare phase: `n` chunks. -/
theorem sparePhase_run (c : Nat) {spare rest : List Half} {s : State} (hb : s.host.busy = [])
    (hc : s.geo.sparePerOp.toNat = (if s.cfg.params.nandBus16 then 2 else 1) * c)
    (ho : s.geo.eccOff.toNat + 4 ≤ s.geo.sparePerOp.toNat) :
    ∀ (n k : Nat) (s' : State), k + n ≤ 4 → (k + n) * c ≤ spare.length → afterChunks c k spare rest s s' →
      ∃ s'', forUp (readSpare s.geo.sparePerOp) k n s' = .ok () s'' ∧ afterChunks c (k + n) spare rest s s''
  | 0, _, s', _, _, h => ⟨s', rfl, h⟩
  | n + 1, k, s', hk, hl, h => by
    have h0 : (k + 1) * c ≤ (k + (n + 1)) * c := Nat.mul_le_mul_right _ (by omega)
    obtain ⟨s1, h1, h2⟩ := readSpare_run c hb hc (by omega) ho (by omega) h
    obtain ⟨s2, h3, h4⟩ := sparePhase_run c hb hc ho n (k + 1) s1 (by omega)
      (by rw [show k + 1 + n = k + (n + 1) by omega]; exact hl) h2
    refine ⟨s2, ?_, by rw [show k + (n + 1) = k + 1 + n by omega]; exact h4⟩
    rw [forUp_succ, Op.bind_ok h1, h3]

/-! ## The corrector's pass -/

/-- The byte the corrector's decision repairs, repaired (`42_ecc.md` R172). -/
def repairAt (base : Word) (v : EccVerdict) (m : Memory) : Memory :=
  match v with
  | .single d =>
    m.writeLE (base + (d >>> 3).setWidth 32) 1
      (m.readLE (base + (d >>> 3).setWidth 32) 1 ^^^ ((1 : Word) <<< (d &&& 7).toNat))
  | _ => m

/-- The repairs of the sub-pages below `k`. -/
def repairUpTo (base : Word) (bpo : BitVec 10) (v : Nat → EccVerdict) : Nat → Memory → Memory
  | 0, m => m
  | k + 1, m => repairAt (subPageBase base k bpo) (v k) (repairUpTo base bpo v k m)

@[simp] theorem EccVerdict.isSingle_equal : EccVerdict.equal.isSingle = false := rfl
@[simp] theorem EccVerdict.isSingle_single (d : Half) : (EccVerdict.single d).isSingle = true := rfl

/-- What the corrector decides about sub-page `i`, from the slots. -/
def slotVerdict (s : State) (i : Nat) : EccVerdict :=
  eccVerdict s.eccu.mask (s.slots.secc.get i) (s.slots.ecc.get i)

/-- The state after the corrector has passed the sub-pages below `k`. -/
def afterCorrect (t : Space) (base : Word) (k : Nat) (ev : List Event) (s s' : State) : Prop :=
  ∃ l, s' = { s with
    stat := { s.stat with corr := s.stat.corr || (List.range k).any fun i => (slotVerdict s i).isSingle }
    slots := { s.slots with corr := Quad.upTo k fun i => (slotVerdict s i).record }
    mem := t.pick (repairUpTo base s.geo.bytesPerOp (slotVerdict s) k s.mem) s.mem
    pageBuf := t.pick s.pageBuf (repairUpTo base s.geo.bytesPerOp (slotVerdict s) k s.pageBuf)
    loop := l
    events := ev ++ s.events }
  ∧ ev.filter Event.onBus = []

/-- One more sub-page, equal or repaired. -/
theorem correctSubPage_run (t : Space) (base : Word) {k : Nat} {ev : List Event} {s s' : State}
    (hb : s.host.busy = []) (hk : k < 4) (hv : slotVerdict s k ≠ .uncorrectable)
    (h : afterCorrect t base k ev s s') :
    ∃ ev' s'', correctSubPage t base k s' = .ok () s'' ∧ afterCorrect t base (k + 1) ev' s s'' := by
  obtain ⟨l, hs', hev⟩ := h
  have e3 := Quad.upTo_succ k hk fun i => (slotVerdict s i).record
  have hb' : ({ s' with loop := { s'.loop with opIdx := BitVec.ofNat 2 k } } : State).host.busy = [] := by
    rw [hs']; exact hb
  have hv' : eccVerdict ({ s' with loop := { s'.loop with opIdx := BitVec.ofNat 2 k } } : State).eccu.mask
      (s'.slots.secc.get k) (s'.slots.ecc.get k) = slotVerdict s k := by
    rw [hs']; rfl
  have hg : s'.geo.bytesPerOp = s.geo.bytesPerOp := by rw [hs']
  unfold correctSubPage
  rw [Op.bind_ok (setOpIdx_run k _), Op.bind_ok (Op.run_get _)]
  cases hd : slotVerdict s k with
  | uncorrectable => exact absurd hd hv
  | equal =>
    rw [hd] at hv'
    have heq : s'.slots.secc.get k = s'.slots.ecc.get k := by
      unfold eccVerdict at hv'
      split at hv'
      · assumption
      · split at hv' <;> cases hv'
    refine ⟨ev, ?_, ?_, ?_⟩
    rotate_left
    · rw [Op.bind_ok (correct_equal_run heq t _)]
      simp only []
      rw [Op.bind_ok (setCorrSlot_run _ _ _)]
      simp only [show ¬ ((0 : BitVec 2) = 1) by decide, if_false, show ((0 : BitVec 2) == 2) = false by decide]
      rw [raiseIf_false]
    · refine ⟨{ l with opIdx := BitVec.ofNat 2 k }, ?_, hev⟩
      have e4 : corrRecord 0 0 = (slotVerdict s k).record := by rw [hd]; decide
      rw [hs']
      simp only [← e3, e4, List.range_succ, List.any_append, List.any_cons, List.any_nil, EccVerdict.isSingle_equal, repairUpTo, hd, repairAt,
        Bool.or_false]
  | single d =>
    rw [hd] at hv'
    have e4 : corrRecord 1 d = (slotVerdict s k).record := by rw [hd]; rfl
    cases t with
    | host =>
      have h1 := correct_single_host_run hb' hv' (subPageBase base k s'.geo.bytesPerOp)
      refine ⟨.mw (subPageBase base k s'.geo.bytesPerOp + (d >>> 3).setWidth 32) 1
            (s'.mem.readLE (subPageBase base k s'.geo.bytesPerOp + (d >>> 3).setWidth 32) 1
              ^^^ ((1 : Word) <<< (d &&& 7).toNat))
          :: .mr (subPageBase base k s'.geo.bytesPerOp + (d >>> 3).setWidth 32) 1
            (s'.mem.readLE (subPageBase base k s'.geo.bytesPerOp + (d >>> 3).setWidth 32) 1) :: ev, ?_, ?_, ?_⟩
      rotate_left
      · rw [Op.bind_ok h1]
        simp only []
        rw [Op.bind_ok (setCorrSlot_run _ _ _)]
        simp only [if_true]
        rw [setCorr_run]
      · refine ⟨{ l with opIdx := BitVec.ofNat 2 k }, ?_, ?_⟩
        · rw [hs']
          simp only [← e3, e4, List.range_succ, List.any_append, List.any_cons, List.any_nil, EccVerdict.isSingle_single, repairUpTo, hd,
            repairAt, Space.pick_host, Bool.true_or, Bool.or_true, List.cons_append]
        · exact hev
    | page =>
      have h1 := correct_single_page_run hv' (subPageBase base k s'.geo.bytesPerOp)
      refine ⟨ev, ?_, ?_, ?_⟩
      rotate_left
      · rw [Op.bind_ok h1]
        simp only []
        rw [Op.bind_ok (setCorrSlot_run _ _ _)]
        simp only [if_true]
        rw [setCorr_run]
      · refine ⟨{ l with opIdx := BitVec.ofNat 2 k }, ?_, hev⟩
        rw [hs']
        simp only [← e3, e4, List.range_succ, List.any_append, List.any_cons, List.any_nil, EccVerdict.isSingle_single, repairUpTo, hd,
          repairAt, Space.pick_page, Bool.true_or, Bool.or_true]

/-- The first uncorrectable sub-page ends the op. -/
theorem correctSubPage_fail (t : Space) (base : Word) {k : Nat} {ev : List Event} {s s' : State}
    (hk : k < 4) (hv : slotVerdict s k = .uncorrectable) (h : afterCorrect t base k ev s s') :
    ∃ s'', correctSubPage t base k s' = .error .raised (errorEntry .eccFailure (BitVec.ofNat 32 k)
        { s'' with slots := { s''.slots with corr := Quad.upTo (k + 1) fun i => (slotVerdict s i).record } })
      ∧ afterCorrect t base k ev s s'' := by
  obtain ⟨l, hs', hev⟩ := h
  have e3 := Quad.upTo_succ k hk fun i => (slotVerdict s i).record
  have hv' : eccVerdict ({ s' with loop := { s'.loop with opIdx := BitVec.ofNat 2 k } } : State).eccu.mask
      (s'.slots.secc.get k) (s'.slots.ecc.get k) = .uncorrectable := by
    rw [hs']; exact hv
  have h1 := correct_uncorrectable_run hv' t (subPageBase base k s'.geo.bytesPerOp)
  refine ⟨{ s' with loop := { s'.loop with opIdx := BitVec.ofNat 2 k } }, ?_,
    { l with opIdx := BitVec.ofNat 2 k }, by rw [hs'], hev⟩
  unfold correctSubPage
  rw [Op.bind_ok (setOpIdx_run k _), Op.bind_ok (Op.run_get _), Op.bind_ok h1]
  simp only []
  rw [Op.bind_ok (setCorrSlot_run _ _ _)]
  have e4 : corrRecord 2 0 = (slotVerdict s k).record := by rw [hv]; rfl
  simp only [show ¬ ((2 : BitVec 2) = 1) by decide, if_false, show ((2 : BitVec 2) == 2) = true by decide]
  rw [raiseIf_true, e4, ← e3, hs']

/-- The whole pass: `n` sub-pages, none uncorrectable. -/
theorem correctPhase_run (t : Space) (base : Word) {s : State} (hb : s.host.busy = []) :
    ∀ (n k : Nat) (ev : List Event) (s' : State), k + n ≤ 4 →
      (∀ i, k ≤ i → i < k + n → slotVerdict s i ≠ .uncorrectable) → afterCorrect t base k ev s s' →
      ∃ ev' s'', forUp (correctSubPage t base) k n s' = .ok () s'' ∧ afterCorrect t base (k + n) ev' s s''
  | 0, _, ev, s', _, _, h => ⟨ev, s', rfl, h⟩
  | n + 1, k, ev, s', hk, hv, h => by
    obtain ⟨ev1, s1, h1, h2⟩ := correctSubPage_run t base hb (by omega) (hv k (Nat.le_refl k) (by omega)) h
    obtain ⟨ev2, s2, h3, h4⟩ := correctPhase_run t base hb n (k + 1) ev1 s1 (by omega)
      (fun i hi hi' => hv i (by omega) (by omega)) h2
    refine ⟨ev2, s2, ?_, by rw [show k + (n + 1) = k + 1 + n by omega]; exact h4⟩
    rw [forUp_succ, Op.bind_ok h1, h3]

/-- The pass stops at the first uncorrectable sub-page `j`. -/
theorem correctPhase_fail (t : Space) (base : Word) {s : State} (hb : s.host.busy = []) {j : Nat}
    (hj : slotVerdict s j = .uncorrectable) :
    ∀ (n k : Nat) (ev : List Event) (s' : State), k + n ≤ 4 → k ≤ j → j < k + n →
      (∀ i, k ≤ i → i < j → slotVerdict s i ≠ .uncorrectable) → afterCorrect t base k ev s s' →
      ∃ ev' s'', forUp (correctSubPage t base) k n s' = .error .raised
          (errorEntry .eccFailure (BitVec.ofNat 32 j)
            { s'' with slots := { s''.slots with corr := Quad.upTo (j + 1) fun i => (slotVerdict s i).record } })
        ∧ afterCorrect t base j ev' s s''
  | 0, k, ev, s', _, h1, h2, _, _ => by omega
  | n + 1, k, ev, s', hk, hkj, hjk, hv, h => by
    by_cases e : k = j
    · subst e
      obtain ⟨s1, h1, h2⟩ := correctSubPage_fail t base (by omega) hj h
      exact ⟨ev, s1, by rw [forUp_succ, Op.bind_error h1], h2⟩
    · obtain ⟨ev1, s1, h1, h2⟩ := correctSubPage_run t base hb (by omega) (hv k (Nat.le_refl k) (by omega)) h
      obtain ⟨ev2, s2, h3, h4⟩ := correctPhase_fail t base hb hj n (k + 1) ev1 s1 (by omega) (by omega) (by omega)
        (fun i hi hi' => hv i (by omega) (by omega)) h2
      exact ⟨ev2, s2, by rw [forUp_succ, Op.bind_ok h1, h3], h4⟩

/-! ## What the repairs leave in memory -/

theorem repairAt_wf (base : Word) (v : EccVerdict) {m : Memory} (h : m.wf = true) : (repairAt base v m).wf = true := by
  cases v with
  | single d => exact Memory.wf_writeByte _ _ _ h
  | equal => exact h
  | uncorrectable => exact h

/-- A repaired byte reads as the decision says. -/
theorem repairAt_readByte (base : Word) (v : EccVerdict) {m : Memory} (h : m.wf = true) (j : Nat) (hj : j < 2 ^ 32) :
    (repairAt base v m).readByte (bufAddr base j) = repaired v j (m.readByte (bufAddr base j)) := by
  cases v with
  | equal => rfl
  | uncorrectable => rfl
  | single d =>
    have ea : (base + (d >>> 3).setWidth 32).toNat = bufAddr base (d >>> 3).toNat := by
      simp only [bufAddr]
      congr 2
      apply BitVec.eq_of_toNat_eq
      simp only [BitVec.toNat_setWidth, BitVec.toNat_ofNat]
    have hd : (d >>> 3).toNat < 2 ^ 32 := by have := (d >>> 3).isLt; omega
    simp only [repairAt, repaired, Memory.writeLE_one, ea]
    by_cases e : (d >>> 3).toNat = j
    · subst e
      rw [Memory.readByte_writeByte_same _ _ _ h, Memory.readLE_one, ea, if_pos rfl]
      have hs : (d &&& 7).toNat < 8 := by
        have h7 : d &&& 7 = BitVec.ofNat 16 (d.toNat % 8) := by
          apply BitVec.eq_of_toNat_eq
          have : (7 : BitVec 16).toNat = 2 ^ 3 - 1 := rfl
          rw [BitVec.toNat_and, this, Nat.and_two_pow_sub_one_eq_mod, BitVec.toNat_ofNat]
          omega
        rw [h7, BitVec.toNat_ofNat]
        omega
      apply BitVec.eq_of_getLsbD_eq
      intro i hi
      simp [hi]
    · have e' : bufAddr base j ≠ bufAddr base (d >>> 3).toNat := fun h => e (bufAddr_inj base hd hj h.symm)
      rw [Memory.readByte_writeByte_other _ _ _ e', if_neg e]

/-- Bytes other than the sub-page's are left alone, when the decision is about a byte of it. -/
theorem repairAt_other (base : Word) (v : EccVerdict) (m : Memory) (n x : Nat)
    (hd : ∀ d, v = .single d → (d >>> 3).toNat < n) (hx : ∀ j < n, bufAddr base j ≠ x) :
    (repairAt base v m).readByte x = m.readByte x := by
  cases v with
  | equal => rfl
  | uncorrectable => rfl
  | single d =>
    have ea : (base + (d >>> 3).setWidth 32).toNat = bufAddr base (d >>> 3).toNat := by
      simp only [bufAddr]
      congr 2
      apply BitVec.eq_of_toNat_eq
      simp only [BitVec.toNat_setWidth, BitVec.toNat_ofNat]
    simp only [repairAt, Memory.writeLE_one, ea]
    exact Memory.readByte_writeByte_other _ _ _ (Ne.symm (hx _ (hd d rfl))) m

theorem bufAddr_subPage (base : Word) (k : Nat) (bpo : BitVec 10) (p : Nat) :
    bufAddr (subPageBase base k bpo) p = bufAddr base (k * bpo.toNat + p) := by
  simp only [bufAddr, subPageBase]
  rw [BitVec.add_assoc, ← BitVec.ofNat_add]

theorem repairUpTo_wf (base : Word) (bpo : BitVec 10) (v : Nat → EccVerdict) {m : Memory} (h : m.wf = true) :
    ∀ k, (repairUpTo base bpo v k m).wf = true
  | 0 => h
  | k + 1 => repairAt_wf _ _ (repairUpTo_wf base bpo v h k)

/-- Every byte of the page after the repairs of the sub-pages below `k`. -/
theorem repairUpTo_readByte (base : Word) (bpo : BitVec 10) (v : Nat → EccVerdict) {m : Memory} (h : m.wf = true)
    (hd : ∀ i d, v i = .single d → (d >>> 3).toNat < bpo.toNat) : ∀ k, k ≤ 4 → ∀ i p, i < 4 → p < bpo.toNat →
      (repairUpTo base bpo v k m).readByte (bufAddr base (i * bpo.toNat + p))
        = if i < k then repaired (v i) p (m.readByte (bufAddr base (i * bpo.toNat + p)))
          else m.readByte (bufAddr base (i * bpo.toNat + p))
  | 0, _, i, p, _, _ => by simp [repairUpTo]
  | k + 1, hk, i, p, hi, hp => by
    have hb := bpo.isLt
    have ih := repairUpTo_readByte base bpo v h hd k (by omega) i p hi hp
    rw [repairUpTo]
    by_cases e : i = k
    · subst e
      rw [← bufAddr_subPage, repairAt_readByte _ _ (repairUpTo_wf base bpo v h i) _ (by omega), bufAddr_subPage, ih]
      simp
    · rw [repairAt_other _ _ _ bpo.toNat _ (hd k), ih]
      · by_cases h1 : i < k
        · simp [h1, Nat.lt_succ_of_lt h1]
        · have : ¬ i < k + 1 := by omega
          simp [h1, this]
      · intro j hj he
        rw [bufAddr_subPage] at he
        have h1 : k * bpo.toNat ≤ 4 * 1024 := Nat.mul_le_mul (by omega) (by omega)
        have h2 : i * bpo.toNat ≤ 4 * 1024 := Nat.mul_le_mul (by omega) (by omega)
        have he := bufAddr_inj base (by omega) (by omega) he
        have h3 : (k * bpo.toNat + j) / bpo.toNat = (i * bpo.toNat + p) / bpo.toNat := by rw [he]
        rw [Nat.mul_comm k, Nat.mul_comm i, Nat.mul_add_div (by omega), Nat.mul_add_div (by omega),
          Nat.div_eq_of_lt hj, Nat.div_eq_of_lt hp] at h3
        omega

/-- Bytes outside the page are left alone by the repairs. -/
theorem repairUpTo_other (base : Word) (bpo : BitVec 10) (v : Nat → EccVerdict) (m : Memory) (x : Nat)
    (hd : ∀ i d, v i = .single d → (d >>> 3).toNat < bpo.toNat) : ∀ k,
      (∀ j < k * bpo.toNat, bufAddr base j ≠ x) → (repairUpTo base bpo v k m).readByte x = m.readByte x
  | 0, _ => rfl
  | k + 1, hx => by
    rw [repairUpTo, repairAt_other _ _ _ bpo.toNat _ (hd k), repairUpTo_other base bpo v m x hd k]
    · intro j hj
      exact hx j (by rw [Nat.add_mul]; omega)
    · intro j hj
      rw [bufAddr_subPage]
      exact hx _ (by rw [Nat.add_mul]; omega)

/-! ## The data and spare phases of a write -/

/-- The state after `k` sub-pages of the data phase of a write. -/
def afterSent (base : Word) (bpo : BitVec 10) (k : Nat) (ev : List Event) (s s' : State) : Prop :=
  ∃ l, s' = { s with
    eccu := ⟨0, 0, true, s.eccu.mask⟩
    slots := { s.slots with ecc := Quad.upTo k (computedEcc { s.geo with bytesPerOp := bpo } s.eccu.mask (s.buffer base (4 * bpo.toNat))) }
    loop := l
    events := ev ++ s.events }
  ∧ ev.filter Event.onBus
      = ((List.range k).flatMap fun i => dwEvents s.cfg.params.nandBus16 (s.buffer (subPageBase base i bpo) bpo.toNat)).reverse

theorem chunk_buffer (s : State) (base : Word) (bpo : BitVec 10) (n k : Nat) (hk : k < n) :
    chunk bpo.toNat k (s.buffer base (n * bpo.toNat)) = s.buffer (subPageBase base k bpo) bpo.toNat := by
  have hle : (k + 1) * bpo.toNat ≤ n * bpo.toNat := Nat.mul_le_mul_right _ hk
  rw [Nat.add_mul, Nat.one_mul] at hle
  apply List.ext_getElem
  · rw [chunk_length]
    · simp
    · rw [buffer_length, Nat.add_mul, Nat.one_mul]; exact hle
  · intro i h1 h2
    simp only [buffer_length] at h2
    simp [chunk, State.buffer, bufAddr_subPage]

/-- One more sub-page of the data phase of a write. -/
theorem writeSubPage_run (base : Word) (bpo : BitVec 10) {k : Nat} {ev : List Event} {s s' : State}
    (hb : s.host.busy = []) (hn : s.cfg.params.nandBus16 = true → bpo.toNat % 2 = 0) (hk : k < 4)
    (h : afterSent base bpo k ev s s') :
    ∃ ev' s'', writeSubPage base bpo k s' = .ok () s'' ∧ afterSent base bpo (k + 1) ev' s s'' := by
  obtain ⟨l, hs', hev⟩ := h
  have hb' : ({ s' with loop := { s'.loop with opIdx := BitVec.ofNat 2 k } } : State).host.busy = [] := by
    rw [hs']; exact hb
  obtain ⟨ev2, h1, h2⟩ := writeBytes_run (subPageBase base k bpo) bpo.toNat hb' (by rw [hs']; exact hn)
  unfold writeSubPage
  rw [Op.bind_ok (setOpIdx_run k _), Op.bind_ok h1, Op.bind_ok (eccReadRestart_run _), setEcc_run]
  have e1 : ({ s' with loop := { s'.loop with opIdx := BitVec.ofNat 2 k } } : State).buffer (subPageBase base k bpo) bpo.toNat
      = s.buffer (subPageBase base k bpo) bpo.toNat := by rw [hs']; rfl
  refine ⟨ev2 ++ ev, _, rfl, { l with opIdx := BitVec.ofNat 2 k, xferCnt := 0 }, ?_, ?_⟩
  · have e3 := Quad.upTo_succ k hk
      (computedEcc { s.geo with bytesPerOp := bpo } s.eccu.mask (s.buffer base (4 * bpo.toNat)))
    have e4 : computedEcc { s.geo with bytesPerOp := bpo } s.eccu.mask (s.buffer base (4 * bpo.toNat)) k
        = (EccUnit.absorbBytes ⟨0, 0, true, s.eccu.mask⟩ (s.buffer (subPageBase base k bpo) bpo.toNat)).acc
          &&& s.eccu.mask := by
      rw [absorbBytes_restarted_acc, computedEcc, chunk_buffer s base bpo 4 k hk]
    rw [← e3, e4]
    simp only [afterWrite, e1]
    rw [hs']
    simp only [EccUnit.absorbBytes_mask, List.append_assoc]
  · rw [filter_append_onBus, h2, hev, e1, List.range_succ, List.flatMap_append, List.reverse_append, hs']
    simp

/-- The whole data phase of a write. -/
theorem sendPhase_run (base : Word) (bpo : BitVec 10) {s : State} (hb : s.host.busy = [])
    (hn : s.cfg.params.nandBus16 = true → bpo.toNat % 2 = 0) :
    ∀ (n k : Nat) (ev : List Event) (s' : State), k + n ≤ 4 → afterSent base bpo k ev s s' →
      ∃ ev' s'', forUp (writeSubPage base bpo) k n s' = .ok () s'' ∧ afterSent base bpo (k + n) ev' s s''
  | 0, _, ev, s', _, h => ⟨ev, s', rfl, h⟩
  | n + 1, k, ev, s', hk, h => by
    obtain ⟨ev1, s1, h1, h2⟩ := writeSubPage_run base bpo hb hn (by omega) h
    obtain ⟨ev2, s2, h3, h4⟩ := sendPhase_run base bpo hb hn n (k + 1) ev1 s1 (by omega) h2
    refine ⟨ev2, s2, ?_, by rw [show k + (n + 1) = k + 1 + n by omega]; exact h4⟩
    rw [forUp_succ, Op.bind_ok h1, h3]

/-- The spare chunk a write sends for sub-page `i` (`42_ecc.md` R168). -/
def chunkOf (s : State) (i : Nat) : List Byte :=
  spareChunk s.geo.sparePerOp.toNat s.geo.eccOff.toNat (s.slots.ecc.get i)

@[simp] theorem spareChunk_length (n o : Nat) (e : Word) : (spareChunk n o e).length = n := by
  simp [spareChunk]

/-- The spare phase of a write: `n` chunks from chunk `k` on. -/
theorem writeSparePhase_run : ∀ (n k : Nat) (s : State), s.host.busy = [] →
    (s.cfg.params.nandBus16 = true → s.geo.sparePerOp.toNat % 2 = 0) →
    ∃ ev l, forUp writeSpare k n s = .ok ()
        { s with
          eccu := s.eccu.absorbBytes ((List.range' k n).flatMap (chunkOf s))
          loop := l
          events := ev ++ s.events }
      ∧ ev.filter Event.onBus
          = ((List.range' k n).flatMap fun i => dwEvents s.cfg.params.nandBus16 (chunkOf s i)).reverse
  | 0, k, s, _, _ => ⟨[], s.loop, rfl, rfl⟩
  | n + 1, k, s, hb, hn => by
    obtain ⟨ev1, h1, h2⟩ := writeStream_run (s := { s with loop := { s.loop with opIdx := BitVec.ofNat 2 k } })
      (chunkOf s k) hb (by simpa [chunkOf] using hn)
    obtain ⟨ev2, l, h3, h4⟩ := writeSparePhase_run n (k + 1)
      (afterWrite (chunkOf s k) ev1 { s with loop := { s.loop with opIdx := BitVec.ofNat 2 k } }) hb hn
    refine ⟨ev2 ++ ev1, l, ?_, ?_⟩
    · have h0 : writeSpare k s = .ok ()
          (afterWrite (chunkOf s k) ev1 { s with loop := { s.loop with opIdx := BitVec.ofNat 2 k } }) := by
        unfold writeSpare
        rw [Op.bind_ok (setOpIdx_run k _), Op.bind_ok (Op.run_get _)]
        exact h1
      rw [forUp_succ, Op.bind_ok h0]
      refine h3.trans ?_
      simp [afterWrite, List.range'_succ, EccUnit.absorbBytes_append]
      rfl
    · rw [filter_append_onBus, h4, h2, List.range'_succ, List.flatMap_cons, List.reverse_append]
      rfl

end Sys2Proof.Machine
end

