-- ==== Sys2Proof/Laws/PageRead.lean ====
section
/-! SUPPORT. A whole page read in a quiet environment, into host memory or PAGEBUF
(`43_nand_page_block.md` R193). -/

namespace Sys2Proof.Machine

/-- A page read's answers: the ready samples and the data and spare cycles. -/
structure PageAnswers where
  busy  : Nat
  data  : List Half
  spare : List Half
  restR : List Bool
  rest  : List Half

/-- The answers are those of a page of this geometry, and the device is ready in time. -/
structure PageAnswers.Fit (a : PageAnswers) (s : State) : Prop where
  intime : a.busy < s.opr.timeout.toNat
  rdy    : s.dev.rdy = List.replicate a.busy false ++ true :: a.restR
  dr     : s.dev.dr = a.data ++ a.spare ++ a.rest
  data   : (streamBytes s.cfg.params.nandBus16 a.data).length = s.geo.numOps.toNat * s.geo.bytesPerOp.toNat
  spare  : (streamBytes s.cfg.params.nandBus16 a.spare).length = s.geo.numOps.toNat * s.geo.sparePerOp.toNat

/-- The decision about sub-page `i` of the page that these answers carry. -/
def PageAnswers.verdict (a : PageAnswers) (s : State) (i : Nat) : EccVerdict :=
  pageVerdict s.geo s.eccu.mask (streamBytes s.cfg.params.nandBus16 a.data)
    (streamBytes s.cfg.params.nandBus16 a.spare) i

/-- The state after the data and spare phases and the corrector's pass over the sub-pages below `c`, of
which `checked` have a record. -/
def afterPage (t : Space) (block page base : Word) (a : PageAnswers) (c checked : Nat) (ev : List Event) (s s' : State) : Prop :=
  ∃ l sb ph, s' = { s with
    stat := { s.stat with phase := ph, corr := s.stat.corr || (List.range c).any fun i => (a.verdict s i).isSingle }
    eccu := EccUnit.absorbBytes ⟨0, 0, true, s.eccu.mask⟩ (streamBytes s.cfg.params.nandBus16 a.spare)
    slots := { ecc := Quad.upTo s.geo.numOps.toNat (computedEcc s.geo s.eccu.mask (streamBytes s.cfg.params.nandBus16 a.data)), secc := Quad.upTo s.geo.numOps.toNat (spareEcc s.geo s.eccu.mask (streamBytes s.cfg.params.nandBus16 a.spare)), corr := Quad.upTo checked fun i => (a.verdict s i).record }
    dev := { s.dev with rdy := a.restR, dr := a.rest }
    mem := t.pick (repairUpTo base s.geo.bytesPerOp (a.verdict s) c (s.mem.writeBytesAt base (streamBytes s.cfg.params.nandBus16 a.data))) s.mem
    pageBuf := t.pick s.pageBuf (repairUpTo base s.geo.bytesPerOp (a.verdict s) c (s.pageBuf.writeBytesAt base (streamBytes s.cfg.params.nandBus16 a.data)))
    spareBuf := sb
    loop := l
    events := ev ++ s.events }
  ∧ sb.wf = true
  ∧ ev.filter Event.onBus
      = (readEvents s.cfg.params s.geo block page a.busy a.data a.spare).reverse

theorem Geo.Legal.sizes {g : Geo} {mask : Word} (h : g.Legal mask) :
    g.numOps.toNat ≤ 4 ∧ (g.bytesPerOp.toNat = 256 ∨ g.bytesPerOp.toNat = 512)
    ∧ g.bytesPerOp.toNat = 32 * g.sparePerOp.toNat ∧ g.eccOff.toNat + 4 ≤ g.sparePerOp.toNat := by
  obtain ⟨_, _, _, _, _, _, h1, h2, _, _, h3, h4, _⟩ := h
  omega

/-- The corrector's decisions depend on the ECC slots alone. -/
theorem slotVerdict_eq {s s' : State} (a : PageAnswers) (i : Nat) (hm : s'.eccu.mask = s.eccu.mask)
    (he : s'.slots.ecc = Quad.upTo s.geo.numOps.toNat (computedEcc s.geo s.eccu.mask (streamBytes s.cfg.params.nandBus16 a.data)))
    (hs : s'.slots.secc = Quad.upTo s.geo.numOps.toNat (spareEcc s.geo s.eccu.mask (streamBytes s.cfg.params.nandBus16 a.spare)))
    (hi : i < s.geo.numOps.toNat) (h4 : i < 4) : slotVerdict s' i = a.verdict s i := by
  simp only [slotVerdict, hm, he, hs, Quad.get_upTo _ _ _ h4, if_pos hi]
  rfl

/-- The commands and the ready poll that start a page read. -/
theorem readStart_run {s : State} (hb : s.host.busy = []) (block page : Word) {k : Nat} {restR : List Bool}
    (hk : k < s.opr.timeout.toNat) (hr : s.dev.rdy = List.replicate k false ++ true :: restR) (m : Op Unit) :
    ∃ l, (do
        setPhase .cmd
        cle s.cfg.params.cmdRead
        setPhase .addr
        addrCycles block page
        readConfirm s.geo.bigBlock
        setPhase .waitRdy
        waitRdy
        m : Op Unit) s
      = m { s with
          stat := { s.stat with phase := .waitRdy }
          dev := { s.dev with rdy := restR }
          loop := l
          events := ([cleEvent s.cfg.params.cmdRead] ++ addrEvents s.geo block page
            ++ (if s.geo.bigBlock then [cleEvent s.cfg.params.cmdReadConfirm] else []) ++ rdyEvents k).reverse
              ++ s.events } := by
  refine ⟨{ s.loop with pollCnt := BitVec.ofNat 32 (s.opr.timeout.toNat - k) }, ?_⟩
  rw [Op.bind_ok (setPhase_run _ _), Op.bind_ok (cle_run (by exact hb) _), Op.bind_ok (setPhase_run _ _),
    Op.bind_ok (addrCycles_run (by exact hb) _ _)]
  cases hg : s.geo.bigBlock
  · rw [show readConfirm false = (do let _ ← params; pure () : Op Unit) from rfl]
    rw [Op.bind_ok (s' := ?_) (a := ()) ?_]
    rotate_left 2
    · rw [Op.bind_ok (params_run _), Op.run_pure]
    · rw [Op.bind_ok (setPhase_run _ _), Op.bind_ok (waitRdy_ready (by exact hb) (by exact hk) (by exact hr))]
      simp [cleEvent]
  · rw [show readConfirm true = (do let p ← params; setPhase .confirm; cle p.cmdReadConfirm : Op Unit) from rfl]
    rw [Op.bind_ok (s' := ?_) (a := ()) ?_]
    rotate_left 2
    · rw [Op.bind_ok (params_run _), Op.bind_ok (setPhase_run _ _), cle_run (by exact hb)]
    · rw [Op.bind_ok (setPhase_run _ _), Op.bind_ok (waitRdy_ready (by exact hb) (by exact hk) (by exact hr))]
      simp [cleEvent]

/-- The cycles of a chunk of `n` bytes, on a bus that carries them whole. -/
theorem chunk_cycles {b : Bool} {n : Nat} (h : n % 2 = 0) : n = (if b then 2 else 1) * (if b then n / 2 else n) := by
  cases b
  · simp
  · simp
    omega

theorem length_cycles {b : Bool} {n m : Nat} {l : List Half} (h : m % 2 = 0)
    (hl : (streamBytes b l).length = n * m) : l.length = n * (if b then m / 2 else m) := by
  rw [streamBytes_length] at hl
  cases b
  · simpa using hl
  · simp only [if_true] at hl ⊢
    have : n * m = 2 * (n * (m / 2)) := by
      rw [← Nat.mul_left_comm, Nat.mul_div_cancel' (Nat.dvd_of_mod_eq_zero h)]
    omega

/-- The data and spare phases of a page read. -/
theorem pageData_run (t : Space) (base : Word) {s : State} (a : PageAnswers) (hb : s.host.busy = [])
    (hg : s.geo.Legal s.eccu.mask) (hz : s.slots = ⟨Quad.zero, Quad.zero, Quad.zero⟩)
    (hw : s.spareBuf.wf = true) (hd : s.dev.dr = a.data ++ a.spare ++ a.rest)
    (hdl : (streamBytes s.cfg.params.nandBus16 a.data).length = s.geo.numOps.toNat * s.geo.bytesPerOp.toNat)
    (hsl : (streamBytes s.cfg.params.nandBus16 a.spare).length = s.geo.numOps.toNat * s.geo.sparePerOp.toNat)
    (m : Op Unit) :
    ∃ l sb ev, (do
        setPhase .data
        let _ ← eccReadRestart
        forUp (readSubPage t base s.geo.bytesPerOp) 0 s.geo.numOps.toNat
        setPhase .spare
        forUp (readSpare s.geo.sparePerOp) 0 s.geo.numOps.toNat
        setPhase .ecc
        m : Op Unit) s
      = m { s with
          stat := { s.stat with phase := .ecc }
          eccu := EccUnit.absorbBytes ⟨0, 0, true, s.eccu.mask⟩ (streamBytes s.cfg.params.nandBus16 a.spare)
          slots := { ecc := Quad.upTo s.geo.numOps.toNat (computedEcc s.geo s.eccu.mask (streamBytes s.cfg.params.nandBus16 a.data)), secc := Quad.upTo s.geo.numOps.toNat (spareEcc s.geo s.eccu.mask (streamBytes s.cfg.params.nandBus16 a.spare)), corr := Quad.zero }
          dev := { s.dev with dr := a.rest }
          mem := t.pick (s.mem.writeBytesAt base (streamBytes s.cfg.params.nandBus16 a.data)) s.mem
          pageBuf := t.pick s.pageBuf (s.pageBuf.writeBytesAt base (streamBytes s.cfg.params.nandBus16 a.data))
          spareBuf := sb
          loop := l
          events := ev ++ s.events }
      ∧ sb.wf = true
      ∧ ev.filter Event.onBus
          = (drEvents s.cfg.params.nandBus16 a.data ++ drEvents s.cfg.params.nandBus16 a.spare).reverse := by
  obtain ⟨h4, hbo, h32, ho⟩ := hg.sizes
  have hdc := length_cycles (b := s.cfg.params.nandBus16) (by omega) hdl
  have hsc := length_cycles (b := s.cfg.params.nandBus16) (by omega) hsl
  have hc1 := chunk_cycles (b := s.cfg.params.nandBus16) (n := s.geo.bytesPerOp.toNat) (by omega)
  have hc2 := chunk_cycles (b := s.cfg.params.nandBus16) (n := s.geo.sparePerOp.toNat) (by omega)
  generalize (if s.cfg.params.nandBus16 then s.geo.bytesPerOp.toNat / 2 else s.geo.bytesPerOp.toNat) = c1 at hdc hc1
  generalize (if s.cfg.params.nandBus16 then s.geo.sparePerOp.toNat / 2 else s.geo.sparePerOp.toNat) = c2 at hsc hc2
  have h0 : afterData t base s.geo.bytesPerOp.toNat c1 0 a.data (a.spare ++ a.rest) []
      { s with stat := { s.stat with phase := .data } }
      { s with stat := { s.stat with phase := .data }, eccu := ⟨0, 0, true, s.eccu.mask⟩ } := by
    refine ⟨s.loop, ?_, by simp [drEvents]⟩
    have ed : ({ s.dev with dr := a.data ++ (a.spare ++ a.rest) } : Device) = s.dev := by
      rw [← List.append_assoc, ← hd]
    cases t <;> simp [hz, ed]
  obtain ⟨ev1, s1, h1, l1, e1, hev1⟩ := dataPhase_run t base s.geo.bytesPerOp c1
    (s := { s with stat := { s.stat with phase := .data } }) hb hc1 s.geo.numOps.toNat 0 [] _ (by omega)
    (by rw [Nat.zero_add]; omega) h0
  simp only [Nat.zero_add, ← hdc, ← hdl, List.drop_length, List.take_length, List.nil_append] at e1 hev1
  have g1 : s1.geo = s.geo := by rw [e1]
  have p1 : s1.cfg = s.cfg := by rw [e1]
  have q1 : s1.eccu = ⟨0, 0, true, s.eccu.mask⟩ := by rw [e1]
  have h0' : afterChunks c2 0 a.spare a.rest { s1 with stat := { s1.stat with phase := .spare } }
      { s1 with stat := { s1.stat with phase := .spare } } := by
    refine ⟨s1.loop, s.spareBuf, ?_, hw⟩
    rw [e1]
    simp [hz, drEvents]
  obtain ⟨s2, h2, l2, sb, e2, hsb⟩ := sparePhase_run c2 (s := { s1 with stat := { s1.stat with phase := .spare } })
    (spare := a.spare) (rest := a.rest) (by rw [e1]; exact hb) (by rw [g1, p1]; exact hc2) (by rw [g1]; exact ho)
    s.geo.numOps.toNat 0 _ (by omega) (by rw [Nat.zero_add]; omega) h0'
  simp only [Nat.zero_add, ← hsc, List.drop_length, List.take_length, List.nil_append, p1, g1, q1] at e2
  refine ⟨l2, sb, (drEvents s.cfg.params.nandBus16 a.spare).reverse ++ ev1, ?_, hsb, ?_⟩
  · have h2' : forUp (readSpare s.geo.sparePerOp) 0 s.geo.numOps.toNat
        { s1 with stat := { s1.stat with phase := .spare } } = .ok () s2 := by
      rw [← h2]
      simp only [g1]
    rw [Op.bind_ok (setPhase_run _ _), Op.bind_ok (eccReadRestart_run _), Op.bind_ok h1, Op.bind_ok (setPhase_run _ _),
      Op.bind_ok h2', Op.bind_ok (setPhase_run _ _), e2, e1]
    simp only [hz, List.append_assoc]
    rfl
  · rw [filter_append_onBus, hev1, List.reverse_append]
    congr 1
    simp [drEvents, Event.onBus]

theorem Quad.upTo_congr {k : Nat} {f g : Nat → Word} (h : ∀ i < k, f i = g i) : Quad.upTo k f = Quad.upTo k g := by
  apply Quad.ext_get
  intro i hi
  rw [Quad.get_upTo _ _ _ hi, Quad.get_upTo _ _ _ hi]
  split
  · next hk => exact h i hk
  · rfl

theorem repairUpTo_congr (base : Word) (bpo : BitVec 10) (m : Memory) {f g : Nat → EccVerdict} :
    ∀ k, (∀ i < k, f i = g i) → repairUpTo base bpo f k m = repairUpTo base bpo g k m
  | 0, _ => rfl
  | k + 1, h => by
    rw [repairUpTo, repairUpTo, repairUpTo_congr base bpo m k (fun i hi => h i (by omega)), h k (by omega)]

theorem any_range_congr {f g : Nat → Bool} (k : Nat) (h : ∀ i < k, f i = g i) :
    (List.range k).any f = (List.range k).any g := by
  rw [Bool.eq_iff_iff, List.any_eq_true, List.any_eq_true]
  constructor
  · rintro ⟨i, hi, e⟩
    exact ⟨i, hi, by rw [← h i (List.mem_range.mp hi)]; exact e⟩
  · rintro ⟨i, hi, e⟩
    exact ⟨i, hi, by rw [h i (List.mem_range.mp hi)]; exact e⟩

/-- What the corrector's pass leaves, in terms of the page's own decisions. -/
theorem afterCorrect_page {t : Space} {base : Word} {s s0 : State} {a : PageAnswers} {c : Nat} {ev : List Event}
    {s' : State} (hv : ∀ i < c, slotVerdict s0 i = a.verdict s i) (h : afterCorrect t base c ev s0 s') :
    ∃ l, s' = { s0 with
      stat := { s0.stat with corr := s0.stat.corr || (List.range c).any fun i => (a.verdict s i).isSingle }
      slots := { s0.slots with corr := Quad.upTo c fun i => (a.verdict s i).record }
      mem := t.pick (repairUpTo base s0.geo.bytesPerOp (a.verdict s) c s0.mem) s0.mem
      pageBuf := t.pick s0.pageBuf (repairUpTo base s0.geo.bytesPerOp (a.verdict s) c s0.pageBuf)
      loop := l
      events := ev ++ s0.events }
    ∧ ev.filter Event.onBus = [] := by
  obtain ⟨l, h, hev⟩ := h
  refine ⟨l, ?_, hev⟩
  rw [h, any_range_congr (f := fun i => (slotVerdict s0 i).isSingle) (g := fun i => (a.verdict s i).isSingle) c
      (fun i hi => by rw [hv i hi]),
    Quad.upTo_congr (f := fun i => (slotVerdict s0 i).record) (g := fun i => (a.verdict s i).record)
      (fun i hi => by rw [hv i hi]),
    repairUpTo_congr base _ s0.mem c hv, repairUpTo_congr base _ s0.pageBuf c hv]

theorem addrEvents_onBus (g : Geo) (block page : Word) : ∀ e ∈ addrEvents g block page, e.onBus = true := by
  intro e he
  simp only [addrEvents, rowEvents, List.mem_append, List.mem_replicate, List.mem_map] at he
  rcases he with ⟨_, rfl⟩ | ⟨k, _, rfl⟩ <;> rfl

theorem rdyEvents_onBus (k : Nat) : ∀ e ∈ rdyEvents k, e.onBus = true := by
  intro e he
  simp only [rdyEvents, List.mem_append, List.mem_replicate, List.mem_singleton] at he
  rcases he with ⟨_, rfl⟩ | rfl <;> rfl

/-- The state of a page read whose cycles are over and whose sub-pages are not yet checked. -/
def cyclesDone (t : Space) (base : Word) (a : PageAnswers) (l : LoopRegs) (sb : Memory) (ev : List Event)
    (s : State) : State :=
  { s with
    stat := { s.stat with phase := .ecc }
    eccu := EccUnit.absorbBytes ⟨0, 0, true, s.eccu.mask⟩ (streamBytes s.cfg.params.nandBus16 a.spare)
    slots := { ecc := Quad.upTo s.geo.numOps.toNat (computedEcc s.geo s.eccu.mask (streamBytes s.cfg.params.nandBus16 a.data)), secc := Quad.upTo s.geo.numOps.toNat (spareEcc s.geo s.eccu.mask (streamBytes s.cfg.params.nandBus16 a.spare)), corr := Quad.zero }
    dev := { s.dev with rdy := a.restR, dr := a.rest }
    mem := t.pick (s.mem.writeBytesAt base (streamBytes s.cfg.params.nandBus16 a.data)) s.mem
    pageBuf := t.pick s.pageBuf (s.pageBuf.writeBytesAt base (streamBytes s.cfg.params.nandBus16 a.data))
    spareBuf := sb
    loop := l
    events := ev ++ s.events }

theorem cyclesDone_verdict {t : Space} {base : Word} {a : PageAnswers} {l : LoopRegs} {sb : Memory}
    {ev : List Event} {s : State} (hg : s.geo.Legal s.eccu.mask) :
    ∀ i < s.geo.numOps.toNat, slotVerdict (cyclesDone t base a l sb ev s) i = a.verdict s i := by
  intro i hi
  have h4 := hg.sizes.1
  exact slotVerdict_eq a i (by simp [cyclesDone]) rfl rfl hi (by omega)

theorem cyclesDone_start {t : Space} {base : Word} {a : PageAnswers} {l : LoopRegs} {sb : Memory}
    {ev : List Event} {s : State} :
    afterCorrect t base 0 [] (cyclesDone t base a l sb ev s) (cyclesDone t base a l sb ev s) := by
  refine ⟨l, ?_, rfl⟩
  cases t <;> simp [cyclesDone, repairUpTo]

/-- The cycles of a page read. -/
theorem pageCycles_run (t : Space) (block page base : Word) {s : State} (a : PageAnswers) (hb : s.host.busy = [])
    (hg : s.geo.Legal s.eccu.mask) (hz : s.slots = ⟨Quad.zero, Quad.zero, Quad.zero⟩)
    (hw : s.spareBuf.wf = true) (hf : a.Fit s) :
    ∃ l sb ev, pageRead block page t base s
        = forUp (correctSubPage t base) 0 s.geo.numOps.toNat (cyclesDone t base a l sb ev s)
      ∧ sb.wf = true
      ∧ ev.filter Event.onBus = (readEvents s.cfg.params s.geo block page a.busy a.data a.spare).reverse := by
  obtain ⟨l1, h1⟩ := readStart_run hb block page hf.intime hf.rdy (do
    setPhase .data
    let _ ← eccReadRestart
    forUp (readSubPage t base s.geo.bytesPerOp) 0 s.geo.numOps.toNat
    setPhase .spare
    forUp (readSpare s.geo.sparePerOp) 0 s.geo.numOps.toNat
    setPhase .ecc
    forUp (correctSubPage t base) 0 s.geo.numOps.toNat)
  obtain ⟨l2, sb, ev2, h2, hsb, hev2⟩ := pageData_run t base a (s := { s with
          stat := { s.stat with phase := .waitRdy }
          dev := { s.dev with rdy := a.restR }
          loop := l1
          events := ([cleEvent s.cfg.params.cmdRead] ++ addrEvents s.geo block page
            ++ (if s.geo.bigBlock then [cleEvent s.cfg.params.cmdReadConfirm] else []) ++ rdyEvents a.busy).reverse
              ++ s.events }) hb hg hz hw hf.dr hf.data hf.spare (forUp (correctSubPage t base) 0 s.geo.numOps.toNat)
  refine ⟨l2, sb, ev2 ++ ([cleEvent s.cfg.params.cmdRead] ++ addrEvents s.geo block page
            ++ (if s.geo.bigBlock then [cleEvent s.cfg.params.cmdReadConfirm] else []) ++ rdyEvents a.busy).reverse,
    ?_, hsb, ?_⟩
  · have h0 : pageRead block page t base s = (do
        setPhase .cmd
        cle s.cfg.params.cmdRead
        setPhase .addr
        addrCycles block page
        readConfirm s.geo.bigBlock
        setPhase .waitRdy
        waitRdy
        setPhase .data
        let _ ← eccReadRestart
        forUp (readSubPage t base s.geo.bytesPerOp) 0 s.geo.numOps.toNat
        setPhase .spare
        forUp (readSpare s.geo.sparePerOp) 0 s.geo.numOps.toNat
        setPhase .ecc
        forUp (correctSubPage t base) 0 s.geo.numOps.toNat : Op Unit) s := by
      unfold pageRead
      rw [Op.bind_ok (Op.run_get _), Op.bind_ok (params_run _)]
    rw [h0, h1, h2]
    simp only [cyclesDone, List.append_assoc]
  · rw [filter_append_onBus, hev2, List.filter_eq_self.mpr]
    · simp [readEvents]
    · intro e he
      rw [List.mem_reverse] at he
      simp only [List.mem_append, List.mem_singleton] at he
      rcases he with ((rfl | he) | he) | he
      · rfl
      · exact addrEvents_onBus _ _ _ e he
      · split at he
        · rw [List.mem_singleton] at he
          subst he
          rfl
        · cases he
      · exact rdyEvents_onBus _ e he

/-- A whole page read none of whose sub-pages is uncorrectable. -/
theorem pageRead_run (t : Space) (block page base : Word) {s : State} (a : PageAnswers) (hb : s.host.busy = [])
    (hg : s.geo.Legal s.eccu.mask) (hz : s.slots = ⟨Quad.zero, Quad.zero, Quad.zero⟩)
    (hw : s.spareBuf.wf = true) (hf : a.Fit s)
    (hv : ∀ i < s.geo.numOps.toNat, a.verdict s i ≠ .uncorrectable) :
    ∃ ev s', pageRead block page t base s = .ok () s'
      ∧ afterPage t block page base a s.geo.numOps.toNat s.geo.numOps.toNat ev s s' := by
  have h4 := hg.sizes.1
  obtain ⟨l, sb, ev, h1, hsb, hev⟩ := pageCycles_run t block page base a hb hg hz hw hf
  obtain ⟨ev2, s', h2, h3⟩ := correctPhase_run t base (s := cyclesDone t base a l sb ev s) hb s.geo.numOps.toNat 0 [] _
    (by omega) (fun i _ hi => by rw [cyclesDone_verdict hg i (by omega)]; exact hv i (by omega)) cyclesDone_start
  rw [Nat.zero_add] at h3
  obtain ⟨l', h4, hev'⟩ := afterCorrect_page (cyclesDone_verdict hg) h3
  refine ⟨ev2 ++ ev, s', by rw [h1, h2], l', sb, .ecc, ?_, hsb, ?_⟩
  · rw [h4]
    cases t <;> simp [cyclesDone]
  · rw [filter_append_onBus, hev', hev, List.nil_append]

/-- A whole page read whose first uncorrectable sub-page is `j`. -/
theorem pageRead_fail (t : Space) (block page base : Word) {s : State} (a : PageAnswers) (hb : s.host.busy = [])
    (hg : s.geo.Legal s.eccu.mask) (hz : s.slots = ⟨Quad.zero, Quad.zero, Quad.zero⟩)
    (hw : s.spareBuf.wf = true) (hf : a.Fit s) {j : Nat} (hj : j < s.geo.numOps.toNat)
    (hu : a.verdict s j = .uncorrectable) (hv : ∀ i < j, a.verdict s i ≠ .uncorrectable) :
    ∃ ev s', pageRead block page t base s = .error .raised (errorEntry .eccFailure (BitVec.ofNat 32 j) s')
      ∧ afterPage t block page base a j (j + 1) ev s s' := by
  have h4 := hg.sizes.1
  obtain ⟨l, sb, ev, h1, hsb, hev⟩ := pageCycles_run t block page base a hb hg hz hw hf
  obtain ⟨ev2, s', h2, h3⟩ := correctPhase_fail t base (s := cyclesDone t base a l sb ev s) hb (j := j)
    (by rw [cyclesDone_verdict hg j hj]; exact hu) s.geo.numOps.toNat 0 [] _
    (by omega) (by omega) (by omega) (fun i _ hi => by rw [cyclesDone_verdict hg i (by omega)]; exact hv i hi)
    cyclesDone_start
  obtain ⟨l', h5, hev'⟩ := afterCorrect_page (s := s) (a := a)
    (fun i hi => cyclesDone_verdict hg i (by omega)) h3
  refine ⟨ev2 ++ ev, _, by rw [h1, h2], l', sb, .ecc, ?_, hsb, ?_⟩
  · have e : Quad.upTo (j + 1) (fun i => (slotVerdict (cyclesDone t base a l sb ev s) i).record)
        = Quad.upTo (j + 1) (fun i => (a.verdict s i).record) :=
      Quad.upTo_congr fun i hi => by rw [cyclesDone_verdict hg i (by omega)]
    rw [e, h5]
    cases t <;> simp [cyclesDone]
  · rw [filter_append_onBus, hev', hev, List.nil_append]

/-! ## The page that a read leaves in memory -/

/-- The corrector repairs a byte inside the sub-page (`42_ecc.md` R174 (a)). -/
theorem single_inside {g : Geo} {mask : Word} (hg : g.Legal mask) {stored computed : Word} {d : Half}
    (hs : stored &&& mask = stored) (hc : computed &&& mask = computed)
    (h : eccVerdict mask stored computed = .single d) : (d >>> 3).toNat < g.bytesPerOp.toNat := by
  obtain ⟨_, _, _, _, _, _, _, _, hm, hm', hb, _⟩ := hg
  have hd : d = stored.extractLsb' 16 16 ^^^ computed.extractLsb' 16 16 := by
    unfold eccVerdict at h
    split at h
    · cases h
    · split at h
      · exact (EccVerdict.single.inj h).symm
      · cases h
  have e : d &&& mask.extractLsb' 16 16 = d := by
    rw [hd]
    conv => rhs; rw [← hs, ← hc]
    apply BitVec.eq_of_getLsbD_eq
    intro i hi
    simp only [BitVec.getLsbD_and, BitVec.getLsbD_xor, BitVec.getLsbD_extractLsb', hi, decide_true, Bool.true_and]
    rw [← hs, ← hc]
    simp only [BitVec.getLsbD_and]
    cases stored.getLsbD (16 + i) <;> cases computed.getLsbD (16 + i) <;> cases mask.getLsbD (16 + i) <;> rfl
  have hle : d.toNat ≤ (mask.extractLsb' 16 16).toNat := by
    rw [← e, BitVec.toNat_and]
    exact Nat.and_le_right
  rw [hm', hm] at hle
  rw [BitVec.toNat_ushiftRight, Nat.shiftRight_eq_div_pow]
  omega

theorem verdict_inside {s : State} (hg : s.geo.Legal s.eccu.mask) (a : PageAnswers) (i : Nat) (d : Half)
    (h : a.verdict s i = .single d) : (d >>> 3).toNat < s.geo.bytesPerOp.toNat := by
  refine single_inside hg ?_ ?_ h
  · simp only [spareEcc, storedEcc, BitVec.and_assoc, BitVec.and_self]
  · simp only [computedEcc, BitVec.and_assoc, BitVec.and_self]

/-- The page's bytes after the repairs of the sub-pages below `c`. -/
theorem page_bytes {s : State} (hg : s.geo.Legal s.eccu.mask) (a : PageAnswers) (base : Word) {m : Memory}
    (hm : m.wf = true) {c : Nat} (hc : c ≤ s.geo.numOps.toNat)
    (hl : (streamBytes s.cfg.params.nandBus16 a.data).length = s.geo.numOps.toNat * s.geo.bytesPerOp.toNat) :
    ((List.range (s.geo.numOps.toNat * s.geo.bytesPerOp.toNat)).map fun j =>
        (repairUpTo base s.geo.bytesPerOp (a.verdict s) c
          (m.writeBytesAt base (streamBytes s.cfg.params.nandBus16 a.data))).readByte (bufAddr base j))
      = repairedPage s.geo s.eccu.mask (streamBytes s.cfg.params.nandBus16 a.data)
          (streamBytes s.cfg.params.nandBus16 a.spare) c := by
  obtain ⟨h4, hb, _⟩ := hg.sizes
  have hle : s.geo.numOps.toNat * s.geo.bytesPerOp.toNat ≤ 4 * 512 := Nat.mul_le_mul h4 (by omega)
  apply List.ext_getElem
  · simp [repairedPage, hl]
  · intro j h1 h2
    simp only [List.length_map, List.length_range] at h1
    have hj : j / s.geo.bytesPerOp.toNat < s.geo.numOps.toNat :=
      Nat.div_lt_of_lt_mul (by rw [Nat.mul_comm]; exact h1)
    have hp : j % s.geo.bytesPerOp.toNat < s.geo.bytesPerOp.toNat := Nat.mod_lt _ (by omega)
    have hs : j / s.geo.bytesPerOp.toNat * s.geo.bytesPerOp.toNat + j % s.geo.bytesPerOp.toNat = j := by
      rw [Nat.mul_comm]
      exact Nat.div_add_mod _ _
    have e := repairUpTo_readByte base s.geo.bytesPerOp (a.verdict s)
      (Memory.wf_writeBytesAt (streamBytes s.cfg.params.nandBus16 a.data) m base hm) (verdict_inside hg a) c (by omega)
      (j / s.geo.bytesPerOp.toNat) (j % s.geo.bytesPerOp.toNat) (by omega) hp
    rw [hs, Memory.readByte_writeBytesAt _ _ _ hm (by omega) j (by omega)] at e
    simp only [List.getElem_map, List.getElem_range, e, repairedPage, List.getElem_mapIdx]
    have eg : (streamBytes s.cfg.params.nandBus16 a.data).getD j 0
        = (streamBytes s.cfg.params.nandBus16 a.data)[j]'(by omega) := by
      rw [List.getD_eq_getElem?_getD, List.getElem?_eq_getElem (by omega)]
      rfl
    rw [eg]
    rfl

/-- Outside the page nothing changes. -/
theorem page_outside {s : State} (hg : s.geo.Legal s.eccu.mask) (a : PageAnswers) (base : Word) (m : Memory)
    {c : Nat} (hc : c ≤ s.geo.numOps.toNat)
    (hl : (streamBytes s.cfg.params.nandBus16 a.data).length = s.geo.numOps.toNat * s.geo.bytesPerOp.toNat) (x : Nat)
    (hx : ∀ j < s.geo.numOps.toNat * s.geo.bytesPerOp.toNat, bufAddr base j ≠ x) :
    (repairUpTo base s.geo.bytesPerOp (a.verdict s) c
      (m.writeBytesAt base (streamBytes s.cfg.params.nandBus16 a.data))).readByte x = m.readByte x := by
  rw [repairUpTo_other _ _ _ _ _ (verdict_inside hg a) c, Memory.readByte_writeBytesAt_other]
  · intro j hj
    exact hx j (by omega)
  · intro j hj
    exact hx j (Nat.lt_of_lt_of_le hj (Nat.mul_le_mul_right _ hc))

/-! ## The checks, and the count -/

theorem needGeometry_run {s : State} (hv : s.geo.valid = true) : needGeometry s = .ok () s := by
  unfold needGeometry
  rw [Op.bind_ok (Op.run_get s), hv]
  rfl

/-- The checks of a page op pass: the slots are cleared (`43_nand_page_block.md` R191). -/
theorem pageChecks_run {s : State} (hv : s.geo.valid = true) (h0 : s.opr.a0 < s.geo.blocks)
    (h1 : s.opr.a1 < s.geo.ppb) :
    pageChecks s = .ok () { s with slots := ⟨Quad.zero, Quad.zero, Quad.zero⟩ } := by
  have e : pageOutOfRange s.geo s.opr.a0 s.opr.a1 = false := by
    have e0 : ¬ s.geo.blocks ≤ s.opr.a0 := by simpa using h0
    have e1 : ¬ s.geo.ppb ≤ s.opr.a1 := by simpa using h1
    simp [pageOutOfRange, e0, e1]
  unfold pageChecks
  rw [Op.bind_ok (needGeometry_run hv), Op.bind_ok (Op.run_get s), e]
  rfl

theorem corrStatus_record (v : EccVerdict) : (corrStatus v.record == 1) = v.isSingle := by
  cases v with
  | equal => rfl
  | uncorrectable => rfl
  | single d =>
    have : corrStatus (corrRecord 1 d) = 1 := by
      apply BitVec.eq_of_getLsbD_eq
      intro i hi
      have : i = 0 ∨ i = 1 := by omega
      rcases this with rfl | rfl <;> simp [corrStatus, corrRecord]
    show (corrStatus (corrRecord 1 d) == 1) = true
    rw [this]
    rfl

theorem countP_range_congr {f g : Nat → Bool} (k : Nat) (h : ∀ i < k, f i = g i) :
    (List.range k).countP f = (List.range k).countP g :=
  List.countP_congr fun i hi => by rw [h i (List.mem_range.mp hi)]

/-- RES0 of a page read is the number of repaired sub-pages. -/
theorem correctedCount_upTo (v : Nat → EccVerdict) {n : Nat} (hn : n ≤ 4) :
    correctedCount (Quad.upTo n fun i => (v i).record) n = (List.range n).countP fun i => (v i).isSingle := by
  unfold correctedCount
  apply countP_range_congr
  intro i hi
  rw [Quad.get_upTo _ _ _ (by omega), if_pos hi]
  exact corrStatus_record _

/-! ## The comparison of a verify (`43_nand_page_block.md` R201) -/

/-- The two bytes that byte `j` compares. -/
def Agrees (base : Word) (s : State) (j : Nat) : Prop :=
  s.mem.readByte (bufAddr base j) = s.pageBuf.readByte (bufAddr 0 j)

theorem verifyByte_run {s : State} (hb : s.host.busy = []) (base : Word) (j : Nat) :
    verifyByte base j s =
      let e := s.mem.readByte (bufAddr base j)
      let g := s.pageBuf.readByte (bufAddr 0 j)
      let s' := { s with events := .mr (base + BitVec.ofNat 32 j) 1 (e.setWidth 32) :: s.events }
      if e = g then .ok () s'
      else .error .raised (errorEntry .verifyFailure (BitVec.ofNat 32 j)
        { s' with res := { s.res with res1 := g.setWidth 32, res2 := e.setWidth 32 } }) := by
  unfold verifyByte
  rw [Op.bind_ok (memRead_host_run hb _ _), Op.bind_ok (memRead_page_run _ _ _), Memory.readLE_one, Memory.readLE_one]
  have e0 : (BitVec.ofNat 32 j).toNat = bufAddr 0 j := by simp [bufAddr]
  have e1 : (base + BitVec.ofNat 32 j).toNat = bufAddr base j := rfl
  rw [e0, e1]
  by_cases h : s.mem.readByte (bufAddr base j) = s.pageBuf.readByte (bufAddr 0 j)
  · rw [if_pos h, h]
    rw [if_neg (by simp)]
    rfl
  · rw [if_neg h, if_pos]
    · rfl
    · intro hh
      apply h
      have := congrArg (BitVec.setWidth 8) hh
      simpa using this

/-- All the bytes agree. -/
theorem verify_ok (base : Word) : ∀ (n i : Nat) (s : State), s.host.busy = [] →
    (∀ j, i ≤ j → j < i + n → Agrees base s j) →
    ∃ ev, forUp (verifyByte base) i n s = .ok () { s with events := ev ++ s.events } ∧ ev.filter Event.onBus = []
  | 0, i, s, _, _ => ⟨[], rfl, rfl⟩
  | n + 1, i, s, hb, h => by
    have h1 := verifyByte_run hb base i
    have hi : s.mem.readByte (bufAddr base i) = s.pageBuf.readByte (bufAddr 0 i) := h i (Nat.le_refl i) (by omega)
    simp only [if_pos hi] at h1
    obtain ⟨ev, h2, h3⟩ := verify_ok base n (i + 1) { s with events := .mr (base + BitVec.ofNat 32 i) 1 ((s.mem.readByte (bufAddr base i)).setWidth 32) :: s.events }
      hb (fun j hj hj' => h j (by omega) (by omega))
    refine ⟨ev ++ [.mr (base + BitVec.ofNat 32 i) 1 ((s.mem.readByte (bufAddr base i)).setWidth 32)], ?_, ?_⟩
    · rw [forUp_succ, Op.bind_ok h1, h2]
      simp
    · rw [filter_append_onBus, h3]
      rfl

/-- Byte `j` is the first that does not. -/
theorem verify_fail (base : Word) {j : Nat} : ∀ (n i : Nat) (s : State), s.host.busy = [] → i ≤ j → j < i + n →
    (∀ k, i ≤ k → k < j → Agrees base s k) → ¬ Agrees base s j →
    ∃ ev, forUp (verifyByte base) i n s = .error .raised (errorEntry .verifyFailure (BitVec.ofNat 32 j)
        { s with
          res := { s.res with res1 := (s.pageBuf.readByte (bufAddr 0 j)).setWidth 32, res2 := (s.mem.readByte (bufAddr base j)).setWidth 32 }
          events := ev ++ s.events })
      ∧ ev.filter Event.onBus = []
  | 0, i, s, _, h1, h2, _, _ => by omega
  | n + 1, i, s, hb, hi, hj, h, hn => by
    have h1 := verifyByte_run hb base i
    by_cases e : i = j
    · subst e
      have hi : ¬ s.mem.readByte (bufAddr base i) = s.pageBuf.readByte (bufAddr 0 i) := hn
      simp only [if_neg hi] at h1
      exact ⟨[.mr (base + BitVec.ofNat 32 i) 1 ((s.mem.readByte (bufAddr base i)).setWidth 32)],
        by rw [forUp_succ, Op.bind_error h1]; rfl, rfl⟩
    · have hi : s.mem.readByte (bufAddr base i) = s.pageBuf.readByte (bufAddr 0 i) := h i (Nat.le_refl i) (by omega)
      simp only [if_pos hi] at h1
      obtain ⟨ev, h2, h3⟩ := verify_fail base (j := j) n (i + 1) { s with events := .mr (base + BitVec.ofNat 32 i) 1 ((s.mem.readByte (bufAddr base i)).setWidth 32) :: s.events }
        hb (by omega) (by omega) (fun k hk hk' => h k (by omega) hk') hn
      refine ⟨ev ++ [.mr (base + BitVec.ofNat 32 i) 1 ((s.mem.readByte (bufAddr base i)).setWidth 32)], ?_, ?_⟩
      · rw [forUp_succ, Op.bind_ok h1, h2]
        simp
      · rw [filter_append_onBus, h3]
        rfl

end Sys2Proof.Machine
end

