-- ==== Sys2Proof/Laws/Nor.lean ====
section
/-! SUPPORT. The pieces of the NOR ops in a quiet environment (`44_nor_ops.md` R221 to R236): checks, the
unlock prefix, the polls and the clean-up, the verification passes. -/

namespace Sys2Proof.Machine

/-! ## Checks -/

/-- Three checks in order pass when everything they ask for holds. -/
theorem three_checks {A B C D E : Prop} [Decidable A] [Decidable B] [Decidable C] [Decidable D] [Decidable E] :
    (if ¬A then some (1 : Word) else if ¬B ∨ ¬C ∨ ¬D then some 2 else if ¬E then some 3 else none) = none
      ↔ A ∧ B ∧ C ∧ D ∧ E := by
  by_cases hA : A <;> by_cases hB : B <;> by_cases hC : C <;> by_cases hD : D <;> by_cases hE : E <;>
    simp [hA, hB, hC, hD, hE]

theorem toNat_eq_lit (w : Word) (k : Nat) (hk : k < 2 ^ 32) : w.toNat = k ↔ w = BitVec.ofNat 32 k := by
  constructor
  · intro h
    apply BitVec.eq_of_toNat_eq
    rw [h, BitVec.toNat_ofNat, Nat.mod_eq_of_lt hk]
  · rintro rfl
    rw [BitVec.toNat_ofNat, Nat.mod_eq_of_lt hk]

theorem configReason_none {p : Config.Params} {n : NorCfg} : configReason p n = none ↔ n.Legal p := by
  have h8 := fun w => toNat_eq_lit w 8 (by decide)
  have h16 := fun w => toNat_eq_lit w 16 (by decide)
  have h32 := fun w => toNat_eq_lit w 32 (by decide)
  have key := three_checks (A := n.cwn = 8 ∨ n.cwn = 16) (B := n.wn = 8 ∨ n.wn = 16 ∨ n.wn = 32)
    (C := n.wn % n.cwn = 0)
    (D := n.wn = (if p.norBus16 then 16 else 8) ∨ n.wn = 2 * (if p.norBus16 then 16 else 8))
    (E := ¬ 6 < n.nReg.toNat)
  refine Iff.trans (Iff.of_eq ?_) (key.trans ?_)
  · unfold configReason
    simp only [not_not, ne_eq]
  · unfold NorCfg.Legal NorCfg.cwn NorCfg.wn
    cases p.norBus16 <;> simp [h8, h16, h32]

theorem configCheck_run {s : State} (h : s.nor.Legal s.cfg.params) : configCheck s = .ok () s := by
  unfold configCheck
  rw [Op.bind_ok (Op.run_get s), configReason_none.mpr h]
  rfl

theorem vendorCheckAny_run {s : State} (h : s.norId.vendor ≠ .unsupported) : vendorCheckAny s = .ok () s := by
  unfold vendorCheckAny
  rw [Op.bind_ok (Op.run_get s)]
  cases hv : s.norId.vendor with
  | unsupported => exact absurd hv h
  | amd => rfl
  | intel => rfl

theorem vendorCheckIntel_run {s : State} (h : s.norId.vendor = .intel) : vendorCheckIntel s = .ok () s := by
  unfold vendorCheckIntel
  rw [Op.bind_ok (Op.run_get s), h]
  rfl

theorem discoverBlockInfo_run {s : State} {a : Word} {b : BlockInfo}
    (h : blockInfo s.cfg.params s.nor a = some b) : discoverBlockInfo a s = .ok b s := by
  unfold discoverBlockInfo
  rw [Op.bind_ok (Op.run_get s), h]
  rfl

theorem alignCheck_run {s : State} {a : Word} (h : misaligned s.nor a = false) : alignCheck a s = .ok () s := by
  unfold alignCheck
  rw [Op.bind_ok (Op.run_get s), h]
  rfl

theorem lenCheck_run {s : State} {len : Word} (h : badLength s.nor len = false) : lenCheck len s = .ok () s := by
  unfold lenCheck
  rw [Op.bind_ok (Op.run_get s), h]
  rfl

theorem rangeCheck_run {s : State} {a : Word} {len : Nat} (h : norOutOfRange s.cfg.params s.nor a len = false) :
    rangeCheck a len s = .ok () s := by
  unfold rangeCheck
  rw [Op.bind_ok (Op.run_get s), h]
  rfl

/-! ## Stores -/

/-- A store of a command byte, as an event. -/
theorem norCmd_event {s : State} (hb : s.host.busy = []) (a : Word) (c : Byte) :
    norCmd a c s = .ok () { s with events := cmdEvent s.nor a c :: s.events } := by
  rw [norCmd_run hb, truncN_rep]
  rfl

theorem norR_event {s : State} (hb : s.host.busy = []) (a v : Word) (rest : List Word) (hr : s.dev.nr = v :: rest) :
    norR a s = .ok (s.nor.read v)
      { s with dev := { s.dev with nr := rest }, events := .nr a (s.nor.read v) :: s.events } := by
  rw [norR_run hb, Device.nrValue_cons _ _ _ hr, Device.nrRest_cons _ _ _ hr]
  rfl

theorem cmdAddr_run (k : Word) (s : State) : cmdAddr k s = .ok (s.nor.cmdAddr s.cfg.params.norBase k) s := rfl

theorem unlockPrefix_run {s : State} (hb : s.host.busy = []) :
    unlockPrefix s = .ok () { s with events := (prefixEvents s.cfg.params s.nor).reverse ++ s.events } := by
  unfold unlockPrefix
  rw [Op.bind_ok (params_run s), Op.bind_ok (cmdAddr_run _ s), Op.bind_ok (norCmd_event hb _ _),
    Op.bind_ok (cmdAddr_run _ _), norCmd_event (by exact hb)]
  rfl

theorem prefixedCmd_run {s : State} (hb : s.host.busy = []) (c : Byte) :
    prefixedCmd c s = .ok ()
      { s with events := cmdEvent s.nor (s.nor.cmdAddr s.cfg.params.norBase s.cfg.params.amdAddr1) c
                  :: ((prefixEvents s.cfg.params s.nor).reverse ++ s.events) } := by
  unfold prefixedCmd
  rw [Op.bind_ok (unlockPrefix_run hb), Op.bind_ok (params_run _), Op.bind_ok (cmdAddr_run _ _),
    norCmd_event (by exact hb)]

theorem intelCleanup_run {s : State} (hb : s.host.busy = []) (a : Word) :
    intelCleanup a s = .ok ()
      { s with
        stat := { s.stat with phase := .cleanup }
        events := (intelCleanupEvents s.cfg.params s.nor a).reverse ++ s.events } := by
  unfold intelCleanup
  rw [Op.bind_ok (setPhase_run _ _), Op.bind_ok (params_run _), Op.bind_ok (norCmd_event (by exact hb) _ _),
    norCmd_event (by exact hb)]
  rfl

/-! ## The Intel spin -/

/-- The state after NOR status reads with these answers. -/
def afterNorStatus (a : Word) (l rest : List Word) (s : State) : State :=
  { s with
    dev := { s.dev with nr := rest }
    res := { s.res with lastStat := lastNorStatus s.nor s.res.lastStat l }
    events := (nrEvents s.nor a l).reverse ++ s.events }

theorem afterNorStatus_cons (a v : Word) (l rest rest' : List Word) (s : State) :
    afterNorStatus a l rest (afterNorStatus a [v] rest' s) = afterNorStatus a (v :: l) rest s := by
  have e : lastNorStatus s.nor (s.nor.read v) l = lastNorStatus s.nor s.res.lastStat (v :: l) := by
    cases l with
    | nil => rfl
    | cons x l => simp [lastNorStatus, List.getLast?_cons]
  have e0 : lastNorStatus s.nor s.res.lastStat [v] = s.nor.read v := rfl
  simp [afterNorStatus, e0, e, nrEvents]

/-- The spin ends with the first word that shows ready, within the bound. -/
theorem intelSpin_ready (sa : Word) : ∀ (l : List Word) (n : Nat) (s : State) (v : Word) (rest : List Word),
    s.host.busy = [] → l.length < n → s.dev.nr = l ++ v :: rest → (∀ x ∈ l, (s.nor.read x).getLsbD 7 = false) →
    (s.nor.read v).getLsbD 7 = true →
    intelSpin sa n s = .ok (some (s.nor.read v))
      { afterNorStatus sa (l ++ [v]) rest s with loop := { s.loop with pollCnt := BitVec.ofNat 32 (n - l.length) } }
  | [], n, s, v, rest, hb, hl, hr, _, hv => by
    obtain ⟨n, rfl⟩ : ∃ m, n = m + 1 := ⟨n - 1, by simp at hl; omega⟩
    simp only [intelSpin]
    rw [Op.bind_ok (setPollCnt_run _ _), Op.bind_ok (norR_event (by exact hb) sa v rest (by exact hr)),
      Op.bind_ok (setLastStat_run _ _)]
    simp only [hv, if_true]
    rfl
  | x :: l, n, s, v, rest, hb, hl, hr, hx, hv => by
    obtain ⟨n, rfl⟩ : ∃ m, n = m + 1 := ⟨n - 1, by simp at hl; omega⟩
    have hx0 : (s.nor.read x).getLsbD 7 = false := hx x (by simp)
    have ih := intelSpin_ready sa l n
      { afterNorStatus sa [x] (l ++ v :: rest) s with loop := { s.loop with pollCnt := BitVec.ofNat 32 (n + 1) } }
      v rest hb (by simpa using hl) rfl (fun y hy => hx y (by simp [hy])) hv
    simp only [intelSpin]
    rw [Op.bind_ok (setPollCnt_run _ _), Op.bind_ok (norR_event (by exact hb) sa x (l ++ v :: rest) (by exact hr)),
      Op.bind_ok (setLastStat_run _ _)]
    simp only [hx0, Bool.false_eq_true, if_false]
    refine Eq.trans ih ?_
    have e := afterNorStatus_cons sa x (l ++ [v]) rest (l ++ v :: rest) s
    rw [List.cons_append, ← e]
    simp [afterNorStatus]

/-- Or it uses up its bound. -/
theorem intelSpin_timeout (sa : Word) : ∀ (l : List Word) (s : State) (rest : List Word),
    s.host.busy = [] → s.dev.nr = l ++ rest → (∀ x ∈ l, (s.nor.read x).getLsbD 7 = false) →
    intelSpin sa l.length s = .ok none
      { afterNorStatus sa l rest s with loop := { s.loop with pollCnt := 0 } }
  | [], s, rest, hb, hr, _ => by
    have hr : s.dev.nr = rest := by simpa using hr
    simp [intelSpin, Op.run_bind, ← hr, afterNorStatus, lastNorStatus, nrEvents]
  | x :: l, s, rest, hb, hr, hx => by
    have hx0 : (s.nor.read x).getLsbD 7 = false := hx x (by simp)
    have ih := intelSpin_timeout sa l
      { afterNorStatus sa [x] (l ++ rest) s with loop := { s.loop with pollCnt := BitVec.ofNat 32 (l.length + 1) } }
      rest hb rfl (fun y hy => hx y (by simp [hy]))
    simp only [List.length_cons, intelSpin]
    rw [Op.bind_ok (setPollCnt_run _ _), Op.bind_ok (norR_event (by exact hb) sa x (l ++ rest) (by exact hr)),
      Op.bind_ok (setLastStat_run _ _)]
    simp only [hx0, Bool.false_eq_true, if_false]
    refine Eq.trans ih ?_
    have e := afterNorStatus_cons sa x l rest (l ++ rest) s
    rw [← e]
    simp [afterNorStatus]

/-- The common end of an Intel program or erase, when the spin ends in time. -/
theorem intelFinish_ready (sa : Word) (fk : ErrKind) {l : List Word} {s : State} {v : Word} {rest : List Word}
    (hb : s.host.busy = []) (hl : l.length < s.opr.timeout.toNat) (hr : s.dev.nr = l ++ v :: rest)
    (hx : ∀ x ∈ l, (s.nor.read x).getLsbD 7 = false) (hv : (s.nor.read v).getLsbD 7 = true) :
    ∃ lp, intelFinish sa fk s = raiseIf (s.nor.read v &&& 0x38 != 0) fk (s.nor.read v)
      { s with
        stat := { s.stat with phase := .cleanup }
        res := { s.res with lastStat := s.nor.read v }
        dev := { s.dev with nr := rest }
        loop := lp
        events := (nrEvents s.nor sa (l ++ [v]) ++ intelCleanupEvents s.cfg.params s.nor sa).reverse ++ s.events } := by
  have h := intelSpin_ready sa l s.opr.timeout.toNat { s with stat := { s.stat with phase := .waitStatus } } v rest hb hl hr hx hv
  refine ⟨{ s.loop with pollCnt := BitVec.ofNat 32 (s.opr.timeout.toNat - l.length) }, ?_⟩
  unfold intelFinish
  rw [Op.bind_ok (setPhase_run _ _), Op.bind_ok (Op.run_get _), Op.bind_ok h, Op.bind_ok (intelCleanup_run (by exact hb) sa)]
  simp [afterNorStatus, lastNorStatus]

/-- And when it does not. -/
theorem intelFinish_timeout (sa : Word) (fk : ErrKind) {l : List Word} {s : State} {rest : List Word}
    (hb : s.host.busy = []) (hl : l.length = s.opr.timeout.toNat) (hr : s.dev.nr = l ++ rest)
    (hx : ∀ x ∈ l, (s.nor.read x).getLsbD 7 = false) :
    ∃ lp, intelFinish sa fk s = .error .raised (errorEntry .timeout sa
      { s with
        stat := { s.stat with phase := .cleanup }
        res := { s.res with lastStat := lastNorStatus s.nor s.res.lastStat l }
        dev := { s.dev with nr := rest }
        loop := lp
        events := (nrEvents s.nor sa l ++ intelCleanupEvents s.cfg.params s.nor sa).reverse ++ s.events }) := by
  have h := intelSpin_timeout sa l { s with stat := { s.stat with phase := .waitStatus } } rest hb hr hx
  refine ⟨{ s.loop with pollCnt := 0 }, ?_⟩
  unfold intelFinish
  rw [Op.bind_ok (setPhase_run _ _), Op.bind_ok (Op.run_get _)]
  show (intelSpin sa s.opr.timeout.toNat >>= _) _ = _
  rw [← hl, Op.bind_ok h, Op.bind_ok (intelCleanup_run (by exact hb) sa)]
  simp [afterNorStatus]

/-! ## The AMD polls -/

/-- The erase poll ends with the first read that shows bit 7, if it is among the listed answers. -/
theorem amdErasePoll_ready (ba : Word) : ∀ (l : List Word) (n : Nat) (s : State) (v : Word) (rest : List Word),
    s.host.busy = [] → l.length < n → s.dev.nr = l ++ v :: rest → (∀ x ∈ l, (s.nor.read x).getLsbD 7 = false) →
    (s.nor.read v).getLsbD 7 = true →
    amdErasePoll ba n s = .ok () (afterNorStatus ba (l ++ [v]) rest s)
  | [], n, s, v, rest, hb, hl, hr, _, hv => by
    obtain ⟨n, rfl⟩ : ∃ m, n = m + 1 := ⟨n - 1, by simp at hl; omega⟩
    simp only [amdErasePoll]
    rw [Op.bind_ok (norR_event hb ba v rest hr), Op.bind_ok (setLastStat_run _ _)]
    simp only [hv, if_true]
    rfl
  | x :: l, n, s, v, rest, hb, hl, hr, hx, hv => by
    obtain ⟨n, rfl⟩ : ∃ m, n = m + 1 := ⟨n - 1, by simp at hl; omega⟩
    have hx0 : (s.nor.read x).getLsbD 7 = false := hx x (by simp)
    have ih := amdErasePoll_ready ba l n (afterNorStatus ba [x] (l ++ v :: rest) s)
      v rest hb (by simpa using hl) rfl (fun y hy => hx y (by simp [hy])) hv
    simp only [amdErasePoll]
    rw [Op.bind_ok (norR_event hb ba x (l ++ v :: rest) hr), Op.bind_ok (setLastStat_run _ _)]
    simp only [hx0, Bool.false_eq_true, if_false]
    refine Eq.trans ih ?_
    rw [afterNorStatus_cons, List.cons_append]

/-- As long as no read shows bit 7 the op is left polling. -/
theorem amdErasePoll_goesOn (ba : Word) : ∀ (l : List Word) (s : State) (rest : List Word),
    s.host.busy = [] → s.dev.nr = l ++ rest → (∀ x ∈ l, (s.nor.read x).getLsbD 7 = false) →
    amdErasePoll ba l.length s = .error .polling (afterNorStatus ba l rest s)
  | [], s, rest, hb, hr, _ => by
    have hr : s.dev.nr = rest := by simpa using hr
    simp [amdErasePoll, ← hr, afterNorStatus, lastNorStatus, nrEvents]
  | x :: l, s, rest, hb, hr, hx => by
    have hx0 : (s.nor.read x).getLsbD 7 = false := hx x (by simp)
    have ih := amdErasePoll_goesOn ba l (afterNorStatus ba [x] (l ++ rest) s) rest hb rfl (fun y hy => hx y (by simp [hy]))
    simp only [List.length_cons, amdErasePoll]
    rw [Op.bind_ok (norR_event hb ba x (l ++ rest) hr), Op.bind_ok (setLastStat_run _ _)]
    simp only [hx0, Bool.false_eq_true, if_false]
    refine Eq.trans ih ?_
    rw [afterNorStatus_cons]

/-- Reads that let the data poll go on are taken one after the other. -/
theorem amdPoll_skip (addr d : Word) (abort : Option Word) : ∀ (l : List Word) (n : Nat) (s : State) (rest : List Word),
    s.host.busy = [] → l.length ≤ n → s.dev.nr = l ++ rest →
    (∀ x ∈ l, amdPollsOn s.nor d (abort.map fun _ => s.cfg.params.amdAbortBit) x) →
    amdPoll addr d abort n s = amdPoll addr d abort (n - l.length) (afterNorStatus addr l rest s)
  | [], n, s, rest, hb, hl, hr, _ => by
    have hr : s.dev.nr = rest := by simpa using hr
    simp [← hr, afterNorStatus, lastNorStatus, nrEvents]
  | x :: l, n, s, rest, hb, hl, hr, hx => by
    obtain ⟨n, rfl⟩ : ∃ m, n = m + 1 := ⟨n - 1, by simp at hl; omega⟩
    obtain ⟨h1, h2, h3⟩ := hx x (by simp)
    have ih := amdPoll_skip addr d abort l n (afterNorStatus addr [x] (l ++ rest) s) rest hb (by simpa using hl) rfl
      (fun y hy => hx y (by simp [hy]))
    simp only [amdPoll]
    rw [Op.bind_ok (Op.run_get s), Op.bind_ok (norR_event hb addr x (l ++ rest) hr), Op.bind_ok (setLastStat_run _ _)]
    rw [if_neg h1, if_neg (by rw [h2]; decide)]
    have e : n + 1 - (x :: l).length = n - l.length := by simp
    rw [e, ← afterNorStatus_cons addr x l rest (l ++ rest) s, ← ih]
    cases abort with
    | none => rfl
    | some ba =>
      have h4 := h3 s.cfg.params.amdAbortBit rfl
      simp only [h4, Bool.false_eq_true, if_false]
      rfl

/-- As long as every read lets it go on, the op is left polling. -/
theorem amdPoll_goesOn (addr d : Word) (abort : Option Word) {l : List Word} {s : State} {rest : List Word}
    (hb : s.host.busy = []) (hr : s.dev.nr = l ++ rest)
    (hx : ∀ x ∈ l, amdPollsOn s.nor d (abort.map fun _ => s.cfg.params.amdAbortBit) x) :
    amdPoll addr d abort l.length s = .error .polling (afterNorStatus addr l rest s) := by
  rw [amdPoll_skip addr d abort l l.length s rest hb (Nat.le_refl _) hr hx, Nat.sub_self]
  rfl

theorem afterNorStatus_append (a v : Word) (l rest rest' : List Word) (s : State) :
    afterNorStatus a [v] rest (afterNorStatus a l rest' s) = afterNorStatus a (l ++ [v]) rest s := by
  simp [afterNorStatus, lastNorStatus, nrEvents]

theorem amdReread_run (addr d : Word) {s : State} {v : Word} {rest : List Word} (hb : s.host.busy = [])
    (hr : s.dev.nr = v :: rest) :
    amdReread addr d s = .ok (s.nor.read v &&& s.nor.pm == d &&& s.nor.pm) (afterNorStatus addr [v] rest s) := by
  unfold amdReread
  rw [Op.bind_ok (Op.run_get s), Op.bind_ok (norR_event hb addr v rest hr), Op.bind_ok (setLastStat_run _ _)]
  rfl

theorem amdAbort_run (addr ba : Word) {s : State} (hb : s.host.busy = []) :
    amdAbort addr ba s = .error .raised (errorEntry .programFailure addr
      { s with
        stat := { s.stat with phase := .cleanup }
        events := cmdEvent s.nor ba s.cfg.params.amdReset :: cmdEvent s.nor ba s.cfg.params.amdReset :: s.events }) := by
  unfold amdAbort
  rw [Op.bind_ok (setPhase_run _ _), Op.bind_ok (params_run _), Op.bind_ok (norCmd_event (by exact hb) _ _),
    Op.bind_ok (norCmd_event (by exact hb) _ _)]
  rfl

/-- One round of the data poll whose read matches the data. -/
theorem amdPoll_round_matched (addr d : Word) (abort : Option Word) (n : Nat) {s : State} {v : Word} {rest : List Word}
    (hb : s.host.busy = []) (hr : s.dev.nr = v :: rest) (hm : pollMatches s.nor d v) :
    amdPoll addr d abort (n + 1) s = .ok () (afterNorStatus addr [v] rest s) := by
  simp only [amdPoll]
  rw [Op.bind_ok (Op.run_get _), Op.bind_ok (norR_event hb addr v rest hr), Op.bind_ok (setLastStat_run _ _),
    if_pos (by exact hm)]
  rfl

/-- One round whose read shows bit 5: a second read decides. -/
theorem amdPoll_round_bit5 (addr d : Word) (abort : Option Word) (n : Nat) {s : State} {v v2 : Word} {rest : List Word}
    (hb : s.host.busy = []) (hr : s.dev.nr = v :: v2 :: rest) (hm : ¬ pollMatches s.nor d v)
    (h5 : (s.nor.read v).getLsbD 5 = true) :
    amdPoll addr d abort (n + 1) s =
      (if s.nor.read v2 &&& s.nor.pm == d &&& s.nor.pm then pure () else raise .timeout addr : Op Unit)
        (afterNorStatus addr [v, v2] rest s) := by
  simp only [amdPoll]
  rw [Op.bind_ok (Op.run_get _), Op.bind_ok (norR_event hb addr v (v2 :: rest) hr), Op.bind_ok (setLastStat_run _ _),
    if_neg (by exact hm), if_pos (by exact h5)]
  have h := amdReread_run addr d (s := afterNorStatus addr [v] (v2 :: rest) s) (v := v2) (rest := rest) hb rfl
  rw [afterNorStatus_append] at h
  exact Op.bind_ok h

/-- One round whose read shows the abort bit and not bit 5: a second read decides. -/
theorem amdPoll_round_abort (addr d ba : Word) (n : Nat) {s : State} {v v2 : Word} {rest : List Word}
    (hb : s.host.busy = []) (hr : s.dev.nr = v :: v2 :: rest) (hm : ¬ pollMatches s.nor d v)
    (h5 : (s.nor.read v).getLsbD 5 = false) (ha : (s.nor.read v).getLsbD s.cfg.params.amdAbortBit = true) :
    amdPoll addr d (some ba) (n + 1) s =
      (if s.nor.read v2 &&& s.nor.pm == d &&& s.nor.pm then pure () else amdAbort addr ba : Op Unit)
        (afterNorStatus addr [v, v2] rest s) := by
  simp only [amdPoll]
  rw [Op.bind_ok (Op.run_get _), Op.bind_ok (norR_event hb addr v (v2 :: rest) hr), Op.bind_ok (setLastStat_run _ _),
    if_neg (by exact hm), if_neg (by rw [h5]; decide), if_pos (by exact ha)]
  have h := amdReread_run addr d (s := afterNorStatus addr [v] (v2 :: rest) s) (v := v2) (rest := rest) hb rfl
  rw [afterNorStatus_append] at h
  exact Op.bind_ok h

theorem afterNorStatus_trans (a : Word) (l l' rest rest' : List Word) (s : State) (h : l' ≠ []) :
    afterNorStatus a l' rest (afterNorStatus a l rest' s) = afterNorStatus a (l ++ l') rest s := by
  have e : ∀ old, lastNorStatus s.nor old (l ++ l') = lastNorStatus s.nor old l' := by
    intro old
    unfold lastNorStatus
    rw [List.getLast?_append_of_ne_nil _ h]
  have e2 : ∀ old old', lastNorStatus s.nor old l' = lastNorStatus s.nor old' l' := by
    intro old old'
    unfold lastNorStatus
    cases hq : l'.getLast? with
    | none => exact absurd (List.getLast?_eq_none_iff.mp hq) h
    | some v => rfl
  simp [afterNorStatus, e, e2 (lastNorStatus _ _ _) s.res.lastStat, nrEvents]

/-- All that the data poll does with reads that end it. -/
theorem amdPoll_ends (addr d : Word) (abort : Option Word) {reads : List Word} {n : Nat} {s : State} {rest : List Word}
    {e : PollEnd} (hb : s.host.busy = []) (hl : reads.length ≤ n) (hr : s.dev.nr = reads ++ rest)
    (he : amdPollEnds s.nor d (abort.map fun _ => s.cfg.params.amdAbortBit) reads e) :
    match e with
    | .matched => amdPoll addr d abort n s = .ok () (afterNorStatus addr reads rest s)
    | .timedOut => amdPoll addr d abort n s
        = .error .raised (errorEntry .timeout addr (afterNorStatus addr reads rest s))
    | .aborted => ∃ ba, abort = some ba ∧ amdPoll addr d abort n s = amdAbort addr ba (afterNorStatus addr reads rest s) := by
  -- after the reads that let it go on, the poll stands before its last round
  have skip : ∀ polls tail : List Word, (∀ x ∈ polls, amdPollsOn s.nor d (abort.map fun _ => s.cfg.params.amdAbortBit) x) →
      reads = polls ++ tail → tail ≠ [] → ∃ m, amdPoll addr d abort n s
        = amdPoll addr d abort (m + 1) (afterNorStatus addr polls (tail ++ rest) s) := by
    intro polls tail hx e ht
    have := List.length_pos_iff.mpr ht
    refine ⟨n - polls.length - 1, ?_⟩
    subst e
    rw [List.length_append] at hl
    rw [amdPoll_skip addr d abort polls n s (tail ++ rest) hb (by omega) (by simpa using hr) hx]
    congr 1
    omega
  cases e with
  | matched =>
    obtain ⟨polls, hx, ⟨v, e, hm⟩ | ⟨v, v2, e, hm, h5, hm2⟩⟩ := he
    · obtain ⟨m, hs⟩ := skip polls [v] hx e (by simp)
      subst e
      show amdPoll addr d abort n s = _
      rw [hs, amdPoll_round_matched addr d abort m (s := afterNorStatus addr polls ([v] ++ rest) s) (rest := rest) hb rfl hm,
        afterNorStatus_trans _ _ _ _ _ _ (by simp)]
    · obtain ⟨m, hs⟩ := skip polls [v, v2] hx e (by simp)
      have hm3 : (s.nor.read v2 &&& s.nor.pm == d &&& s.nor.pm) = true := beq_iff_eq.mpr hm2
      subst e
      show amdPoll addr d abort n s = _
      cases h : (s.nor.read v).getLsbD 5 with
      | true =>
        rw [hs, amdPoll_round_bit5 addr d abort m (s := afterNorStatus addr polls ([v, v2] ++ rest) s) (rest := rest) hb rfl hm h,
          afterNorStatus_trans _ _ _ _ _ _ (by simp)]
        exact congrFun (if_pos hm3) _
      | false =>
        rw [h] at h5
        obtain ⟨b, hb2, hbit⟩ := h5.resolve_left (by decide)
        cases abort with
        | none => cases hb2
        | some ba =>
          cases hb2
          rw [hs, amdPoll_round_abort addr d ba m (s := afterNorStatus addr polls ([v, v2] ++ rest) s) (rest := rest) hb rfl hm h hbit,
            afterNorStatus_trans _ _ _ _ _ _ (by simp)]
          exact congrFun (if_pos hm3) _
  | timedOut =>
    obtain ⟨polls, v, v2, hx, e, hm, h5, hm2⟩ := he
    obtain ⟨m, hs⟩ := skip polls [v, v2] hx e (by simp)
    subst e
    show amdPoll addr d abort n s = _
    rw [hs, amdPoll_round_bit5 addr d abort m (s := afterNorStatus addr polls ([v, v2] ++ rest) s) (rest := rest) hb rfl hm h5,
      afterNorStatus_trans _ _ _ _ _ _ (by simp)]
    exact congrFun (if_neg (fun h => hm2 (beq_iff_eq.mp h))) _
  | aborted =>
    obtain ⟨polls, v, v2, b, hx, e, hm, h5, hab, ha, hm2⟩ := he
    obtain ⟨m, hs⟩ := skip polls [v, v2] hx e (by simp)
    subst e
    cases abort with
    | none => cases hab
    | some ba =>
      cases hab
      refine ⟨ba, rfl, ?_⟩
      rw [hs, amdPoll_round_abort addr d ba m (s := afterNorStatus addr polls ([v, v2] ++ rest) s) (rest := rest) hb rfl hm h5 ha,
        afterNorStatus_trans _ _ _ _ _ _ (by simp)]
      exact congrFun (if_neg (fun h => hm2 (beq_iff_eq.mp h))) _

/-! ## The all-ones pass (R228) -/

theorem nrRun_append (n : NorCfg) (a : Word) (l : List Word) (v : Word) :
    nrRun n a (l ++ [v]) = nrRun n a l ++ [.nr (a + BitVec.ofNat 32 (l.length * n.wb)) (n.read v)] := by
  simp [nrRun, List.mapIdx_append]

/-- The events of loads of words `k`, `k + 1`, … with these answers. -/
def nrRunFrom (n : NorCfg) (a : Word) : Nat → List Word → List Event
  | _, [] => []
  | k, v :: l => .nr (a + BitVec.ofNat 32 (k * n.wb)) (n.read v) :: nrRunFrom n a (k + 1) l

theorem nrRunFrom_eq (n : NorCfg) (a : Word) : ∀ (l : List Word) (k : Nat),
    nrRunFrom n a k l = l.mapIdx fun j v => .nr (a + BitVec.ofNat 32 ((k + j) * n.wb)) (n.read v)
  | [], _ => rfl
  | v :: l, k => by
    rw [nrRunFrom, nrRunFrom_eq n a l (k + 1), List.mapIdx_cons]
    simp only [Nat.add_zero, Nat.add_assoc, Nat.add_comm 1]

theorem nrRunFrom_zero (n : NorCfg) (a : Word) (l : List Word) : nrRunFrom n a 0 l = nrRun n a l := by
  rw [nrRunFrom_eq]
  simp [nrRun]

/-- The all-ones pass over words that all read as ones. -/
theorem verifyErased_ok (ba : Word) : ∀ (l : List Word) (k : Nat) (s : State) (rest : List Word), s.host.busy = [] →
    s.dev.nr = l ++ rest → (∀ x ∈ l, s.nor.read x = s.nor.ones) →
    forUp (verifyErased ba) k l.length s = .ok ()
      { s with dev := { s.dev with nr := rest }, events := (nrRunFrom s.nor ba k l).reverse ++ s.events }
  | [], k, s, rest, hb, hr, _ => by
    have hr : s.dev.nr = rest := by simpa using hr
    rw [List.length_nil, ← hr]
    rfl
  | x :: l, k, s, rest, hb, hr, hx => by
    have ih := verifyErased_ok ba l (k + 1)
      { s with
        dev := { s.dev with nr := l ++ rest }
        events := .nr (ba + BitVec.ofNat 32 (k * s.nor.wb)) (s.nor.read x) :: s.events }
      rest hb rfl (fun y hy => hx y (by simp [hy]))
    have h1 : verifyErased ba k s = .ok ()
        { s with
          dev := { s.dev with nr := l ++ rest }
          events := .nr (ba + BitVec.ofNat 32 (k * s.nor.wb)) (s.nor.read x) :: s.events } := by
      unfold verifyErased
      rw [Op.bind_ok (Op.run_get s), Op.bind_ok (norR_event hb _ x (l ++ rest) (by exact hr))]
      rw [if_neg (by simp [hx x (by simp)])]
      rfl
    rw [List.length_cons, forUp, Op.bind_ok h1, ih]
    simp [nrRunFrom]

/-- The first word that does not read as ones ends the pass. -/
theorem verifyErased_stop (ba : Word) (k : Nat) {s : State} {w : Word} {rest : List Word} (hb : s.host.busy = [])
    (hr : s.dev.nr = w :: rest) (hw : s.nor.read w ≠ s.nor.ones) :
    verifyErased ba k s = .error .raised (errorEntry .eraseFailure (ba + BitVec.ofNat 32 (k * s.nor.wb))
      { s with
        res := { s.res with res1 := s.nor.read w }
        dev := { s.dev with nr := rest }
        events := .nr (ba + BitVec.ofNat 32 (k * s.nor.wb)) (s.nor.read w) :: s.events }) := by
  unfold verifyErased
  rw [Op.bind_ok (Op.run_get s), Op.bind_ok (norR_event hb _ w rest hr)]
  rw [if_pos hw]
  rfl

end Sys2Proof.Machine
end

