-- ==== Sys2Proof/Laws/PageWrite.lean ====
section
/-! SUPPORT. What a page write sends, in a quiet environment (`43_nand_page_block.md` R197). -/

namespace Sys2Proof.Machine

/-- Streams are carried one after the other, when the first is whole on the bus. -/
theorem byteCycles_append (b : Bool) : ∀ l l' : List Byte, (b = true → l.length % 2 = 0) →
    byteCycles b (l ++ l') = byteCycles b l ++ byteCycles b l'
  | [], _, _ => rfl
  | [d], l', h => by
    cases b
    · simp
    · simp at h
  | d0 :: d1 :: l, l', h => by
    cases b
    · simp
    · have ih := byteCycles_append true l l' (fun _ => by have := h rfl; simp at this; omega)
      simp only [List.cons_append, byteCycles, if_true, ih]

theorem dwEvents_append (b : Bool) (l l' : List Byte) (h : b = true → l.length % 2 = 0) :
    dwEvents b (l ++ l') = dwEvents b l ++ dwEvents b l' := by
  simp [dwEvents, byteCycles_append b l l' h]

theorem dwEvents_onBus (b : Bool) (l : List Byte) : ∀ e ∈ dwEvents b l, e.onBus = true := by
  intro e he
  simp only [dwEvents, List.mem_map] at he
  obtain ⟨v, _, rfl⟩ := he
  rfl

/-- The cycles of pieces of even length are those of the whole. -/
theorem dwEvents_flatMap {α : Type} (b : Bool) (f : α → List Byte) : ∀ l : List α,
    (∀ x ∈ l, b = true → (f x).length % 2 = 0) →
    dwEvents b (l.flatMap f) = l.flatMap fun x => dwEvents b (f x)
  | [], _ => rfl
  | x :: l, h => by
    rw [List.flatMap_cons, List.flatMap_cons, dwEvents_append b _ _ (h x (by simp)),
      dwEvents_flatMap b f l fun y hy => h y (by simp [hy])]

/-- A buffer is the concatenation of its sub-pages. -/
theorem buffer_flatMap (s : State) (base : Word) (bpo : BitVec 10) : ∀ n : Nat,
    s.buffer base (n * bpo.toNat)
      = (List.range n).flatMap fun i => s.buffer (subPageBase base i bpo) bpo.toNat
  | 0 => by simp [State.buffer]
  | n + 1 => by
    rw [List.range_succ, List.flatMap_append, ← buffer_flatMap s base bpo n]
    simp only [List.flatMap_cons, List.flatMap_nil, List.append_nil]
    simp only [State.buffer]
    rw [Nat.add_mul, Nat.one_mul, List.range_add, List.map_append]
    congr 1
    rw [List.map_map]
    apply List.map_congr_left
    intro j _
    simp [bufAddr_subPage]

/-- What a write sends, up to its confirm command. -/
theorem pageSend_run {s : State} (hb : s.host.busy = []) (hg : s.geo.Legal s.eccu.mask)
    (hz : s.slots = ⟨Quad.zero, Quad.zero, Quad.zero⟩) (block page base : Word) (m : Op Unit) :
    ∃ l ev, (do
        setPhase .cmd
        cle s.cfg.params.cmdProgram
        setPhase .addr
        addrCycles block page
        setPhase .data
        let _ ← eccReadRestart
        forUp (writeSubPage base s.geo.bytesPerOp) 0 s.geo.numOps.toNat
        setPhase .spare
        forUp writeSpare 0 s.geo.numOps.toNat
        setPhase .confirm
        cle s.cfg.params.cmdProgramConfirm
        m : Op Unit) s
      = m { s with
          stat := { s.stat with phase := .confirm }
          eccu := EccUnit.absorbBytes ⟨0, 0, true, s.eccu.mask⟩
            (spareOf s.geo s.eccu.mask (s.buffer base (s.geo.numOps.toNat * s.geo.bytesPerOp.toNat)))
          slots := { ecc := Quad.upTo s.geo.numOps.toNat (computedEcc s.geo s.eccu.mask (s.buffer base (s.geo.numOps.toNat * s.geo.bytesPerOp.toNat))), secc := Quad.zero, corr := Quad.zero }
          loop := l
          events := ev ++ s.events }
      ∧ ev.filter Event.onBus
          = (writeEvents s.cfg.params s.geo block page s.eccu.mask
              (s.buffer base (s.geo.numOps.toNat * s.geo.bytesPerOp.toNat))).reverse := by
  obtain ⟨h4, hbo, h32, ho⟩ := hg.sizes
  let s1 : State := { s with
    stat := { s.stat with phase := .data }
    events := (addrEvents s.geo block page).reverse ++ (cleEvent s.cfg.params.cmdProgram :: s.events) }
  have h0 : afterSent base s.geo.bytesPerOp 0 [] s1 { s1 with eccu := ⟨0, 0, true, s.eccu.mask⟩ } := by
    refine ⟨s.loop, ?_, rfl⟩
    simp [s1, hz]
  obtain ⟨ev1, s2, e1, l1, e2, hev1⟩ := sendPhase_run base s.geo.bytesPerOp (s := s1) hb (fun _ => by omega)
    s.geo.numOps.toNat 0 [] _ (by omega) h0
  rw [Nat.zero_add] at e2 hev1
  have g2 : s2.geo = s.geo := by rw [e2]
  have hecc : ∀ i < s.geo.numOps.toNat,
      computedEcc { s1.geo with bytesPerOp := s.geo.bytesPerOp } s1.eccu.mask (s1.buffer base (4 * s.geo.bytesPerOp.toNat)) i
        = computedEcc s.geo s.eccu.mask (s.buffer base (s.geo.numOps.toNat * s.geo.bytesPerOp.toNat)) i := by
    intro i hi
    have ha := chunk_buffer s base s.geo.bytesPerOp 4 i (by omega)
    have hc := chunk_buffer s base s.geo.bytesPerOp s.geo.numOps.toNat i hi
    simp only [computedEcc]
    rw [hc]
    congr 2
  obtain ⟨ev2, l2, e3, hev2⟩ := writeSparePhase_run s.geo.numOps.toNat 0 { s2 with stat := { s2.stat with phase := .spare } }
    (by rw [e2]; exact hb) (fun _ => by rw [g2]; omega)
  have hch : (List.range' 0 s.geo.numOps.toNat).flatMap (chunkOf { s2 with stat := { s2.stat with phase := .spare } })
      = spareOf s.geo s.eccu.mask (s.buffer base (s.geo.numOps.toNat * s.geo.bytesPerOp.toNat)) := by
    have hi : ∀ i < s.geo.numOps.toNat, chunkOf { s2 with stat := { s2.stat with phase := .spare } } i
        = spareChunk s.geo.sparePerOp.toNat s.geo.eccOff.toNat
          (computedEcc s.geo s.eccu.mask (s.buffer base (s.geo.numOps.toNat * s.geo.bytesPerOp.toNat)) i) := by
      intro i hi
      have e4 : s2.slots.ecc = Quad.upTo s.geo.numOps.toNat
          (computedEcc { s1.geo with bytesPerOp := s.geo.bytesPerOp } s1.eccu.mask (s1.buffer base (4 * s.geo.bytesPerOp.toNat))) := by
        rw [e2]
      simp only [chunkOf, g2, e4]
      rw [Quad.get_upTo _ _ _ (by omega), if_pos hi, hecc i hi]
    rw [← List.range_eq_range', spareOf, List.flatMap_def, List.flatMap_def]
    congr 1
    apply List.map_congr_left
    intro i h
    exact hi i (List.mem_range.mp h)
  refine ⟨l2, cleEvent s.cfg.params.cmdProgramConfirm :: ev2 ++ ev1
    ++ (cleEvent s.cfg.params.cmdProgram :: addrEvents s.geo block page).reverse, ?_, ?_⟩
  · rw [Op.bind_ok (setPhase_run _ _), Op.bind_ok (cle_run (by exact hb) _), Op.bind_ok (setPhase_run _ _),
      Op.bind_ok (addrCycles_run (by exact hb) _ _), Op.bind_ok (setPhase_run _ _), Op.bind_ok (eccReadRestart_run _)]
    have e1' := Op.bind_ok (f := fun _ => (do
        setPhase .spare
        forUp writeSpare 0 s.geo.numOps.toNat
        setPhase .confirm
        cle s.cfg.params.cmdProgramConfirm
        m : Op Unit)) e1
    refine Eq.trans e1' ?_
    rw [Op.bind_ok (setPhase_run _ _), Op.bind_ok e3, Op.bind_ok (setPhase_run _ _), Op.bind_ok (cle_run (by rw [e2]; exact hb) _)]
    rw [hch, e2]
    simp only [Quad.upTo_congr hecc]
    simp only [s1, hz, List.append_assoc, List.cons_append, List.reverse_cons, List.nil_append]
    rfl
  · have hd : dwEvents s.cfg.params.nandBus16 (s.buffer base (s.geo.numOps.toNat * s.geo.bytesPerOp.toNat))
        = (List.range s.geo.numOps.toNat).flatMap fun i =>
            dwEvents s.cfg.params.nandBus16 (s.buffer (subPageBase base i s.geo.bytesPerOp) s.geo.bytesPerOp.toNat) := by
      rw [buffer_flatMap, dwEvents_flatMap]
      intro i _ _
      rw [buffer_length]
      omega
    have hs : dwEvents s.cfg.params.nandBus16
          (spareOf s.geo s.eccu.mask (s.buffer base (s.geo.numOps.toNat * s.geo.bytesPerOp.toNat)))
        = (List.range' 0 s.geo.numOps.toNat).flatMap fun i => dwEvents s.cfg.params.nandBus16
            (chunkOf { s2 with stat := { s2.stat with phase := .spare } } i) := by
      rw [← hch, dwEvents_flatMap]
      intro i _ _
      rw [chunkOf, spareChunk_length, g2]
      omega
    have p2 : s2.cfg = s.cfg := by rw [e2]
    have hev2' : ev2.filter Event.onBus = (dwEvents s.cfg.params.nandBus16
        (spareOf s.geo s.eccu.mask (s.buffer base (s.geo.numOps.toNat * s.geo.bytesPerOp.toNat)))).reverse := by
      rw [hev2, hs, p2]
    have hev1' : ev1.filter Event.onBus = (dwEvents s.cfg.params.nandBus16
        (s.buffer base (s.geo.numOps.toNat * s.geo.bytesPerOp.toNat))).reverse := by
      rw [hev1, hd]
      rfl
    rw [List.append_assoc, List.cons_append, List.filter_cons_of_pos rfl, filter_append_onBus, filter_append_onBus, hev2', hev1',
      List.filter_eq_self.mpr]
    · simp [writeEvents]
    · intro e he
      rw [List.mem_reverse, List.mem_cons] at he
      rcases he with rfl | he
      · rfl
      · exact addrEvents_onBus _ _ _ e he

end Sys2Proof.Machine
end

