-- ==== Sys2Proof/Laws/PerInstr.lean ====
section
/-! SUPPORT. Statements made per instruction (`LAWS.json`): about the instruction as syntax, its
well-formedness and its encoding (`30_encoding.md` R90, R94, R95). -/

namespace Sys2Proof.Laws.WordIsOpcode

/-- The command word of an op is its opcode with 24 zero bits above it, a legal opcode, and it decodes to
that op. -/
def Statement (i : Instr) : Prop :=
  i.wellFormed = true
  ∧ (splitCommandWord (encode i)).wellFormed = true
  ∧ encode i = (opcodeOf i).setWidth 32
  ∧ decode (encode i) = .ok i

theorem nandInit : Statement .nandInit := by
  unfold Statement
  decide

theorem nandReadPage : Statement .nandReadPage := by
  unfold Statement
  decide

theorem nandWritePage : Statement .nandWritePage := by
  unfold Statement
  decide

theorem nandVerifyPage : Statement .nandVerifyPage := by
  unfold Statement
  decide

theorem nandEraseBlocks : Statement .nandEraseBlocks := by
  unfold Statement
  decide

theorem nandUnprotect : Statement .nandUnprotect := by
  unfold Statement
  decide

theorem nandProtect : Statement .nandProtect := by
  unfold Statement
  decide

theorem nandWaitRdy : Statement .nandWaitRdy := by
  unfold Statement
  decide

theorem nandWaitStatus : Statement .nandWaitStatus := by
  unfold Statement
  decide

theorem eccRestart : Statement .eccRestart := by
  unfold Statement
  decide

theorem eccCorrect : Statement .eccCorrect := by
  unfold Statement
  decide

theorem norAttach : Statement .norAttach := by
  unfold Statement
  decide

theorem norEraseBlock : Statement .norEraseBlock := by
  unfold Statement
  decide

theorem norWriteWord : Statement .norWriteWord := by
  unfold Statement
  decide

theorem norWriteBuffer : Statement .norWriteBuffer := by
  unfold Statement
  decide

theorem norLockSet : Statement .norLockSet := by
  unfold Statement
  decide

theorem norLockClear : Statement .norLockClear := by
  unfold Statement
  decide

theorem norBlockInfo : Statement .norBlockInfo := by
  unfold Statement
  decide

theorem busCle : Statement .busCle := by
  unfold Statement
  decide

theorem busAle : Statement .busAle := by
  unfold Statement
  decide

theorem busWdata : Statement .busWdata := by
  unfold Statement
  decide

theorem busRdata : Statement .busRdata := by
  unfold Statement
  decide

end Sys2Proof.Laws.WordIsOpcode
end

