-- ==== Sys2Proof/Tests/Slice0.lean ====
section
/-! SUPPORT. The model's own tests: ill-formed terms refused, words written out and decoded, one step of each
op against the spec's vectors (`95_test_vectors.md`, whose numbers the tests cite), and a witness for each
obligation with hypotheses. -/

open Sys2Proof Sys2Proof.Machine

namespace Sys2Proof.Tests

set_option Elab.async false

/-! ## Fixtures (`95_test_vectors.md` part 2): the profile REF with TESTTABLE, NORCFG-A -/

/-- REF with TESTTABLE; the window offsets are any three that differ. -/
def refParams : Config.Params :=
  { nandBase := 0x01000000, nandBus16 := false, nandCsOff := 0, norBase := 0x02000000, norBus16 := true,
    offCle := 0x10, offAle := 0x8, offDat := 0,
    nandDeviceTable := [⟨0x75, 2048, 32, 528⟩, ⟨0x76, 4096, 32, 528⟩, ⟨0xF1, 1024, 64, 2112⟩, ⟨0xDA, 2048, 64, 2112⟩, ⟨0x6E, 1024, 16, 264⟩],
    cmdReset := 0xFF, cmdReadId := 0x90, rdIdAddr := 0x00, cmdRead := 0x00, cmdReadConfirm := 0x30,
    cmdProgram := 0x80, cmdProgramConfirm := 0x10, cmdErase := 0x60, cmdEraseConfirm := 0xD0, cmdStatus := 0x70,
    cmdUnlockLo := 0x23, cmdUnlockHi := 0x24, cmdLock := 0x2A, stReady := 0x40, stFail := 0x01,
    bigBlockThreshold := 528, eccOffBig := 8, eccOffSmall := 0,
    amdUnlock1 := 0xAA, amdUnlock2 := 0x55, amdAddr1 := 0x555, amdAddr2 := 0x2AA, amdEraseSetup := 0x80,
    amdEraseConfirm := 0x30, amdProgram := 0xA0, amdWriteBufLoad := 0x25, amdWriteBufConfirm := 0x29,
    amdReset := 0xF0, amdAutoselect := 0x90, amdAbortBit := 1,
    intelEraseSetup := 0x20, intelConfirm := 0xD0, intelProgram := 0x40, intelWriteBuf := 0xE8,
    intelClearStatus := 0x50, intelReadArray := 0xFF, intelReadId := 0x90, intelLockSetup := 0x60,
    intelLockSet := 0x01, intelLockClear := 0xD0, intelBufPollLimit := 4, norKnownMfrs := [0x01, 0x89] }

/-- REF as a profile. -/
def ref : Config.Profile := ⟨refParams, by decide⟩

/-- REF on a 16-bit NAND bus. -/
def ref16 : Config.Profile := ⟨{ refParams with nandBus16 := true }, by decide⟩

/-- The machine after reset, with REF. -/
def base : State := { State.reset with cfg := ref }

/-- The geometry of a TESTTABLE row, manufacturer 0xEC. -/
def geoOf (row : Config.NandRow) : Geo := deriveGeo refParams row 0xEC row.devId

/-- After a `NAND_INIT` that found this row. -/
def withGeo (row : Config.NandRow) (s : State) : State :=
  { s with geo := geoOf row, eccu := { s.eccu with mask := deriveMask (geoOf row).bytesPerOp } }

/-- The small-page 528-byte device 0x75. -/
def st75 : State := withGeo ⟨0x75, 2048, 32, 528⟩ base

/-- The 264-byte device 0x6E. -/
def st6E : State := withGeo ⟨0x6E, 1024, 16, 264⟩ base

/-- Operands A0, A1, A2 and TIMEOUT. -/
def withOpr (a0 a1 a2 timeout : Word) (s : State) : State := { s with opr := ⟨a0, a1, a2, 0, timeout⟩ }

/-- Answers of the devices. -/
def withDev (dr : List Half) (rdy : List Bool) (nr : List Word) (s : State) : State := { s with dev := ⟨dr, rdy, nr, 0⟩ }

/-- NORCFG-A with a command-set id. -/
def norA (cmdSet : Word) : NorCfg :=
  { cmdSet := cmdSet, chipW := 16, totalW := 16, size := 0x400000, bufSz := 32, nReg := 2,
    regions := ⟨⟨8, 0x2000⟩, ⟨63, 0x10000⟩, ⟨0, 0⟩, ⟨0, 0⟩, ⟨0, 0⟩, ⟨0, 0⟩⟩ }

/-- An attached AMD device (T81). -/
def stAmd : State := { base with nor := norA 2, norId := ⟨.amd, 1, 0x227E, 0x2221⟩ }

/-- An attached Intel device (T82). -/
def stIntel : State := { base with nor := norA 3, norId := ⟨.intel, 0x89, 0x18, 0⟩ }

/-- An attached AMD device whose only region is one block of two words, to keep runs short. -/
def stTiny : State :=
  { stAmd with nor := { norA 2 with size := 4, nReg := 1, regions := ⟨⟨1, 4⟩, ⟨0, 0⟩, ⟨0, 0⟩, ⟨0, 0⟩, ⟨0, 0⟩, ⟨0, 0⟩⟩ } }

/-- The same for Intel. -/
def stTinyIntel : State := { stTiny with nor := { stTiny.nor with cmdSet := 3 }, norId := ⟨.intel, 0x89, 0x18, 0⟩ }

/-- The next state of a step in which the host writes a word to CMD. -/
def call (w : Nat) (s : State) : Option State :=
  match step (s.withFetchWord 32 w) with
  | .next t => some t
  | _ => none

/-- The next state of an op, if there is one. -/
def outcome (i : Instr) (s : State) : Option State :=
  match exec i s with
  | .next t => some t
  | _ => none

/-- A next state that a Boolean test accepts is a next state. -/
theorem outcome_next {i : Instr} {s : State} {p : State → Bool} (h : (outcome i s).any p = true) :
    ∃ t, exec i s = .next t ∧ p t = true := by
  unfold outcome at h
  cases he : exec i s with
  | next t => rw [he] at h; exact ⟨t, rfl, h⟩
  | fault f => rw [he] at h; cases h
  | refused r => rw [he] at h; cases h

/-- The next state of a step, if there is one. -/
def stepped (s : State) : Option State :=
  match step s with
  | .next t => some t
  | _ => none

theorem stepped_next {s : State} {p : State → Bool} (h : (stepped s).any p = true) : ∃ t, step s = .next t ∧ p t = true := by
  unfold stepped at h
  cases he : step s with
  | next t => rw [he] at h; exact ⟨t, rfl, h⟩
  | fault f => rw [he] at h; cases h
  | refused r => rw [he] at h; cases h

/-! ## Ill-formed terms are refused -/

theorem test_zeroOk_refuses : (CommandWord.mk 0x01 1).zeroOk = false ∧ (CommandWord.mk 0x01 1).wellFormed = false := by decide
theorem test_opcodeOk_refuses : (CommandWord.mk 0x0A 0).opcodeOk = false ∧ (CommandWord.mk 0x00 0).wellFormed = false := by decide
theorem test_wellFormed_accepts : (CommandWord.mk 0x33 0).wellFormed = true ∧ Instr.nandInit.wellFormed = true := by decide
theorem test_isPow2_refuses : Config.isPow2 0 = false ∧ Config.isPow2 48 = false ∧ Config.isPow2 1 = true := by decide
theorem test_row_blocks_refused : Config.NandRow.wf 528 ⟨0x75, 2000, 32, 528⟩ = false := by decide
theorem test_row_pages_refused : Config.NandRow.wf 528 ⟨0x75, 2048, 33, 528⟩ = false := by decide
theorem test_row_size_refused : Config.NandRow.wf 528 ⟨0x75, 2048, 32, 512⟩ = false := by decide
theorem test_row_space_refused : Config.NandRow.wf 528 ⟨0x75, 0x80000000, 256, 2112⟩ = false := by decide
theorem test_offsets_refused : { refParams with offCle := 8 }.offsetsDistinct = false := by decide
theorem test_statusMasks_refused : { refParams with stFail := 0 }.statusMasksNonZero = false := by decide
theorem test_threshold_refused : { refParams with bigBlockThreshold := 1056 }.thresholdInRange = false := by decide
theorem test_eccOffsets_refused : { refParams with eccOffBig := 14 }.eccOffsetsLegal = false := by decide
theorem test_abortBit_refused : { refParams with amdAbortBit := 5 }.abortBitLegal = false := by decide
theorem test_bufPollLimit_refused : { refParams with intelBufPollLimit := 0 }.bufPollLimitPositive = false := by decide
theorem test_params_refused : { refParams with offAle := 0 }.wf = false ∧ refParams.wf = true := by decide

/-! ## Words written out from R90 and R95 -/

theorem test_decode_nand :
    decode 0b00000000000000000000000000000001 = .ok .nandInit
    ∧ decode 0b00000000000000000000000000000010 = .ok .nandReadPage
    ∧ decode 0b00000000000000000000000000000011 = .ok .nandWritePage
    ∧ decode 0b00000000000000000000000000000100 = .ok .nandVerifyPage
    ∧ decode 0b00000000000000000000000000000101 = .ok .nandEraseBlocks
    ∧ decode 0b00000000000000000000000000000110 = .ok .nandUnprotect
    ∧ decode 0b00000000000000000000000000000111 = .ok .nandProtect
    ∧ decode 0b00000000000000000000000000001000 = .ok .nandWaitRdy
    ∧ decode 0b00000000000000000000000000001001 = .ok .nandWaitStatus := by decide
theorem test_decode_ecc :
    decode 0b00000000000000000000000000010000 = .ok .eccRestart
    ∧ decode 0b00000000000000000000000000010001 = .ok .eccCorrect := by decide
theorem test_decode_nor :
    decode 0b00000000000000000000000000100000 = .ok .norAttach
    ∧ decode 0b00000000000000000000000000100001 = .ok .norEraseBlock
    ∧ decode 0b00000000000000000000000000100010 = .ok .norWriteWord
    ∧ decode 0b00000000000000000000000000100011 = .ok .norWriteBuffer
    ∧ decode 0b00000000000000000000000000100100 = .ok .norLockSet
    ∧ decode 0b00000000000000000000000000100101 = .ok .norLockClear
    ∧ decode 0b00000000000000000000000000100110 = .ok .norBlockInfo := by decide
theorem test_decode_bus :
    decode 0b00000000000000000000000000110000 = .ok .busCle
    ∧ decode 0b00000000000000000000000000110001 = .ok .busAle
    ∧ decode 0b00000000000000000000000000110010 = .ok .busWdata
    ∧ decode 0b00000000000000000000000000110011 = .ok .busRdata := by decide
theorem test_decode_refuses :
    decode 0x00000000 = .error .reservedOpcode ∧ decode 0x00000102 = .error .zeroFieldNotZero
    ∧ decode 0x80000001 = .error .zeroFieldNotZero ∧ decode 0x00000034 = .error .reservedOpcode := by decide

/-! ## One step of each op -/

-- T1, T2
theorem test_reset_reads_zero : readReg base 1 = 0 ∧ State.reset.mem.wf = true ∧ State.reset.pageBuf.wf = true := by decide
theorem test_illegal_words :
    (call 0 base).map (readReg · 1) = some 0x00000D06
    ∧ (call 0x102 base).map (fun t => [readReg t 1, readReg t 7]) = some [0x02000D06, 0x102] := by decide +kernel
-- T10
theorem test_busCle : (call 0x30 (withOpr 0x1FF 0 0 0 base)).map (fun t => (readReg t 1, t.trace)) = some (0x30000002, [.cle 0xFF]) := by
  decide +kernel
theorem test_busAle : (call 0x31 (withOpr 0x12345678 0 0 0 base)).map (fun t => (readReg t 1, t.trace)) = some (0x31000002, [.ale 0x78]) := by
  decide +kernel
-- T11, T12: device 0x75 after two ECC_RESTART, then a byte 0x80
theorem test_busWdata :
    (call 0x32 (withOpr 0xABCD 0 0 0 { base with cfg := ref16 })).map (fun t => (readReg t 1, t.trace)) = some (0x32000002, [.dw 0xABCD])
    ∧ (call 0x32 (withOpr 0x80 0 0 0 { st75 with eccu := st75.eccu.restarted })).map (fun t => [readReg t 11, readReg t 13])
      = some [0x00070FF8, 0x80000008] := by decide +kernel
theorem test_busRdata :
    (call 0x33 (withDev [0xBE5A] [] [] base)).map (fun t => (readReg t 1, readReg t 7, t.trace)) = some (0x33000002, 0x5A, [.dr 0x5A])
    ∧ (call 0x33 (withDev [0xBEEF] [] [] { base with cfg := ref16 })).map (fun t => readReg t 7) = some 0xBEEF := by decide +kernel
-- T14
theorem test_nandWaitRdy :
    (call 0x08 (withOpr 0 0 0 5 (withDev [] [false, false, true] [] base))).map (fun t => (readReg t 1, t.trace.length)) = some (0x08000002, 3)
    ∧ (call 0x08 (withOpr 0 0 0 2 (withDev [] [false, false, false] [] base))).map (fun t => (readReg t 1, t.trace.length))
      = some (0x08000106, 2) := by decide +kernel
-- T5
theorem test_write_while_busy :
    (call 0x08 (withOpr 0 0 0 5 (withDev [] [true] [] { base with host := ⟨[], [[.write 6 9], [.write 0 8]], []⟩ }))).map
      (fun t => [readReg t 1, readReg t 6]) = some [0x08000012, 5] := by decide +kernel
-- T15
theorem test_nandWaitStatus :
    (call 0x09 (withOpr 1 0 0 5 (withDev [0xC1] [] [] base))).map (fun t => [readReg t 1, readReg t 7, readReg t 10]) = some [0x09000406, 0xC1, 0xC1]
    ∧ (call 0x09 (withOpr 1 0 0 2 (withDev [0x80, 0x81] [] [] base))).map (fun t => [readReg t 1, readReg t 7, readReg t 10])
      = some [0x09000106, 0, 0x81] := by decide +kernel
-- T20
theorem test_nandInit :
    (call 0x01 (withOpr 0 0 0 1 (withDev [0xEC, 0xDA] [true] [] base))).map
      (fun t => [1, 7, 8, 34, 35, 36, 37, 38, 39, 40, 41, 42, 43, 44, 45, 12].map (readReg t))
      = some [0x01000002, 0xEC, 0xDA, 2048, 64, 2112, 5, 2, 3, 16, 22, 512, 16, 4, 8, 0x0FFF0FFF] := by decide +kernel
-- T21
theorem test_nandInit_unknown :
    (call 0x01 (withOpr 0 0 0 1 (withDev [0x98, 0x79] [true] [] st75))).map (fun t => [1, 7, 8, 32, 33, 34, 37, 12].map (readReg t))
      = some [0x01000606, 0x98, 0x79, 0x98, 0x79, 0, 0, 0] := by decide +kernel
-- T12
theorem test_eccRestart :
    (call 0x10 { st75 with eccu := { st75.eccu with acc := 0x000F000F, bitPos := 16, run := true } }).map
      (fun t => [1, 7, 11, 13].map (readReg t)) = some [0x10000002, 0x000F000F, 0, 0x80000000] := by decide +kernel
-- T44, T45
theorem test_eccCorrect :
    (call 0x11 (withOpr 0 0x00070FF8 0x100 0 { st75 with mem := [(0x100, 0x80)] })).map
      (fun t => ([1, 7, 8, 16, 20, 24].map (readReg t), t.mem)) = some ([0x1100000A, 1, 7, 0x00070FF8, 0, 0x00010007], [])
    ∧ (call 0x11 (withOpr 0x12340FFF 0x12340FFF 0x100 0 st75)).map (fun t => ([1, 7, 16, 20, 24].map (readReg t), t.trace))
      = some ([0x11000002, 0, 0x02340FFF, 0x02340FFF, 0], []) := by decide +kernel
-- T46, T48
theorem test_eccCorrect_uncorrectable :
    (call 0x11 (withOpr 0xFFFFFFFF 0xFFFCFFFC 0x100 0 st75)).map (fun t => [1, 7, 8, 24].map (readReg t)) = some [0x11000206, 2, 0, 0x00020000]
    ∧ (call 0x11 (withOpr 1 0 0x100 0 st75)).map (readReg · 1) = some 0x11000206 := by decide +kernel
-- the layout of T60 with the data of T35: 255 bytes 0x00 and one 0x80
theorem test_nandWritePage :
    (call 0x03 (withOpr 2 1 0x1000 16 (withDev [0x40] [true] [] { st6E with mem := [(0x10FF, 0x80)] }))).map
      (fun t => ([1, 7, 10, 16, 20, 24].map (readReg t), t.busTrace.take 4, t.busTrace.drop 259))
      = some ([0x03000002, 0, 0x40, 0x07FF0000, 0, 0], [.cle 0x80, .ale 0, .ale 0x21, .ale 0],
        [.dw 0x80, .dw 0x07, .dw 0xFF, .dw 0, .dw 0, .dw 0xFF, .dw 0xFF, .dw 0xFF, .dw 0xFF, .cle 0x10, .rdy true, .cle 0x70, .dr 0x40]) := by
  decide +kernel
/-- The answers to a read of the page that `test_nandWritePage` wrote, with byte 200 XOR 0x20 as in T66. -/
def flippedPage : List Half :=
  List.replicate 200 0 ++ [0x20] ++ List.replicate 54 0 ++ [0x80] ++ [0x07, 0xFF, 0, 0, 0xFF, 0xFF, 0xFF, 0xFF]
-- T66's flip: byte 200, bit 5 is bit address 0x645
theorem test_nandReadPage :
    (call 0x02 (withOpr 2 1 0x2000 16 (withDev flippedPage [true] [] st6E))).map
      (fun t => ([1, 7, 20, 24].map (readReg t), t.mem, t.busTrace.take 5, t.busTrace.length))
      = some ([0x0200000A, 1, 0x07FF0000, 0x00010645], [(0x20FF, 0x80)], [.cle 0, .ale 0, .ale 0x21, .ale 0, .rdy true], 269) := by
  decide +kernel
-- T67
theorem test_nandReadPage_timeout :
    (call 0x02 (withOpr 2 1 0x2000 0 { st6E with slots := { st6E.slots with ecc := ⟨1, 1, 1, 1⟩ } })).map
      (fun t => ([1, 16].map (readReg t), t.trace)) = some ([0x02000106, 0], [.cle 0, .ale 0, .ale 0x21, .ale 0]) := by decide +kernel
-- T64's mismatch on this page: byte 5, held 0x00 and expected 0x10
theorem test_nandVerifyPage :
    (call 0x04 (withOpr 2 1 0x1000 16 (withDev flippedPage [true] [] { st6E with mem := [(0x1005, 0x10), (0x10FF, 0x80)] }))).map
      (fun t => ([1, 7, 8, 9].map (readReg t), t.mem.length)) = some ([0x0400050E, 5, 0, 0x10], 2) := by decide +kernel
-- T72
theorem test_nandEraseBlocks :
    (call 0x05 (withOpr 10 4 0 4 (withDev [0x40, 0x40, 0x41] [true, true, true] [] st75))).map
      (fun t => ([1, 7, 8, 10].map (readReg t), t.trace.length, t.trace.take 7))
      = some ([0x05000406, 0x41, 12, 0x41], 21, [.cle 0x60, .ale 0x40, .ale 0x01, .cle 0xD0, .rdy true, .cle 0x70, .dr 0x40]) := by
  decide +kernel
-- T73
theorem test_nandEraseBlocks_range :
    (call 0x05 (withOpr 0xFFFFFFFF 2 0 4 st75)).map (fun t => ([1, 7, 8].map (readReg t), t.trace)) = some ([0x05000906, 0xFFFFFFFF, 2], [])
    ∧ (call 0x05 (withOpr 2048 0 0 4 st75)).map (fun t => ([1, 7].map (readReg t), t.trace)) = some ([0x05000002, 0], []) := by
  decide +kernel
-- T76, T77
theorem test_nandUnprotect :
    (call 0x06 (withOpr 2046 2 0 0 st75)).map (fun t => (readReg t 1, t.trace))
      = some (0x06000002, [.cle 0x23, .ale 0xC0, .ale 0xFF, .cle 0x24, .ale 0xE0, .ale 0xFF]) := by decide +kernel
theorem test_nandProtect : (call 0x07 st75).map (fun t => (readReg t 1, t.trace)) = some (0x07000002, [.cle 0x2A]) := by decide +kernel
-- T80
theorem test_norBlockInfo :
    (call 0x26 (withOpr 0x0200FFFF 0 0 0 stAmd)).map (fun t => [1, 7, 8, 9].map (readReg t)) = some [0x26000002, 0x2000, 0x0200E000, 0]
    ∧ (call 0x26 (withOpr 0x023FFFFF 0 0 0 stAmd)).map (fun t => [1, 7, 8, 9].map (readReg t)) = some [0x26000002, 0x10000, 0x023F0000, 1] := by
  decide +kernel
-- T80 outside the device, and T4: after reset it needs no vendor and fails the configuration check
theorem test_norBlockInfo_outside :
    (call 0x26 (withOpr 0x02400000 0 0 0 stAmd)).map (fun t => [1, 7].map (readReg t)) = some [0x26000906, 0x02400000]
    ∧ (call 0x26 (withOpr 0x01FFFFFF 0 0 0 stAmd)).map (fun t => [1, 7].map (readReg t)) = some [0x26000906, 0x01FFFFFF]
    ∧ (call 0x26 base).map (fun t => ([1, 7].map (readReg t), t.trace)) = some ([0x26000F06, 1], []) := by decide +kernel
-- T81
theorem test_norAttach_amd :
    (call 0x20 (withDev [] [] [0x0001, 0x227E, 0x2221] { base with nor := norA 2 })).map (fun t => ([1, 7, 8, 9, 66, 67, 68, 69].map (readReg t), t.trace))
      = some ([0x20000002, 1, 0x227E, 0x2221, 1, 1, 0x227E, 0x2221],
        [.nw 0x02000AAA 0xAA, .nw 0x02000554 0x55, .nw 0x02000AAA 0x90, .nr 0x02000000 1, .nr 0x02000002 0x227E, .nr 0x02000004 0x2221,
          .nw 0x02000000 0xF0]) := by decide +kernel
-- T82, T83, T4
theorem test_norAttach_intel_unknown :
    (call 0x20 (withDev [] [] [0x0089, 0x0018] { base with nor := norA 3 })).map (fun t => [1, 7, 8, 66].map (readReg t)) = some [0x20000002, 0x89, 0x18, 2]
    ∧ (call 0x20 (withDev [] [] [0x00C2, 0x22CB, 0] { base with nor := norA 1 })).map (fun t => [1, 7, 8, 66].map (readReg t))
      = some [0x20000C06, 0xC2, 0x22CB, 1]
    ∧ (call 0x20 base).map (fun t => ([1, 7].map (readReg t), t.trace)) = some ([0x20000F06, 1], []) := by decide +kernel
-- T86
theorem test_norEraseBlock_amd :
    (call 0x21 (withOpr 0x0200E004 0 0 0 (withDev [] [] [0x0080, 0xFFFF, 0xFFFF, 0xFF7F] stAmd))).map
      (fun t => ([1, 7, 8].map (readReg t), t.trace.drop 5))
      = some ([0x21000406, 0x0200E004, 0xFF7F], [.nw 0x0200E000 0x30, .nr 0x0200E000 0x80, .nr 0x0200E000 0xFFFF, .nr 0x0200E002 0xFFFF,
        .nr 0x0200E004 0xFF7F]) := by decide +kernel
-- T97
theorem test_norEraseBlock_intel :
    (call 0x21 (withOpr 0x02010004 0 0 3 (withDev [] [] [0, 0, 0x80] stIntel))).map (fun t => ([1, 7, 8, 10].map (readReg t), t.trace))
      = some ([0x21000002, 0x02010000, 0x10000, 0x80], [.nw 0x02010000 0x20, .nw 0x02010000 0xD0, .nr 0x02010000 0, .nr 0x02010000 0,
        .nr 0x02010000 0x80, .nw 0x02010000 0x50, .nw 0x02010000 0xFF]) := by decide +kernel
-- T87
theorem test_norWriteWord_amd :
    (call 0x22 (withOpr 0x0200E010 0x9234 0 0 (withDev [] [] [0x0020, 0x9234, 0x9234] stAmd))).map (fun t => ([1, 10].map (readReg t), t.trace))
      = some ([0x22000002, 0x9234], [.nw 0x02000AAA 0xAA, .nw 0x02000554 0x55, .nw 0x02000AAA 0xA0, .nw 0x0200E010 0x9234,
        .nr 0x0200E010 0x20, .nr 0x0200E010 0x9234, .nr 0x0200E010 0x9234]) := by decide +kernel
-- T98
theorem test_norWriteWord_intel :
    (call 0x22 (withOpr 0x02010006 0xBEEF 0 3 (withDev [] [] [0x0090] stIntel))).map (fun t => ([1, 7].map (readReg t), t.trace))
      = some ([0x22000306, 0x90], [.nw 0x02010006 0x40, .nw 0x02010006 0xBEEF, .nr 0x02010006 0x90, .nw 0x02010006 0x50, .nw 0x02010006 0xFF]) := by
  decide +kernel
/-- The host bytes of T90, from 0x1000 on. -/
def bytes90 : Memory := [(0x1000, 0x11), (0x1001, 0x22), (0x1002, 0x33), (0x1003, 0x44), (0x1004, 0x55), (0x1005, 0x66), (0x1006, 0x77), (0x1007, 0x88)]
-- T90, T93, T94
theorem test_norWriteBuffer_amd :
    (call 0x23 (withOpr 0x0200FFFA 6 0x1000 0 (withDev [] [] [0x6655, 0x2211, 0x4433, 0x6655] { stAmd with mem := bytes90 }))).map
      (fun t => ([1, 7].map (readReg t), t.busTrace))
      = some ([0x23000002, 6], [.nw 0x02000AAA 0xAA, .nw 0x02000554 0x55, .nw 0x0200E000 0x25, .nw 0x0200E000 2, .nw 0x0200FFFA 0x2211,
        .nw 0x0200FFFC 0x4433, .nw 0x0200FFFE 0x6655, .nw 0x0200E000 0x29, .nr 0x0200FFFE 0x6655, .nr 0x0200FFFA 0x2211, .nr 0x0200FFFC 0x4433,
        .nr 0x0200FFFE 0x6655])
    ∧ (call 0x23 (withOpr 0x0200FFF8 8 0x1000 0 (withDev [] [] [2, 2] { stAmd with mem := bytes90 }))).map
      (fun t => ([1, 7, 10].map (readReg t), t.busTrace.drop 9))
      = some ([0x23000306, 0x0200FFFE, 2], [.nr 0x0200FFFE 2, .nr 0x0200FFFE 2, .nw 0x0200E000 0xF0, .nw 0x0200E000 0xF0])
    ∧ (call 0x23 (withOpr 0x0200FFF8 8 0x1000 0 (withDev [] [] [0x8877, 0x2211, 0x4433, 0x6654] { stAmd with mem := bytes90 }))).map
      (fun t => [1, 7, 8, 9].map (readReg t)) = some [0x23000506, 4, 0x6654, 0x6655] := by decide +kernel
-- the phases of the availability poll as R26 lists them: what the host reads in STAT before the command, before
-- the status load and before the count is sent
theorem test_norWriteBuffer_intel_phases :
    (call 0x23 (withOpr 0x02010020 4 0x1000 2 (withDev [] [] [0x80, 0x80]
      { stIntel with mem := bytes90, host := ⟨[], [[], [.read 1], [.read 1], [.read 1]], []⟩ }))).map
      (fun t => (readReg t 1, t.host.answers)) = some (0x23000002, [.reg 1 0x23030001, .reg 1 0x23090001, .reg 1 0x23020001]) := by
  decide +kernel
-- T100
theorem test_norLockSet :
    (call 0x24 (withOpr 0x02010004 0 0 3 stIntel)).map (fun t => ([1, 7].map (readReg t), t.trace))
      = some ([0x24000002, 0x02010000], [.nw 0x02010000 0x60, .nw 0x02010000 1, .nw 0x02010000 0xFF]) := by decide +kernel
theorem test_norLockClear :
    (call 0x25 (withOpr 0x02010004 0 0 3 stIntel)).map (fun t => ([1, 7].map (readReg t), t.trace))
      = some ([0x25000002, 0x02010000], [.nw 0x02010000 0x60, .nw 0x02010000 0xD0, .nw 0x02010000 0xFF]) := by decide +kernel
-- T96
theorem test_norLockSet_amd :
    (call 0x24 (withOpr 0x0200E000 0 0 0 stAmd)).map (fun t => ([1, 7].map (readReg t), t.trace)) = some ([0x24000806, 2], []) := by decide +kernel

/-! ## Witnesses: concrete states and operands that meet an obligation's hypotheses -/

/-- What an act of the host is about to do to a machine. -/
def withAct (a : HostAct) (s : State) : State := { s with host := { s.host with script := a :: s.host.script } }

theorem witness_IllegalWords :
    let s := withAct (.write 0 0x102) base
    s.stat.busy = false ∧ s.resetLine = false ∧ s.host.busy = [] ∧ s.host.script = [.write 0 0x102]
    ∧ decode 0x102 = .error .zeroFieldNotZero ∧ decode 0x34 = .error .reservedOpcode := by decide +kernel

theorem witness_StepRunsDecodedInstruction :
    let s := withAct (.write 0 0x30) base
    (s.stat.busy = false ∧ s.resetLine = false) ∧ s.host.script = .write 0 0x30 :: [] ∧ decode 0x30 = .ok .busCle := by decide +kernel

theorem witness_HostWriteWhileIdle :
    ∀ idx ∈ [1, 2, 6, 7, 48, 65, 66], let s := withAct (.write idx 0xFFFFFFFF) base
      (s.stat.busy = false ∧ s.resetLine = false) ∧ s.host.script = .write idx 0xFFFFFFFF :: [] ∧ idx ≠ 0 := by decide +kernel

theorem witness_HostRead :
    (withAct (.read 69) base).stat.busy = false ∧ (withAct (.read 69) base).host.script = .read 69 :: []
    ∧ ∀ idx ∈ [0, 14, 15, 28, 31, 46, 47, 70, 255],
      idx = 0 ∨ idx = 14 ∨ idx = 15 ∨ (28 ≤ idx ∧ idx ≤ 31) ∨ idx = 46 ∨ idx = 47 ∨ 70 ≤ idx := by decide +kernel

theorem witness_RegisterAccessWhileBusy : BusyAct.assertReset ∉ [BusyAct.read 1, .write 0 8, .read 1] := by decide

/-- A ready poll during which the host writes and reads registers. -/
def disturbed : State :=
  withOpr 0 0 0 5 (withDev [] [false, true] [] { base with host := ⟨[], [[.write 6 9], [.read 1, .write 0 8]], []⟩ })

theorem witness_HostCannotDisturbAnOp :
    disturbed.NoReset ∧ (∃ t, exec .nandWaitRdy disturbed = .next t ∧ t.stat.ovr = true)
    ∧ ∃ u, exec .nandWaitRdy { disturbed with host := { disturbed.host with busy := [] } } = .next u ∧ u.stat.done = true := by
  refine ⟨by unfold State.NoReset; decide +kernel, ?_, ?_⟩
  · exact outcome_next (p := fun t => t.stat.ovr) (by decide +kernel)
  · exact outcome_next (p := fun u => u.stat.done) (by decide +kernel)

theorem witness_ResetInput :
    let s1 := withAct .assertReset base
    let s2 := withAct (.write 2 5) { base with resetLine := true }
    let s3 := withAct .releaseReset { base with resetLine := true }
    (s1.stat.busy = false ∧ s1.host.script = .assertReset :: [])
    ∧ (s2.stat.busy = false ∧ s2.resetLine = true ∧ s2.host.script = .write 2 5 :: [])
    ∧ (s3.stat.busy = false ∧ s3.host.script = .releaseReset :: []) := by decide +kernel

/-- A ready poll that RESET ends before its first sample. -/
def cutShort : State :=
  withOpr 0 0 0 5 (withDev [] [true] [] { base with host := ⟨[], [[], [.assertReset, .read 1]], []⟩ })

theorem witness_ResetEndsAnOp :
    cutShort.resetLine = false ∧ (∃ t, exec .nandWaitRdy cutShort = .next t ∧ t.resetLine = true)
    ∧ { cutShort with host := { cutShort.host with busy := [[.assertReset]] } }.host.busy = (.assertReset :: []) :: [] := by
  refine ⟨by decide +kernel, ?_, by decide +kernel⟩
  exact outcome_next (p := fun t => t.resetLine) (by decide +kernel)

/-- A ready poll of two samples in a quiet environment. -/
def twoSamples : State := withOpr 0 0 0 5 (withDev [] [false, true] [] base)

/-- RESET at its first boundary and at its last. -/
theorem witness_ResetEndsAnOp_later :
    twoSamples.Quiet ∧ (∃ u, exec .nandWaitRdy twoSamples = .next u ∧ (u.events.length == 2) = true)
    ∧ 0 ≤ 2 - twoSamples.events.length ∧ 2 ≤ 2 - twoSamples.events.length
    ∧ (∃ t, exec .nandWaitRdy (twoSamples.resetAt 2 [.read 1] []) = .next t ∧ (t.trace == [.rdy false] && t.resetLine) = true)
    ∧ ∃ t, exec .nandWaitRdy (twoSamples.resetAt 0 [] []) = .next t ∧ (t.trace == [] && t.resetLine) = true :=
  ⟨rfl, outcome_next (p := fun u => u.events.length == 2) (by decide +kernel), by decide +kernel, by decide +kernel,
    outcome_next (p := fun t => t.trace == [.rdy false] && t.resetLine) (by decide +kernel),
    outcome_next (p := fun t => t.trace == [] && t.resetLine) (by decide +kernel)⟩

theorem witness_EccIndependentOfBusWidth : ([0x11, 0x22] : List Byte).length % 2 = 0 := by decide

theorem witness_EccIsLinear : ([0xA5, 0x5A] : List Byte).length = ([0x01, 0x80] : List Byte).length := by decide

theorem witness_EccOfFlippedBits :
    let x := List.replicate 512 (0 : Byte)
    let as := [0, 4095]
    x.length ≤ 512 ∧ as.Nodup ∧ ∀ a ∈ as, a < 8 * x.length := by decide +kernel

theorem witness_SpareChunkRoundTrip : 4 + 4 ≤ 8 ∧ (0x06E0011F : Word) &&& 0x07FF07FF = 0x06E0011F := by decide

theorem witness_CorrectorDecides :
    ((List.replicate 256 (0 : Byte)).length = 256 ∧ (0x07FF07FF : Word) = 0x07FF07FF)
    ∧ ((List.replicate 512 (0 : Byte)).length = 512 ∧ (0x0FFF0FFF : Word) = 0x0FFF0FFF)
    ∧ 4095 < 8 * 512 ∧ 0 < 8 * 512 ∧ (4095 : Nat) ≠ 0 ∧ (0x0FFF0FFF : Word).getLsbD 27 = true
    ∧ eccVerdict 0x0FFF0FFF (0x0FFF0000 &&& 0x0FFF0FFF) (0 &&& 0x0FFF0FFF) = .single 0xFFF := by decide +kernel

theorem witness_EccRestartOp :
    st75.host.busy = [] ∧ st75.geo.valid = true ∧ base.host.busy = [] ∧ base.geo.valid = false := by decide +kernel

/-- The operands of T45, T47 and T48, one for each decision. -/
theorem witness_EccCorrectOp :
    let same := withOpr 0x12340FFF 0x12340FFF 0x100 0 st75
    let bit := withOpr 0x0FFF0000 0 0x100 0 st75
    let bad := withOpr 1 0 0x100 0 st75
    st75.geo.valid = true ∧ same.opr.a0 &&& same.eccu.mask = same.opr.a1 &&& same.eccu.mask
    ∧ eccVerdict bit.eccu.mask (bit.opr.a0 &&& bit.eccu.mask) (bit.opr.a1 &&& bit.eccu.mask) = .single 0xFFF
    ∧ eccVerdict bad.eccu.mask (bad.opr.a0 &&& bad.eccu.mask) (bad.opr.a1 &&& bad.eccu.mask) = .uncorrectable := by decide +kernel

theorem witness_BusCommandAndAddressCycles : base.Quiet := rfl

theorem witness_BusDataCycles : (withDev [0x5A] [] [] base).Quiet ∧ (withDev [0x5A] [] [] base).dev.dr = 0x5A :: [] := ⟨rfl, rfl⟩

theorem witness_NandWaitRdyOp :
    let first := withOpr 0 0 0 1 (withDev [] [true] [] base)
    let last := withOpr 0 0 0 3 (withDev [] [false, false, true] [] base)
    let never := withOpr 0 0 0 0 base
    (0 < first.opr.timeout.toNat ∧ first.dev.rdy = List.replicate 0 false ++ true :: [])
    ∧ (2 < last.opr.timeout.toNat ∧ last.dev.rdy = List.replicate 2 false ++ true :: [])
    ∧ never.dev.rdy = List.replicate never.opr.timeout.toNat false ++ [] := by decide +kernel

/-- A status poll of TIMEOUT 2 whose second byte shows ready and the error bit. -/
def statusFails : State := withOpr 1 0 0 2 (withDev [0x81, 0xC1] [] [] base)

/-- One that is ready at once. -/
def statusReadyAtOnce : State := withOpr 0 0 0 1 (withDev [0x40] [] [] base)

/-- One whose bytes never show ready, although one shows the error bit. -/
def statusNever : State := withOpr 0 0 0 2 (withDev [0x81, 0x01] [] [] base)

theorem refReady (v : Half) : statusReady ref.params v ↔ v.extractLsb' 0 8 &&& 0x40 ≠ 0 := Iff.rfl

theorem notReady {l : List Half} (h : l.all (fun v => v.extractLsb' 0 8 &&& 0x40 == 0) = true) :
    ∀ x ∈ l, ¬ statusReady ref.params x := by
  intro x hx hr
  exact (refReady x).mp hr (by simpa using List.all_eq_true.mp h x hx)

theorem refFail (v : Half) : statusFail ref.params v ↔ v.extractLsb' 0 8 &&& 0x01 ≠ 0 := Iff.rfl

theorem witness_NandWaitStatusOp_fails :
    (∀ x ∈ [0x81], ¬ statusReady ref.params x) ∧ ([0x81] : List Half).length < statusFails.opr.timeout.toNat
    ∧ statusFails.dev.dr = [0x81] ++ 0xC1 :: [] ∧ statusReady ref.params 0xC1 ∧ statusFail ref.params 0xC1 :=
  ⟨notReady (by decide), by decide +kernel, by decide +kernel, (refReady _).mpr (by decide), (refFail _).mpr (by decide)⟩

theorem witness_NandWaitStatusOp_ends :
    0 < statusReadyAtOnce.opr.timeout.toNat ∧ statusReadyAtOnce.dev.dr = [] ++ 0x40 :: []
    ∧ statusReady ref.params 0x40 ∧ ¬ statusFail ref.params 0x40 :=
  ⟨by decide +kernel, by decide +kernel, (refReady _).mpr (by decide), (refFail _).not.mpr (by decide)⟩

theorem witness_NandWaitStatusOp_never :
    (∀ x ∈ [0x81, 0x01], ¬ statusReady ref.params x) ∧ ([0x81, 0x01] : List Half).length = statusNever.opr.timeout.toNat
    ∧ statusNever.dev.dr = [0x81, 0x01] ++ [] :=
  ⟨notReady (by decide), by decide +kernel, by decide +kernel⟩

theorem witness_NandInitOp :
    let known := withOpr 0 0 0 1 (withDev [0xEC, 0x76] [true] [] base)
    let unknown := withOpr 0 0 0 1 (withDev [0x98, 0x79] [true] [] base)
    let never := withOpr 0 0 0 2 (withDev [] [false, false] [] base)
    (0 < known.opr.timeout.toNat ∧ known.dev.rdy = List.replicate 0 false ++ true :: [] ∧ known.dev.dr = 0xEC :: 0x76 :: []
      ∧ known.cfg.params.nandDeviceTable = [⟨0x75, 2048, 32, 528⟩] ++ ⟨0x76, 4096, 32, 528⟩ :: known.cfg.params.nandDeviceTable.drop 2
      ∧ (∀ r ∈ [(⟨0x75, 2048, 32, 528⟩ : Config.NandRow)], r.devId ≠ (0x76 : Half).extractLsb' 0 8))
    ∧ (∀ r ∈ unknown.cfg.params.nandDeviceTable, r.devId ≠ (0x79 : Half).extractLsb' 0 8)
    ∧ never.dev.rdy = List.replicate never.opr.timeout.toNat false ++ [] := by decide +kernel

theorem witness_DerivedGeometry : (⟨0x6E, 1024, 16, 264⟩ : Config.NandRow) ∈ ref.params.nandDeviceTable := by decide +kernel

theorem witness_RowAddress :
    st75.geo.Legal st75.eccu.mask ∧ (2047 : Word) < st75.geo.blocks ∧ (31 : Word) < st75.geo.ppb ∧ st75.Quiet := by
  unfold Geo.Legal State.Quiet
  decide +kernel

/-- A read of the 264-byte device, ready at the first sample, with these page bytes. -/
def reading (page : List Half) (mem : Memory) : State :=
  withOpr 1023 15 0x1000 16 (withDev page [true] [] { st6E with mem := mem })

/-- A page of zeros: its ECC is 0. -/
def zeroPage : List Half := List.replicate 264 0

/-- A page whose ECC shows two flipped bits: addresses 0 and 1. -/
def badPage : List Half := 3 :: List.replicate 263 0

theorem legal6E : st6E.geo.Legal st6E.eccu.mask := by
  unfold Geo.Legal
  decide +kernel

theorem page_in_range : (1023 : Word) < st6E.geo.blocks ∧ (15 : Word) < st6E.geo.ppb ∧ (2 : Word) < st6E.geo.blocks
    ∧ (1 : Word) < st6E.geo.ppb := by decide +kernel

theorem reading_ready (page : List Half) (mem : Memory) (h : mem.wf = true) : (reading page mem).PageOpReady :=
  ⟨rfl, rfl, legal6E, page_in_range.1, page_in_range.2.1, h, rfl, rfl⟩

theorem witness_NandReadPageOp :
    let ok := reading zeroPage []
    let bad := reading badPage []
    ok.PageOpReady ∧ bad.PageOpReady ∧ 0 < ok.opr.timeout.toNat ∧ ok.dev.rdy = List.replicate 0 false ++ true :: []
    ∧ ok.dev.dr = zeroPage.take 256 ++ zeroPage.drop 256 ++ [] ∧ bad.dev.dr = badPage.take 256 ++ badPage.drop 256 ++ []
    ∧ (streamBytes false (zeroPage.take 256)).length = ok.geo.numOps.toNat * ok.geo.bytesPerOp.toNat
    ∧ (streamBytes false (zeroPage.drop 256)).length = ok.geo.numOps.toNat * ok.geo.sparePerOp.toNat
    ∧ pageVerdict ok.geo ok.eccu.mask (streamBytes false (zeroPage.take 256)) (streamBytes false (zeroPage.drop 256)) 0 = .equal
    ∧ pageVerdict bad.geo bad.eccu.mask (streamBytes false (badPage.take 256)) (streamBytes false (badPage.drop 256)) 0
      = .uncorrectable := by
  refine ⟨reading_ready _ _ rfl, reading_ready _ _ rfl, ?_⟩
  decide +kernel

theorem unrepaired {g : Geo} {mask : Word} {data spare : List Byte} {k : Nat}
    (h : ∀ i < k, pageVerdict g mask data spare i = .equal) : repairedPage g mask data spare k = data := by
  unfold repairedPage
  refine List.ext_getElem (by simp) fun j h1 h2 => ?_
  simp only [List.getElem_mapIdx]
  split
  · rw [h _ ‹_›]
    rfl
  · rfl

theorem witness_NandVerifyPageOp :
    let same := reading zeroPage []
    let other := reading zeroPage [(0x10FF, 1)]
    let held := repairedPage st6E.geo st6E.eccu.mask (streamBytes false (zeroPage.take 256)) (streamBytes false (zeroPage.drop 256)) 1
    same.PageOpReady ∧ other.PageOpReady ∧ held = same.buffer same.opr.a2 256
    ∧ other.buffer other.opr.a2 256 = held.take 255 ++ [1] ∧ held.drop 255 = [0]
    ∧ pageVerdict st6E.geo st6E.eccu.mask (streamBytes false (zeroPage.take 256)) (streamBytes false (zeroPage.drop 256)) 0 = .equal
    ∧ pageVerdict st6E.geo st6E.eccu.mask (streamBytes false (badPage.take 256)) (streamBytes false (badPage.drop 256)) 0
      = .uncorrectable := by
  have e : pageVerdict st6E.geo st6E.eccu.mask (streamBytes false (zeroPage.take 256)) (streamBytes false (zeroPage.drop 256)) 0 = .equal := by
    decide +kernel
  refine ⟨reading_ready _ _ rfl, reading_ready _ _ (by decide), ?_⟩
  rw [unrepaired fun i hi => by rw [Nat.lt_one_iff.mp hi]; exact e]
  decide +kernel

/-- A page read with TIMEOUT 0. -/
def readingNever : State := withOpr 1023 15 0x1000 0 (withDev zeroPage [true] [] st6E)

theorem witness_NandPageReadTimesOut :
    readingNever.PageOpReady ∧ readingNever.dev.rdy = List.replicate readingNever.opr.timeout.toNat false ++ [true] :=
  ⟨⟨rfl, rfl, legal6E, page_in_range.1, page_in_range.2.1, rfl, rfl, rfl⟩, by decide +kernel⟩

/-- A page write with these answers. -/
def writing (timeout : Word) (dr : List Half) (rdy : List Bool) : State :=
  withOpr 2 1 0x1000 timeout (withDev dr rdy [] { st6E with mem := [(0x10FF, 0x80)] })

theorem writing_ready (timeout : Word) (dr : List Half) (rdy : List Bool) : (writing timeout dr rdy).PageOpReady :=
  ⟨rfl, rfl, legal6E, page_in_range.2.2.1, page_in_range.2.2.2, rfl, rfl, rfl⟩

theorem witness_NandWritePageOp_good :
    (writing 2 [0x01, 0x40] [false, true]).PageOpReady ∧ (BlockRun.mk 1 [0x01] 0x40).InTime ref.params 2
    ∧ (writing 2 [0x01, 0x40] [false, true]).dev.rdy = List.replicate 1 false ++ true :: []
    ∧ (writing 2 [0x01, 0x40] [false, true]).dev.dr = (BlockRun.mk 1 [0x01] 0x40).status ++ []
    ∧ ¬ statusFail ref.params 0x40 :=
  ⟨writing_ready _ _ _, ⟨by decide, by decide, notReady (by decide), (refReady _).mpr (by decide)⟩, by decide +kernel, by decide +kernel,
    (refFail _).not.mpr (by decide)⟩

theorem witness_NandWritePageOp_failed :
    (BlockRun.mk 0 [] 0x41).InTime ref.params 1 ∧ statusFail ref.params 0x41
    ∧ (writing 1 [0x41] [true]).dev.rdy = List.replicate 0 false ++ true :: []
    ∧ (writing 1 [0x41] [true]).dev.dr = (BlockRun.mk 0 [] 0x41).status ++ [] :=
  ⟨⟨by decide, by decide, notReady (by decide), (refReady _).mpr (by decide)⟩, (refFail _).mpr (by decide), by decide +kernel,
    by decide +kernel⟩

theorem witness_NandWritePageOp_timeouts :
    (writing 2 [] [false, false]).dev.rdy = List.replicate (writing 2 [] [false, false]).opr.timeout.toNat false ++ []
    ∧ ([0x01] : List Half).length = (writing 1 [0x01] [true]).opr.timeout.toNat
    ∧ (writing 1 [0x01] [true]).dev.dr = [0x01] ++ [] ∧ ∀ x ∈ [0x01], ¬ statusReady ref.params x :=
  ⟨by decide +kernel, by decide +kernel, by decide +kernel, notReady (by decide)⟩

/-- The page that `writing` sends. -/
@[irreducible] def sentPage : List Half := (outcome .nandWritePage (writing 2 [0x40] [true])).elim [] State.written

theorem witness_WrittenPageReadsBack :
    let s := writing 2 [0x40] [true]
    let u := withOpr 2 1 0x2000 16 (withDev sentPage [true] [] st6E)
    s.events = [] ∧ u.cfg = s.cfg ∧ u.geo = s.geo ∧ u.eccu.mask = s.eccu.mask ∧ u.opr.a0 = s.opr.a0 ∧ u.opr.a1 = s.opr.a1
    ∧ u.stat.corr = false ∧ 0 < u.opr.timeout.toNat ∧ u.dev.rdy = List.replicate 0 false ++ true :: [] ∧ u.dev.dr = sentPage ++ []
    ∧ s.PageOpReady ∧ u.PageOpReady
    ∧ (∃ t, exec .nandWritePage s = .next t ∧ (sentPage.length == t.written.length
        && streamBytes false sentPage == streamBytes false t.written
        && streamBytes false (0x01 :: sentPage.drop 1) == flipBit (streamBytes false t.written) 0
        && streamBytes false (0x03 :: sentPage.drop 1) == flipBit (flipBit (streamBytes false t.written) 0) 1) = true) := by
  refine ⟨rfl, rfl, rfl, rfl, rfl, rfl, rfl, by decide, rfl, (List.append_nil _).symm, writing_ready _ _ _, ?_, ?_⟩
  · exact ⟨rfl, rfl, legal6E, page_in_range.2.2.1, page_in_range.2.2.2, rfl, rfl, rfl⟩
  · exact outcome_next (p := fun t => sentPage.length == t.written.length
        && streamBytes false sentPage == streamBytes false t.written
        && streamBytes false (0x01 :: sentPage.drop 1) == flipBit (streamBytes false t.written) 0
        && streamBytes false (0x03 :: sentPage.drop 1) == flipBit (flipBit (streamBytes false t.written) 0) 1) (by decide +kernel)

/-- An erase of blocks 2046 and 2047 of device 0x75, both ready and good at once. -/
def erasing : State := withOpr 2046 2 0 1 (withDev [0x40, 0x40] [true, true] [] st75)

theorem witness_NandEraseBlocksOp :
    erasing.Quiet ∧ erasing.geo.valid = true ∧ erasing.opr.a0.toNat + erasing.opr.a1.toNat ≤ erasing.geo.blocks.toNat
    ∧ [BlockRun.mk 0 [] 0x40, .mk 0 [] 0x40].length = erasing.opr.a1.toNat
    ∧ (∀ r ∈ [BlockRun.mk 0 [] 0x40, .mk 0 [] 0x40], r.InTime ref.params erasing.opr.timeout ∧ ¬ statusFail ref.params r.last)
    ∧ erasing.dev.rdy = ([BlockRun.mk 0 [] 0x40, .mk 0 [] 0x40].flatMap fun r => List.replicate r.busy false ++ [true]) ++ []
    ∧ erasing.dev.dr = [BlockRun.mk 0 [] 0x40, .mk 0 [] 0x40].flatMap BlockRun.status ++ [] := by
  refine ⟨rfl, rfl, by decide +kernel, by decide +kernel, ?_, by decide +kernel, by decide +kernel⟩
  intro r hr
  simp only [List.mem_cons, List.not_mem_nil, or_false, or_self] at hr
  subst hr
  exact ⟨⟨by decide, by decide, notReady (by decide), (refReady _).mpr (by decide)⟩, (refFail _).not.mpr (by decide)⟩

theorem witness_NandEraseBlocksOp_none :
    let s := withOpr 2048 0 0 0 st75
    s.opr.a0.toNat + s.opr.a1.toNat ≤ s.geo.blocks.toNat ∧ ([] : List BlockRun).length = s.opr.a1.toNat := by decide +kernel

/-- The first block of two fails; the ready poll or the status poll of the first block runs out. -/
theorem witness_NandEraseBlocksStops :
    ([] : List BlockRun).length < erasing.opr.a1.toNat
    ∧ (BlockRun.mk 0 [] 0x41).InTime ref.params 1 ∧ statusFail ref.params 0x41
    ∧ (withDev [0x41] [true] [] erasing).dev.dr = [] ++ (BlockRun.mk 0 [] 0x41).status ++ []
    ∧ (withDev [] [false] [] erasing).dev.rdy = [] ++ List.replicate erasing.opr.timeout.toNat false ++ []
    ∧ ([0x01] : List Half).length = erasing.opr.timeout.toNat ∧ (∀ x ∈ [0x01], ¬ statusReady ref.params x) :=
  ⟨by decide +kernel, ⟨by decide, by decide, notReady (by decide), (refReady _).mpr (by decide)⟩, (refFail _).mpr (by decide),
    by decide +kernel, by decide +kernel, by decide +kernel, notReady (by decide)⟩

theorem witness_NandProtectionOps :
    let inside := withOpr 2047 1 0 0 st75
    let outside := withOpr 2047 2 0 0 st75
    let none := withOpr 2048 0 0 0 st75
    base.geo.valid = false ∧ st75.geo.valid = true
    ∧ (inside.opr.a0.toNat + inside.opr.a1.toNat ≤ inside.geo.blocks.toNat ∧ inside.opr.a1 ≠ 0)
    ∧ outside.geo.blocks.toNat < outside.opr.a0.toNat + outside.opr.a1.toNat
    ∧ (none.opr.a0.toNat + none.opr.a1.toNat ≤ none.geo.blocks.toNat ∧ none.opr.a1 = 0) := by decide +kernel

/-! NOR -/

theorem legalAmd : stAmd.nor.Legal stAmd.cfg.params := by
  unfold NorCfg.Legal
  decide +kernel

theorem legalIntel : stIntel.nor.Legal stIntel.cfg.params := by
  unfold NorCfg.Legal
  decide +kernel

theorem legalTiny : stTiny.nor.Legal stTiny.cfg.params := by
  unfold NorCfg.Legal
  decide +kernel

theorem legalTinyIntel : stTinyIntel.nor.Legal stTinyIntel.cfg.params := by
  unfold NorCfg.Legal
  decide +kernel

/-- The block of the one-block devices. -/
def tinyBlock : BlockInfo := ⟨4, 0x02000000, 0⟩

theorem witness_NorBlockInfoOp :
    let regions := stAmd.nor.regions.toList.take stAmd.nor.nReg.toNat
    stAmd.Quiet ∧ stAmd.nor.Legal stAmd.cfg.params ∧ configReason base.cfg.params base.nor = some 1
    ∧ regions = [] ++ ⟨8, 0x2000⟩ :: [⟨63, 0x10000⟩] ∧ regions = [⟨8, 0x2000⟩] ++ ⟨63, 0x10000⟩ :: []
    ∧ ((0x0200FFFF : Word).toNat < 0x02000000 + 8 * 0x2000) ∧ (0x02000000 + 8 * 0x2000 ≤ (0x02010000 : Word).toNat)
    ∧ (0x02000000 + stAmd.nor.size.toNat ≤ (0x02400000 : Word).toNat) := by
  refine ⟨rfl, legalAmd, ?_⟩
  decide +kernel

theorem witness_NorAttachAmd :
    let s := withDev [] [] [0x0001, 0x227E, 0x2221] stAmd
    let t := withDev [] [] [0x00C2, 0x22CB, 0] stAmd
    s.Quiet ∧ s.nor.Legal s.cfg.params ∧ (s.nor.cmdSet = 1 ∨ s.nor.cmdSet = 2) ∧ s.dev.nr = 0x0001 :: 0x227E :: 0x2221 :: []
    ∧ s.cfg.params.norKnownMfrs.contains ((0x0001 : Word).extractLsb' 0 8) = true
    ∧ t.cfg.params.norKnownMfrs.contains ((0x00C2 : Word).extractLsb' 0 8) = false :=
  ⟨rfl, legalAmd, Or.inr rfl, rfl, by decide +kernel, by decide +kernel⟩

theorem witness_NorAttachIntelOrNone :
    let s := withDev [] [] [0x0089, 0x0018] stIntel
    let t := { stIntel with nor := norA 5 }
    let u := { stIntel with nor := norA 0 }
    (s.Quiet ∧ s.nor.Legal s.cfg.params ∧ (s.nor.cmdSet = 3 ∨ s.nor.cmdSet = 4) ∧ s.dev.nr = 0x0089 :: 0x0018 :: [])
    ∧ (t.Quiet ∧ t.nor.Legal t.cfg.params ∧ 5 ≤ t.nor.cmdSet.toNat)
    ∧ u.nor.cmdSet = 0 :=
  ⟨⟨rfl, legalIntel, Or.inl rfl, rfl⟩, ⟨rfl, legalIntel, by decide⟩, rfl⟩

/-- An erase of the one-block AMD device: one poll that goes on, one that ends, two words. -/
def amdErasing (nr : List Word) : State := withOpr 0x02000002 0 0 0 (withDev [] [] nr stTiny)

theorem amdErasing_block (nr : List Word) :
    blockInfo (amdErasing nr).cfg.params (amdErasing nr).nor (amdErasing nr).opr.a0 = some tinyBlock := by
  show blockInfo stTiny.cfg.params stTiny.nor 0x02000002 = some tinyBlock
  decide +kernel

theorem witness_NorEraseBlockAmd :
    (amdErasing []).Quiet ∧ (amdErasing []).norId.vendor = .amd ∧ (amdErasing []).nor.Legal ref.params
    ∧ tinyBlock.size.toNat % stTiny.nor.wb = 0 ∧ (stTiny.nor.read 0x0008).getLsbD 7 = false ∧ (stTiny.nor.read 0x00FF).getLsbD 7 = true
    ∧ stTiny.nor.read 0xFFFF = stTiny.nor.ones ∧ ([0xFFFF, 0xFFFF] : List Word).length = tinyBlock.size.toNat / stTiny.nor.wb
    ∧ stTiny.nor.read 0xFF7F ≠ stTiny.nor.ones
    ∧ (amdErasing [0x0008, 0x00FF, 0xFFFF, 0xFFFF]).dev.nr = [0x0008] ++ 0x00FF :: [0xFFFF, 0xFFFF] ++ []
    ∧ (amdErasing [0x00FF, 0xFFFF, 0xFF7F]).dev.nr = [] ++ 0x00FF :: [0xFFFF] ++ 0xFF7F :: [] := by
  refine ⟨rfl, rfl, legalTiny, ?_⟩
  decide +kernel

/-- An erase of the one-block Intel device. -/
def intelErasing (timeout : Word) (nr : List Word) : State := withOpr 0x02000000 0 0 timeout (withDev [] [] nr stTinyIntel)

theorem witness_NorEraseBlockIntel :
    (intelErasing 2 []).Quiet ∧ (intelErasing 2 []).norId.vendor = .intel ∧ (intelErasing 2 []).nor.Legal ref.params
    ∧ blockInfo ref.params stTinyIntel.nor 0x02000000 = some tinyBlock ∧ tinyBlock.size.toNat % stTinyIntel.nor.wb = 0
    ∧ (stTinyIntel.nor.read 0x0000).getLsbD 7 = false ∧ (stTinyIntel.nor.read 0x0080).getLsbD 7 = true
    ∧ stTinyIntel.nor.read 0x0080 &&& 0x38 = 0 ∧ (stTinyIntel.nor.read 0x00A0).getLsbD 7 = true
    ∧ stTinyIntel.nor.read 0x00A0 &&& 0x38 ≠ 0
    ∧ ([0] : List Word).length < (intelErasing 2 [0, 0x80]).opr.timeout.toNat ∧ (intelErasing 2 [0, 0x80]).dev.nr = [0] ++ 0x80 :: []
    ∧ ([] : List Word).length = (intelErasing 0 []).opr.timeout.toNat ∧ (intelErasing 0 []).dev.nr = [] ++ [] := by
  refine ⟨rfl, rfl, legalTinyIntel, ?_⟩
  decide +kernel

/-- A word write of 0x9234 to the last word of NORCFG-A (T87 to T89). -/
def amdWriting (nr : List Word) : State := withOpr 0x023FFFFE 0x9234 0 0 (withDev [] [] nr stAmd)

theorem witness_NorWriteWordAmd :
    (amdWriting []).Quiet ∧ (amdWriting []).norId.vendor = .amd ∧ (amdWriting []).nor.Legal ref.params
    ∧ misaligned stAmd.nor 0x023FFFFE = false ∧ norOutOfRange ref.params stAmd.nor 0x023FFFFE stAmd.nor.wb = false
    ∧ stAmd.nor.read 0x9234 &&& stAmd.nor.pm = stAmd.nor.read 0x9234 &&& stAmd.nor.pm
    ∧ stAmd.nor.read 0x0020 &&& stAmd.nor.pm ≠ stAmd.nor.read 0x9234 &&& stAmd.nor.pm ∧ (stAmd.nor.read 0x0020).getLsbD 5 = true
    ∧ stAmd.nor.read 0x9230 ≠ stAmd.nor.read 0x9234
    ∧ (amdWriting [0x0080, 0x9234, 0x9234]).dev.nr = [0x0080] ++ 0x9234 :: 0x9234 :: []
    ∧ (amdWriting [0x0020, 0x9234, 0x9234]).dev.nr = [] ++ 0x0020 :: 0x9234 :: 0x9234 :: []
    ∧ (amdWriting [0x0020, 0x0020]).dev.nr = [] ++ 0x0020 :: 0x0020 :: [] := by
  refine ⟨rfl, rfl, legalAmd, ?_⟩
  decide +kernel

theorem witness_NorWriteWordAmd_poll : ∀ x ∈ [0x0080], amdPollsOn stAmd.nor (stAmd.nor.read 0x9234) none x := by
  intro x hx
  rw [List.mem_singleton.mp hx]
  exact ⟨by decide +kernel, by decide +kernel, fun b hb => by cases hb⟩

theorem witness_NorWriteWordIntel :
    let s := withOpr 0x02010006 0xBEEF 0 2 (withDev [] [] [0, 0x80] stIntel)
    let t := withOpr 0x02010006 0xBEEF 0 1 (withDev [] [] [0] stIntel)
    s.Quiet ∧ s.norId.vendor = .intel ∧ s.nor.Legal s.cfg.params ∧ misaligned s.nor s.opr.a0 = false
    ∧ norOutOfRange s.cfg.params s.nor s.opr.a0 s.nor.wb = false ∧ (s.nor.read 0).getLsbD 7 = false ∧ (s.nor.read 0x80).getLsbD 7 = true
    ∧ s.nor.read 0x80 &&& 0x38 = 0 ∧ s.nor.read 0x90 &&& 0x38 ≠ 0 ∧ (s.nor.read 0x90).getLsbD 7 = true
    ∧ ([0] : List Word).length < s.opr.timeout.toNat ∧ s.dev.nr = [0] ++ 0x80 :: []
    ∧ ([0] : List Word).length = t.opr.timeout.toNat ∧ t.dev.nr = [0] ++ [] := by
  refine ⟨rfl, rfl, legalIntel, ?_⟩
  decide +kernel

/-- The buffer write of T92 to T94: four words that end at a block boundary. -/
def amdBuffering (nr : List Word) : State := withOpr 0x0200FFF8 8 0x1000 0 (withDev [] [] nr { stAmd with mem := bytes90 })

theorem witness_NorWriteBufferAmd :
    (amdBuffering []).Quiet ∧ (amdBuffering []).norId.vendor = .amd ∧ (amdBuffering []).nor.Legal ref.params
    ∧ misaligned stAmd.nor 0x0200FFF8 = false ∧ badLength stAmd.nor 8 = false ∧ norOutOfRange ref.params stAmd.nor 0x0200FFF8 8 = false
    ∧ blockInfo ref.params stAmd.nor 0x0200FFF8 = some ⟨0x2000, 0x0200E000, 0⟩ ∧ 0x0200FFF8 + 8 ≤ 0x0200E000 + 0x2000
    ∧ (amdBuffering []).bufferData = [0x2211, 0x4433, 0x6655, 0x8877] ∧ (amdBuffering []).bufferPolled = 0x8877
    ∧ (amdBuffering []).bufferLast = 0x0200FFFE
    ∧ (∀ k < 4, stAmd.nor.read (([0x2211, 0x4433, 0x6655, 0x8877] : List Word).getD k 0) = ([0x2211, 0x4433, 0x6655, 0x8877] : List Word).getD k 0)
    ∧ (stAmd.nor.read 0x6654).extractLsb' 0 8 ≠ (0x6655 : Word).extractLsb' 0 8 ∧ 0 < stAmd.nor.wb
    ∧ (stAmd.nor.read 0x6555).extractLsb' 0 8 = (0x6655 : Word).extractLsb' 0 8 ∧ (stAmd.nor.read 0x6555).extractLsb' 8 8 ≠ (0x6655 : Word).extractLsb' 8 8
    ∧ (amdBuffering [0, 0x8877, 0x2211, 0x4433, 0x6655, 0x8877]).dev.nr = [0, 0x8877] ++ [0x2211, 0x4433, 0x6655, 0x8877] ++ []
    ∧ (amdBuffering [0x8877, 0x2211, 0x4433, 0x6654]).dev.nr = [0x8877] ++ [0x2211, 0x4433] ++ 0x6654 :: []
    ∧ (amdBuffering [2, 2]).dev.nr = [2, 2] ++ [] := by
  refine ⟨rfl, rfl, legalAmd, ?_⟩
  decide +kernel

theorem noneYet {P : Word → Prop} : ∀ x ∈ ([] : List Word), P x := fun _ h => by cases h

theorem goesOn8877 : ∀ x ∈ [0x0000], amdPollsOn stAmd.nor 0x8877 (some refParams.amdAbortBit) x := by
  intro x hx
  rw [List.mem_singleton.mp hx]
  refine ⟨by decide +kernel, by decide +kernel, fun b hb => ?_⟩
  cases hb
  decide +kernel

/-- Every way the poll for 0x8877 can end: a match after a read that lets it go on; bit 5 or the abort bit with a
second read that matches (T92); bit 5 or the abort bit (T93) with one that does not. -/
theorem witness_NorWriteBufferAmd_polls :
    let ends := amdPollEnds stAmd.nor 0x8877 (some refParams.amdAbortBit)
    ends [0x0000, 0x8877] .matched ∧ ends [0x0020, 0x8800] .matched ∧ ends [0x0002, 0x8800] .matched
    ∧ ends [0x0020, 0x0020] .timedOut ∧ ends [0x0002, 0x0002] .aborted := by
  have no1 : ¬ pollMatches stAmd.nor 0x8877 0x0020 := by unfold pollMatches; decide +kernel
  have no2 : ¬ pollMatches stAmd.nor 0x8877 0x0002 := by unfold pollMatches; decide +kernel
  have yes1 : pollMatches stAmd.nor 0x8877 0x8877 := by unfold pollMatches; decide +kernel
  have yes2 : pollMatches stAmd.nor 0x8877 0x8800 := by unfold pollMatches; decide +kernel
  have b5 : (stAmd.nor.read 0x0020).getLsbD 5 = true := by decide +kernel
  have b5' : (stAmd.nor.read 0x0002).getLsbD 5 = false := by decide +kernel
  have b1 : (stAmd.nor.read 0x0002).getLsbD refParams.amdAbortBit = true := by decide +kernel
  refine ⟨⟨[0x0000], goesOn8877, .inl ⟨0x8877, rfl, yes1⟩⟩, ⟨[], noneYet, .inr ⟨0x0020, 0x8800, rfl, no1, .inl b5, yes2⟩⟩,
    ⟨[], noneYet, .inr ⟨0x0002, 0x8800, rfl, no2, .inr ⟨refParams.amdAbortBit, rfl, b1⟩, yes2⟩⟩,
    ⟨[], 0x0020, 0x0020, noneYet, rfl, no1, b5, no1⟩,
    ⟨[], 0x0002, 0x0002, refParams.amdAbortBit, noneYet, rfl, no2, b5', rfl, b1, no2⟩⟩

theorem witness_NorWriteBufferIntel :
    let s := withOpr 0x02010020 4 0x1000 2 (withDev [] [] [0, 0x80, 0, 0x80] { stIntel with mem := bytes90 })
    let t := withDev [] [] [0, 0, 0, 0] s
    let u := withDev [] [] [0x80, 0, 0] s
    s.Quiet ∧ s.norId.vendor = .intel ∧ s.nor.Legal s.cfg.params ∧ misaligned s.nor s.opr.a0 = false ∧ badLength s.nor s.opr.a1 = false
    ∧ norOutOfRange s.cfg.params s.nor s.opr.a0 s.opr.a1.toNat = false
    ∧ blockInfo s.cfg.params s.nor s.opr.a0 = some ⟨0x10000, 0x02010000, 1⟩ ∧ s.opr.a0.toNat + s.opr.a1.toNat ≤ 0x02010000 + 0x10000
    ∧ (s.nor.read 0).getLsbD 7 = false ∧ (s.nor.read 0x80).getLsbD 7 = true ∧ s.nor.read 0x80 &&& 0x38 = 0
    ∧ ([0] : List Word).length < s.cfg.params.intelBufPollLimit.toNat ∧ ([0] : List Word).length < s.opr.timeout.toNat
    ∧ s.dev.nr = [0] ++ 0x80 :: [0] ++ 0x80 :: []
    ∧ ([0, 0, 0, 0] : List Word).length = t.cfg.params.intelBufPollLimit.toNat ∧ t.dev.nr = [0, 0, 0, 0] ++ []
    ∧ ([0, 0] : List Word).length = u.opr.timeout.toNat ∧ u.dev.nr = [] ++ 0x80 :: [0, 0] ++ [] := by
  refine ⟨rfl, rfl, legalIntel, ?_⟩
  decide +kernel

theorem witness_NorLockOps :
    stTinyIntel.Quiet ∧ stTinyIntel.nor.Legal stTinyIntel.cfg.params ∧ stTinyIntel.norId.vendor = .intel
    ∧ blockInfo stTinyIntel.cfg.params stTinyIntel.nor (withOpr 0x02000003 0 0 0 stTinyIntel).opr.a0 = some tinyBlock :=
  ⟨rfl, legalTinyIntel, rfl, by decide +kernel⟩

theorem witness_IntelCleanupOnEveryPath :
    (intelErasing 0 []).Quiet ∧ (intelErasing 0 []).norId.vendor = .intel
    ∧ ∃ t, exec .norEraseBlock (intelErasing 0 []) = .next t ∧ (t.trace == [.nw 0x02000000 0x20, .nw 0x02000000 0xD0, .nw 0x02000000 0x50,
      .nw 0x02000000 0xFF]) = true :=
  ⟨rfl, rfl, outcome_next (p := fun t => t.trace == [.nw 0x02000000 0x20, .nw 0x02000000 0xD0, .nw 0x02000000 0x50, .nw 0x02000000 0xFF])
    (by decide +kernel)⟩

/-- An AMD op left polling. -/
def leftPolling (opc : Byte) (s : State) : State :=
  { s with stat := { base.stat with busy := true, phase := .poll, opc := opc } }

theorem goesOn9234 : ∀ x ∈ [0x0000], amdPollsOn stAmd.nor (stAmd.nor.read 0x9234) none x := by
  intro x hx
  rw [List.mem_singleton.mp hx]
  exact ⟨by decide +kernel, by decide +kernel, fun b hb => by cases hb⟩

theorem witness_AmdPollIsUnbounded :
    let e := amdErasing [8, 8]
    let w := amdWriting [0]
    let b := amdBuffering [0]
    (e.Quiet ∧ e.norId.vendor = .amd ∧ e.nor.Legal ref.params ∧ tinyBlock.size.toNat % stTiny.nor.wb = 0
      ∧ (stTiny.nor.read 8).getLsbD 7 = false ∧ e.dev.nr = [8, 8])
    ∧ (w.Quiet ∧ w.norId.vendor = .amd ∧ w.nor.Legal ref.params ∧ w.dev.nr = [0])
    ∧ (b.Quiet ∧ b.norId.vendor = .amd ∧ b.nor.Legal ref.params ∧ b.dev.nr = [0])
    ∧ [leftPolling 0x21 e, leftPolling 0x22 w, leftPolling 0x23 b].all (fun s => s.stat.busy && s.stat.phase == .poll) = true :=
  ⟨⟨rfl, rfl, legalTiny, by decide +kernel, by decide +kernel, rfl⟩, ⟨rfl, rfl, legalAmd, rfl⟩, ⟨rfl, rfl, legalAmd, rfl⟩,
    by decide +kernel⟩

theorem witness_AmdPollGoesOnToItsEnd :
    (leftPolling 0x21 (amdErasing [])).Quiet ∧ (stTiny.nor.read 8).getLsbD 7 = false ∧ (stTiny.nor.read 0x80).getLsbD 7 = true
    ∧ stTiny.nor.read 0xFFFF = stTiny.nor.ones ∧ ([0xFFFF, 0xFFFF] : List Word).length = tinyBlock.size.toNat / stTiny.nor.wb
    ∧ stTiny.nor.read 0xFF7F ≠ stTiny.nor.ones
    ∧ (leftPolling 0x21 (amdErasing [8, 0x80, 0xFFFF, 0xFFFF])).dev.nr = [8] ++ 0x80 :: [0xFFFF, 0xFFFF] ++ [] := by
  refine ⟨rfl, ?_⟩
  decide +kernel

/-- The word write and the buffer write, left polling: the answers of the witnesses above end them. -/
theorem witness_AmdPollGoesOnToItsEnd_writes :
    amdPollEnds stAmd.nor (stAmd.nor.read 0x9234) none [0x0000, 0x9234] .matched
    ∧ amdPollEnds stAmd.nor (stAmd.nor.read 0x9234) none [0x0020, 0x0020] .timedOut
    ∧ (∃ t, step (leftPolling 0x22 (amdWriting [0x0000, 0x9234, 0x9234])) = .next t ∧ (t.stat.done && !t.stat.err) = true)
    ∧ (∃ t, step (leftPolling 0x23 (amdBuffering [0x0002, 0x8800, 0x2211, 0x4433, 0x6655, 0x8877])) = .next t
      ∧ (t.stat.done && !t.stat.err && t.res.res0 == 8) = true) := by
  refine ⟨⟨[0], goesOn9234, .inl ⟨_, rfl, rfl⟩⟩, ⟨[], _, _, noneYet, rfl, ?_, by decide +kernel, ?_⟩, ?_, ?_⟩
  · unfold pollMatches; decide +kernel
  · unfold pollMatches; decide +kernel
  · exact stepped_next (p := fun t => t.stat.done && !t.stat.err) (by decide +kernel)
  · exact stepped_next (p := fun t => t.stat.done && !t.stat.err && t.res.res0 == 8) (by decide +kernel)

/-- RESET while an AMD poll goes on, before the second of three reads (`70_reset_and_hazards.md` R305). -/
theorem witness_ResetEndsAnOp_polling :
    let s := leftPolling 0x21 (amdErasing [8, 8, 8])
    s.Quiet ∧ s.stat.busy = true ∧ (∃ u, step s = .next u ∧ (u.events.length == 3) = true) ∧ 1 < 3 - s.events.length
    ∧ ∃ t, step (s.resetAt 1 [] []) = .next t ∧ (t.resetLine && t.events.length == 1) = true :=
  ⟨rfl, rfl, stepped_next (p := fun u => u.events.length == 3) (by decide +kernel), by decide +kernel,
    stepped_next (p := fun t => t.resetLine && t.events.length == 1) (by decide +kernel)⟩

theorem witness_PageAndEraseChecks :
    let lastBlock := withOpr 1024 0 0 0 st6E
    let lastPage := withOpr 0 16 0 0 st6E
    let erase := withOpr 0xFFFFFFFF 2 0 0 st6E
    base.Quiet ∧ base.geo.valid = false ∧ st6E.geo.valid = true ∧ lastBlock.geo.blocks ≤ lastBlock.opr.a0
    ∧ lastPage.geo.ppb ≤ lastPage.opr.a1 ∧ erase.geo.blocks.toNat < erase.opr.a0.toNat + erase.opr.a1.toNat := by
  refine ⟨rfl, ?_⟩
  decide +kernel

theorem witness_NorVendorAndConfigChecks :
    let badTotal := { norA 2 with totalW := 8 }
    base.Quiet ∧ base.norId.vendor = .unsupported ∧ stAmd.norId.vendor ≠ .intel ∧ stAmd.norId.vendor ≠ .unsupported
    ∧ ¬ ({ norA 2 with chipW := 32 }.chipW = 8 ∨ { norA 2 with chipW := 32 }.chipW = 16)
    ∧ badTotal.chipW = 16 ∧ badTotal.totalW.toNat % badTotal.chipW.toNat ≠ 0
    ∧ ((norA 2).totalW = 16 ∧ (norA 2).totalW.toNat % (norA 2).chipW.toNat = 0) ∧ 6 < { norA 2 with nReg := 7 }.nReg.toNat := by
  refine ⟨rfl, ?_⟩
  decide +kernel

theorem witness_NorOperandChecks :
    stAmd.Quiet ∧ stAmd.norId.vendor ≠ .unsupported ∧ stAmd.nor.Legal stAmd.cfg.params
    ∧ (0x0200E011 : Word).toNat % stAmd.nor.wb ≠ 0 ∧ (0x0200E010 : Word).toNat % stAmd.nor.wb = 0
    ∧ (3 % stAmd.nor.wb ≠ 0 ∧ stAmd.nor.bufSz.toNat < 34)
    ∧ ¬ ((0x02400000 : Word).toNat - 0x02000000 + stAmd.nor.wb ≤ stAmd.nor.size.toNat)
    ∧ blockInfo ref.params stAmd.nor 0x02400000 = none
    ∧ blockInfo ref.params stAmd.nor 0x0200FFFC = some ⟨0x2000, 0x0200E000, 0⟩ ∧ 0x0200E000 + 0x2000 < 0x0200FFFC + 8
    ∧ blockInfo ref.params { norA 2 with regions := ⟨⟨8, 3⟩, ⟨0, 0⟩, ⟨0, 0⟩, ⟨0, 0⟩, ⟨0, 0⟩, ⟨0, 0⟩⟩ } 0x02000000 = some ⟨3, 0x02000000, 0⟩
    ∧ 3 % stAmd.nor.wb ≠ 0 := by
  refine ⟨rfl, by decide, legalAmd, ?_⟩
  decide +kernel

/-! The whole machine -/

theorem witness_BufferMemory :
    Memory.wf [(0, 1), (0xFFFFFFFF, 2)] = true ∧ (0xFFFFFFFF + BitVec.ofNat 32 1 : Word).toNat = 0 := by decide +kernel

theorem witness_WhoWritesWhat :
    disturbed.NoReset ∧ ∃ t, exec .nandWaitRdy disturbed = .next t ∧ t.stat.done = true :=
  ⟨witness_HostCannotDisturbAnOp.1, outcome_next (p := fun t => t.stat.done) (by decide +kernel)⟩

theorem geoInv6E : st6E.GeoInv := by
  refine ⟨fun _ => ⟨legal6E, by decide +kernel, by decide +kernel⟩, fun h => ?_⟩
  have : st6E.geo.valid = true := rfl
  rw [this] at h
  cases h

theorem witness_WhoWritesHostMemory :
    (reading zeroPage [(0x1000, 7)]).GeoInv ∧ (reading zeroPage [(0x1000, 7)]).NoReset
    ∧ ∃ t, exec .nandReadPage (reading zeroPage [(0x1000, 7)]) = .next t ∧ (t.mem == []) = true :=
  ⟨geoInv6E, fun acts h => absurd h (by simp [reading, withOpr, withDev, st6E, withGeo, base, State.reset]),
    outcome_next (p := fun t => t.mem == []) (by decide +kernel)⟩

theorem witness_NandAndNorStateAreApart :
    (amdErasing []).NoReset ∧ ∃ t, exec .norLockSet stTinyIntel = .next t ∧ t.stat.done = true :=
  ⟨fun acts h => absurd h (by simp [amdErasing, withOpr, withDev, stTiny, stAmd, base, State.reset]),
    outcome_next (p := fun t => t.stat.done) (by decide +kernel)⟩

theorem witness_EveryOpEnds : disturbed.NoReset ∧ disturbed.stat.err = false ∧ disturbed.stat.errCode = 0 :=
  ⟨witness_HostCannotDisturbAnOp.1, rfl, rfl⟩

/-- A machine about to take BUS_CLE. -/
def issuing : State := withAct (.write 0 0x30) base

theorem noFlag {p : Prop} (h : false = true) : p := by cases h

theorem inv_issuing : issuing.Inv := by
  refine ⟨⟨rfl, rfl, rfl, rfl⟩, ⟨rfl, rfl⟩, ⟨noFlag, fun _ => ⟨rfl, rfl⟩⟩, ⟨rfl, rfl, fun _ => ⟨rfl, rfl⟩⟩, ?_, ?_, noFlag⟩
  · intro i
    have hz : ∀ i, Quad.zero.get i = 0 := by
      intro i
      match i with
      | 0 | 1 | 2 | 3 | _ + 4 => rfl
    show Quad.zero.get i &&& _ = 0 ∧ Quad.zero.get i &&& _ = 0 ∧ CorrLegal (Quad.zero.get i)
    rw [hz]
    exact ⟨by decide, by decide, by decide, by decide, fun _ => by decide⟩
  · exact ⟨fun _ => rfl, noFlag, ⟨fun _ => rfl, fun _ => rfl⟩, noFlag, by decide, by decide, by decide, by decide⟩

theorem issuing_steps : ∃ t, step issuing = .next t ∧ t.stat.done = true :=
  stepped_next (p := fun t => t.stat.done) (by decide +kernel)

theorem witness_InvKept : issuing.Inv ∧ ∃ t, step issuing = .next t ∧ t.stat.done = true := ⟨inv_issuing, issuing_steps⟩

theorem witness_StatStaysConsistent : issuing.StatInv ∧ ∃ t, step issuing = .next t ∧ t.stat.done = true :=
  ⟨inv_issuing.2.2.2.2.2.1, issuing_steps⟩

theorem witness_NothingStopsTheMachine : issuing.Inv := inv_issuing

end Sys2Proof.Tests
end

section
/-! PROOFS. The host's side of the register file (`10_state.md`): what a read returns after a write, the packed
registers, and the register accesses that fall while an op runs. -/

namespace Sys2Proof.Machine

/-! ## Host reads and writes of an idle machine -/

/-- An index that R20 does not list reads 0. -/
theorem readReg_unlisted (s : State) {idx : Nat}
    (h : idx = 0 ∨ idx = 14 ∨ idx = 15 ∨ (28 ≤ idx ∧ idx ≤ 31) ∨ idx = 46 ∨ idx = 47 ∨ 70 ≤ idx) :
    readReg s idx = 0 := by
  unfold readReg
  split <;> try omega
  rfl

/-- A step of an idle machine takes the next act of the script. -/
theorem step_idle {s : State} {a : HostAct} {rest : List HostAct} (hb : s.stat.busy = false)
    (hs : s.host.script = a :: rest) :
    step s = hostAct a { s with host := { s.host with script := rest } } := by
  simp [step, hb, stepIdle, hs]

/-- Settles O7: a read act answers the register's value, and the unlisted indices fall through `readReg`. -/
theorem hostRead : Obligations.HostRead := by
  refine ⟨fun s idx rest hb hs => ?_, fun s idx h => readReg_unlisted s h⟩
  rw [step_idle hb hs]
  rfl

/-! Every register of the writable records after a host write of any index. -/

section
variable (o : Operands) (g : Regions) (n : NorCfg) (i : Nat) (v : Word)

/-- The regions after a write: each of the twelve registers holds the value written to its own index. -/
theorem Regions.write_eq : g.write i v =
    { r0 := ⟨if i = 54 then v else g.r0.cnt, if i = 55 then v else g.r0.size⟩
      r1 := ⟨if i = 56 then v else g.r1.cnt, if i = 57 then v else g.r1.size⟩
      r2 := ⟨if i = 58 then v else g.r2.cnt, if i = 59 then v else g.r2.size⟩
      r3 := ⟨if i = 60 then v else g.r3.cnt, if i = 61 then v else g.r3.size⟩
      r4 := ⟨if i = 62 then v else g.r4.cnt, if i = 63 then v else g.r4.size⟩
      r5 := ⟨if i = 64 then v else g.r5.cnt, if i = 65 then v else g.r5.size⟩ } := by
  unfold Regions.write; split <;> simp_all

/-- The NOR configuration after a write. -/
theorem NorCfg.write_eq : n.write i v =
    { cmdSet := if i = 48 then v else n.cmdSet
      chipW := if i = 49 then v else n.chipW
      totalW := if i = 50 then v else n.totalW
      size := if i = 51 then v else n.size
      bufSz := if i = 52 then v else n.bufSz
      nReg := if i = 53 then v else n.nReg
      regions := n.regions.write i v } := by
  unfold NorCfg.write; split <;> simp_all [Regions.write]

/-- The operand registers after a write. -/
theorem Operands.write_eq : o.write i v =
    { a0 := if i = 2 then v else o.a0
      a1 := if i = 3 then v else o.a1
      a2 := if i = 4 then v else o.a2
      a3 := if i = 5 then v else o.a3
      timeout := if i = 6 then v else o.timeout } := by
  unfold Operands.write; split <;> simp_all

end

/-- A register reads back a host write exactly when it was written and is one of the RW registers. -/
theorem readReg_writeReg (s : State) (i j : Nat) (v : Word) :
    readReg (writeReg s i v) j
      = if i = j ∧ ((2 ≤ j ∧ j ≤ 6) ∨ (48 ≤ j ∧ j ≤ 65)) then v else readReg s j := by
  unfold readReg
  split <;> simp [Operands.write_eq, NorCfg.write_eq, Regions.write_eq]
  grind

/-- Settles O6: the write reaches `writeReg`, whose effect on every index is `readReg_writeReg`. -/
theorem hostWriteWhileIdle : Obligations.HostWriteWhileIdle := by
  intro s idx v rest ⟨hb, hr⟩ hs hidx
  let s1 : State := { s with host := { s.host with script := rest } }
  have hread : ∀ j, readReg s1 j = readReg s j := fun _ => rfl
  refine ⟨writeReg s1 idx v, ?_, ?_, fun j hj => ?_, rfl⟩
  · rw [step_idle hb hs]
    simp [hostAct, hostWrite, hr, hidx, s1]
  · simp [readReg_writeReg, hread]
  · simp [readReg_writeReg, hread, Ne.symm hj]

/-! ## Register accesses while an op runs -/

/-- Register `i` as the host reads it when OVR is `ovr`. -/
def State.readWith (s : State) (ovr : Bool) (i : Nat) : Word :=
  readReg { s with stat := { s.stat with ovr := ovr } } i

/-- The answers to the reads among `acts`, oldest first: `read` says what a register holds, by the OVR that the
acts before the read have left. -/
def busyAnswers (read : Bool → Nat → Word) : Bool → List BusyAct → List HostAnswer
  | _, [] => []
  | _, .write _ _ :: acts => busyAnswers read true acts
  | ovr, .read i :: acts => .reg i (read ovr i) :: busyAnswers read ovr acts
  | ovr, .assertReset :: acts => busyAnswers read ovr acts

/-- What register accesses do to a running op. -/
theorem busyActs_run : ∀ (acts : List BusyAct) (s : State), BusyAct.assertReset ∉ acts →
    busyActs acts s = .ok ()
      { s with
        stat := { s.stat with ovr := s.stat.ovr || acts.any BusyAct.isWrite }
        host := { s.host with answers := (busyAnswers s.readWith s.stat.ovr acts).reverse ++ s.host.answers } }
  | [], s, _ => by simp [busyActs, busyAnswers]
  | .write i v :: acts, s, h => by
    have hread : State.readWith { s with stat := { s.stat with ovr := true } } = s.readWith := rfl
    rw [busyActs, busyActs_run acts _ (by simpa using h), hread]
    simp [busyAnswers, BusyAct.isWrite]
  | .read i :: acts, s, h => by
    have hread (a : List HostAnswer) :
        State.readWith { s with host := { s.host with answers := a } } = s.readWith := rfl
    have hnow : s.readWith s.stat.ovr i = readReg s i := rfl
    rw [busyActs, busyActs_run acts _ (by simpa using h), hread]
    simp [busyAnswers, BusyAct.isWrite, hnow]
  | .assertReset :: acts, s, h => by simp at h

/-- The same answers with each act numbered: read `k` sees the writes among the `k` acts before it. -/
theorem busyAnswers_eq_zipIdx (read : Bool → Nat → Word) : ∀ (acts : List BusyAct) (ovr : Bool),
    BusyAct.assertReset ∉ acts →
    busyAnswers read ovr acts = acts.zipIdx.filterMap fun (act, k) =>
      match act with
      | .read i => some (HostAnswer.reg i (read (ovr || (acts.take k).any BusyAct.isWrite) i))
      | _ => none
  | [], _, _ => rfl
  | .write i v :: acts, ovr, h => by
    rw [busyAnswers, busyAnswers_eq_zipIdx read acts true (by simpa using h), List.zipIdx_cons, List.zipIdx_succ]
    simp [List.filterMap_map, BusyAct.isWrite]
  | .read i :: acts, ovr, h => by
    rw [busyAnswers, busyAnswers_eq_zipIdx read acts ovr (by simpa using h), List.zipIdx_cons, List.zipIdx_succ]
    simp [List.filterMap_map, BusyAct.isWrite]
  | .assertReset :: acts, ovr, h => by simp at h

/-- Settles O8: what register accesses do, the answers numbered by the acts before them. -/
theorem registerAccessWhileBusy : Obligations.RegisterAccessWhileBusy := by
  intro acts s h
  rw [busyActs_run acts s h, busyAnswers_eq_zipIdx s.readWith acts s.stat.ovr h]
  simp only [List.take_length] <;> rfl

/-! ## The packed registers -/

/-- STAT bit by bit (R25). -/
theorem Stat.word_bit (t : Stat) {i : Nat} (hi : i < 32) : t.word.getLsbD i =
    if i < 8 then [t.busy, t.done, t.err, t.corr, t.ovr, false, false, false].getD i false
    else if i < 16 then t.errCode.getLsbD (i - 8)
    else if i < 24 then t.phase.code.getLsbD (i - 16)
    else t.opc.getLsbD (i - 24) := by
  simp only [Stat.word, BitVec.getLsbD_append]
  interval_cases i <;> simp

/-- GEO_FLAGS bit by bit (R34). -/
theorem Geo.flagsWord_bit (g : Geo) {i : Nat} (hi : i < 32) : g.flagsWord.getLsbD i =
    if i < 4 then [g.valid, g.bus16, g.bigBlock, false].getD i false else g.csOff.getLsbD (i - 4) := by
  simp only [Geo.flagsWord, bitWord, BitVec.getLsbD_or, BitVec.getLsbD_shiftLeft, BitVec.getLsbD_setWidth]
  interval_cases i <;> simp

/-- ECCCTL bit by bit (R29). -/
theorem EccUnit.ctlWord_bit (e : EccUnit) {i : Nat} (hi : i < 32) : e.ctlWord.getLsbD i =
    if i = 31 then e.run else e.bitPos.getLsbD i := by
  simp only [EccUnit.ctlWord, bitWord, BitVec.getLsbD_or, BitVec.getLsbD_shiftLeft, BitVec.getLsbD_setWidth]
  interval_cases i <;> simp

/-- A field of a word, from the bits of the word. -/
theorem extractLsb'_eq_of_bits {w : Word} {k n : Nat} {x : BitVec n}
    (h : ∀ i < n, w.getLsbD (k + i) = x.getLsbD i) : w.extractLsb' k n = x :=
  BitVec.eq_of_getLsbD_eq fun i hi => by simp [hi, h i hi]

/-- The fields of STAT lie where R25 puts them. -/
theorem Stat.word_fields (t : Stat) :
    t.word.getLsbD 0 = t.busy ∧ t.word.getLsbD 1 = t.done ∧ t.word.getLsbD 2 = t.err
    ∧ t.word.getLsbD 3 = t.corr ∧ t.word.getLsbD 4 = t.ovr ∧ t.word.extractLsb' 5 3 = 0
    ∧ t.word.extractLsb' 8 8 = t.errCode ∧ t.word.extractLsb' 16 8 = t.phase.code
    ∧ t.word.extractLsb' 24 8 = t.opc := by
  refine ⟨t.word_bit (by decide), t.word_bit (by decide), t.word_bit (by decide), t.word_bit (by decide),
    t.word_bit (by decide), ?_, ?_, ?_, ?_⟩ <;> refine extractLsb'_eq_of_bits fun i hi => ?_
  · rw [t.word_bit (by omega)]
    interval_cases i <;> rfl
  · rw [t.word_bit (by omega), if_neg (by omega), if_pos (by omega), Nat.add_sub_cancel_left]
  · rw [t.word_bit (by omega), if_neg (by omega), if_neg (by omega), if_pos (by omega), Nat.add_sub_cancel_left]
  · rw [t.word_bit (by omega), if_neg (by omega), if_neg (by omega), if_neg (by omega), Nat.add_sub_cancel_left]

/-- The fields of ECCCTL lie where R29 puts them. -/
theorem EccUnit.ctlWord_fields (e : EccUnit) :
    e.ctlWord.extractLsb' 0 12 = e.bitPos ∧ e.ctlWord.extractLsb' 12 19 = 0 ∧ e.ctlWord.getLsbD 31 = e.run := by
  refine ⟨extractLsb'_eq_of_bits fun i hi => ?_, extractLsb'_eq_of_bits fun i hi => ?_, e.ctlWord_bit (by decide)⟩
  · rw [e.ctlWord_bit (by omega), if_neg (by omega), Nat.zero_add]
  · rw [e.ctlWord_bit (by omega), if_neg (by omega), BitVec.getLsbD_of_ge _ _ (by omega)]
    simp

/-- The fields of GEO_FLAGS lie where R34 puts them. -/
theorem Geo.flagsWord_fields (g : Geo) :
    g.flagsWord.getLsbD 0 = g.valid ∧ g.flagsWord.getLsbD 1 = g.bus16 ∧ g.flagsWord.getLsbD 2 = g.bigBlock
    ∧ g.flagsWord.getLsbD 3 = false ∧ g.flagsWord.extractLsb' 4 2 = g.csOff
    ∧ g.flagsWord.extractLsb' 6 26 = 0 := by
  refine ⟨g.flagsWord_bit (by decide), g.flagsWord_bit (by decide), g.flagsWord_bit (by decide),
    g.flagsWord_bit (by decide), extractLsb'_eq_of_bits fun i hi => ?_, extractLsb'_eq_of_bits fun i hi => ?_⟩
  · rw [g.flagsWord_bit (by omega), if_neg (by omega), Nat.add_sub_cancel_left]
  · rw [g.flagsWord_bit (by omega), if_neg (by omega), BitVec.getLsbD_of_ge _ _ (by omega)]
    simp

/-- Settles O10: the fields of the three packed registers, and the two tables by evaluation. -/
theorem registerLayouts : Obligations.RegisterLayouts := by
  refine ⟨Stat.word_fields, ⟨fun ph => by cases ph <;> decide, by decide⟩,
    ⟨fun k => by cases k <;> decide, by decide⟩, fun s => ?_⟩
  obtain ⟨hpos, hmid, hrun⟩ := s.eccu.ctlWord_fields
  obtain ⟨h0, h1, h2, h3, hcs, hrest⟩ := s.geo.flagsWord_fields
  exact ⟨rfl, hpos, hmid, hrun, h0, h1, h2, h3, hcs, hrest, by
    show s.norId.vendor.code = _
    cases s.norId.vendor <;> rfl⟩

end Sys2Proof.Machine
end

section
/-! PROOFS. What an op can do, said once: every op is put together from a few primitive steps (`Op.Within`), and
from that follow what it can write and how it can end (`Op.Within.effect`), and that register accesses of the
host do not disturb it (`Op.Within.hushed`). -/

namespace Sys2Proof.Machine

/-! ## The parts of the state an op may write -/

/-- The parts that only some ops write; `polling` is the right to leave an AMD poll under way. -/
inductive Part where
  | phase | polling | corrFlag | lastStat | eccUnit | geometry | slots | pageBuf | spareBuf | hostMem | vendor
  | nandAnswers | readyAnswers | norAnswers
deriving DecidableEq

/-- Part `p` is the same in both states. -/
def Part.Same (p : Part) (s t : State) : Prop :=
  match p with
  | .phase => t.stat.phase = s.stat.phase
  | .polling => True
  | .corrFlag => t.stat.corr = s.stat.corr
  | .lastStat => t.res.lastStat = s.res.lastStat
  | .eccUnit => t.eccu.acc = s.eccu.acc ∧ t.eccu.bitPos = s.eccu.bitPos ∧ t.eccu.run = s.eccu.run
  | .geometry => t.geo = s.geo ∧ t.eccu.mask = s.eccu.mask
  | .slots => t.slots = s.slots
  | .pageBuf => t.pageBuf = s.pageBuf
  | .spareBuf => t.spareBuf = s.spareBuf
  | .hostMem => t.mem = s.mem
  | .vendor => t.norId = s.norId
  | .nandAnswers => t.dev.dr = s.dev.dr
  | .readyAnswers => t.dev.rdy = s.dev.rdy
  | .norAnswers => t.dev.nr = s.dev.nr

theorem Part.Same.refl (p : Part) (s : State) : p.Same s s := by
  cases p <;> simp [Part.Same]

theorem Part.Same.trans {p : Part} {a b c : State} (h : p.Same a b) (h' : p.Same b c) : p.Same a c := by
  cases p <;> simp_all [Part.Same]

/-- `t` follows from `s` by steps that write, of the parts, only those in `F`, and no register that no op
writes. -/
structure Writes (F : List Part) (s t : State) : Prop where
  parts : ∀ p, p ∉ F → p.Same s t
  cfg : t.cfg = s.cfg
  opr : t.opr = s.opr
  nor : t.nor = s.nor
  resetLine : t.resetLine = s.resetLine
  opc : t.stat.opc = s.stat.opc
  busy : t.stat.busy = s.stat.busy
  done : t.stat.done = s.stat.done
  err : t.stat.err = s.stat.err
  errCode : t.stat.errCode = s.stat.errCode
  ovr : s.stat.ovr = true → t.stat.ovr = true
  run : s.eccu.run = true → t.eccu.run = true
  eccInv : s.EccInv → t.EccInv
  events : s.events <:+ t.events
  acts : t.host.busy <:+ s.host.busy

theorem Writes.refl (F : List Part) (s : State) : Writes F s s where
  parts p _ := .refl p s
  cfg := rfl
  opr := rfl
  nor := rfl
  resetLine := rfl
  opc := rfl
  busy := rfl
  done := rfl
  err := rfl
  errCode := rfl
  ovr := id
  run := id
  eccInv := id
  events := List.suffix_rfl
  acts := List.suffix_rfl

theorem Writes.trans {F : List Part} {a b c : State} (h : Writes F a b) (h' : Writes F b c) : Writes F a c where
  parts p hp := (h.parts p hp).trans (h'.parts p hp)
  cfg := h'.cfg.trans h.cfg
  opr := h'.opr.trans h.opr
  nor := h'.nor.trans h.nor
  resetLine := h'.resetLine.trans h.resetLine
  opc := h'.opc.trans h.opc
  busy := h'.busy.trans h.busy
  done := h'.done.trans h.done
  err := h'.err.trans h.err
  errCode := h'.errCode.trans h.errCode
  ovr := h'.ovr ∘ h.ovr
  run := h'.run ∘ h.run
  eccInv := h'.eccInv ∘ h.eccInv
  events := h.events.trans h'.events
  acts := h'.acts.trans h.acts

theorem Writes.noReset {F : List Part} {s t : State} (h : Writes F s t) (hs : s.NoReset) : t.NoReset :=
  fun a ha => hs a (h.acts.subset ha)

/-- Noise that consumes host acts writes no part. -/
theorem Noise.writes (F : List Part) {s t : State} (h : Noise s t) (ha : t.host.busy <:+ s.host.busy) :
    Writes F s t := by
  obtain ⟨ht, hovr⟩ := h
  have hw : ∀ o : Bool, ∀ k : HostSide, k.busy <:+ s.host.busy → (s.stat.ovr = true → o = true) →
      Writes F s { s with stat := { s.stat with ovr := o }, host := k } := fun o k hk ho =>
    { Writes.refl F s with ovr := ho, acts := hk, parts := fun p _ => .refl p s }
  rw [ht]
  exact hw _ _ ha hovr

/-! ## The primitive steps -/

/-- `s` without the noise of the host's register accesses: OVR clear, and nothing on the host's side. -/
def State.hushed (s : State) : State :=
  { s with stat := { s.stat with ovr := false }, host := ⟨[], [], []⟩ }

/-- The error kinds an op can raise: the reserved ones are none of them (`60_exceptions.md` R260). -/
abbrev ErrKind.Raisable (k : ErrKind) : Prop := k ≠ .cfiNotFound ∧ k ≠ .noSpaceAvailable ∧ k ≠ .writeFailure

/-- The piece of pseudocode `m` is put together from primitive steps that write, of the parts, only those in
`F`: boundaries, errors, and changes of the state that neither read nor write OVR and the host's side. -/
inductive Op.Within (F : List Part) : {α : Type} → Op α → Prop where
  | pure {α : Type} (a : α) : Op.Within F (Pure.pure a : Op α)
  | bind {α β : Type} {m : Op α} {f : α → Op β} :
      Op.Within F m → (∀ a, Op.Within F (f a)) → Op.Within F (m >>= f)
  | look {α : Type} {f : State → Op α} :
      (∀ s, Op.Within F (f s)) → (∀ s, f s.hushed = f s) → Op.Within F (get >>= f)
  | step {α : Type} (g : State → α) (f : State → State) :
      (∀ s, Writes F s (f s)) → (∀ s : State, g s.hushed = g s ∧ f s.hushed = (f s).hushed) →
      Op.Within F (fun s => .ok (g s) (f s))
  | tick : Op.Within F tick
  | raise {α : Type} {k : ErrKind} (info : Word) : k.Raisable → Op.Within F (Machine.raise k info : Op α)
  | keepPolling : .polling ∈ F → Op.Within F keepPolling

/-- How an op that began in `s` ends before its last step, having written only what `F` allows. -/
def Stops (F : List Part) (s : State) : Ended → State → Prop
  | .raised, t => ∃ u k info, Writes F s u ∧ k.Raisable ∧ t = errorEntry k info u
  | .aborted, t => ¬ s.NoReset ∧ ∃ u h, Writes F s u ∧ t = resetAsserted { u with host := h }
  | .polling, t => .polling ∈ F ∧ Writes F s t

theorem Writes.stops {F : List Part} {a b c : State} {e : Ended} (h : Writes F a b) (h' : Stops F b e c) :
    Stops F a e c := by
  cases e with
  | raised =>
    obtain ⟨u, k, info, hu, hk, hc⟩ := h'
    exact ⟨u, k, info, h.trans hu, hk, hc⟩
  | aborted =>
    obtain ⟨hr, u, k, hu, hc⟩ := h'
    exact ⟨fun hs => hr (h.noReset hs), u, k, h.trans hu, hc⟩
  | polling => exact ⟨h'.1, h.trans h'.2⟩

/-- RESET among the acts ends the op. -/
theorem busyActs_reset : ∀ (acts : List BusyAct) (s : State), BusyAct.assertReset ∈ acts →
    ∃ e t, busyActs acts s = .error e t
  | [], _, h => by simp at h
  | .write _ _ :: acts, s, h => busyActs_reset acts _ (by simpa using h)
  | .read _ :: acts, s, h => busyActs_reset acts _ (by simpa using h)
  | .assertReset :: _, _, _ => ⟨_, _, rfl⟩

/-- All a boundary can do: noise that consumes host acts, or the end by RESET if RESET is among them. -/
theorem tick_effect (F : List Part) (s : State) :
    (∃ t, tick s = .ok () t ∧ Noise s t ∧ t.host.busy <:+ s.host.busy)
    ∨ ∃ t, tick s = .error .aborted t ∧ Stops F s .aborted t := by
  cases hb : s.host.busy with
  | nil => exact .inl ⟨s, tick_quiet hb, Noise.refl s, by rw [hb]⟩
  | cons acts rest =>
    have htick : tick s = busyActs acts { s with host := { s.host with busy := rest } } := by
      rw [tick, hb]
    by_cases hr : BusyAct.assertReset ∈ acts
    · rcases tick_cases s with ⟨t, e, hn⟩ | ⟨s1, t, e, hn, ht⟩
      · obtain ⟨e', t', he⟩ := busyActs_reset acts { s with host := { s.host with busy := rest } } hr
        rw [htick, he] at e
        cases e
      · refine .inr ⟨_, e, fun hs => hs acts (by simp [hb]) hr, { s1 with host := s.host }, t.host, ?_, ?_⟩
        · have hn' : Noise s { s1 with host := s.host } := by
            obtain ⟨h1, h2⟩ := hn
            refine ⟨?_, h2⟩
            rw [h1]
          exact hn'.writes F List.suffix_rfl
        · rw [ht]
    · refine .inl ⟨_, htick.trans (busyActs_run acts _ hr), ⟨rfl, fun h => by simp [h]⟩, ?_⟩
      simp

/-- Every piece of pseudocode goes on or stops having written only what it may. -/
theorem Op.Within.effect {F : List Part} {α : Type} {m : Op α} (h : Op.Within F m) (s : State) :
    match m s with
    | .ok _ t => Writes F s t
    | .error e t => Stops F s e t := by
  induction h generalizing s with
  | pure a => exact Writes.refl F s
  | @bind _ _ m f _ _ ihm ihf =>
    have h1 := ihm s
    rw [Op.run_bind]
    cases hm : m s with
    | ok a t =>
      rw [hm] at h1
      have h2 := ihf a t
      show match f a t with | .ok _ t => Writes F s t | .error e t => Stops F s e t
      cases hf : f a t with
      | ok b u => rw [hf] at h2; exact h1.trans h2
      | error e u => rw [hf] at h2; exact h1.stops h2
    | error e t => rw [hm] at h1; exact h1
  | look _ _ ih => exact ih s s
  | step g f hw _ => exact hw s
  | tick =>
    rcases tick_effect F s with ⟨t, e, hn, ha⟩ | ⟨t, e, ht⟩
    · rw [e]; exact hn.writes F ha
    · rw [e]; exact ht
  | raise info hk => exact ⟨s, _, info, Writes.refl F s, hk, rfl⟩
  | keepPolling hp => exact ⟨hp, Writes.refl F s⟩

/-- Register accesses of the host leave an op alone: its run from the hushed state is its run, hushed. -/
theorem Op.Within.hushed {F : List Part} {α : Type} {m : Op α} (h : Op.Within F m) (s : State) (hs : s.NoReset) :
    m s.hushed = match m s with
      | .ok a t => .ok a t.hushed
      | .error e t => .error e t.hushed := by
  induction h generalizing s with
  | pure a => rfl
  | @bind _ _ m f hm _ ihm ihf =>
    have h1 := ihm s hs
    have h2 := hm.effect s
    rw [Op.run_bind, Op.run_bind, h1]
    cases e : m s with
    | ok a t => rw [e] at h2; exact ihf a t (h2.noReset hs)
    | error e t => rfl
  | @look _ f _ hf ih =>
    have h1 := ih s s hs
    rw [Op.bind_ok (Op.run_get s.hushed), Op.bind_ok (Op.run_get s), hf s, h1]
  | step g f _ hgf => simp only [hgf s]
  | tick =>
    rcases tick_effect F s with ⟨t, e, ⟨ht, _⟩, _⟩ | ⟨t, e, hr, _⟩
    · rw [e, tick_quiet (by rfl)]
      show _ = EStateM.Result.ok () t.hushed
      rw [ht]
      rfl
    · exact absurd hs hr
  | raise info hk => rfl
  | keepPolling hp => rfl

end Sys2Proof.Machine
end

section
/-! PROOFS. Every op and every piece of one is put together from the primitive steps, and which parts it writes. -/

namespace Sys2Proof.Machine

section
variable {F : List Part}

/-! ## Changes of the state

What a change of one field of the state writes. -/

section
variable (s : State)

theorem writes_phase (h : .phase ∈ F) (p : Phase) : Writes F s { s with stat := { s.stat with phase := p } } :=
  { Writes.refl F s with parts := fun q hq => by cases q <;> simp_all [Part.Same] }

theorem writes_corr (h : .corrFlag ∈ F) (b : Bool) : Writes F s { s with stat := { s.stat with corr := b } } :=
  { Writes.refl F s with parts := fun q hq => by cases q <;> simp_all [Part.Same] }

theorem writes_lastStat (h : .lastStat ∈ F) (v : Word) : Writes F s { s with res := { s.res with lastStat := v } } :=
  { Writes.refl F s with parts := fun q hq => by cases q <;> simp_all [Part.Same] }

theorem writes_results (r0 r1 r2 : Word) : Writes F s { s with res := ⟨r0, r1, r2, s.res.lastStat⟩ } :=
  { Writes.refl F s with parts := fun q _ => .refl q s }

theorem writes_loop (l : LoopRegs) : Writes F s { s with loop := l } :=
  { Writes.refl F s with parts := fun q _ => .refl q s }

theorem writes_event (e : Event) : Writes F s { s with events := e :: s.events } :=
  { Writes.refl F s with parts := fun q _ => .refl q s, events := List.suffix_cons e s.events }

theorem writes_slots (h : .slots ∈ F) (x : EccSlots) : Writes F s { s with slots := x } :=
  { Writes.refl F s with parts := fun q hq => by cases q <;> simp_all [Part.Same] }

theorem writes_pageBuf (h : .pageBuf ∈ F) (m : Memory) : Writes F s { s with pageBuf := m } :=
  { Writes.refl F s with parts := fun q hq => by cases q <;> simp_all [Part.Same] }

theorem writes_spareBuf (h : .spareBuf ∈ F) (m : Memory) : Writes F s { s with spareBuf := m } :=
  { Writes.refl F s with parts := fun q hq => by cases q <;> simp_all [Part.Same] }

theorem writes_mem (h : .hostMem ∈ F) (m : Memory) : Writes F s { s with mem := m } :=
  { Writes.refl F s with parts := fun q hq => by cases q <;> simp_all [Part.Same] }

theorem writes_norId (h : .vendor ∈ F) (x : NorId) : Writes F s { s with norId := x } :=
  { Writes.refl F s with parts := fun q hq => by cases q <;> simp_all [Part.Same] }

theorem writes_geo (h : .geometry ∈ F) (g : Geo) (m : Word) :
    Writes F s { s with geo := g, eccu := { s.eccu with mask := m } } :=
  { Writes.refl F s with parts := fun q hq => by cases q <;> simp_all [Part.Same] }

/-- A change of the accumulator that does not stop it and keeps its format. -/
theorem writes_eccu (h : .eccUnit ∈ F) {e : EccUnit} (hm : e.mask = s.eccu.mask)
    (hr : s.eccu.run = true → e.run = true) (hi : s.EccInv → State.EccInv { s with eccu := e }) :
    Writes F s { s with eccu := e } :=
  { Writes.refl F s with
    parts := fun q hq => by cases q <;> simp_all [Part.Same]
    run := hr
    eccInv := hi }

end

/-! The named changes that the pseudocode is made of. -/

theorem Op.Within.update {f : State → State} (hw : ∀ s, Writes F s (f s))
    (hf : ∀ s : State, f s.hushed = (f s).hushed) :
    Op.Within F (Machine.update f) :=
  .step (fun _ => ()) f hw fun s => ⟨rfl, hf s⟩

theorem Op.Within.params : Op.Within F Machine.params :=
  .step (fun s => s.cfg.params) id (Writes.refl F) fun _ => ⟨rfl, rfl⟩

theorem setPhase_within (p : Phase) (h : .phase ∈ F) : Op.Within F (setPhase p) :=
  .update (fun s => writes_phase s h p) fun _ => rfl

theorem setCorr_within (h : .corrFlag ∈ F) : Op.Within F setCorr :=
  .update (fun s => writes_corr s h true) fun _ => rfl

theorem setLastStat_within (v : Word) (h : .lastStat ∈ F) : Op.Within F (setLastStat v) :=
  .update (fun s => writes_lastStat s h v) fun _ => rfl

theorem setRes0_within (v : Word) : Op.Within F (setRes0 v) :=
  .update (fun s => writes_results s v _ _) fun _ => rfl

theorem setRes1_within (v : Word) : Op.Within F (setRes1 v) :=
  .update (fun s => writes_results s _ v _) fun _ => rfl

theorem setRes2_within (v : Word) : Op.Within F (setRes2 v) :=
  .update (fun s => writes_results s _ _ v) fun _ => rfl

theorem setOpIdx_within (i : Nat) : Op.Within F (setOpIdx i) := .update (fun s => writes_loop s _) fun _ => rfl

theorem setBlkIdx_within (b : Word) : Op.Within F (setBlkIdx b) := .update (fun s => writes_loop s _) fun _ => rfl

theorem setPollCnt_within (n : Nat) : Op.Within F (setPollCnt n) := .update (fun s => writes_loop s _) fun _ => rfl

theorem setXferCnt_within (n : Nat) : Op.Within F (setXferCnt n) := .update (fun s => writes_loop s _) fun _ => rfl

theorem record_within (e : Event) : Op.Within F (record e) := .update (fun s => writes_event s e) fun _ => rfl

theorem setEcc_within (i : Nat) (v : Word) (h : .slots ∈ F) : Op.Within F (setEcc i v) :=
  .update (fun s => writes_slots s h _) fun _ => rfl

theorem setSecc_within (i : Nat) (v : Word) (h : .slots ∈ F) : Op.Within F (setSecc i v) :=
  .update (fun s => writes_slots s h _) fun _ => rfl

theorem setCorrSlot_within (i : Nat) (v : Word) (h : .slots ∈ F) : Op.Within F (setCorrSlot i v) :=
  .update (fun s => writes_slots s h _) fun _ => rfl

theorem clearSlots_within (h : .slots ∈ F) : Op.Within F clearSlots :=
  .update (fun s => writes_slots s h _) fun _ => rfl

theorem setSpare_within (k : Nat) (b : Byte) (h : .spareBuf ∈ F) : Op.Within F (setSpare k b) :=
  .update (fun s => writes_spareBuf s h _) fun _ => rfl

theorem selectVendor_within (h : .vendor ∈ F) : Op.Within F selectVendor :=
  .update (fun s => writes_norId s h _) fun _ => rfl

theorem setNorIds_within (m d1 d2 : Word) (h : .vendor ∈ F) : Op.Within F (setNorIds m d1 d2) :=
  .update (fun s => writes_norId s h _) fun _ => rfl

theorem setIds_within (m d : Byte) (h : .geometry ∈ F) : Op.Within F (setIds m d) :=
  .update (fun s => writes_geo s h _ s.eccu.mask) fun _ => rfl

theorem clearGeometry_within (h : .geometry ∈ F) : Op.Within F clearGeometry :=
  .update (fun s => writes_geo s h _ _) fun _ => rfl

theorem setGeometry_within (row : Config.NandRow) (m d : Byte) (h : .geometry ∈ F) :
    Op.Within F (setGeometry row m d) :=
  .update (fun s => writes_geo s h _ _) fun _ => rfl

/-! ## Loops, checks and branches -/

theorem Op.Within.ite {α : Type} {c : Prop} [Decidable c] {m n : Op α} (hm : Op.Within F m) (hn : Op.Within F n) :
    Op.Within F (if c then m else n) := by
  split
  · exact hm
  · exact hn

theorem Op.Within.forUp {f : Nat → Op Unit} (hf : ∀ i, Op.Within F (f i)) : ∀ n i, Op.Within F (Machine.forUp f i n)
  | 0, _ => .pure ()
  | n + 1, i => .bind (hf i) fun _ => Op.Within.forUp hf n (i + 1)

theorem Op.Within.transfer {u : Nat} {f : Nat → Op Unit} (hf : ∀ i, Op.Within F (f i)) :
    ∀ n i, Op.Within F (Machine.transfer u f i n)
  | 0, _ => setXferCnt_within 0
  | n + 1, i => .bind (setXferCnt_within _) fun _ => .bind (hf i) fun _ => Op.Within.transfer hf n (i + 1)

theorem Op.Within.raiseIf (c : Bool) {k : ErrKind} (info : Word) (hk : k.Raisable) :
    Op.Within F (Machine.raiseIf c k info) := by
  cases c
  · exact .pure ()
  · exact .raise info hk

/-! ## Events -/

theorem emit_within (e : Event) : Op.Within F (emit e) := .bind .tick fun _ => record_within e

theorem cle_within (v : Byte) : Op.Within F (cle v) := emit_within _

theorem ale_within (v : Byte) : Op.Within F (ale v) := emit_within _

/-- Absorbing a byte keeps the format of the accumulator. -/
theorem EccUnit.absorb_inv {s : State} (d : Byte) (h : s.EccInv) :
    State.EccInv { s with eccu := s.eccu.absorb d } := by
  obtain ⟨hpos, hbits, hstop⟩ := h
  refine ⟨?_, absorb_bits _ _ hbits, fun hrun => ?_⟩
  · show (s.eccu.absorb d).bitPos.toNat % 8 = 0
    unfold EccUnit.absorb
    split
    · simp [BitVec.toNat_add]
      omega
    · exact hpos
  · have hs : s.eccu.run = false := by simpa using hrun
    have he : s.eccu.absorb d = s.eccu := by simp [EccUnit.absorb, hs]
    simpa only [he] using hstop hs

/-- Absorbing a data cycle keeps it too. -/
theorem EccUnit.absorbCycle_inv {s : State} (b : Bool) (v : Half) (h : s.EccInv) :
    State.EccInv { s with eccu := s.eccu.absorbCycle b v } := by
  cases b
  · exact absorb_inv _ h
  · exact absorb_inv _ (absorb_inv _ h)

theorem absorbCycle_within (v : Half) (h : .eccUnit ∈ F) : Op.Within F (absorbCycle v) :=
  .update (fun s => writes_eccu s h (by simp) (by simp) (EccUnit.absorbCycle_inv _ _)) fun _ => rfl

theorem eccReadRestart_within (h : .eccUnit ∈ F) : Op.Within F eccReadRestart :=
  .step (fun s => s.eccu.masked) (fun s => { s with eccu := s.eccu.restarted })
    (fun s => writes_eccu s h rfl (fun _ => rfl) fun _ => ⟨rfl, by simp, fun hr => by cases hr⟩) fun _ => ⟨rfl, rfl⟩

theorem Device.drRest_others (d : Device) : d.drRest.rdy = d.rdy ∧ d.drRest.nr = d.nr := by
  unfold Device.drRest; split <;> exact ⟨rfl, rfl⟩

theorem Device.rdyRest_others (d : Device) : d.rdyRest.dr = d.dr ∧ d.rdyRest.nr = d.nr := by
  unfold Device.rdyRest; split <;> exact ⟨rfl, rfl⟩

theorem Device.nrRest_others (d : Device) : d.nrRest.dr = d.dr ∧ d.nrRest.rdy = d.rdy := by
  unfold Device.nrRest; split <;> exact ⟨rfl, rfl⟩

theorem askDr_within (h : .nandAnswers ∈ F) : Op.Within F askDr :=
  .step (fun s => s.dev.drValue) (fun s => { s with dev := s.dev.drRest })
    (fun s =>
      { Writes.refl F s with
        parts := fun q hq => by cases q <;> simp_all [Part.Same, Device.drRest_others] })
    fun _ => ⟨rfl, rfl⟩

theorem askRdy_within (h : .readyAnswers ∈ F) : Op.Within F askRdy :=
  .step (fun s => s.dev.rdyValue) (fun s => { s with dev := s.dev.rdyRest })
    (fun s =>
      { Writes.refl F s with
        parts := fun q hq => by cases q <;> simp_all [Part.Same, Device.rdyRest_others] })
    fun _ => ⟨rfl, rfl⟩

theorem askNr_within (h : .norAnswers ∈ F) : Op.Within F askNr :=
  .step (fun s => s.dev.nrValue) (fun s => { s with dev := s.dev.nrRest })
    (fun s =>
      { Writes.refl F s with
        parts := fun q hq => by cases q <;> simp_all [Part.Same, Device.nrRest_others] })
    fun _ => ⟨rfl, rfl⟩

theorem datW_within (v : Half) (h : .eccUnit ∈ F) : Op.Within F (datW v) :=
  .bind .params fun _ => .bind (emit_within _) fun _ => absorbCycle_within _ h

theorem datR_within (h : .eccUnit ∈ F) (h' : .nandAnswers ∈ F) : Op.Within F datR :=
  .bind .params fun _ => .bind .tick fun _ => .bind (askDr_within h') fun _ => .bind (record_within _) fun _ =>
    .bind (absorbCycle_within _ h) fun _ => .pure _

theorem readByte_within (h : .eccUnit ∈ F) (h' : .nandAnswers ∈ F) : Op.Within F readByte :=
  .bind (datR_within h h') fun _ => .pure _

theorem rdy_within (h : .readyAnswers ∈ F) : Op.Within F rdy :=
  .bind .tick fun _ => .bind (askRdy_within h) fun _ => .bind (record_within _) fun _ => .pure _

theorem norW_within (a v : Word) : Op.Within F (norW a v) :=
  .look (fun _ => emit_within _) fun _ => rfl

theorem norR_within (a : Word) (h : .norAnswers ∈ F) : Op.Within F (norR a) :=
  .look (fun _ => .bind .tick fun _ => .bind (askNr_within h) fun _ => .bind (record_within _) fun _ => .pure _)
    fun _ => rfl

theorem norCmd_within (a : Word) (c : Byte) : Op.Within F (norCmd a c) :=
  .look (fun _ => norW_within _ _) fun _ => rfl

theorem memRead_within (t : Space) (a : Word) (n : Nat) : Op.Within F (memRead t a n) := by
  cases t with
  | host => exact .bind .tick fun _ => .look (fun _ => .bind (record_within _) fun _ => .pure _) fun _ => rfl
  | page => exact .look (fun _ => .pure _) fun _ => rfl

/-- The part that holds a space. -/
def Space.part (t : Space) : Part := t.pick .hostMem .pageBuf

theorem memWrite_within (t : Space) (a : Word) (n : Nat) (v : Word) (h : t.part ∈ F) :
    Op.Within F (memWrite t a n v) := by
  cases t with
  | host => exact .bind (emit_within _) fun _ => .update (fun s => writes_mem s h _) fun _ => rfl
  | page => exact .update (fun s => writes_pageBuf s h _) fun _ => rfl

/-! ## Byte streams -/

theorem writeBytes_within (src : Word) (n : Nat) (h : .eccUnit ∈ F) : Op.Within F (writeBytes src n) := by
  refine .bind .params fun p => .ite ?_ ?_ <;>
    exact .transfer (fun _ => .bind (memRead_within _ _ _) fun _ => datW_within _ h) _ _

theorem readBytes_within (t : Space) (dst : Word) (n : Nat) (h : .eccUnit ∈ F) (h' : .nandAnswers ∈ F)
    (ht : t.part ∈ F) : Op.Within F (readBytes t dst n) := by
  refine .bind .params fun p => .ite ?_ ?_ <;>
    exact .transfer (fun _ => .bind (datR_within h h') fun _ => memWrite_within _ _ _ _ ht) _ _

theorem writeStream_within (b : List Byte) (h : .eccUnit ∈ F) : Op.Within F (writeStream b) := by
  refine .bind .params fun p => .ite ?_ ?_ <;> exact .transfer (fun _ => datW_within _ h) _ _

theorem readStream_within (n : Nat) (h : .eccUnit ∈ F) (h' : .nandAnswers ∈ F) (hs : .spareBuf ∈ F) :
    Op.Within F (readStream n) := by
  refine .bind .params fun p => .ite ?_ ?_
  · exact .transfer (fun _ => .bind (datR_within h h') fun _ => .bind (setSpare_within _ _ hs) fun _ =>
      setSpare_within _ _ hs) _ _
  · exact .transfer (fun _ => .bind (datR_within h h') fun _ => setSpare_within _ _ hs) _ _

theorem correct_within (t : Space) (stored computed base : Word) (ht : t.part ∈ F) :
    Op.Within F (correct t stored computed base) := by
  refine .look (fun s => ?_) fun _ => rfl
  cases eccVerdict s.eccu.mask stored computed with
  | equal => exact .pure _
  | single d => exact .bind (memRead_within _ _ _) fun _ => .bind (memWrite_within _ _ _ _ ht) fun _ => .pure _
  | uncorrectable => exact .pure _

/-! ## The NAND waits and the address cycles -/

/-- A kind an op raises is none of the reserved ones. -/
theorem waitKind_raisable (a : Word) : (waitKind a).Raisable := by
  unfold waitKind
  split <;> decide

theorem waitRdyLoop_within (h : .readyAnswers ∈ F) : ∀ n, Op.Within F (waitRdyLoop n)
  | 0 => .bind (setPollCnt_within _) fun _ => .raise _ (by decide)
  | n + 1 => .bind (setPollCnt_within _) fun _ => .bind (rdy_within h) fun _ =>
      .ite (.pure _) (waitRdyLoop_within h n)

theorem waitRdy_within (h : .readyAnswers ∈ F) : Op.Within F waitRdy :=
  .look (fun _ => waitRdyLoop_within h _) fun _ => rfl

theorem waitStatusLoop_within {k : ErrKind} (hk : k.Raisable) (h : .eccUnit ∈ F) (h' : .nandAnswers ∈ F)
    (hl : .lastStat ∈ F) : ∀ n, Op.Within F (waitStatusLoop k n)
  | 0 => .bind (setPollCnt_within _) fun _ => .raise _ (by decide)
  | n + 1 => .bind (setPollCnt_within _) fun _ => .bind .params fun _ => .bind (cle_within _) fun _ =>
      .bind (readByte_within h h') fun _ => .bind (setLastStat_within _ hl) fun _ =>
      .ite (.raiseIf _ _ hk) (waitStatusLoop_within hk h h' hl n)

theorem waitStatus_within {k : ErrKind} (hk : k.Raisable) (h : .eccUnit ∈ F) (h' : .nandAnswers ∈ F)
    (hl : .lastStat ∈ F) : Op.Within F (waitStatus k) :=
  .look (fun _ => waitStatusLoop_within hk h h' hl _) fun _ => rfl

theorem needGeometry_within : Op.Within F needGeometry :=
  .look (fun _ => .raiseIf _ _ (by decide)) fun _ => rfl

theorem rowCycles_within (block page : Word) : Op.Within F (rowCycles block page) :=
  .look (fun _ => .forUp (fun _ => ale_within _) _ _) fun _ => rfl

theorem addrCycles_within (block page : Word) : Op.Within F (addrCycles block page) :=
  .look (fun _ => .bind (.forUp (fun _ => ale_within _) _ _) fun _ => rowCycles_within _ _) fun _ => rfl

/-! ## The page ops -/

/-- What a page read writes, besides the space it reads into. -/
def readParts : List Part := [.phase, .corrFlag, .eccUnit, .slots, .spareBuf, .nandAnswers, .readyAnswers]

/-- What a page write writes. -/
def writeParts : List Part := [.phase, .lastStat, .eccUnit, .slots, .nandAnswers, .readyAnswers]

theorem pageChecks_within (h : .slots ∈ F) : Op.Within F pageChecks :=
  .bind needGeometry_within fun _ => .look
    (fun _ => .ite (.bind (setRes1_within _) fun _ => .raise _ (by decide)) (clearSlots_within h))
    fun _ => rfl

theorem countCorrected_within : Op.Within F countCorrected := .look (fun _ => setRes0_within _) fun _ => rfl

end

section
variable (t : Space)

theorem readSubPage_within (base : Word) (bpo : BitVec 10) (i : Nat) :
    Op.Within (t.part :: readParts) (readSubPage t base bpo i) :=
  .bind (setOpIdx_within _) fun _ =>
    .bind (readBytes_within _ _ _ (by simp [readParts]) (by simp [readParts]) (by simp)) fun _ =>
    .bind (eccReadRestart_within (by simp [readParts])) fun _ => setEcc_within _ _ (by simp [readParts])

theorem readSpare_within (spo : BitVec 5) (i : Nat) : Op.Within (t.part :: readParts) (readSpare spo i) :=
  .bind (setOpIdx_within _) fun _ =>
    .bind (readStream_within _ (by simp [readParts]) (by simp [readParts]) (by simp [readParts])) fun _ =>
    .look (fun _ => setSecc_within _ _ (by simp [readParts])) fun _ => rfl

theorem correctSubPage_within (base : Word) (i : Nat) :
    Op.Within (t.part :: readParts) (correctSubPage t base i) :=
  .bind (setOpIdx_within _) fun _ => .look
    (fun _ => .bind (correct_within _ _ _ _ (by simp)) fun _ =>
      .bind (setCorrSlot_within _ _ (by simp [readParts])) fun _ =>
      .ite (setCorr_within (by simp [readParts])) (.raiseIf _ _ (by decide)))
    fun _ => rfl

/-- What stands before the data phase of a page read. -/
theorem readConfirm_within {F : List Part} (big : Bool) (h : .phase ∈ F) : Op.Within F (readConfirm big) :=
  .bind .params fun _ => .ite (.bind (setPhase_within _ h) fun _ => cle_within _) (.pure _)

theorem pageRead_within (block page base : Word) :
    Op.Within (t.part :: readParts) (pageRead block page t base) :=
  have hphase : Part.phase ∈ t.part :: readParts := by simp [readParts]
  .look (fun _ => .bind .params fun _ => .bind (setPhase_within _ hphase) fun _ => .bind (cle_within _) fun _ =>
    .bind (setPhase_within _ hphase) fun _ => .bind (addrCycles_within _ _) fun _ =>
    .bind (readConfirm_within _ hphase) fun _ => .bind (setPhase_within _ hphase) fun _ =>
    .bind (waitRdy_within (by simp [readParts])) fun _ => .bind (setPhase_within _ hphase) fun _ =>
    .bind (eccReadRestart_within (by simp [readParts])) fun _ =>
    .bind (.forUp (readSubPage_within t _ _) _ _) fun _ => .bind (setPhase_within _ hphase) fun _ =>
    .bind (.forUp (readSpare_within t _) _ _) fun _ => .bind (setPhase_within _ hphase) fun _ =>
    .forUp (correctSubPage_within t _) _ _)
    fun _ => rfl

end

theorem nandReadPageOp_within : Op.Within (.hostMem :: readParts) nandReadPageOp :=
  .bind (pageChecks_within (by decide)) fun _ => .look
    (fun _ => .bind (pageRead_within .host _ _ _) fun _ => countCorrected_within) fun _ => rfl

theorem verifyByte_within {F : List Part} (base : Word) (j : Nat) : Op.Within F (verifyByte base j) :=
  .bind (memRead_within _ _ _) fun _ => .bind (memRead_within _ _ _) fun _ =>
    .ite (.bind (setRes1_within _) fun _ => .bind (setRes2_within _) fun _ => .raise _ (by decide))
      (.pure _)

theorem nandVerifyPageOp_within : Op.Within (.pageBuf :: readParts) nandVerifyPageOp :=
  .bind (pageChecks_within (by decide)) fun _ => .look
    (fun _ => .bind (pageRead_within .page _ _ _) fun _ => .bind (setPhase_within _ (by decide)) fun _ =>
      .bind (.forUp (verifyByte_within _) _ _) fun _ => countCorrected_within) fun _ => rfl

theorem writeSubPage_within (base : Word) (bpo : BitVec 10) (i : Nat) :
    Op.Within writeParts (writeSubPage base bpo i) :=
  .bind (setOpIdx_within _) fun _ => .bind (writeBytes_within _ _ (by decide)) fun _ =>
    .bind (eccReadRestart_within (by decide)) fun _ => setEcc_within _ _ (by decide)

theorem writeSpare_within {F : List Part} (i : Nat) (h : .eccUnit ∈ F) : Op.Within F (writeSpare i) :=
  .bind (setOpIdx_within _) fun _ => .look (fun _ => writeStream_within _ h) fun _ => rfl

theorem nandWritePageOp_within : Op.Within writeParts nandWritePageOp :=
  have hphase : Part.phase ∈ writeParts := by decide
  .bind (pageChecks_within (by decide)) fun _ => .look
    (fun _ => .bind .params fun _ => .bind (setPhase_within _ hphase) fun _ => .bind (cle_within _) fun _ =>
      .bind (setPhase_within _ hphase) fun _ => .bind (addrCycles_within _ _) fun _ =>
      .bind (setPhase_within _ hphase) fun _ => .bind (eccReadRestart_within (by decide)) fun _ =>
      .bind (.forUp (writeSubPage_within _ _) _ _) fun _ => .bind (setPhase_within _ hphase) fun _ =>
      .bind (.forUp (fun i => writeSpare_within i (by decide)) _ _) fun _ =>
      .bind (setPhase_within _ hphase) fun _ => .bind (cle_within _) fun _ =>
      .bind (setPhase_within _ hphase) fun _ => .bind (waitRdy_within (by decide)) fun _ =>
      .bind (setPhase_within _ hphase) fun _ =>
      waitStatus_within (by decide) (by decide) (by decide) (by decide))
    fun _ => rfl

/-! ## The block ops -/

/-- What a block erase writes. -/
def eraseParts : List Part := [.phase, .lastStat, .eccUnit, .nandAnswers, .readyAnswers]

theorem blockChecks_within {F : List Part} : Op.Within F blockChecks :=
  .bind needGeometry_within fun _ => .look
    (fun _ => .ite (.bind (setRes1_within _) fun _ => .raise _ (by decide)) (.pure _)) fun _ => rfl

theorem eraseBlock_within (b : Word) : Op.Within eraseParts (eraseBlock b) :=
  have hphase : Part.phase ∈ eraseParts := by decide
  .bind .params fun _ => .bind (setBlkIdx_within _) fun _ => .bind (setRes1_within _) fun _ =>
    .bind (setPhase_within _ hphase) fun _ => .bind (cle_within _) fun _ =>
    .bind (setPhase_within _ hphase) fun _ => .bind (rowCycles_within _ _) fun _ =>
    .bind (setPhase_within _ hphase) fun _ => .bind (cle_within _) fun _ =>
    .bind (setPhase_within _ hphase) fun _ => .bind (waitRdy_within (by decide)) fun _ =>
    .bind (setPhase_within _ hphase) fun _ =>
    waitStatus_within (by decide) (by decide) (by decide) (by decide)

theorem nandEraseBlocksOp_within : Op.Within eraseParts nandEraseBlocksOp :=
  .bind blockChecks_within fun _ => .look
    (fun _ => .bind (.forUp (fun _ => eraseBlock_within _) _ _) fun _ => .bind (setRes0_within _) fun _ =>
      setRes1_within _) fun _ => rfl

theorem nandUnprotectOp_within {F : List Part} (h : .phase ∈ F) : Op.Within F nandUnprotectOp :=
  .bind blockChecks_within fun _ => .look
    (fun _ => .bind .params fun _ => .ite (.pure _)
      (.bind (setPhase_within _ h) fun _ => .bind (cle_within _) fun _ => .bind (setPhase_within _ h) fun _ =>
        .bind (rowCycles_within _ _) fun _ => .bind (setPhase_within _ h) fun _ => .bind (cle_within _) fun _ =>
        .bind (setPhase_within _ h) fun _ => rowCycles_within _ _)) fun _ => rfl

theorem nandProtectOp_within {F : List Part} (h : .phase ∈ F) : Op.Within F nandProtectOp :=
  .bind needGeometry_within fun _ => .bind .params fun _ => .bind (setPhase_within _ h) fun _ => cle_within _

/-! ## The other ops of the NAND side -/

/-- What `NAND_INIT` writes. -/
def initParts : List Part := [.phase, .geometry, .eccUnit, .nandAnswers, .readyAnswers]

theorem nandInitOp_within : Op.Within initParts nandInitOp :=
  have hphase : Part.phase ∈ initParts := by decide
  .bind (setPhase_within _ hphase) fun _ => .bind (clearGeometry_within (by decide)) fun _ =>
    .bind .params fun _ => .bind (setPhase_within _ hphase) fun _ => .bind (cle_within _) fun _ =>
    .bind (setPhase_within _ hphase) fun _ => .bind (waitRdy_within (by decide)) fun _ =>
    .bind (setPhase_within _ hphase) fun _ => .bind (cle_within _) fun _ =>
    .bind (setPhase_within _ hphase) fun _ => .bind (ale_within _) fun _ =>
    .bind (setPhase_within _ hphase) fun _ => .bind (readByte_within (by decide) (by decide)) fun _ =>
    .bind (readByte_within (by decide) (by decide)) fun _ => .bind (setIds_within _ _ (by decide)) fun _ =>
    .bind (setRes0_within _) fun _ => .bind (setRes1_within _) fun _ =>
    .bind (setPhase_within _ hphase) fun _ => by
      split
      · exact .raise _ (by decide)
      · exact setGeometry_within _ _ _ (by decide)

theorem nandWaitRdyOp_within : Op.Within [.phase, .readyAnswers] nandWaitRdyOp :=
  .bind (setPhase_within _ (by decide)) fun _ => waitRdy_within (by decide)

theorem nandWaitStatusOp_within : Op.Within [.phase, .lastStat, .eccUnit, .nandAnswers] nandWaitStatusOp :=
  .bind (setPhase_within _ (by decide)) fun _ => .look
    (fun _ => waitStatus_within (waitKind_raisable _) (by decide) (by decide) (by decide)) fun _ => rfl

theorem eccRestartOp_within : Op.Within [.phase, .eccUnit] eccRestartOp :=
  .bind needGeometry_within fun _ => .bind (setPhase_within _ (by decide)) fun _ =>
    .bind (eccReadRestart_within (by decide)) fun _ => setRes0_within _

theorem eccCorrectOp_within : Op.Within [.phase, .corrFlag, .slots, .hostMem] eccCorrectOp :=
  .bind needGeometry_within fun _ => .bind (setPhase_within _ (by decide)) fun _ => .look
    (fun _ => .bind (setSecc_within _ _ (by decide)) fun _ => .bind (setEcc_within _ _ (by decide)) fun _ =>
      .bind (correct_within .host _ _ _ (by decide)) fun _ => .bind (setCorrSlot_within _ _ (by decide)) fun _ =>
      .bind (setRes0_within _) fun _ => .bind (setRes1_within _) fun _ =>
      .ite (setCorr_within (by decide)) (.raiseIf _ _ (by decide)))
    fun _ => rfl

theorem busCleOp_within : Op.Within [.phase] busCleOp :=
  .bind (setPhase_within _ (by decide)) fun _ => .look (fun _ => cle_within _) fun _ => rfl

theorem busAleOp_within : Op.Within [.phase] busAleOp :=
  .bind (setPhase_within _ (by decide)) fun _ => .look (fun _ => ale_within _) fun _ => rfl

theorem busWdataOp_within : Op.Within [.phase, .eccUnit] busWdataOp :=
  .bind (setPhase_within _ (by decide)) fun _ => .look (fun _ => datW_within _ (by decide)) fun _ => rfl

theorem busRdataOp_within : Op.Within [.phase, .eccUnit, .nandAnswers] busRdataOp :=
  .bind (setPhase_within _ (by decide)) fun _ => .bind (datR_within (by decide) (by decide)) fun _ =>
    setRes0_within _

/-! ## The NOR ops -/

section
variable {F : List Part}

theorem vendorCheckAny_within : Op.Within F vendorCheckAny :=
  .look (fun _ => .raiseIf _ _ (by decide)) fun _ => rfl

theorem vendorCheckIntel_within : Op.Within F vendorCheckIntel :=
  .look (fun _ => .raiseIf _ _ (by decide)) fun _ => rfl

theorem configCheck_within : Op.Within F configCheck :=
  .look (fun s => by
    cases configReason s.cfg.params s.nor with
    | none => exact .pure _
    | some n => exact .raise _ (by decide)) fun _ => rfl

theorem alignCheck_within (a : Word) : Op.Within F (alignCheck a) :=
  .look (fun _ => .raiseIf _ _ (by decide)) fun _ => rfl

theorem lenCheck_within (len : Word) : Op.Within F (lenCheck len) :=
  .look (fun _ => .raiseIf _ _ (by decide)) fun _ => rfl

theorem rangeCheck_within (a : Word) (len : Nat) : Op.Within F (rangeCheck a len) :=
  .look (fun _ => .raiseIf _ _ (by decide)) fun _ => rfl

theorem discoverBlockInfo_within (a : Word) : Op.Within F (discoverBlockInfo a) :=
  .look (fun s => by
    cases blockInfo s.cfg.params s.nor a with
    | none => exact .raise _ (by decide)
    | some b => exact .pure _) fun _ => rfl

theorem norBlockInfoOp_within (h : .phase ∈ F) : Op.Within F norBlockInfoOp :=
  .bind configCheck_within fun _ => .bind (setPhase_within _ h) fun _ => .look
    (fun _ => .bind (discoverBlockInfo_within _) fun _ => .bind (setRes0_within _) fun _ =>
      .bind (setRes1_within _) fun _ => setRes2_within _) fun _ => rfl

theorem cmdAddr_within (k : Word) : Op.Within F (cmdAddr k) := .look (fun _ => .pure _) fun _ => rfl

theorem unlockPrefix_within : Op.Within F unlockPrefix :=
  .bind .params fun _ => .bind (cmdAddr_within _) fun _ => .bind (norCmd_within _ _) fun _ =>
    .bind (cmdAddr_within _) fun _ => norCmd_within _ _

theorem prefixedCmd_within (c : Byte) : Op.Within F (prefixedCmd c) :=
  .bind unlockPrefix_within fun _ => .bind .params fun _ => .bind (cmdAddr_within _) fun _ => norCmd_within _ _

theorem readIdWord_within (k : Word) (h : .norAnswers ∈ F) : Op.Within F (readIdWord k) :=
  .bind (cmdAddr_within _) fun _ => .bind (norR_within _ h) fun _ => .look (fun _ => .pure _) fun _ => rfl

theorem identifyAmd_within (hp : .phase ∈ F) (h : .norAnswers ∈ F) : Op.Within F identifyAmd :=
  .bind .params fun _ => .bind (setPhase_within _ hp) fun _ => .bind (prefixedCmd_within _) fun _ =>
    .bind (setPhase_within _ hp) fun _ => .bind (readIdWord_within _ h) fun _ =>
    .bind (readIdWord_within _ h) fun _ => .bind (readIdWord_within _ h) fun _ =>
    .bind (setPhase_within _ hp) fun _ => .bind (norCmd_within _ _) fun _ => .pure _

theorem identifyIntel_within (hp : .phase ∈ F) (h : .norAnswers ∈ F) : Op.Within F identifyIntel :=
  .bind .params fun _ => .bind (setPhase_within _ hp) fun _ => .bind (norCmd_within _ _) fun _ =>
    .bind (setPhase_within _ hp) fun _ => .bind (readIdWord_within _ h) fun _ =>
    .bind (readIdWord_within _ h) fun _ => .bind (setPhase_within _ hp) fun _ =>
    .bind (norCmd_within _ _) fun _ => .pure _

theorem recordIds_within (ids : Word × Word × Word) (h : .vendor ∈ F) : Op.Within F (recordIds ids) :=
  .bind .params fun _ => .bind (setNorIds_within _ _ _ h) fun _ => .bind (setRes0_within _) fun _ =>
    .bind (setRes1_within _) fun _ => .bind (setRes2_within _) fun _ => .raiseIf _ _ (by decide)

/-- What `NOR_ATTACH` writes. -/
def attachParts : List Part := [.phase, .vendor, .norAnswers]

theorem norAttachOp_within : Op.Within attachParts norAttachOp :=
  .bind configCheck_within fun _ => .bind (setPhase_within _ (by decide)) fun _ =>
    .bind (selectVendor_within (by decide)) fun _ => .look (fun s => by
      cases s.norId.vendor with
      | unsupported => exact .raise _ (by decide)
      | amd => exact .bind (identifyAmd_within (by decide) (by decide)) fun _ => recordIds_within _ (by decide)
      | intel => exact .bind (identifyIntel_within (by decide) (by decide)) fun _ => recordIds_within _ (by decide))
      fun _ => rfl

/-! The Intel end and the AMD polls. -/

theorem intelSpin_within (sa : Word) (h : .norAnswers ∈ F) (hl : .lastStat ∈ F) : ∀ n, Op.Within F (intelSpin sa n)
  | 0 => .bind (setPollCnt_within _) fun _ => .pure _
  | n + 1 => .bind (setPollCnt_within _) fun _ => .bind (norR_within _ h) fun _ =>
      .bind (setLastStat_within _ hl) fun _ => .ite (.pure _) (intelSpin_within sa h hl n)

theorem intelCleanup_within (sa : Word) (hp : .phase ∈ F) : Op.Within F (intelCleanup sa) :=
  .bind (setPhase_within _ hp) fun _ => .bind .params fun _ => .bind (norCmd_within _ _) fun _ => norCmd_within _ _

theorem intelFinish_within (sa : Word) {k : ErrKind} (hk : k.Raisable) (hp : .phase ∈ F) (h : .norAnswers ∈ F)
    (hl : .lastStat ∈ F) : Op.Within F (intelFinish sa k) :=
  .bind (setPhase_within _ hp) fun _ => .look
    (fun _ => .bind (intelSpin_within _ h hl _) fun r => .bind (intelCleanup_within _ hp) fun _ => by
      cases r with
      | none => exact .raise _ (by decide)
      | some st => exact .raiseIf _ _ hk) fun _ => rfl

theorem amdErasePoll_within (ba : Word) (hk : .polling ∈ F) (h : .norAnswers ∈ F) (hl : .lastStat ∈ F) :
    ∀ n, Op.Within F (amdErasePoll ba n)
  | 0 => .keepPolling hk
  | n + 1 => .bind (norR_within _ h) fun _ => .bind (setLastStat_within _ hl) fun _ =>
      .ite (.pure _) (amdErasePoll_within ba hk h hl n)

theorem amdReread_within (addr d : Word) (h : .norAnswers ∈ F) (hl : .lastStat ∈ F) :
    Op.Within F (amdReread addr d) :=
  .look (fun _ => .bind (norR_within _ h) fun _ => .bind (setLastStat_within _ hl) fun _ => .pure _) fun _ => rfl

theorem amdAbort_within (addr ba : Word) (hp : .phase ∈ F) : Op.Within F (amdAbort addr ba) :=
  .bind (setPhase_within _ hp) fun _ => .bind .params fun _ => .bind (norCmd_within _ _) fun _ =>
    .bind (norCmd_within _ _) fun _ => .raise _ (by decide)

theorem amdPoll_within (addr d : Word) (abort : Option Word) (hk : .polling ∈ F) (hp : .phase ∈ F)
    (h : .norAnswers ∈ F) (hl : .lastStat ∈ F) : ∀ n, Op.Within F (amdPoll addr d abort n)
  | 0 => .keepPolling hk
  | n + 1 => .look
      (fun s => .bind (norR_within _ h) fun _ => .bind (setLastStat_within _ hl) fun _ => .ite (.pure _)
        (.ite (.bind (amdReread_within _ _ h hl) fun _ => .ite (.pure _) (.raise _ (by decide))) (by
          cases abort with
          | none => exact amdPoll_within addr d none hk hp h hl n
          | some ba =>
            exact .ite (.bind (amdReread_within _ _ h hl) fun _ => .ite (.pure _) (amdAbort_within _ _ hp))
              (amdPoll_within addr d (some ba) hk hp h hl n)))) fun _ => rfl

end

/-! The three ops that can poll. -/

/-- What a NOR erase or write writes. -/
def pollParts : List Part := [.phase, .polling, .lastStat, .norAnswers]

theorem verifyErased_within {F : List Part} (ba : Word) (k : Nat) (h : .norAnswers ∈ F) :
    Op.Within F (verifyErased ba k) :=
  .look (fun _ => .bind (norR_within _ h) fun _ =>
    .ite (.bind (setRes1_within _) fun _ => .raise _ (by decide)) (.pure _)) fun _ => rfl

theorem amdEraseTail_within (b : BlockInfo) : Op.Within pollParts (amdEraseTail b) :=
  .look (fun _ => .bind (amdErasePoll_within _ (by decide) (by decide) (by decide) _) fun _ =>
    .bind (setPhase_within _ (by decide)) fun _ => .bind (.forUp (fun _ => verifyErased_within _ _ (by decide)) _ _)
      fun _ => .bind (setRes0_within _) fun _ => setRes1_within _) fun _ => rfl

theorem amdErase_within (b : BlockInfo) : Op.Within pollParts (amdErase b) :=
  .bind .params fun _ => .bind (setPhase_within _ (by decide)) fun _ => .bind (prefixedCmd_within _) fun _ =>
    .bind (setPhase_within _ (by decide)) fun _ => .bind unlockPrefix_within fun _ =>
    .bind (norCmd_within _ _) fun _ => .bind (setPhase_within _ (by decide)) fun _ => amdEraseTail_within b

theorem intelErase_within {F : List Part} (b : BlockInfo) (hp : .phase ∈ F) (h : .norAnswers ∈ F)
    (hl : .lastStat ∈ F) : Op.Within F (intelErase b) :=
  .bind .params fun _ => .bind (setPhase_within _ hp) fun _ => .bind (norCmd_within _ _) fun _ =>
    .bind (setPhase_within _ hp) fun _ => .bind (norCmd_within _ _) fun _ =>
    .bind (intelFinish_within _ (by decide) hp h hl) fun _ =>
    .bind (setRes0_within _) fun _ => setRes1_within _

theorem norEraseBlockOp_within : Op.Within pollParts norEraseBlockOp :=
  .bind vendorCheckAny_within fun _ => .bind configCheck_within fun _ => .look
    (fun s => .bind (discoverBlockInfo_within _) fun b =>
      .bind (.raiseIf _ _ (by decide)) fun _ => by
      cases s.norId.vendor with
      | amd => exact amdErase_within b
      | intel => exact intelErase_within b (by decide) (by decide) (by decide)
      | unsupported => exact .raise _ (by decide)) fun _ => rfl

theorem amdWordTail_within (addr d : Word) : Op.Within pollParts (amdWordTail addr d) :=
  .look (fun _ => .bind (amdPoll_within _ _ _ (by decide) (by decide) (by decide) (by decide) _) fun _ =>
    .bind (setPhase_within _ (by decide)) fun _ => .bind (norR_within _ (by decide)) fun _ =>
    .ite (.bind (setRes1_within _) fun _ => .bind (setRes2_within _) fun _ => .raise _ (by decide))
      (.pure _)) fun _ => rfl

theorem amdWord_within (addr d : Word) : Op.Within pollParts (amdWord addr d) :=
  .bind .params fun _ => .bind (setPhase_within _ (by decide)) fun _ => .bind (prefixedCmd_within _) fun _ =>
    .bind (setPhase_within _ (by decide)) fun _ => .bind (norW_within _ _) fun _ =>
    .bind (setPhase_within _ (by decide)) fun _ => amdWordTail_within addr d

theorem intelWord_within {F : List Part} (addr d : Word) (hp : .phase ∈ F) (h : .norAnswers ∈ F)
    (hl : .lastStat ∈ F) : Op.Within F (intelWord addr d) :=
  .bind .params fun _ => .bind (setPhase_within _ hp) fun _ => .bind (norCmd_within _ _) fun _ =>
    .bind (setPhase_within _ hp) fun _ => .bind (norW_within _ _) fun _ =>
    intelFinish_within _ (by decide) hp h hl

theorem norWriteWordOp_within : Op.Within pollParts norWriteWordOp :=
  .bind vendorCheckAny_within fun _ => .bind configCheck_within fun _ => .look
    (fun s => .bind (alignCheck_within _) fun _ => .bind (rangeCheck_within _ _) fun _ => by
      cases s.norId.vendor with
      | amd => exact amdWord_within _ _
      | intel => exact intelWord_within _ _ (by decide) (by decide) (by decide)
      | unsupported => exact .raise _ (by decide)) fun _ => rfl

theorem sourceWord_within {F : List Part} (k : Nat) : Op.Within F (sourceWord k) :=
  .look (fun _ => memRead_within _ _ _) fun _ => rfl

theorem loadBuffer_within {F : List Part} (ba : Word) (hp : .phase ∈ F) : Op.Within F (loadBuffer ba) :=
  .look (fun _ => .bind (setPhase_within _ hp) fun _ => .bind (norW_within _ _) fun _ =>
    .bind (setPhase_within _ hp) fun _ =>
    .transfer (fun _ => .bind (sourceWord_within _) fun _ => norW_within _ _) _ _) fun _ => rfl

theorem verifyWord_within {F : List Part} (k : Nat) (h : .norAnswers ∈ F) : Op.Within F (verifyWord k) :=
  .look (fun _ => .bind (norR_within _ h) fun _ => .bind (sourceWord_within _) fun _ =>
    .ite (.bind (setRes1_within _) fun _ => .bind (setRes2_within _) fun _ => .raise _ (by decide))
      (.pure _)) fun _ => rfl

theorem amdBufferTail_within (ba d : Word) : Op.Within pollParts (amdBufferTail ba d) :=
  .look (fun _ => .bind (amdPoll_within _ _ _ (by decide) (by decide) (by decide) (by decide) _) fun _ =>
    .bind (setPhase_within _ (by decide)) fun _ => .bind (.forUp (fun _ => verifyWord_within _ (by decide)) _ _)
      fun _ => setRes0_within _) fun _ => rfl

theorem amdBuffer_within (ba : Word) : Op.Within pollParts (amdBuffer ba) :=
  .look (fun _ => .bind .params fun _ => .bind (setPhase_within _ (by decide)) fun _ =>
    .bind unlockPrefix_within fun _ => .bind (norCmd_within _ _) fun _ => .bind (loadBuffer_within _ (by decide)) fun _ =>
    .bind (setPhase_within _ (by decide)) fun _ => .bind (norCmd_within _ _) fun _ =>
    .bind (setPhase_within _ (by decide)) fun _ => .bind (sourceWord_within _) fun _ => amdBufferTail_within ba _)
    fun _ => rfl

theorem intelBufferAvailable_within {F : List Part} (ba : Word) (hp : .phase ∈ F) (h : .norAnswers ∈ F)
    (hl : .lastStat ∈ F) : ∀ n, Op.Within F (intelBufferAvailable ba n)
  | 0 => .bind (setPollCnt_within _) fun _ => .bind (intelCleanup_within _ hp) fun _ =>
      .raise _ (by decide)
  | n + 1 => .bind (setPollCnt_within _) fun _ => .bind (setPhase_within _ hp) fun _ => .bind .params fun _ =>
      .bind (norCmd_within _ _) fun _ => .bind (setPhase_within _ hp) fun _ => .bind (norR_within _ h) fun _ =>
      .bind (setLastStat_within _ hl) fun _ => .ite (.pure _) (intelBufferAvailable_within ba hp h hl n)

theorem intelBuffer_within {F : List Part} (ba : Word) (hp : .phase ∈ F) (h : .norAnswers ∈ F)
    (hl : .lastStat ∈ F) : Op.Within F (intelBuffer ba) :=
  .look (fun _ => .bind .params fun _ => .bind (setPhase_within _ hp) fun _ =>
    .bind (intelBufferAvailable_within _ hp h hl _) fun _ =>
    .bind (loadBuffer_within _ hp) fun _ => .bind (setPhase_within _ hp) fun _ =>
    .bind (norCmd_within _ _) fun _ =>
    .bind (intelFinish_within _ (by decide) hp h hl) fun _ =>
    setRes0_within _) fun _ => rfl

theorem norWriteBufferOp_within : Op.Within pollParts norWriteBufferOp :=
  .bind vendorCheckAny_within fun _ => .bind configCheck_within fun _ => .look
    (fun s => .bind (alignCheck_within _) fun _ => .bind (lenCheck_within _) fun _ =>
      .bind (rangeCheck_within _ _) fun _ => .bind (discoverBlockInfo_within _) fun b =>
      .bind (.raiseIf _ _ (by decide)) fun _ => by
      cases s.norId.vendor with
      | amd => exact amdBuffer_within _
      | intel => exact intelBuffer_within _ (by decide) (by decide) (by decide)
      | unsupported => exact .raise _ (by decide)) fun _ => rfl

theorem lockSequence_within {F : List Part} (c : Byte) (h : .phase ∈ F) : Op.Within F (lockSequence c) :=
  .bind vendorCheckIntel_within fun _ => .bind configCheck_within fun _ => .look
    (fun _ => .bind .params fun _ => .bind (discoverBlockInfo_within _) fun _ =>
      .bind (setPhase_within _ h) fun _ => .bind (norCmd_within _ _) fun _ => .bind (setPhase_within _ h) fun _ =>
      .bind (norCmd_within _ _) fun _ => .bind (setPhase_within _ h) fun _ => .bind (norCmd_within _ _) fun _ =>
      setRes0_within _) fun _ => rfl

theorem norLockSetOp_within : Op.Within [.phase] norLockSetOp :=
  .bind .params fun _ => lockSequence_within _ (by decide)

theorem norLockClearOp_within : Op.Within [.phase] norLockClearOp :=
  .bind .params fun _ => lockSequence_within _ (by decide)

theorem resumeErase_within : Op.Within pollParts resumeErase :=
  .look (fun _ => .bind (discoverBlockInfo_within _) fun _ => amdEraseTail_within _) fun _ => rfl

theorem resumeWord_within : Op.Within pollParts resumeWord :=
  .look (fun _ => amdWordTail_within _ _) fun _ => rfl

theorem resumeBuffer_within : Op.Within pollParts resumeBuffer :=
  .look (fun _ => .bind (discoverBlockInfo_within _) fun _ => amdBufferTail_within _ _) fun _ => rfl

/-! ## Every op -/

/-- The pseudocode of an op. -/
def pseudocode : Instr → Op Unit
  | .nandInit => nandInitOp
  | .nandReadPage => nandReadPageOp
  | .nandWritePage => nandWritePageOp
  | .nandVerifyPage => nandVerifyPageOp
  | .nandEraseBlocks => nandEraseBlocksOp
  | .nandUnprotect => nandUnprotectOp
  | .nandProtect => nandProtectOp
  | .nandWaitRdy => nandWaitRdyOp
  | .nandWaitStatus => nandWaitStatusOp
  | .eccRestart => eccRestartOp
  | .eccCorrect => eccCorrectOp
  | .norAttach => norAttachOp
  | .norEraseBlock => norEraseBlockOp
  | .norWriteWord => norWriteWordOp
  | .norWriteBuffer => norWriteBufferOp
  | .norLockSet => norLockSetOp
  | .norLockClear => norLockClearOp
  | .norBlockInfo => norBlockInfoOp
  | .busCle => busCleOp
  | .busAle => busAleOp
  | .busWdata => busWdataOp
  | .busRdata => busRdataOp

/-- The parts an op writes. -/
def partsOf : Instr → List Part
  | .nandInit => initParts
  | .nandReadPage => .hostMem :: readParts
  | .nandVerifyPage => .pageBuf :: readParts
  | .nandWritePage => writeParts
  | .nandEraseBlocks => eraseParts
  | .nandWaitRdy => [.phase, .readyAnswers]
  | .nandWaitStatus => [.phase, .lastStat, .eccUnit, .nandAnswers]
  | .eccRestart => [.phase, .eccUnit]
  | .eccCorrect => [.phase, .corrFlag, .slots, .hostMem]
  | .norAttach => attachParts
  | .norEraseBlock | .norWriteWord | .norWriteBuffer => pollParts
  | .busWdata => [.phase, .eccUnit]
  | .busRdata => [.phase, .eccUnit, .nandAnswers]
  | .nandUnprotect | .nandProtect | .norLockSet | .norLockClear | .norBlockInfo | .busCle | .busAle => [.phase]

/-- The meaning of an op is the run of its pseudocode. -/
theorem exec_eq_runOp (i : Instr) (s : State) : exec i s = runOp (pseudocode i) s := by
  cases i <;> rfl

theorem pseudocode_within (i : Instr) : Op.Within (partsOf i) (pseudocode i) := by
  cases i with
  | nandInit => exact nandInitOp_within
  | nandReadPage => exact nandReadPageOp_within
  | nandWritePage => exact nandWritePageOp_within
  | nandVerifyPage => exact nandVerifyPageOp_within
  | nandEraseBlocks => exact nandEraseBlocksOp_within
  | nandUnprotect => exact nandUnprotectOp_within (by decide)
  | nandProtect => exact nandProtectOp_within (by decide)
  | nandWaitRdy => exact nandWaitRdyOp_within
  | nandWaitStatus => exact nandWaitStatusOp_within
  | eccRestart => exact eccRestartOp_within
  | eccCorrect => exact eccCorrectOp_within
  | norAttach => exact norAttachOp_within
  | norEraseBlock => exact norEraseBlockOp_within
  | norWriteWord => exact norWriteWordOp_within
  | norWriteBuffer => exact norWriteBufferOp_within
  | norLockSet => exact norLockSetOp_within
  | norLockClear => exact norLockClearOp_within
  | norBlockInfo => exact norBlockInfoOp_within (by decide)
  | busCle => exact busCleOp_within
  | busAle => exact busAleOp_within
  | busWdata => exact busWdataOp_within
  | busRdata => exact busRdataOp_within

end Sys2Proof.Machine
end

section
/-! PROOFS. What an op as a whole does: what it writes, how it ends, and that the host cannot disturb it. -/

namespace Sys2Proof.Machine

/-! ## The end of an op -/

/-- How a step that runs an op from `s` can leave the machine: at the op's normal end, or where it stopped. -/
def EndsIn (F : List Part) (s t : State) : Prop :=
  (∃ u, Writes F s u ∧ t = normalEnd u) ∨ ∃ e, Stops F s e t

/-- A step that runs `m` ends where `m` does: at its normal end, or where it stopped. -/
theorem continueOp_cases {m : Op Unit} {s t : State} (h : continueOp m s = .next t) :
    (∃ u, m s = .ok () u ∧ t = normalEnd u) ∨ ∃ e, m s = .error e t := by
  unfold continueOp at h
  cases e : m s with
  | ok _ u => rw [e] at h; cases h; exact .inl ⟨u, rfl, rfl⟩
  | error k u => rw [e] at h; cases h; exact .inr ⟨k, rfl⟩

theorem continueOp_effect {F : List Part} {m : Op Unit} (hm : Op.Within F m) {s t : State}
    (h : continueOp m s = .next t) : EndsIn F s t := by
  have he := hm.effect s
  rcases continueOp_cases h with ⟨u, e, rfl⟩ | ⟨k, e⟩
  · rw [e] at he; exact .inl ⟨u, he, rfl⟩
  · rw [e] at he; exact .inr ⟨k, he⟩

/-- An accepted op is the boundary after acceptance and its pseudocode. -/
theorem runOp_eq_continueOp (m : Op Unit) (s : State) : runOp m s = continueOp (tick >>= fun _ => m) s := rfl

theorem runOp_effect {F : List Part} {m : Op Unit} (hm : Op.Within F m) {s t : State}
    (h : runOp m s = .next t) : EndsIn F s t :=
  continueOp_effect (.bind .tick fun _ => hm) h

/-- What every op does, whatever the devices answer and the environment does. -/
theorem exec_effect {i : Instr} {s t : State} (h : exec i s = .next t) : EndsIn (partsOf i) s t :=
  runOp_effect (pseudocode_within i) (exec_eq_runOp i s ▸ h)

/-! ## Who writes what -/

/-- Between acceptance and the end of an op that writes only the parts in `F`: the registers no op writes are as
before, and so are the other parts, but for the phase. -/
structure Keeps (F : List Part) (s t : State) : Prop where
  opr : t.opr = s.opr
  nor : t.nor = s.nor
  cfg : t.cfg = s.cfg
  resetLine : t.resetLine = s.resetLine
  opc : t.stat.opc = s.stat.opc
  ovr : s.stat.ovr = true → t.stat.ovr = true
  run : s.eccu.run = true → t.eccu.run = true
  events : s.events <:+ t.events
  parts : ∀ p, p ∉ F → p ≠ .phase → p.Same s t

/-- Without RESET an op keeps what it may not write. -/
theorem EndsIn.keeps {F : List Part} {s t : State} (h : EndsIn F s t) (hs : s.NoReset) : Keeps F s t := by
  have hsame (u : State) (hu : Writes F s u) (ht : Keeps [] u t) : Keeps F s t :=
    { opr := ht.opr.trans hu.opr
      nor := ht.nor.trans hu.nor
      cfg := ht.cfg.trans hu.cfg
      resetLine := ht.resetLine.trans hu.resetLine
      opc := ht.opc.trans hu.opc
      ovr := ht.ovr ∘ hu.ovr
      run := ht.run ∘ hu.run
      events := hu.events.trans ht.events
      parts := fun p hp hne => (hu.parts p hp).trans (ht.parts p (by simp) hne) }
  have hself (u : State) : Keeps [] u u := ⟨rfl, rfl, rfl, rfl, rfl, id, id, List.suffix_rfl, fun p _ _ => .refl p u⟩
  rcases h with ⟨u, hu, rfl⟩ | ⟨_ | _ | _, ht⟩
  · refine hsame u hu { hself u with parts := fun p _ hne => ?_ }
    cases p <;> simp_all [Part.Same]
  · obtain ⟨u, k, info, hu, -, rfl⟩ := ht
    refine hsame u hu { hself u with parts := fun p _ hne => ?_ }
    cases p <;> simp_all [Part.Same]
  · exact absurd hs ht.1
  · exact hsame t ht.2 (hself t)

/-! Which ops write the parts that O53 names. -/

theorem writer_of_geometry {i : Instr} : Part.geometry ∈ partsOf i → i = .nandInit := by
  cases i <;> decide

theorem writer_of_vendor {i : Instr} : Part.vendor ∈ partsOf i → i = .norAttach := by
  cases i <;> decide

theorem writer_of_corrFlag {i : Instr} :
    Part.corrFlag ∈ partsOf i → i = .nandReadPage ∨ i = .nandVerifyPage ∨ i = .eccCorrect := by
  cases i <;> decide

theorem writer_of_lastStat {i : Instr} : Part.lastStat ∈ partsOf i → i = .nandWaitStatus ∨ i = .nandWritePage
    ∨ i = .nandEraseBlocks ∨ i = .norEraseBlock ∨ i = .norWriteWord ∨ i = .norWriteBuffer := by
  cases i <;> decide

/-- Settles O53: an op keeps the parts it does not write, and `partsOf` says which those are. -/
theorem whoWritesWhat : Obligations.WhoWritesWhat := by
  intro i s t hs h
  have k := (exec_effect h).keeps hs
  refine ⟨k.opr, k.nor, k.cfg, k.resetLine, k.opc, fun hi => ?_, fun hi => ?_, k.ovr, fun h1 h2 h3 => ?_,
    fun h1 h2 h3 h4 h5 h6 => ?_, k.run, k.events⟩
  · exact k.parts .geometry (mt writer_of_geometry hi) (by decide)
  · exact k.parts .vendor (mt writer_of_vendor hi) (by decide)
  · exact k.parts .corrFlag (mt writer_of_corrFlag (by simp [h1, h2, h3])) (by decide)
  · exact k.parts .lastStat (mt writer_of_lastStat (by simp [h1, h2, h3, h4, h5, h6])) (by decide)

/-! ## Noninterference -/

/-- Without RESET an op from the hushed state ends in the hushed state of its end. -/
theorem exec_hushed {i : Instr} {s t : State} (hs : s.NoReset) (h : exec i s = .next t) :
    exec i s.hushed = .next t.hushed := by
  have hm : Op.Within (partsOf i) (tick >>= fun _ => pseudocode i) := .bind .tick fun _ => pseudocode_within i
  have hrun := hm.hushed s hs
  rw [exec_eq_runOp, runOp_eq_continueOp, continueOp] at h ⊢
  rw [hrun]
  cases e : (tick >>= fun _ => pseudocode i) s with
  | ok _ u => rw [e] at h; cases h; rfl
  | error k u => rw [e] at h; cases h; rfl

/-- States that are equal when hushed are equal but for OVR and the host's side. -/
theorem eq_of_hushed_eq {t u : State} (h : t.hushed = u.hushed) :
    t = { u with stat := { u.stat with ovr := t.stat.ovr }, host := t.host } := by
  have hback : t = { t.hushed with stat := { t.hushed.stat with ovr := t.stat.ovr }, host := t.host } := rfl
  rw [h] at hback
  exact hback

/-- Settles O9: both runs are the run of the hushed state, hushed; that OVR is never cleared is part of O53. -/
theorem hostCannotDisturbAnOp : Obligations.HostCannotDisturbAnOp := by
  intro i s t u hs ht hu
  have hquiet : State.NoReset { s with host := { s.host with busy := [] } } := by simp [State.NoReset]
  have h1 := exec_hushed hs ht
  have h2 := exec_hushed hquiet hu
  have hsame : State.hushed { s with host := { s.host with busy := [] } } = s.hushed := rfl
  rw [hsame, h1] at h2
  exact ⟨eq_of_hushed_eq (by injection h2), ((exec_effect ht).keeps hs).ovr⟩

end Sys2Proof.Machine
end

section
/-! PROOFS. STAT between two steps (`10_state.md` R25, R26, `60_exceptions.md` R260): the phase in which an op is
left running, what a step of the machine can be, and that every step keeps STAT consistent. -/

namespace Sys2Proof.Machine

/-! ## Conditions before and after a piece of pseudocode -/

/-- Begun where `P` holds, `m` goes on where `Q` holds, or stops the op where `E` holds. -/
def Op.Meets {α : Type} (E : Ended → State → Prop) (P : State → Prop) (m : Op α) (Q : α → State → Prop) : Prop :=
  ∀ s, P s → match m s with
    | .ok a t => Q a t
    | .error e t => E e t

section
variable {α β : Type} {E : Ended → State → Prop} {P : State → Prop}

theorem Op.Meets.ok {m : Op α} {Q : α → State → Prop} (h : Op.Meets E P m Q) {s t : State} {a : α} (hs : P s)
    (e : m s = .ok a t) : Q a t := by
  have := h s hs; rw [e] at this; exact this

theorem Op.Meets.error {m : Op α} {Q : α → State → Prop} (h : Op.Meets E P m Q) {s t : State} {k : Ended} (hs : P s)
    (e : m s = .error k t) : E k t := by
  have := h s hs; rw [e] at this; exact this

theorem Op.Meets.of_cases {m : Op α} {Q : α → State → Prop} (hok : ∀ s a t, P s → m s = .ok a t → Q a t)
    (herr : ∀ s k t, P s → m s = .error k t → E k t) : Op.Meets E P m Q := by
  intro s hs
  cases e : m s with
  | ok a t => exact hok s a t hs e
  | error k t => exact herr s k t hs e

theorem Op.Meets.bind {m : Op α} {f : α → Op β} {Q : α → State → Prop} {R : β → State → Prop}
    (hm : Op.Meets E P m Q) (hf : ∀ a, Op.Meets E (Q a) (f a) R) : Op.Meets E P (m >>= f) R := by
  intro s hs
  rw [Op.run_bind]
  cases e : m s with
  | ok a t => exact hf a t (hm.ok hs e)
  | error k t => exact hm.error hs e

theorem Op.Meets.look {f : State → Op β} {R : β → State → Prop}
    (hf : ∀ s0, P s0 → Op.Meets E P (f s0) R) : Op.Meets E P (get >>= f) R :=
  fun s hs => hf s hs s hs

theorem Op.Meets.weaken {m : Op α} {P' : State → Prop} {Q Q' : α → State → Prop} (h : Op.Meets E P m Q)
    (hp : ∀ s, P' s → P s) (hq : ∀ a s, Q a s → Q' a s) : Op.Meets E P' m Q' :=
  .of_cases (fun _ _ _ hs e => hq _ _ (h.ok (hp _ hs) e)) fun _ _ _ hs e => h.error (hp _ hs) e

theorem Op.Meets.pure {a : α} {Q : α → State → Prop} (h : ∀ s, P s → Q a s) :
    Op.Meets E P (Pure.pure a) Q := h

/-- A condition on the value met before that does not speak of the state. -/
theorem Op.Meets.of_and {p : Prop} {m : Op α} {Q : α → State → Prop} (h : p → Op.Meets E P m Q) :
    Op.Meets E (fun s => p ∧ P s) m Q := fun s hs => h hs.1 s hs.2

theorem Op.Meets.ite {c : Prop} [Decidable c] {m n : Op α} {Q : α → State → Prop} (hm : c → Op.Meets E P m Q)
    (hn : ¬ c → Op.Meets E P n Q) : Op.Meets E P (if c then m else n) Q := by
  split
  · next hc => exact hm hc
  · next hc => exact hn hc

end

/-! ## An op left running is in phase POLL -/

/-- PHASE is POLL. -/
def State.InPoll (s : State) : Prop := s.stat.phase = .poll

/-- If the op stops because its poll goes on, it does so in phase POLL. -/
def PollsInPhase (e : Ended) (s : State) : Prop := e = .polling → s.InPoll

/-- Pseudocode without a poll is not left running. -/
theorem Op.Within.noPoll {F : List Part} {α : Type} {m : Op α} (h : Op.Within F m) (hp : .polling ∉ F)
    {P : State → Prop} : Op.Meets PollsInPhase P m fun _ _ => True := by
  refine .of_cases (fun _ _ _ _ _ => trivial) fun s k t _ e hk => ?_
  have he := h.effect s
  rw [e, hk] at he
  exact absurd he.1 hp

/-- Pseudocode that writes no phase either leaves the phase. -/
theorem Op.Within.inPoll {F : List Part} {α : Type} {m : Op α} (h : Op.Within F m) (hp : .polling ∉ F)
    (hph : .phase ∉ F) : Op.Meets PollsInPhase State.InPoll m fun _ => State.InPoll := by
  refine .of_cases (fun s a t hs e => ?_) fun s k t hs e => (h.noPoll hp).error hs e
  have he := h.effect s
  rw [e] at he
  have hsame : t.stat.phase = s.stat.phase := he.parts .phase hph
  exact hsame.trans hs

theorem raise_polls {α : Type} {P : State → Prop} {Q : α → State → Prop} (k : ErrKind) (info : Word) :
    Op.Meets PollsInPhase P (raise k info : Op α) Q := fun _ _ h => by cases h

theorem setPhase_poll_polls {P : State → Prop} :
    Op.Meets PollsInPhase P (setPhase .poll) fun _ => State.InPoll := fun _ _ => rfl

theorem norR_polls (a : Word) : Op.Meets PollsInPhase State.InPoll (norR a) fun _ => State.InPoll :=
  (norR_within (F := [.norAnswers]) a (by decide)).inPoll (by decide) (by decide)

theorem setLastStat_polls (v : Word) :
    Op.Meets PollsInPhase State.InPoll (setLastStat v) fun _ => State.InPoll :=
  (setLastStat_within (F := [.lastStat]) v (by decide)).inPoll (by decide) (by decide)

theorem amdErasePoll_polls (ba : Word) : ∀ n, Op.Meets PollsInPhase State.InPoll (amdErasePoll ba n) fun _ _ => True
  | 0 => fun _ hs _ => hs
  | n + 1 => .bind (norR_polls ba) fun _ => .bind (setLastStat_polls _) fun _ =>
      .ite (fun _ => .pure fun _ _ => trivial) fun _ => amdErasePoll_polls ba n

/-- A re-read that decides between going on and `m`. -/
theorem amdReread_polls (addr d : Word) {m : Op Unit} (hm : Op.Within [.phase] m) :
    Op.Meets PollsInPhase State.InPoll (amdReread addr d >>= fun ok => if ok = true then pure () else m)
      fun _ _ => True :=
  .bind ((amdReread_within (F := [.norAnswers, .lastStat]) addr d (by decide) (by decide)).noPoll (by decide))
    fun _ => .ite (fun _ => .pure fun _ _ => trivial) fun _ => hm.noPoll (by decide)

theorem amdPoll_polls (addr d : Word) (abort : Option Word) :
    ∀ n, Op.Meets PollsInPhase State.InPoll (amdPoll addr d abort n) fun _ _ => True
  | 0 => fun _ hs _ => hs
  | n + 1 => .look fun s hs => .bind (norR_polls addr) fun v => .bind (setLastStat_polls v) fun _ =>
      .ite (fun _ => .pure fun _ _ => trivial) fun _ =>
      .ite (fun _ => amdReread_polls addr d (.raise _ (by decide))) fun _ => by
        cases abort with
        | none => exact amdPoll_polls addr d none n
        | some ba =>
          exact .ite (fun _ => amdReread_polls addr d (amdAbort_within _ _ (by decide)))
            fun _ => amdPoll_polls addr d (some ba) n

/-- What follows the poll of a block erase. -/
theorem amdEraseTail_polls (b : BlockInfo) :
    Op.Meets PollsInPhase State.InPoll (amdEraseTail b) fun _ _ => True :=
  .look fun _ _ => .bind (amdErasePoll_polls _ _) fun _ => Op.Within.noPoll (F := [.phase, .norAnswers])
    (.bind (setPhase_within _ (by decide)) fun _ => .bind (.forUp (fun _ => verifyErased_within _ _ (by decide)) _ _)
      fun _ => .bind (setRes0_within _) fun _ => setRes1_within _) (by decide)

theorem amdWordTail_polls (addr d : Word) :
    Op.Meets PollsInPhase State.InPoll (amdWordTail addr d) fun _ _ => True :=
  .look fun _ _ => .bind (amdPoll_polls _ _ _ _) fun _ => Op.Within.noPoll (F := [.phase, .norAnswers])
    (.bind (setPhase_within _ (by decide)) fun _ => .bind (norR_within _ (by decide)) fun _ =>
      .ite (.bind (setRes1_within _) fun _ => .bind (setRes2_within _) fun _ => .raise _ (by decide)) (.pure _))
    (by decide)

theorem amdBufferTail_polls (ba d : Word) :
    Op.Meets PollsInPhase State.InPoll (amdBufferTail ba d) fun _ _ => True :=
  .look fun _ _ => .bind (amdPoll_polls _ _ _ _) fun _ => Op.Within.noPoll (F := [.phase, .norAnswers])
    (.bind (setPhase_within _ (by decide)) fun _ => .bind (.forUp (fun _ => verifyWord_within _ (by decide)) _ _)
      fun _ => setRes0_within _) (by decide)

section
variable {P : State → Prop}

/-- Nothing before the poll stops the op in a poll. -/
theorem bind_polls {α : Type} {m : Op α} {f : α → Op Unit} (hm : Op.Within [.phase] m)
    (hf : ∀ a, Op.Meets PollsInPhase (fun _ => True) (f a) fun _ _ => True) :
    Op.Meets PollsInPhase P (m >>= f) fun _ _ => True :=
  .bind (hm.noPoll (by decide)) hf

theorem amdErase_polls (b : BlockInfo) : Op.Meets PollsInPhase P (amdErase b) fun _ _ => True :=
  bind_polls .params fun _ => bind_polls (setPhase_within _ (by decide)) fun _ =>
    bind_polls (prefixedCmd_within _) fun _ => bind_polls (setPhase_within _ (by decide)) fun _ =>
    bind_polls unlockPrefix_within fun _ => bind_polls (norCmd_within _ _) fun _ =>
    .bind setPhase_poll_polls fun _ => amdEraseTail_polls b

theorem amdWord_polls (addr d : Word) : Op.Meets PollsInPhase P (amdWord addr d) fun _ _ => True :=
  bind_polls .params fun _ => bind_polls (setPhase_within _ (by decide)) fun _ =>
    bind_polls (prefixedCmd_within _) fun _ => bind_polls (setPhase_within _ (by decide)) fun _ =>
    bind_polls (norW_within _ _) fun _ => .bind setPhase_poll_polls fun _ => amdWordTail_polls addr d

theorem sourceWord_polls (k : Nat) : Op.Meets PollsInPhase State.InPoll (sourceWord k) fun _ => State.InPoll :=
  (sourceWord_within (F := []) k).inPoll (by decide) (by decide)

theorem amdBuffer_polls (ba : Word) : Op.Meets PollsInPhase P (amdBuffer ba) fun _ _ => True :=
  .look fun _ _ => bind_polls .params fun _ => bind_polls (setPhase_within _ (by decide)) fun _ =>
    bind_polls unlockPrefix_within fun _ => bind_polls (norCmd_within _ _) fun _ =>
    bind_polls (loadBuffer_within _ (by decide)) fun _ => bind_polls (setPhase_within _ (by decide)) fun _ =>
    bind_polls (norCmd_within _ _) fun _ => .bind setPhase_poll_polls fun _ => .bind (sourceWord_polls _) fun _ =>
    amdBufferTail_polls ba _

theorem norEraseBlockOp_polls : Op.Meets PollsInPhase P norEraseBlockOp fun _ _ => True :=
  bind_polls vendorCheckAny_within fun _ => bind_polls configCheck_within fun _ => .look fun s _ =>
    bind_polls (discoverBlockInfo_within _) fun b => bind_polls (.raiseIf _ _ (by decide)) fun _ => by
      cases s.norId.vendor with
      | amd => exact amdErase_polls b
      | intel =>
        exact (intelErase_within (F := [.phase, .norAnswers, .lastStat]) b (by decide) (by decide)
          (by decide)).noPoll (by decide)
      | unsupported => exact raise_polls _ _

theorem norWriteWordOp_polls : Op.Meets PollsInPhase P norWriteWordOp fun _ _ => True :=
  bind_polls vendorCheckAny_within fun _ => bind_polls configCheck_within fun _ => .look fun s _ =>
    bind_polls (alignCheck_within _) fun _ => bind_polls (rangeCheck_within _ _) fun _ => by
      cases s.norId.vendor with
      | amd => exact amdWord_polls _ _
      | intel =>
        exact (intelWord_within (F := [.phase, .norAnswers, .lastStat]) _ _ (by decide) (by decide)
          (by decide)).noPoll (by decide)
      | unsupported => exact raise_polls _ _

theorem norWriteBufferOp_polls : Op.Meets PollsInPhase P norWriteBufferOp fun _ _ => True :=
  bind_polls vendorCheckAny_within fun _ => bind_polls configCheck_within fun _ => .look fun s _ =>
    bind_polls (alignCheck_within _) fun _ => bind_polls (lenCheck_within _) fun _ =>
    bind_polls (rangeCheck_within _ _) fun _ => bind_polls (discoverBlockInfo_within _) fun b =>
    bind_polls (.raiseIf _ _ (by decide)) fun _ => by
      cases s.norId.vendor with
      | amd => exact amdBuffer_polls _
      | intel =>
        exact (intelBuffer_within (F := [.phase, .norAnswers, .lastStat]) _ (by decide) (by decide)
          (by decide)).noPoll (by decide)
      | unsupported => exact raise_polls _ _

/-- Only the three NOR erase and write ops poll. -/
theorem polling_op {i : Instr} :
    Part.polling ∈ partsOf i → i = .norEraseBlock ∨ i = .norWriteWord ∨ i = .norWriteBuffer := by
  cases i <;> decide

/-- An op that is left running is so in phase POLL. -/
theorem pseudocode_polls (i : Instr) : Op.Meets PollsInPhase P (pseudocode i) fun _ _ => True := by
  by_cases h : Part.polling ∈ partsOf i
  · rcases polling_op h with rfl | rfl | rfl
    · exact norEraseBlockOp_polls
    · exact norWriteWordOp_polls
    · exact norWriteBufferOp_polls
  · exact (pseudocode_within i).noPoll h

end

/-! ## STAT at the end of an op -/

/-- STAT of a running op: nothing has gone wrong yet. -/
def Stat.Running (t : Stat) : Prop := t.busy = true ∧ t.done = false ∧ t.err = false ∧ t.errCode = 0

/-- OPC names one of the three ops that poll. -/
def Stat.OpcPolls (t : Stat) : Prop := t.opc = 0x21 ∨ t.opc = 0x22 ∨ t.opc = 0x23

theorem Stat.accepted_running (t : Stat) (c : Byte) : (t.accepted c).Running := ⟨rfl, rfl, rfl, rfl⟩

theorem Writes.running {F : List Part} {s t : State} (h : Writes F s t) (hs : s.stat.Running) : t.stat.Running := by
  obtain ⟨h1, h2, h3, h4⟩ := hs
  exact ⟨h.busy.trans h1, h.done.trans h2, h.err.trans h3, h.errCode.trans h4⟩

/-- The normal end leaves STAT consistent. -/
theorem normalEnd_statInv {s : State} (h : s.stat.Running) : (normalEnd s).StatInv := by
  obtain ⟨_, _, herr, hcode⟩ := h
  simp [State.StatInv, herr, hcode]

/-- So does an error of a kind that is not reserved. -/
theorem errorEntry_statInv {k : ErrKind} (hk : k.Raisable) (info : Word) (s : State) :
    (errorEntry k info s).StatInv := by
  obtain ⟨h0, h15, h7, h10, h11⟩ : k.code ≠ 0 ∧ k.code.toNat ≤ 15 ∧ k.code ≠ 7 ∧ k.code ≠ 10 ∧ k.code ≠ 11 := by
    revert hk
    cases k <;> decide
  exact ⟨fun _ => rfl, fun hb => (by cases hb), ⟨fun he => (by cases he), fun hc => absurd hc h0⟩, fun _ => rfl,
    h15, h7, h10, h11⟩

/-- So does RESET. -/
theorem resetAsserted_statInv (s : State) : (resetAsserted s).StatInv := by
  simp [State.StatInv, Stat.reset]

/-- So does a poll that goes on, in phase POLL of an op that polls. -/
theorem polling_statInv {s : State} (h : s.stat.Running) (hp : s.InPoll) (ho : s.stat.OpcPolls) : s.StatInv := by
  obtain ⟨hb, hd, herr, hcode⟩ := h
  have hcodes : s.stat.errCode.toNat ≤ 15 ∧ s.stat.errCode ≠ 7 ∧ s.stat.errCode ≠ 10 ∧ s.stat.errCode ≠ 11 := by
    rw [hcode]
    decide
  exact ⟨fun hidle => (by simp [hb] at hidle), fun _ => ⟨hp, hd, herr, ho⟩, ⟨fun _ => hcode, fun _ => herr⟩,
    fun he => (by simp [herr] at he), hcodes⟩

/-- However a step ends that runs an op, it leaves STAT consistent. -/
theorem continueOp_statInv {F : List Part} {m : Op Unit} (hm : Op.Within F m) {P : State → Prop} {s t : State}
    (hpoll : Op.Meets PollsInPhase P m fun _ _ => True) (hP : P s) (hs : s.stat.Running)
    (ho : .polling ∈ F → s.stat.OpcPolls) (h : continueOp m s = .next t) : t.StatInv := by
  have he := hm.effect s
  rcases continueOp_cases h with ⟨u, e, rfl⟩ | ⟨k, e⟩
  · rw [e] at he
    exact normalEnd_statInv (he.running hs)
  · rw [e] at he
    cases k with
    | raised => obtain ⟨u, k, info, -, hk, rfl⟩ := he; exact errorEntry_statInv hk info u
    | aborted => obtain ⟨-, u, k, -, rfl⟩ := he; exact resetAsserted_statInv _
    | polling =>
      obtain ⟨hp, hw⟩ := he
      have hopc : t.stat.opc = s.stat.opc := hw.opc
      refine polling_statInv (hw.running hs) (hpoll.error hP e rfl) ?_
      rw [Stat.OpcPolls, hopc]
      exact ho hp

/-! ## What a step can be -/

/-- Every way a step can go: a poll goes on, or the machine is idle and has nothing to do or takes an act of the
host. -/
theorem step_cases {s t : State} (h : step s = .next t) :
    (s.stat.busy = true ∧ ∃ m, pollingOp s.stat = some m ∧ continueOp m s = .next t)
    ∨ (s.stat.busy = false ∧ (t = s
        ∨ ∃ a rest, hostAct a { s with host := { s.host with script := rest } } = .next t)) := by
  unfold step at h
  split at h
  · next hb =>
    unfold stepBusy at h
    split at h
    · next m hm => exact .inl ⟨hb, m, hm, h⟩
    · cases h
  · next hb =>
    refine .inr ⟨by simpa using hb, ?_⟩
    unfold stepIdle at h
    split at h
    · cases h; exact .inl rfl
    · next a rest _ => exact .inr ⟨a, rest, h⟩

/-- Every way an act of the host can go: a command is issued, a register or a byte written, RESET moved, or
nothing happens but that the host gets its answer. -/
theorem hostAct_cases {a : HostAct} {s t : State} (h : hostAct a s = .next t) :
    (s.resetLine = false ∧ ∃ w, issue w s = .next t)
    ∨ (s.resetLine = false ∧ ∃ i v, t = writeReg s i v)
    ∨ (∃ (addr : Word) (b : Byte), t = { s with mem := s.mem.writeByte addr.toNat b })
    ∨ t = resetAsserted s ∨ t = { s with resetLine := false } ∨ ∃ k, t = { s with host := k } := by
  cases a with
  | write idx v =>
    simp only [hostAct, hostWrite] at h
    split at h
    · cases h; exact .inr (.inr (.inr (.inr (.inr ⟨_, rfl⟩))))
    · next hr =>
      have hr : s.resetLine = false := by simpa using hr
      split at h
      · exact .inl ⟨hr, v, h⟩
      · cases h; exact .inr (.inl ⟨hr, idx, v, rfl⟩)
  | read idx => cases h; exact .inr (.inr (.inr (.inr (.inr ⟨_, rfl⟩))))
  | store addr b => cases h; exact .inr (.inr (.inl ⟨addr, b, rfl⟩))
  | load addr => cases h; exact .inr (.inr (.inr (.inr (.inr ⟨_, rfl⟩))))
  | assertReset => cases h; exact .inr (.inr (.inr (.inl rfl)))
  | releaseReset => cases h; exact .inr (.inr (.inr (.inr (.inl rfl))))

/-- An issued command runs: an op's pseudocode, or that of an illegal word. -/
theorem issue_cases {w : Word} {s t : State} (h : issue w s = .next t) :
    (∃ i, decode w = .ok i ∧ exec i (accept w s) = .next t)
    ∨ runOp (illegalOp w) (accept w s) = .next t := by
  unfold issue at h
  split at h
  · next i hi => exact .inl ⟨i, hi, h⟩
  · exact .inr h

/-- An op that polls is one of the three. -/
theorem pollingOp_cases {t : Stat} {m : Op Unit} (h : pollingOp t = some m) :
    t.OpcPolls ∧ (m = resumeErase ∨ m = resumeWord ∨ m = resumeBuffer) := by
  unfold pollingOp at h
  split at h
  · split at h
    · next ho => cases h; exact ⟨.inl ho, .inl rfl⟩
    · split at h
      · next ho => cases h; exact ⟨.inr (.inl ho), .inr (.inl rfl)⟩
      · split at h
        · next ho => cases h; exact ⟨.inr (.inr ho), .inr (.inr rfl)⟩
        · cases h
  · cases h

/-- One row of the opcode map: it is the row asked for, or the rest of the map is asked. -/
theorem some_of_row {p : Prop} [Decidable p] {a i : Instr} {o : Option Instr}
    (h : (if p then some a else o) = some i) : (p ∧ a = i) ∨ o = some i := by
  split at h
  · next hp => exact .inl ⟨hp, Option.some.inj h⟩
  · exact .inr h

/-- The opcode map sends no byte but its opcode to an op. -/
theorem opcodeOf_opcodeMap {c : Byte} {i : Instr} (h : opcodeMap c = some i) : c = opcodeOf i := by
  unfold opcodeMap at h
  iterate 22
    rcases some_of_row h with ⟨rfl, rfl⟩ | h
    · rfl
  cases h
/-- The opcode of a command word that selects an op. -/
theorem opcode_of_decode {w : Word} {i : Instr} (h : decode w = .ok i) : w.extractLsb' 0 8 = opcodeOf i := by
  unfold decode splitCommandWord at h
  dsimp only at h
  split at h
  · split at h
    · next hj => cases h; exact opcodeOf_opcodeMap hj
    · cases h
  · cases h

/-- The acceptance of an op that polls sets OPC to name it. -/
theorem accept_opcPolls {w : Word} {i : Instr} (h : decode w = .ok i) (hp : Part.polling ∈ partsOf i) (s : State) :
    (accept w s).stat.OpcPolls := by
  have hopc : (accept w s).stat.opc = opcodeOf i := opcode_of_decode h
  rw [Stat.OpcPolls, hopc]
  rcases polling_op hp with rfl | rfl | rfl <;> decide

/-- The rest of an op that was left polling. -/
theorem pollingOp_within {t : Stat} {m : Op Unit} (h : pollingOp t = some m) : Op.Within pollParts m := by
  rcases (pollingOp_cases h).2 with rfl | rfl | rfl
  · exact resumeErase_within
  · exact resumeWord_within
  · exact resumeBuffer_within

/-- Going on in phase POLL, it can only be left in phase POLL again. -/
theorem pollingOp_polls {t : Stat} {m : Op Unit} (h : pollingOp t = some m) :
    Op.Meets PollsInPhase State.InPoll m fun _ _ => True := by
  have hblock (a : Word) : Op.Meets PollsInPhase State.InPoll (discoverBlockInfo a) fun _ => State.InPoll :=
    (discoverBlockInfo_within (F := []) a).inPoll (by decide) (by decide)
  rcases (pollingOp_cases h).2 with rfl | rfl | rfl
  · exact .look fun s _ => .bind (hblock _) fun b => amdEraseTail_polls b
  · exact .look fun s _ => amdWordTail_polls _ _
  · exact .look fun s _ => .bind (hblock _) fun b => amdBufferTail_polls _ _

/-- An issued command leaves STAT consistent. -/
theorem issue_statInv {w : Word} {s t : State} (h : issue w s = .next t) : t.StatInv := by
  have hrun : (accept w s).stat.Running := s.stat.accepted_running _
  rcases issue_cases h with ⟨i, hi, h⟩ | h
  · rw [exec_eq_runOp] at h
    exact continueOp_statInv (P := fun _ => True) (.bind .tick fun _ => pseudocode_within i)
      (bind_polls .tick fun _ => pseudocode_polls i) trivial hrun (accept_opcPolls hi · s) h
  · exact continueOp_statInv (F := []) (P := fun _ => True) (.bind .tick fun _ => .raise w (by decide))
      (bind_polls .tick fun _ => raise_polls _ _) trivial hrun (by simp) h

/-- A poll that goes on leaves STAT consistent. -/
theorem stepPoll_statInv {m : Op Unit} {s t : State} (hs : s.StatInv) (hb : s.stat.busy = true)
    (hm : pollingOp s.stat = some m) (h : continueOp m s = .next t) : t.StatInv := by
  obtain ⟨_, hbusy, hcode, _⟩ := hs
  obtain ⟨hphase, hd, herr, hopc⟩ := hbusy hb
  exact continueOp_statInv (pollingOp_within hm) (pollingOp_polls hm) hphase ⟨hb, hd, herr, hcode.mp herr⟩
    (fun _ => hopc) h

/-- Settles O58: a step runs an op, takes an act of the host that leaves STAT alone, or resets. -/
theorem statStaysConsistent : Obligations.StatStaysConsistent := by
  intro s t hs h
  rcases step_cases h with ⟨hb, m, hm, h⟩ | ⟨_, rfl | ⟨a, rest, h⟩⟩
  · exact stepPoll_statInv hs hb hm h
  · exact hs
  · rcases hostAct_cases h with ⟨_, w, h⟩ | ⟨_, i, v, rfl⟩ | ⟨addr, b, rfl⟩ | rfl | rfl | ⟨k, rfl⟩
    · exact issue_statInv h
    · exact hs
    · exact hs
    · exact resetAsserted_statInv _
    · exact hs
    · exact hs

end Sys2Proof.Machine
end

section
/-! PROOFS. The facts the invariant of the machine rests on: a derived geometry is legal, the ECC words have only
ECC bits, correction records have their format, and the scratch memories are large enough. -/

namespace Sys2Proof.Machine

/-! ## The derived geometry (`41_nand_discovery_wait.md` R138 to R144) -/

/-- A row of a profile's table meets R9. -/
theorem profile_row_wf (c : Config.Profile) {row : Config.NandRow} (h : row ∈ c.params.nandDeviceTable) :
    row.wf c.params.bigBlockThreshold = true := by
  have hwf := c.wf
  simp only [Config.Params.wf, Bool.and_eq_true, List.all_eq_true] at hwf
  exact hwf.2 row h

/-- The threshold and the ECC offsets of a profile meet R11. -/
theorem profile_ranges (c : Config.Profile) :
    528 ≤ c.params.bigBlockThreshold ∧ c.params.bigBlockThreshold < 1056
    ∧ c.params.eccOffBig ≤ 12 ∧ c.params.eccOffSmall ≤ 4 := by
  have hwf := c.wf
  simp only [Config.Params.wf, Config.Params.thresholdInRange, Config.Params.eccOffsetsLegal, Bool.and_eq_true,
    decide_eq_true_eq] at hwf
  omega

/-- The supported page sizes with their sub-pages and spare bytes (R139). -/
theorem pageSize_split {size : Nat} (h : Config.pageSizes.contains size = true) :
    (size = 264 ∧ subPages size = 1 ∧ sparePerSubPage size = 8)
    ∨ (size = 528 ∧ subPages size = 1 ∧ sparePerSubPage size = 16)
    ∨ (size = 1056 ∧ subPages size = 2 ∧ sparePerSubPage size = 16)
    ∨ (size = 1584 ∧ subPages size = 3 ∧ sparePerSubPage size = 16)
    ∨ (size = 2112 ∧ subPages size = 4 ∧ sparePerSubPage size = 16) := by
  simp only [Config.pageSizes, List.contains_cons, List.contains_nil, Bool.or_false, Bool.or_eq_true,
    beq_iff_eq] at h
  rcases h with rfl | rfl | rfl | rfl | rfl <;> decide

/-- The mask of a sub-page size: its last bit address in both halves (R143). -/
theorem deriveMask_halves {b : BitVec 10} (h : b.toNat = 256 ∨ b.toNat = 512) :
    ((deriveMask b).extractLsb' 0 16).toNat = 8 * b.toNat - 1
    ∧ (deriveMask b).extractLsb' 16 16 = (deriveMask b).extractLsb' 0 16 := by
  rcases h with h | h
  · obtain rfl : b = 256 := BitVec.eq_of_toNat_eq h
    decide
  · obtain rfl : b = 512 := BitVec.eq_of_toNat_eq h
    decide

/-- The row bytes of an address space of at most 40 bits carry it, beside one or two column bytes (R141). -/
theorem addrBytes_fit {bits col : Nat} (h : bits ≤ 40) (hc : col = 1 ∨ col = 2) :
    bits ≤ 8 * (col + (addrBytes bits - col)) ∧ 1 ≤ addrBytes bits - col ∧ addrBytes bits - col ≤ 4 := by
  unfold addrBytes
  split
  · omega
  · split <;> omega

/-- The column bytes of a row. -/
def colBytes (p : Config.Params) (row : Config.NandRow) : Nat :=
  if row.bytesPerPage.toNat > p.bigBlockThreshold then 2 else 1

theorem colBytes_cases (p : Config.Params) (row : Config.NandRow) : colBytes p row = 1 ∨ colBytes p row = 2 := by
  unfold colBytes
  split
  · exact .inr rfl
  · exact .inl rfl

/-- The address bits of a row. -/
def addrBits (p : Config.Params) (row : Config.NandRow) : Nat :=
  8 * colBytes p row + row.pagesPerBlock.toNat.log2 + row.numBlocks.toNat.log2

/-- What R9 asks of a row, taken apart. -/
theorem row_legal (c : Config.Profile) {row : Config.NandRow} (h : row ∈ c.params.nandDeviceTable) :
    Config.isPow2 row.numBlocks = true ∧ Config.isPow2 row.pagesPerBlock = true
    ∧ Config.pageSizes.contains row.bytesPerPage.toNat = true ∧ addrBits c.params row ≤ 40 := by
  have hrow := profile_row_wf c h
  simp only [Config.NandRow.wf, Bool.and_eq_true, decide_eq_true_eq] at hrow
  obtain ⟨⟨⟨hblocks, hppb⟩, hsize⟩, hbits⟩ := hrow
  have hcol : 8 * colBytes c.params row
      = if row.bytesPerPage.toNat > c.params.bigBlockThreshold then 16 else 8 := by
    unfold colBytes
    split <;> rfl
  exact ⟨hblocks, hppb, hsize, by rwa [addrBits, hcol]⟩

/-- The shifts and address bytes of a derived geometry fit their registers. -/
theorem deriveGeo_shifts (c : Config.Profile) {row : Config.NandRow} (h : row ∈ c.params.nandDeviceTable) (m d : Byte) :
    let g := deriveGeo c.params row m d
    g.colB.toNat = colBytes c.params row ∧ g.pageShift.toNat = 8 * colBytes c.params row
    ∧ g.blkShift.toNat = 8 * colBytes c.params row + row.pagesPerBlock.toNat.log2
    ∧ g.rowB.toNat = addrBytes (addrBits c.params row) - colBytes c.params row := by
  obtain ⟨_, _, _, hbits⟩ := row_legal c h
  have hrow := (addrBytes_fit hbits (colBytes_cases c.params row)).2.2
  have hcol := colBytes_cases c.params row
  have hbits' : 8 * colBytes c.params row + row.pagesPerBlock.toNat.log2 ≤ 40 := Nat.le_of_add_right_le hbits
  have e : (if decide (row.bytesPerPage.toNat > c.params.bigBlockThreshold) = true then 2 else 1)
      = colBytes c.params row := by
    simp only [decide_eq_true_eq, colBytes]
  simp only [deriveGeo, e, BitVec.toNat_ofNat]
  refine ⟨Nat.mod_eq_of_lt (by omega), Nat.mod_eq_of_lt (by omega), Nat.mod_eq_of_lt (by omega),
    Nat.mod_eq_of_lt (Nat.lt_of_le_of_lt hrow (by decide))⟩

/-- The split of a page in a derived geometry fits its registers. -/
theorem deriveGeo_split (c : Config.Profile) {row : Config.NandRow} (h : row ∈ c.params.nandDeviceTable) (m d : Byte) :
    let g := deriveGeo c.params row m d
    let size := row.bytesPerPage.toNat
    g.bytesPerOp.toNat = 32 * sparePerSubPage size ∧ g.sparePerOp.toNat = sparePerSubPage size
    ∧ g.numOps.toNat = subPages size
    ∧ g.eccOff.toNat = if size > c.params.bigBlockThreshold then c.params.eccOffBig else c.params.eccOffSmall := by
  obtain ⟨_, _, hsize, _⟩ := row_legal c h
  obtain ⟨_, _, hbig, hsmall⟩ := profile_ranges c
  have hsplit := pageSize_split hsize
  simp only [deriveGeo, BitVec.toNat_ofNat, decide_eq_true_eq]
  refine ⟨Nat.mod_eq_of_lt (by omega), Nat.mod_eq_of_lt (by omega), Nat.mod_eq_of_lt (by omega),
    Nat.mod_eq_of_lt ?_⟩
  split <;> omega

/-- The geometry derived from a legal row is legal. -/
theorem deriveGeo_legal (c : Config.Profile) {row : Config.NandRow} (h : row ∈ c.params.nandDeviceTable) (m d : Byte) :
    (deriveGeo c.params row m d).Legal (deriveMask (deriveGeo c.params row m d).bytesPerOp) := by
  obtain ⟨hblocks, hppb, hsize, hbits⟩ := row_legal c h
  obtain ⟨ht, ht', hbig, hsmall⟩ := profile_ranges c
  obtain ⟨hcol, hpage, hblk, hrow⟩ := deriveGeo_shifts c h m d
  obtain ⟨hbytes, hspare, hops, hoff⟩ := deriveGeo_split c h m d
  obtain ⟨hfit, hrow1, hrow4⟩ := addrBytes_fit hbits (colBytes_cases c.params row)
  have hsplit := pageSize_split hsize
  have hsizes : (deriveGeo c.params row m d).bytesPerOp.toNat = 256
      ∨ (deriveGeo c.params row m d).bytesPerOp.toNat = 512 := by omega
  obtain ⟨hmask, hhalves⟩ := deriveMask_halves hsizes
  have hpageSz : (deriveGeo c.params row m d).pageSz = row.bytesPerPage := rfl
  have hblocks' : (deriveGeo c.params row m d).blocks = row.numBlocks := rfl
  have hppb' : (deriveGeo c.params row m d).ppb = row.pagesPerBlock := rfl
  refine ⟨hppb, hblocks, ?_, ?_, ?_, ?_, ?_, ?_, hmask, hhalves, hsizes, ?_, ?_, ?_, hsize⟩
  · rw [hblk, hpage, hppb']
  · rw [hpage, hcol]
  · rw [hblk, hblocks', hcol, hrow]
    exact hfit
  · rw [hpageSz, hops, hbytes, hspare]
    rcases hsplit with ⟨h1, h2, h3⟩ | ⟨h1, h2, h3⟩ | ⟨h1, h2, h3⟩ | ⟨h1, h2, h3⟩ | ⟨h1, h2, h3⟩ <;> rw [h2, h3, h1]
  · rw [hspare, hbytes, Nat.mul_comm]
  · rw [hoff, hspare]
    split <;> omega
  · omega
  · rw [hcol]; exact colBytes_cases c.params row
  · rw [hrow]; exact ⟨hrow1, hrow4⟩

/-! ## ECC words and correction records -/

/-- A word has only ECC bits: bits 27:16 and 11:0 (R160). -/
def EccBits (w : Word) : Prop := w &&& 0xF000F000 = 0

theorem EccBits.and {v mask : Word} (h : EccBits mask) : EccBits (v &&& mask) := and_and_mask v mask _ h

/-- A number below `2^12` has no bit from bit 12 on. -/
theorem lt_iff_bits (h : Half) : h.toNat < 2 ^ 12 ↔ ∀ i < 4, h.getLsbD (12 + i) = false := by
  constructor
  · intro hlt i _
    exact Nat.testBit_lt_two_pow (Nat.lt_of_lt_of_le hlt (Nat.pow_le_pow_right (by decide) (by omega)))
  · intro hbits
    refine Nat.lt_pow_two_of_testBit _ fun i hi => ?_
    by_cases h16 : i < 16
    · obtain ⟨k, rfl⟩ : ∃ k, i = 12 + k := ⟨i - 12, by omega⟩
      exact hbits k (by omega)
    · exact Nat.testBit_lt_two_pow (Nat.lt_of_lt_of_le h.isLt (Nat.pow_le_pow_right (by decide) (by omega)))

/-- The bits that an ECC word does not have. -/
theorem outsideBits : ∀ i < 32, (0xF000F000 : Word).getLsbD i = decide (i / 4 = 3 ∨ i / 4 = 7) := by decide

theorem eccBits_iff_bits (w : Word) : EccBits w ↔ ∀ i < 32, (i / 4 = 3 ∨ i / 4 = 7) → w.getLsbD i = false := by
  constructor
  · intro h i hi hout
    have hbit := congrArg (fun v : Word => v.getLsbD i) h
    simp only [BitVec.getLsbD_and, outsideBits i hi, hout, decide_true, Bool.and_true] at hbit
    rw [hbit]
    simp
  · intro h
    refine BitVec.eq_of_getLsbD_eq fun i hi => ?_
    rw [BitVec.getLsbD_and, outsideBits i hi]
    by_cases hout : i / 4 = 3 ∨ i / 4 = 7
    · rw [h i hi hout]
      simp
    · simp [hout]

/-- A word has only ECC bits exactly when both halves are bit addresses. -/
theorem eccBits_iff (w : Word) :
    EccBits w ↔ (w.extractLsb' 16 16).toNat < 2 ^ 12 ∧ (w.extractLsb' 0 16).toNat < 2 ^ 12 := by
  have hhalf (k i : Nat) (hi : i < 4) : (w.extractLsb' k 16).getLsbD (12 + i) = w.getLsbD (k + (12 + i)) := by
    simp [show 12 + i < 16 by omega]
  rw [lt_iff_bits, lt_iff_bits, eccBits_iff_bits]
  constructor
  · intro h
    refine ⟨fun i hi => ?_, fun i hi => ?_⟩ <;> rw [hhalf _ i hi] <;> exact h _ (by omega) (by omega)
  · intro ⟨hhigh, hlow⟩ i hi hout
    rcases hout with hout | hout
    · have := hlow (i - 12) (by omega)
      rwa [hhalf _ _ (by omega), show 0 + (12 + (i - 12)) = i by omega] at this
    · have := hhigh (i - 28) (by omega)
      rwa [hhalf _ _ (by omega), show 16 + (12 + (i - 28)) = i by omega] at this

/-- The mask of a legal geometry has only ECC bits. -/
theorem Geo.Legal.mask_bits {g : Geo} {mask : Word} (h : g.Legal mask) : EccBits mask := by
  obtain ⟨_, _, _, _, _, _, _, _, hlow, hhigh, hbytes, _⟩ := h
  rw [eccBits_iff, hhigh, hlow]
  omega

/-- The difference of the high halves of two ECC words is a bit address. -/
theorem EccBits.high_xor_lt {a b : Word} (ha : EccBits a) (hb : EccBits b) :
    (a.extractLsb' 16 16 ^^^ b.extractLsb' 16 16).toNat < 2 ^ 12 := by
  rw [BitVec.toNat_xor]
  exact Nat.xor_lt_two_pow ((eccBits_iff a).mp ha).1 ((eccBits_iff b).mp hb).1

/-- The record of a repaired bit has the format of R32. -/
theorem corrRecord_single_legal {d : Half} (h : d.toNat < 2 ^ 12) : CorrLegal (corrRecord 1 d) := by
  have hst : corrStatus (corrRecord 1 d) = 1 := by
    have := corrStatus_record (.single d)
    simpa [EccVerdict.record] using this
  have hout : ∀ i < 32, (0xFFFCF000 : Word).getLsbD i = decide (i / 4 = 3 ∨ 18 ≤ i) := by decide
  have hone : ∀ i < 32, ((1 : BitVec 2).setWidth 32 <<< 16 : Word).getLsbD i = decide (i = 16) := by decide
  have hd := (lt_iff_bits d).mp h
  refine ⟨BitVec.eq_of_getLsbD_eq fun i hi => ?_, by rw [hst]; decide, fun hne => absurd hst hne⟩
  rw [BitVec.getLsbD_and, hout i hi, corrRecord, BitVec.getLsbD_or, hone i hi, BitVec.getLsbD_setWidth]
  by_cases hrest : i / 4 = 3 ∨ 18 ≤ i
  · have hbit : d.getLsbD i = false := by
      rcases hrest with hrest | hrest
      · have := hd (i - 12) (by omega)
        rwa [show 12 + (i - 12) = i by omega] at this
      · exact BitVec.getLsbD_of_ge _ _ (by omega)
    simp [hbit, show i ≠ 16 by omega]
  · simp [hrest]

end Sys2Proof.Machine
end

section
/-! PROOFS. The invariant of the machine (`State.Inv`) while an op runs: what each piece of pseudocode that writes
memory, slots or geometry keeps of it, the rest being what `Op.Within` says of every op. -/

namespace Sys2Proof.Machine

/-! ## The invariant while an op runs -/

/-- What `State.Inv` says of memories, geometry, accumulator and slots. -/
def State.DataInv (s : State) : Prop := s.MemInv ∧ s.ScratchInv ∧ s.GeoInv ∧ s.EccInv ∧ s.SlotInv

/-- What holds while an op runs, with a condition on the configuration and the geometry. -/
def State.RunInv (G : Config.Profile → Geo → Prop) (s : State) : Prop :=
  s.DataInv ∧ s.resetLine = false ∧ G s.cfg s.geo

/-- What holds where an op has ended. -/
def State.EndInv (s : State) : Prop := s.DataInv ∧ s.ResetInv

/-- Begun where `P` holds, `m` goes on where `Q` holds or stops the op in the invariant. -/
def Op.Safe {α : Type} (P : State → Prop) (m : Op α) (Q : α → State → Prop) : Prop :=
  Op.Meets (fun _ => State.EndInv) P m Q

theorem State.RunInv.endInv {G : Config.Profile → Geo → Prop} {s : State} (h : s.RunInv G) : s.EndInv :=
  ⟨h.1, fun hr => by simp [h.2.1] at hr⟩

/-- The parts that `State.DataInv` speaks of, but for the accumulator, which every step keeps. -/
def dataParts : List Part := [.hostMem, .pageBuf, .spareBuf, .geometry, .slots]

/-- Steps that write none of these parts keep them. -/
theorem Writes.dataInv {F : List Part} {s t : State} (h : Writes F s t) (hF : ∀ p ∈ dataParts, p ∉ F)
    (hs : s.DataInv) : t.DataInv ∧ t.geo = s.geo := by
  have hmem : t.mem = s.mem := h.parts .hostMem (hF _ (by decide))
  have hpage : t.pageBuf = s.pageBuf := h.parts .pageBuf (hF _ (by decide))
  have hspare : t.spareBuf = s.spareBuf := h.parts .spareBuf (hF _ (by decide))
  have hslots : t.slots = s.slots := h.parts .slots (hF _ (by decide))
  obtain ⟨hgeo, hmask⟩ : t.geo = s.geo ∧ t.eccu.mask = s.eccu.mask := h.parts .geometry (hF _ (by decide))
  obtain ⟨hM, hS, hG, hE, hL⟩ := hs
  refine ⟨⟨?_, ?_, ?_, h.eccInv hE, ?_⟩, hgeo⟩
  · rwa [State.MemInv, hmem, hpage, hspare]
  · rwa [State.ScratchInv, hpage, hspare]
  · rwa [State.GeoInv, hgeo, hmask, h.cfg]
  · rwa [State.SlotInv, hslots]

/-- The slots after a reset, or cleared, hold nothing. -/
theorem slotInv_zero {s : State} (h : s.slots = ⟨Quad.zero, Quad.zero, Quad.zero⟩) : s.SlotInv := by
  have hz (i : Nat) : Quad.zero.get i = 0 := by
    unfold Quad.get
    split <;> rfl
  intro i
  rw [h, hz]
  exact ⟨by decide, by decide, by decide, by decide, fun _ => by decide⟩

/-- RESET leaves the invariant, whatever the op was doing. -/
theorem resetAsserted_endInv {s : State} (hM : s.MemInv) (hS : s.ScratchInv) : (resetAsserted s).EndInv :=
  ⟨⟨hM, hS, ⟨fun h => (by cases h), fun _ => ⟨rfl, rfl⟩⟩, ⟨rfl, by simp, fun _ => ⟨rfl, rfl⟩⟩, slotInv_zero rfl⟩,
    fun _ => rfl⟩

/-- Pseudocode that writes none of the data parts is safe. -/
theorem Op.Within.safe {F : List Part} {α : Type} {m : Op α} (h : Op.Within F m) (hF : ∀ p ∈ dataParts, p ∉ F)
    {G : Config.Profile → Geo → Prop} : Op.Safe (State.RunInv G) m fun _ => State.RunInv G := by
  have hrun {s t : State} (hs : s.RunInv G) (hw : Writes F s t) : t.RunInv G := by
    obtain ⟨hd, hr, hg⟩ := hs
    obtain ⟨hd', hg'⟩ := hw.dataInv hF hd
    exact ⟨hd', hw.resetLine.trans hr, by rwa [hw.cfg, hg']⟩
  refine .of_cases (fun s a t hs e => ?_) fun s k t hs e => ?_
  · have he := h.effect s
    rw [e] at he
    exact hrun hs he
  · have he := h.effect s
    rw [e] at he
    cases k with
    | raised =>
      obtain ⟨u, k, info, hw, -, rfl⟩ := he
      exact State.RunInv.endInv (s := errorEntry k info u) (hrun (t := u) hs hw)
    | aborted =>
      obtain ⟨-, u, k, hw, rfl⟩ := he
      obtain ⟨hM, hS, -⟩ := (hrun hs hw).1
      exact resetAsserted_endInv hM hS
    | polling => exact (hrun hs he.2).endInv

section
variable {G : Config.Profile → Geo → Prop}

theorem update_safe {P Q : State → Prop} {f : State → State} (h : ∀ s, P s → Q (f s)) :
    Op.Safe P (update f) fun _ => Q := h

theorem raise_safe {α : Type} {Q : α → State → Prop} (k : ErrKind) (info : Word) :
    Op.Safe (State.RunInv G) (raise k info : Op α) Q := fun s hs =>
  State.RunInv.endInv (s := errorEntry k info s) hs

/-! ## Slots and the accumulator -/

/-- Every entry of a register file after one is written. -/
theorem Quad.forall_set {P : Word → Prop} {q : Quad} (hq : ∀ j, P (q.get j)) {v : Word} (hv : P v) (i j : Nat) :
    P ((q.set i v).get j) := by
  by_cases hi : i < 4
  · rw [Quad.get_set q hi]
    split
    · exact hv
    · exact hq j
  · have hsame : q.set i v = q := by
      unfold Quad.set
      split <;> try omega
      rfl
    rw [hsame]
    exact hq j

theorem setEcc_safe (i : Nat) {v : Word} (hv : EccBits v) :
    Op.Safe (State.RunInv G) (setEcc i v) fun _ => State.RunInv G :=
  update_safe fun _ ⟨⟨hM, hS, hG, hE, hL⟩, hr, hg⟩ =>
    ⟨⟨hM, hS, hG, hE, fun j =>
      ⟨Quad.forall_set (fun k => (hL k).1) hv i j, (hL j).2⟩⟩, hr, hg⟩

theorem setSecc_safe (i : Nat) {v : Word} (hv : EccBits v) :
    Op.Safe (State.RunInv G) (setSecc i v) fun _ => State.RunInv G :=
  update_safe fun _ ⟨⟨hM, hS, hG, hE, hL⟩, hr, hg⟩ =>
    ⟨⟨hM, hS, hG, hE, fun j =>
      ⟨(hL j).1, Quad.forall_set (fun k => (hL k).2.1) hv i j, (hL j).2.2⟩⟩, hr, hg⟩

theorem setCorrSlot_safe (i : Nat) {v : Word} (hv : CorrLegal v) :
    Op.Safe (State.RunInv G) (setCorrSlot i v) fun _ => State.RunInv G :=
  update_safe fun _ ⟨⟨hM, hS, hG, hE, hL⟩, hr, hg⟩ =>
    ⟨⟨hM, hS, hG, hE, fun j =>
      ⟨(hL j).1, (hL j).2.1, Quad.forall_set (fun k => (hL k).2.2) hv i j⟩⟩, hr, hg⟩

theorem clearSlots_safe : Op.Safe (State.RunInv G) clearSlots fun _ => State.RunInv G :=
  update_safe fun _ ⟨⟨hM, hS, hG, hE, _⟩, hr, hg⟩ => ⟨⟨hM, hS, hG, hE, slotInv_zero rfl⟩, hr, hg⟩

/-- A read-and-restart returns an ECC word. -/
theorem eccReadRestart_safe :
    Op.Safe (State.RunInv G) eccReadRestart fun v s => EccBits v ∧ s.RunInv G := by
  have hkeep := (eccReadRestart_within (F := [.eccUnit]) (by decide)).safe (by decide) (G := G)
  intro s hs
  obtain ⟨⟨_, _, _, ⟨_, hacc, _⟩, _⟩, _⟩ := id hs
  refine ⟨?_, hkeep s hs⟩
  rw [EccUnit.masked, EccBits, BitVec.and_comm s.eccu.acc]
  exact and_and_mask _ _ _ hacc

/-- The mask has only ECC bits, with a valid geometry or with none. -/
theorem State.GeoInv.mask_bits {s : State} (h : s.GeoInv) : EccBits s.eccu.mask := by
  obtain ⟨hvalid, hnone⟩ := h
  cases hv : s.geo.valid with
  | true => exact (hvalid hv).1.mask_bits
  | false =>
    rw [(hnone hv).2, EccBits]
    decide

/-! ## Memory -/

/-- A write below the bound, not wrapping, keeps the address bound. -/
theorem Memory.below_writeLE_of_room {k : Nat} : ∀ (n : Nat) (a : Word) (m : Memory) (v : Word), a.toNat + n ≤ k →
    m.below k = true → (m.writeLE a n v).below k = true
  | 0, _, _, _, _, h => h
  | n + 1, a, m, v, hr, h => by
    have hnext : (a + 1).toNat ≤ a.toNat + 1 := by
      rw [BitVec.toNat_add]
      exact Nat.mod_le _ _
    exact Memory.below_writeLE_of_room n (a + 1) _ _ (by omega) (Memory.below_writeByte k _ _ (by omega) m h)

/-- The space holds `n` bytes from `a` on: PAGEBUF has 2048 (R42), host memory wraps. -/
def Space.Room (t : Space) (a : Word) (n : Nat) : Prop := t = .page → a.toNat + n ≤ 2048

theorem Space.Room.sub {t : Space} {a : Word} {n j m : Nat} (h : t.Room a n) (hj : j + m ≤ n) :
    t.Room (a + BitVec.ofNat 32 j) m := by
  intro ht
  have hroom := h ht
  have hle : (a + BitVec.ofNat 32 j).toNat ≤ a.toNat + j := by
    rw [BitVec.toNat_add, BitVec.toNat_ofNat]
    exact Nat.le_trans (Nat.mod_le _ _) (Nat.add_le_add_left (Nat.mod_le _ _) _)
  omega

theorem memRead_safe (t : Space) (a : Word) (n : Nat) :
    Op.Safe (State.RunInv G) (memRead t a n) fun _ => State.RunInv G :=
  (memRead_within (F := []) t a n).safe (by decide)

theorem memWrite_safe (t : Space) {a : Word} {n : Nat} (v : Word) (hroom : t.Room a n) :
    Op.Safe (State.RunInv G) (memWrite t a n v) fun _ => State.RunInv G := by
  cases t with
  | host =>
    refine .bind ((emit_within (F := []) _).safe (by decide)) fun _ => update_safe ?_
    intro s ⟨⟨⟨hm, hp, hsp, hb⟩, hS, hG, hE, hL⟩, hr, hg⟩
    exact ⟨⟨⟨Memory.wf_writeLE a n s.mem v hm, hp, hsp, Memory.below_writeLE a n s.mem v hb⟩, hS, hG, hE, hL⟩, hr, hg⟩
  | page =>
    refine update_safe fun s ⟨⟨⟨hm, hp, hsp, hb⟩, ⟨hpb, hsb⟩, hG, hE, hL⟩, hr, hg⟩ => ?_
    exact ⟨⟨⟨hm, Memory.wf_writeLE a n s.pageBuf v hp, hsp, hb⟩,
      ⟨Memory.below_writeLE_of_room n a s.pageBuf v (hroom rfl) hpb, hsb⟩, hG, hE, hL⟩, hr, hg⟩

theorem setSpare_safe {k : Nat} (b : Byte) (hk : k < 16) :
    Op.Safe (State.RunInv G) (setSpare k b) fun _ => State.RunInv G :=
  update_safe fun s ⟨⟨⟨hm, hp, hsp, hb⟩, ⟨hpb, hsb⟩, hG, hE, hL⟩, hr, hg⟩ =>
    ⟨⟨⟨hm, hp, Memory.wf_writeByte s.spareBuf k b hsp, hb⟩,
      ⟨hpb, Memory.below_writeByte 16 k b hk s.spareBuf hsb⟩, hG, hE, hL⟩, hr, hg⟩

theorem datR_safe : Op.Safe (State.RunInv G) datR fun _ => State.RunInv G :=
  (datR_within (F := [.eccUnit, .nandAnswers]) (by decide) (by decide)).safe (by decide)

theorem setPhase_safe (p : Phase) : Op.Safe (State.RunInv G) (setPhase p) fun _ => State.RunInv G :=
  (setPhase_within (F := [.phase]) p (by decide)).safe (by decide)

/-! ## Loops and byte streams -/

theorem forUp_safe {f : Nat → Op Unit} : ∀ (n i : Nat),
    (∀ j, i ≤ j → j < i + n → Op.Safe (State.RunInv G) (f j) fun _ => State.RunInv G) →
    Op.Safe (State.RunInv G) (forUp f i n) fun _ => State.RunInv G
  | 0, _, _ => .pure fun _ h => h
  | n + 1, i, hf => .bind (hf i (Nat.le_refl i) (by omega)) fun _ =>
      forUp_safe n (i + 1) fun j h1 h2 => hf j (by omega) (by omega)

theorem transfer_safe {u : Nat} {f : Nat → Op Unit} : ∀ (n i : Nat),
    (∀ j, i ≤ j → j < i + n → Op.Safe (State.RunInv G) (f j) fun _ => State.RunInv G) →
    Op.Safe (State.RunInv G) (transfer u f i n) fun _ => State.RunInv G
  | 0, _, _ => (setXferCnt_within (F := []) 0).safe (by decide)
  | n + 1, i, hf => .bind ((setXferCnt_within (F := []) _).safe (by decide)) fun _ =>
      .bind (hf i (Nat.le_refl i) (by omega)) fun _ =>
      transfer_safe n (i + 1) fun j h1 h2 => hf j (by omega) (by omega)

theorem params_safe : Op.Safe (State.RunInv G) params fun _ => State.RunInv G :=
  (Op.Within.params (F := [])).safe (by decide)

theorem readBytes_safe (t : Space) {dst : Word} {n : Nat} (hroom : t.Room dst n) :
    Op.Safe (State.RunInv G) (readBytes t dst n) fun _ => State.RunInv G := by
  refine .bind params_safe fun p => .ite (fun _ => ?_) fun _ => ?_ <;>
    refine transfer_safe _ _ fun j _ hj => .bind datR_safe fun d => memWrite_safe t _ (hroom.sub ?_) <;> omega

theorem readStream_safe {n : Nat} (hn : n ≤ 16) :
    Op.Safe (State.RunInv G) (readStream n) fun _ => State.RunInv G := by
  refine .bind params_safe fun p => .ite (fun _ => ?_) fun _ => ?_
  · exact transfer_safe _ _ fun j _ hj => .bind datR_safe fun d =>
      .bind (setSpare_safe _ (by omega)) fun _ => setSpare_safe _ (by omega)
  · exact transfer_safe _ _ fun j _ hj => .bind datR_safe fun d => setSpare_safe _ (by omega)

/-! ## The corrector -/

theorem eccVerdict_single {mask stored computed : Word} {d : Half} (h : eccVerdict mask stored computed = .single d) :
    d = stored.extractLsb' 16 16 ^^^ computed.extractLsb' 16 16 := by
  unfold eccVerdict at h
  split at h
  · cases h
  · split at h
    · exact (EccVerdict.single.inj h).symm
    · cases h

/-- The corrector answers a legal record; it repairs within 512 bytes. -/
theorem correct_safe (t : Space) {stored computed base : Word} (hs : EccBits stored) (hc : EccBits computed)
    (hroom : t.Room base 512) :
    Op.Safe (State.RunInv G) (correct t stored computed base)
      fun r s => CorrLegal (corrRecord r.1 r.2) ∧ s.RunInv G := by
  refine .look fun s _ => ?_
  cases hv : eccVerdict s.eccu.mask stored computed with
  | equal => exact .pure fun _ h => ⟨⟨by decide, by decide, fun _ => by decide⟩, h⟩
  | uncorrectable => exact .pure fun _ h => ⟨⟨by decide, by decide, fun _ => by decide⟩, h⟩
  | single d =>
    have hd : d.toNat < 2 ^ 12 := by
      rw [eccVerdict_single hv]
      exact hs.high_xor_lt hc
    have hbyte : (d >>> 3).toNat + 1 ≤ 512 := by
      rw [BitVec.toNat_ushiftRight, Nat.shiftRight_eq_div_pow]
      omega
    have hbase : t.Room (base + (d >>> 3).setWidth 32) 1 := by
      rw [← BitVec.ofNat_toNat]
      exact hroom.sub hbyte
    exact .bind (memRead_safe t _ 1) fun v => .bind (memWrite_safe t _ hbase) fun _ =>
      .pure fun _ h => ⟨corrRecord_single_legal hd, h⟩

theorem setCorr_safe : Op.Safe (State.RunInv G) setCorr fun _ => State.RunInv G :=
  (setCorr_within (F := [.corrFlag]) (by decide)).safe (by decide)

theorem raiseIf_safe (c : Bool) (k : ErrKind) (info : Word) :
    Op.Safe (State.RunInv G) (raiseIf c k info) fun _ => State.RunInv G := by
  cases c
  · exact .pure fun _ h => h
  · exact raise_safe k info

end

/-! ## The page ops -/

/-- The configuration is `c` and the geometry `g`. -/
def AreFixed (c : Config.Profile) (g : Geo) (c' : Config.Profile) (g' : Geo) : Prop := c' = c ∧ g' = g

/-- With a legal geometry the page fits PAGEBUF. -/
theorem subPage_room {g : Geo} {mask : Word} (hg : g.Legal mask) (t : Space) {base : Word} (hbase : t = .page → base = 0)
    {i : Nat} (hi : i < g.numOps.toNat) :
    t.Room (subPageBase base i g.bytesPerOp) g.bytesPerOp.toNat ∧ t.Room (subPageBase base i g.bytesPerOp) 512 := by
  obtain ⟨hops, hbytes, _, _⟩ := hg.sizes
  have hroom : t.Room base 2048 := fun ht => by simp [hbase ht]
  have hoff : i * g.bytesPerOp.toNat ≤ 3 * g.bytesPerOp.toNat := Nat.mul_le_mul_right _ (by omega)
  exact ⟨hroom.sub (by omega), hroom.sub (by omega)⟩

section
variable {c : Config.Profile} {g : Geo} {mask : Word}

theorem readSubPage_safe (hg : g.Legal mask) (t : Space) {base : Word} (hbase : t = .page → base = 0) {i : Nat}
    (hi : i < g.numOps.toNat) :
    Op.Safe (State.RunInv (AreFixed c g)) (readSubPage t base g.bytesPerOp i) fun _ => State.RunInv (AreFixed c g) :=
  .bind ((setOpIdx_within (F := []) i).safe (by decide)) fun _ =>
    .bind (readBytes_safe t (subPage_room hg t hbase hi).1) fun _ =>
    .bind eccReadRestart_safe fun _ => .of_and fun hv => setEcc_safe i hv

theorem readSpare_safe (hg : g.Legal mask) (i : Nat) :
    Op.Safe (State.RunInv (AreFixed c g)) (readSpare g.sparePerOp i) fun _ => State.RunInv (AreFixed c g) := by
  obtain ⟨_, hbytes, hspare, _⟩ := hg.sizes
  exact .bind ((setOpIdx_within (F := []) i).safe (by decide)) fun _ =>
    .bind (readStream_safe (by omega)) fun _ => .look fun s ⟨⟨_, _, hG, _⟩, _⟩ =>
    setSecc_safe i (EccBits.and (State.GeoInv.mask_bits hG))

theorem correctSubPage_safe (hg : g.Legal mask) (t : Space) {base : Word} (hbase : t = .page → base = 0) {i : Nat}
    (hi : i < g.numOps.toNat) :
    Op.Safe (State.RunInv (AreFixed c g)) (correctSubPage t base i) fun _ => State.RunInv (AreFixed c g) := by
  refine .bind ((setOpIdx_within (F := []) i).safe (by decide)) fun _ => .look fun s ⟨⟨_, _, _, _, hL⟩, _, _, hgeo⟩ => ?_
  rw [hgeo]
  exact .bind (correct_safe t (hL i).2.1 (hL i).1 (subPage_room hg t hbase hi).2) fun ⟨st, d⟩ => .of_and fun hr =>
    .bind (setCorrSlot_safe i hr) fun _ => .ite (fun _ => setCorr_safe) fun _ => raiseIf_safe _ _ _

theorem pageRead_safe (hg : g.Legal mask) (block page : Word) (t : Space) {base : Word}
    (hbase : t = .page → base = 0) :
    Op.Safe (State.RunInv (AreFixed c g)) (pageRead block page t base) fun _ => State.RunInv (AreFixed c g) := by
  refine .look fun s ⟨_, _, _, hgeo⟩ => ?_
  rw [hgeo]
  exact .bind params_safe fun p => .bind (setPhase_safe _) fun _ =>
    .bind ((cle_within (F := []) _).safe (by decide)) fun _ => .bind (setPhase_safe _) fun _ =>
    .bind ((addrCycles_within (F := []) _ _).safe (by decide)) fun _ =>
    .bind ((readConfirm_within (F := [.phase]) _ (by decide)).safe (by decide)) fun _ => .bind (setPhase_safe _) fun _ =>
    .bind ((waitRdy_within (F := [.readyAnswers]) (by decide)).safe (by decide)) fun _ =>
    .bind (setPhase_safe _) fun _ => .bind eccReadRestart_safe fun _ => .of_and fun _ =>
    .bind (forUp_safe _ _ fun i _ hi => readSubPage_safe hg t hbase (by omega)) fun _ =>
    .bind (setPhase_safe _) fun _ => .bind (forUp_safe _ _ fun i _ hi => readSpare_safe hg i) fun _ =>
    .bind (setPhase_safe _) fun _ => forUp_safe _ _ fun i _ hi => correctSubPage_safe hg t hbase (by omega)

theorem writeSubPage_safe (base : Word) (i : Nat) :
    Op.Safe (State.RunInv (AreFixed c g)) (writeSubPage base g.bytesPerOp i) fun _ => State.RunInv (AreFixed c g) :=
  .bind ((setOpIdx_within (F := []) i).safe (by decide)) fun _ =>
    .bind ((writeBytes_within (F := [.eccUnit]) _ _ (by decide)).safe (by decide)) fun _ =>
    .bind eccReadRestart_safe fun _ => .of_and fun hv => setEcc_safe i hv

/-- Only a legal geometry passes the check for one. -/
theorem needGeometry_safe : Op.Safe (State.RunInv (AreFixed c g)) needGeometry
    fun _ s => (∃ mask, g.Legal mask) ∧ s.RunInv (AreFixed c g) := by
  refine .look fun s ⟨⟨_, _, hG, _⟩, _, _, hgeo⟩ => ?_
  cases hv : s.geo.valid with
  | false => exact raise_safe _ _
  | true => exact .pure fun _ h => ⟨⟨_, hgeo ▸ (hG.1 hv).1⟩, h⟩

theorem pageChecks_safe : Op.Safe (State.RunInv (AreFixed c g)) pageChecks
    fun _ s => (∃ mask, g.Legal mask) ∧ s.RunInv (AreFixed c g) :=
  .bind needGeometry_safe fun _ => .of_and fun hg => .look fun _ _ => .ite
    (fun _ => .bind ((setRes1_within (F := []) _).safe (by decide)) fun _ => raise_safe _ _)
    fun _ => clearSlots_safe.weaken (fun _ h => h) fun _ _ h => ⟨hg, h⟩

theorem countCorrected_safe :
    Op.Safe (State.RunInv (AreFixed c g)) countCorrected fun _ => State.RunInv (AreFixed c g) :=
  (countCorrected_within (F := [])).safe (by decide)

theorem nandReadPageOp_safe :
    Op.Safe (State.RunInv (AreFixed c g)) nandReadPageOp fun _ => State.RunInv (AreFixed c g) :=
  .bind pageChecks_safe fun _ => .of_and fun ⟨_, hg⟩ => .look fun _ _ =>
    .bind (pageRead_safe hg _ _ .host (by simp)) fun _ => countCorrected_safe

theorem nandVerifyPageOp_safe :
    Op.Safe (State.RunInv (AreFixed c g)) nandVerifyPageOp fun _ => State.RunInv (AreFixed c g) :=
  .bind pageChecks_safe fun _ => .of_and fun ⟨_, hg⟩ => .look fun _ _ =>
    .bind (pageRead_safe hg _ _ .page fun _ => rfl) fun _ => .bind (setPhase_safe _) fun _ =>
    .bind (forUp_safe _ _ fun j _ _ => (verifyByte_within (F := []) _ j).safe (by decide)) fun _ =>
    countCorrected_safe

theorem nandWritePageOp_safe :
    Op.Safe (State.RunInv (AreFixed c g)) nandWritePageOp fun _ => State.RunInv (AreFixed c g) := by
  refine .bind pageChecks_safe fun _ => .of_and fun _ => .look fun s ⟨_, _, _, hgeo⟩ => ?_
  rw [hgeo]
  exact .bind params_safe fun p => .bind (setPhase_safe _) fun _ =>
    .bind ((cle_within (F := []) _).safe (by decide)) fun _ => .bind (setPhase_safe _) fun _ =>
    .bind ((addrCycles_within (F := []) _ _).safe (by decide)) fun _ => .bind (setPhase_safe _) fun _ =>
    .bind eccReadRestart_safe fun _ => .of_and fun _ =>
    .bind (forUp_safe _ _ fun i _ _ => writeSubPage_safe _ i) fun _ => .bind (setPhase_safe _) fun _ =>
    .bind (forUp_safe _ _ fun i _ _ => (writeSpare_within (F := [.eccUnit]) i (by decide)).safe (by decide)) fun _ =>
    .bind (setPhase_safe _) fun _ => .bind ((cle_within (F := []) _).safe (by decide)) fun _ =>
    .bind (setPhase_safe _) fun _ => .bind ((waitRdy_within (F := [.readyAnswers]) (by decide)).safe (by decide)) fun _ =>
    .bind (setPhase_safe _) fun _ => (waitStatus_within (F := [.eccUnit, .nandAnswers, .lastStat]) (by decide)
      (by decide) (by decide) (by decide)).safe (by decide)

theorem eccCorrectOp_safe :
    Op.Safe (State.RunInv (AreFixed c g)) eccCorrectOp fun _ => State.RunInv (AreFixed c g) := by
  refine .bind needGeometry_safe fun _ => .of_and fun _ => .bind (setPhase_safe _) fun _ =>
    .look fun s ⟨⟨_, _, hG, _⟩, _⟩ => ?_
  have hmask := State.GeoInv.mask_bits hG
  exact .bind (setSecc_safe 0 hmask.and) fun _ => .bind (setEcc_safe 0 hmask.and) fun _ =>
    .bind (correct_safe .host hmask.and hmask.and (by simp [Space.Room])) fun ⟨st, d⟩ => .of_and fun hr =>
    .bind (setCorrSlot_safe 0 hr) fun _ => .bind ((setRes0_within (F := []) _).safe (by decide)) fun _ =>
    .bind ((setRes1_within (F := []) _).safe (by decide)) fun _ =>
    .ite (fun _ => setCorr_safe) fun _ => raiseIf_safe _ _ _

/-! ## `NAND_INIT` -/

/-- The configuration is `c` and the geometry invalid. -/
def IsCleared (c c' : Config.Profile) (g : Geo) : Prop := c' = c ∧ g.valid = false

theorem clearGeometry_safe :
    Op.Safe (State.RunInv (AreFixed c g)) clearGeometry fun _ => State.RunInv (IsCleared c) :=
  update_safe fun _ ⟨⟨hM, hS, _, hE, hL⟩, hr, hc, _⟩ =>
    ⟨⟨hM, hS, ⟨fun h => (by cases h), fun _ => ⟨rfl, rfl⟩⟩, hE, hL⟩, hr, hc, rfl⟩

theorem setIds_safe (m d : Byte) :
    Op.Safe (State.RunInv (IsCleared c)) (setIds m d) fun _ => State.RunInv (IsCleared c) := by
  refine update_safe fun s ⟨⟨hM, hS, ⟨_, hnone⟩, hE, hL⟩, hr, hc, hv⟩ => ?_
  obtain ⟨hgeo, hmask⟩ := hnone hv
  refine ⟨⟨hM, hS, ⟨fun h => ?_, fun _ => ⟨?_, hmask⟩⟩, hE, hL⟩, hr, hc, hv⟩
  · exact absurd (hv.symm.trans h) (by decide)
  · show { s.geo with mfr := m, dev := d } = { Geo.zero with mfr := m, dev := d }
    rw [hgeo]

theorem setGeometry_safe {row : Config.NandRow} (hrow : row ∈ c.params.nandDeviceTable) (m d : Byte) :
    Op.Safe (State.RunInv (IsCleared c)) (setGeometry row m d) fun _ => State.RunInv fun _ _ => True := by
  refine update_safe fun s ⟨⟨hM, hS, _, hE, hL⟩, hr, hc, _⟩ => ?_
  have hlegal := deriveGeo_legal s.cfg (hc ▸ hrow) m d
  exact ⟨⟨hM, hS, ⟨fun _ => ⟨hlegal, rfl, rfl⟩, fun h => (by cases h)⟩, hE, hL⟩, hr, trivial⟩

theorem readByte_safe {G : Config.Profile → Geo → Prop} :
    Op.Safe (State.RunInv G) readByte fun _ => State.RunInv G :=
  .bind datR_safe fun _ => .pure fun _ h => h

theorem nandInitOp_safe :
    Op.Safe (State.RunInv (AreFixed c g)) nandInitOp fun _ => State.RunInv fun _ _ => True := by
  have hparams : Op.Safe (State.RunInv (IsCleared c)) params
      fun p s => p = c.params ∧ s.RunInv (IsCleared c) := fun s hs => ⟨congrArg _ hs.2.2.1, hs⟩
  have hcle (v : Byte) : Op.Safe (State.RunInv (IsCleared c)) (cle v) fun _ => State.RunInv (IsCleared c) :=
    (cle_within (F := []) v).safe (by decide)
  refine .bind (setPhase_safe _) fun _ => .bind clearGeometry_safe fun _ => .bind hparams fun p => .of_and fun hp =>
    .bind (setPhase_safe _) fun _ => .bind (hcle _) fun _ => .bind (setPhase_safe _) fun _ =>
    .bind ((waitRdy_within (F := [.readyAnswers]) (by decide)).safe (by decide)) fun _ =>
    .bind (setPhase_safe _) fun _ => .bind (hcle _) fun _ => .bind (setPhase_safe _) fun _ =>
    .bind ((ale_within (F := []) _).safe (by decide)) fun _ => .bind (setPhase_safe _) fun _ =>
    .bind readByte_safe fun m => .bind readByte_safe fun d => .bind (setIds_safe m d) fun _ =>
    .bind ((setRes0_within (F := []) _).safe (by decide)) fun _ =>
    .bind ((setRes1_within (F := []) _).safe (by decide)) fun _ => .bind (setPhase_safe _) fun _ => ?_
  split
  · exact raise_safe _ _
  · next row hrow =>
    have hmem : row ∈ p.nandDeviceTable := List.mem_of_find?_eq_some hrow
    exact setGeometry_safe (hp ▸ hmem) m d

end

/-! ## Every op and every step -/

/-- What holds while an op runs. -/
def State.OpInv (s : State) : Prop := s.RunInv fun _ _ => True

/-- An op may be looked at for one configuration and geometry at a time. -/
theorem Op.Safe.fixed {m : Op Unit} {G : Config.Profile → Geo → Config.Profile → Geo → Prop}
    (h : ∀ c g, Op.Safe (State.RunInv (AreFixed c g)) m fun _ => State.RunInv (G c g)) :
    Op.Safe State.OpInv m fun _ => State.OpInv := by
  intro s ⟨hd, hr, _⟩
  exact (h s.cfg s.geo).weaken (P' := State.RunInv (AreFixed s.cfg s.geo)) (fun _ h => h)
    (fun _ _ ⟨hd, hr, _⟩ => ⟨hd, hr, trivial⟩) s ⟨hd, hr, rfl, rfl⟩

/-- The ops that write a data part. -/
theorem writes_dataPart (i : Instr) : (∀ p ∈ dataParts, p ∉ partsOf i) ∨ i = .nandInit ∨ i = .nandReadPage
    ∨ i = .nandWritePage ∨ i = .nandVerifyPage ∨ i = .eccCorrect := by
  cases i <;> decide

/-- Every op keeps the invariant. -/
theorem pseudocode_safe (i : Instr) : Op.Safe State.OpInv (pseudocode i) fun _ => State.OpInv := by
  rcases writes_dataPart i with h | rfl | rfl | rfl | rfl | rfl
  · exact (pseudocode_within i).safe h
  · exact .fixed fun _ _ => nandInitOp_safe
  · exact .fixed fun _ _ => nandReadPageOp_safe
  · exact .fixed fun _ _ => nandWritePageOp_safe
  · exact .fixed fun _ _ => nandVerifyPageOp_safe
  · exact .fixed fun _ _ => eccCorrectOp_safe

/-- So does the step that runs it. -/
theorem continueOp_endInv {m : Op Unit} (hm : Op.Safe State.OpInv m fun _ => State.OpInv) {s t : State}
    (hs : s.OpInv) (h : continueOp m s = .next t) : t.EndInv := by
  rcases continueOp_cases h with ⟨u, e, rfl⟩ | ⟨k, e⟩
  · have hu : u.OpInv := hm.ok hs e
    exact State.RunInv.endInv (G := fun _ _ => True) (s := normalEnd u) hu
  · exact hm.error hs e

/-- An accepted op starts with the boundary after acceptance. -/
theorem runOp_endInv {m : Op Unit} (hm : Op.Safe State.OpInv m fun _ => State.OpInv) {s t : State}
    (hs : s.OpInv) (h : runOp m s = .next t) : t.EndInv :=
  continueOp_endInv (.bind ((Op.Within.tick (F := [])).safe (by decide)) fun _ => hm) hs h

/-- An issued command keeps the invariant. -/
theorem issue_endInv {w : Word} {s t : State} (hs : s.DataInv) (hr : s.resetLine = false)
    (h : issue w s = .next t) : t.EndInv := by
  have hs' : (accept w s).OpInv := ⟨hs, hr, trivial⟩
  rcases issue_cases h with ⟨i, -, h⟩ | h
  · exact runOp_endInv (pseudocode_safe i) hs' (exec_eq_runOp i _ ▸ h)
  · exact runOp_endInv (m := illegalOp w) (raise_safe _ _) hs' h

/-- An act of the host keeps the invariant. -/
theorem hostAct_endInv {a : HostAct} {s t : State} (hs : s.EndInv) (h : hostAct a s = .next t) : t.EndInv := by
  obtain ⟨hd, hreset⟩ := hs
  obtain ⟨⟨hm, hp, hsp, hb⟩, hS, hG, hE, hL⟩ := id hd
  rcases hostAct_cases h with ⟨hr, w, h⟩ | ⟨hr, i, v, rfl⟩ | ⟨addr, b, rfl⟩ | rfl | rfl | ⟨k, rfl⟩
  · exact issue_endInv hd hr h
  · exact ⟨hd, fun h => absurd (hr.symm.trans h) (by decide)⟩
  · refine ⟨⟨⟨Memory.wf_writeByte s.mem _ b hm, hp, hsp, Memory.below_writeByte _ _ b addr.isLt s.mem hb⟩,
      hS, hG, hE, hL⟩, fun h => ?_⟩
    exact congrArg (fun u : State => { u with mem := s.mem.writeByte addr.toNat b }) (hreset h)
  · exact resetAsserted_endInv ⟨hm, hp, hsp, hb⟩ hS
  · exact ⟨hd, fun h => by cases h⟩
  · exact ⟨hd, fun h => congrArg (fun u : State => { u with host := k }) (hreset h)⟩

/-- A poll that goes on keeps the invariant; it is not under way while RESET is asserted. -/
theorem stepPoll_endInv {m : Op Unit} {s t : State} (hs : s.EndInv) (hb : s.stat.busy = true)
    (hm : pollingOp s.stat = some m) (h : continueOp m s = .next t) : t.EndInv := by
  obtain ⟨hd, hreset⟩ := hs
  have hr : s.resetLine = false := by
    cases hr : s.resetLine with
    | false => rfl
    | true =>
      rw [← hreset hr] at hb
      cases hb
  exact continueOp_endInv ((pollingOp_within hm).safe (by decide)) ⟨hd, hr, trivial⟩ h

/-- Settles O59: STAT by O58; for the rest a step runs a safe op or is an act of the host that keeps it. -/
theorem invKept : Obligations.InvKept := by
  intro s t ⟨hM, hS, hG, hE, hL, hstat, hreset⟩ h
  have hs : s.EndInv := ⟨⟨hM, hS, hG, hE, hL⟩, hreset⟩
  have ht : t.EndInv := by
    rcases step_cases h with ⟨hb, m, hm, h⟩ | ⟨_, rfl | ⟨a, rest, h⟩⟩
    · exact stepPoll_endInv hs hb hm h
    · exact hs
    · refine hostAct_endInv (s := { s with host := { s.host with script := rest } }) ⟨hs.1, fun hr => ?_⟩ h
      exact congrArg (fun u : State => { u with host := { s.host with script := rest } }) (hreset hr)
  obtain ⟨⟨hM', hS', hG', hE', hL'⟩, hreset'⟩ := ht
  exact ⟨hM', hS', hG', hE', hL', statStaysConsistent s t hstat h, hreset'⟩

end Sys2Proof.Machine
end

section
/-! PROOFS. Host buffer memory at the width of an access (`20_memory.md` R60): the bits of a little-endian read, and
a little-endian write as the bytes it stores. -/

namespace Sys2Proof.Machine

/-! ## Bits -/

/-- Bit `i` of a read of `n` bytes is bit `i % 8` of the byte at `a + i / 8`. -/
theorem Memory.getLsbD_readLE (m : Memory) : ∀ (n : Nat) (a : Word) (i : Nat), i < 32 →
    (m.readLE a n).getLsbD i
      = (decide (i < 8 * n) && (m.readByte (bufAddr a (i / 8))).getLsbD (i % 8))
  | 0, _, _, _ => by simp [Memory.readLE]
  | n + 1, a, i, hi => by
    rw [Memory.readLE, BitVec.getLsbD_or, BitVec.getLsbD_setWidth, BitVec.getLsbD_shiftLeft]
    by_cases hfirst : i < 8
    · have hbyte : bufAddr a (i / 8) = a.toNat := by simp [bufAddr, Nat.div_eq_of_lt hfirst]
      rw [hbyte, Nat.mod_eq_of_lt hfirst]
      simp [hfirst, hi, show i < 8 * (n + 1) by omega]
    · have hlow : (m.readByte a.toNat).getLsbD i = false := BitVec.getLsbD_of_ge _ _ (by omega)
      rw [hlow, Memory.getLsbD_readLE m n (a + 1) (i - 8) (by omega), bufAddr_succ,
        show (i - 8) / 8 + 1 = i / 8 by omega, show (i - 8) % 8 = i % 8 by omega]
      simp [hfirst, hi, show i - 8 < 8 * n ↔ i < 8 * (n + 1) by omega]

/-- The low `n` bits are kept, the others 0. -/
theorem getLsbD_truncN (n : Nat) (v : Word) {i : Nat} (hi : i < 32) :
    (truncN n v).getLsbD i = (decide (i < n) && v.getLsbD i) := by
  rw [truncN, BitVec.getLsbD_ofNat, Nat.testBit_mod_two_pow, BitVec.testBit_toNat]
  simp [hi]

/-! ## A little-endian access, byte by byte -/

/-- The `n` low bytes of a word, least significant first. -/
def wordBytes (n : Nat) (v : Word) : List Byte := (List.range n).map fun k => v.extractLsb' (8 * k) 8

theorem wordBytes_length (n : Nat) (v : Word) : (wordBytes n v).length = n := by simp [wordBytes]

theorem wordBytes_getD {n k : Nat} (v : Word) (hk : k < n) : (wordBytes n v).getD k 0 = v.extractLsb' (8 * k) 8 := by
  simp [wordBytes, hk]

theorem wordBytes_succ (n : Nat) (v : Word) : wordBytes (n + 1) v = v.setWidth 8 :: wordBytes n (v >>> 8) := by
  have hnext (k : Nat) : v.extractLsb' (8 * (k + 1)) 8 = (v >>> 8).extractLsb' (8 * k) 8 := by
    apply BitVec.eq_of_getLsbD_eq
    intro i _
    simp [show 8 * (k + 1) + i = 8 + (8 * k + i) by omega]
  simp only [wordBytes, List.range_succ_eq_map, List.map_cons, List.map_map, Function.comp_def, Nat.succ_eq_add_one,
    hnext]
  congr 1

/-- A write of `n` bytes stores them one after the other. -/
theorem Memory.writeLE_eq_writeBytesAt : ∀ (n : Nat) (m : Memory) (a v : Word),
    m.writeLE a n v = m.writeBytesAt a (wordBytes n v)
  | 0, _, _, _ => rfl
  | n + 1, m, a, v => by
    rw [wordBytes_succ, Memory.writeBytesAt, Memory.writeLE, Memory.writeLE_eq_writeBytesAt n]

/-- Byte `k` of a read of up to four bytes is the byte at `a + k`. -/
theorem Memory.readLE_byte (m : Memory) (a : Word) {n k : Nat} (hn : n ≤ 4) (hk : k < n) :
    (m.readLE a n).extractLsb' (8 * k) 8 = m.readByte (bufAddr a k) := by
  apply BitVec.eq_of_getLsbD_eq
  intro i hi
  rw [BitVec.getLsbD_extractLsb', m.getLsbD_readLE n a _ (by omega), show (8 * k + i) / 8 = k by omega,
    show (8 * k + i) % 8 = i by omega]
  simp [hi, show 8 * k + i < 8 * n by omega]

/-- A write puts byte `k` at `a + k`. -/
theorem Memory.readByte_writeLE (m : Memory) (a v : Word) {n k : Nat} (hm : m.wf = true) (hn : n ≤ 4) (hk : k < n) :
    (m.writeLE a n v).readByte (bufAddr a k) = v.extractLsb' (8 * k) 8 := by
  rw [Memory.writeLE_eq_writeBytesAt, Memory.readByte_writeBytesAt _ m a hm (by rw [wordBytes_length]; omega) k
    (by rwa [wordBytes_length]), wordBytes_getD v hk]

/-- What was written is read back. -/
theorem Memory.readLE_writeLE (m : Memory) (a v : Word) {n : Nat} (hm : m.wf = true) (hn : n ≤ 4) :
    (m.writeLE a n v).readLE a n = truncN (8 * n) v := by
  apply BitVec.eq_of_getLsbD_eq
  intro i hi
  rw [Memory.getLsbD_readLE _ n a i hi, getLsbD_truncN _ v hi]
  by_cases hin : i < 8 * n
  · rw [m.readByte_writeLE a v hm hn (by omega), BitVec.getLsbD_extractLsb', show 8 * (i / 8) + i % 8 = i by omega]
    simp [hin, Nat.mod_lt]
  · simp [hin]

/-- Settles O52: an access of up to four bytes does not meet itself, so it is its bytes. -/
theorem bufferMemory : Obligations.BufferMemory := by
  intro m a v n hm hn
  have hn : n ≤ 4 := by omega
  exact ⟨fun k hk => m.readLE_byte a hn hk, fun k hk => m.readByte_writeLE a v hm hn hk,
    fun x hx => m.readByte_writeLE_other n a v x hx, Memory.wf_writeLE a n m v hm, m.readLE_writeLE a v hm hn⟩

end Sys2Proof.Machine
end

section
/-! PROOFS. No step stops the machine: an op always answers, and the only fault is shut out by what the invariant
says of STAT (`20_memory.md` R61, `60_exceptions.md` R267). -/

namespace Sys2Proof.Machine

theorem continues_of_next {o : Host.Outcome State Fault Refusal} (h : ∃ t, o = .next t) : Continues o := by
  obtain ⟨t, rfl⟩ := h
  trivial

/-- Every op answers a next state. -/
theorem exec_next (i : Instr) (s : State) : ∃ t, exec i s = .next t :=
  exec_eq_runOp i s ▸ runOp_next (pseudocode i) s

/-- So does every command word, illegal ones included. -/
theorem issue_next (w : Word) (s : State) : ∃ t, issue w s = .next t := by
  unfold issue
  split
  · exact exec_next _ _
  · exact runOp_next _ _

/-- And every act of the host or of RESET. -/
theorem hostAct_next (a : HostAct) (s : State) : ∃ t, hostAct a s = .next t := by
  cases a with
  | write idx v =>
    simp only [hostAct, hostWrite]
    split
    · exact ⟨_, rfl⟩
    · split
      · exact issue_next v s
      · exact ⟨_, rfl⟩
  | read idx => exact ⟨_, rfl⟩
  | store addr b => exact ⟨_, rfl⟩
  | load addr => exact ⟨_, rfl⟩
  | assertReset => exact ⟨_, rfl⟩
  | releaseReset => exact ⟨_, rfl⟩

/-- An idle machine always has a next state. -/
theorem stepIdle_next (s : State) : ∃ t, stepIdle s = .next t := by
  unfold stepIdle
  split
  · exact ⟨s, rfl⟩
  · exact hostAct_next _ _

/-- In phase POLL of one of the three ops that poll, a poll is under way. -/
theorem pollingOp_of_opcPolls {t : Stat} (hp : t.phase = .poll) (ho : t.OpcPolls) : ∃ m, pollingOp t = some m := by
  rcases ho with ho | ho | ho
  · exact ⟨resumeErase, by simp [pollingOp, hp, ho]⟩
  · exact ⟨resumeWord, by simp [pollingOp, hp, ho]⟩
  · exact ⟨resumeBuffer, by simp [pollingOp, hp, ho]⟩

/-- A busy machine with a consistent STAT polls on: the fault `strayBusy` is shut out. -/
theorem stepBusy_next {s : State} (hs : s.StatInv) (hb : s.stat.busy = true) : ∃ t, stepBusy s = .next t := by
  obtain ⟨_, hbusy, _⟩ := hs
  obtain ⟨hphase, _, _, hopc⟩ := hbusy hb
  obtain ⟨m, hm⟩ := pollingOp_of_opcPolls hphase hopc
  rw [stepBusy, hm]
  exact continueOp_next m s

/-- Settles O60: a busy machine polls on, an idle one takes an act of the host. -/
theorem nothingStopsTheMachine : Obligations.NothingStopsTheMachine := by
  intro s ⟨_, _, _, _, _, hstat, _⟩
  refine continues_of_next ?_
  rw [step]
  split
  · next hb => exact stepBusy_next hstat hb
  · exact stepIdle_next s

end Sys2Proof.Machine
end

section
/-! PROOFS. Who writes host memory (`20_memory.md` R61, `42_ecc.md` R174): a page read stays inside its buffer and
the corrector inside its sub-page, whatever the devices answer. -/

namespace Sys2Proof.Machine

/-! ## Conditions on host memory -/

/-- The bytes of `m` outside the `n` from `base` on are those of `m0`. -/
def Memory.SameOutside (base : Word) (n : Nat) (m0 m : Memory) : Prop :=
  ∀ x, (∀ j < n, bufAddr base j ≠ x) → m.readByte x = m0.readByte x

/-- The condition `M` on a memory survives every write to the `n` bytes from `a` on. -/
def Writable (M : Memory → Prop) (a : Word) (n : Nat) : Prop :=
  ∀ m k len v, k + len ≤ n → M m → M (m.writeLE (a + BitVec.ofNat 32 k) len v)

theorem Memory.SameOutside.writable (base : Word) (n : Nat) (m0 : Memory) :
    Writable (Memory.SameOutside base n m0) base n := by
  intro m k len v hk hm x hx
  rw [Memory.readByte_writeLE_other, hm x hx]
  intro j hj
  rw [BitVec.add_assoc, ← BitVec.ofNat_add]
  exact hx (k + j) (by omega)

theorem Writable.sub {M : Memory → Prop} {a : Word} {n j k : Nat} (h : Writable M a n) (hj : j + k ≤ n) :
    Writable M (a + BitVec.ofNat 32 j) k := by
  intro m i len v hi hm
  rw [BitVec.add_assoc, ← BitVec.ofNat_add]
  exact h m (j + i) len v (by omega) hm

theorem Writable.whole {M : Memory → Prop} {a : Word} {n : Nat} (h : Writable M a n) {m : Memory} (hm : M m) (v : Word) :
    M (m.writeLE a n v) := by
  have hwrite := h m 0 n v (by omega) hm
  rwa [BitVec.add_zero] at hwrite

/-! ## While an op runs -/

/-- Since `s0` the op has changed neither operands nor geometry and mask; `L` holds of the slots, `M` of host
memory. -/
structure Since (s0 : State) (L : EccSlots → Prop) (M : Memory → Prop) (s : State) : Prop where
  opr : s.opr = s0.opr
  geo : s.geo = s0.geo
  mask : s.eccu.mask = s0.eccu.mask
  slots : L s.slots
  mem : M s.mem

/-- Nothing is said of the slots. -/
def AnySlots (_ : EccSlots) : Prop := True

/-- The ECC words in the slots are masked. -/
def MaskedSlots (mask : Word) (q : EccSlots) : Prop :=
  ∀ i, q.ecc.get i &&& mask = q.ecc.get i ∧ q.secc.get i &&& mask = q.secc.get i

/-- However the op stopped, `M` holds of host memory. -/
def LeavesMem (M : Memory → Prop) (_ : Ended) (t : State) : Prop := M t.mem

/-- The parts `Since` speaks of. -/
def sinceParts : List Part := [.geometry, .slots, .hostMem]

section
variable {s0 : State} {L : EccSlots → Prop} {M : Memory → Prop}

/-- Pseudocode that writes none of these parts keeps the conditions on them. -/
theorem Op.Within.since {F : List Part} {α : Type} {m : Op α} (h : Op.Within F m) (hF : ∀ p ∈ sinceParts, p ∉ F) :
    Op.Meets (LeavesMem M) (Since s0 L M) m fun _ => Since s0 L M := by
  have hmem {s t : State} (hw : Writes F s t) : t.mem = s.mem := hw.parts .hostMem (hF _ (by decide))
  have hkeep {s t : State} (hs : Since s0 L M s) (hw : Writes F s t) : Since s0 L M t := by
    have hslots : t.slots = s.slots := hw.parts .slots (hF _ (by decide))
    obtain ⟨hgeo, hmask⟩ : t.geo = s.geo ∧ t.eccu.mask = s.eccu.mask := hw.parts .geometry (hF _ (by decide))
    exact ⟨hw.opr.trans hs.opr, hgeo.trans hs.geo, hmask.trans hs.mask, hslots ▸ hs.slots, hmem hw ▸ hs.mem⟩
  refine .of_cases (fun s a t hs e => ?_) fun s k t hs e => ?_
  · have he := h.effect s
    rw [e] at he
    exact hkeep hs he
  · have he := h.effect s
    rw [e] at he
    cases k with
    | raised =>
      obtain ⟨u, k, info, hw, -, rfl⟩ := he
      exact (hkeep hs hw).mem
    | aborted =>
      obtain ⟨-, u, k, hw, rfl⟩ := he
      exact (hkeep hs hw).mem
    | polling => exact (hkeep hs he.2).mem

/-- A change of the slots. -/
theorem updateSlots_since {L' : EccSlots → Prop} {f : EccSlots → EccSlots} (h : ∀ q, L q → L' (f q)) :
    Op.Meets (LeavesMem M) (Since s0 L M) (update fun s => { s with slots := f s.slots }) fun _ => Since s0 L' M :=
  fun _ hs => ⟨hs.opr, hs.geo, hs.mask, h _ hs.slots, hs.mem⟩

theorem raise_since {α : Type} {Q : α → State → Prop} (k : ErrKind) (info : Word) :
    Op.Meets (LeavesMem M) (Since s0 L M) (raise k info : Op α) Q := fun _ hs => hs.mem

theorem raiseIf_since (c : Bool) {k : ErrKind} (info : Word) (hk : k.Raisable) :
    Op.Meets (LeavesMem M) (Since s0 L M) (raiseIf c k info) fun _ => Since s0 L M :=
  (Op.Within.raiseIf (F := []) c info hk).since (by decide)

theorem params_since : Op.Meets (LeavesMem M) (Since s0 L M) params fun _ => Since s0 L M :=
  (Op.Within.params (F := [])).since (by decide)

theorem setPhase_since (p : Phase) : Op.Meets (LeavesMem M) (Since s0 L M) (setPhase p) fun _ => Since s0 L M :=
  (setPhase_within (F := [.phase]) p (by decide)).since (by decide)

theorem setOpIdx_since (i : Nat) : Op.Meets (LeavesMem M) (Since s0 L M) (setOpIdx i) fun _ => Since s0 L M :=
  (setOpIdx_within (F := []) i).since (by decide)

theorem setCorr_since : Op.Meets (LeavesMem M) (Since s0 L M) setCorr fun _ => Since s0 L M :=
  (setCorr_within (F := [.corrFlag]) (by decide)).since (by decide)

theorem cle_since (v : Byte) : Op.Meets (LeavesMem M) (Since s0 L M) (cle v) fun _ => Since s0 L M :=
  (cle_within (F := []) v).since (by decide)

theorem datR_since : Op.Meets (LeavesMem M) (Since s0 L M) datR fun _ => Since s0 L M :=
  (datR_within (F := [.eccUnit, .nandAnswers]) (by decide) (by decide)).since (by decide)

/-- A read-and-restart returns a masked word. -/
theorem eccReadRestart_since :
    Op.Meets (LeavesMem M) (Since s0 L M) eccReadRestart
      fun v s => v &&& s0.eccu.mask = v ∧ Since s0 L M s := by
  have hkeep := (eccReadRestart_within (F := [.eccUnit]) (by decide)).since (by decide) (s0 := s0) (L := L) (M := M)
  intro s hs
  refine ⟨?_, hkeep s hs⟩
  rw [EccUnit.masked, hs.mask, BitVec.and_assoc, BitVec.and_self]

theorem forUp_since {f : Nat → Op Unit} : ∀ (n i : Nat),
    (∀ j, i ≤ j → j < i + n → Op.Meets (LeavesMem M) (Since s0 L M) (f j) fun _ => Since s0 L M) →
    Op.Meets (LeavesMem M) (Since s0 L M) (forUp f i n) fun _ => Since s0 L M
  | 0, _, _ => .pure fun _ h => h
  | n + 1, i, hf => .bind (hf i (Nat.le_refl i) (by omega)) fun _ =>
      forUp_since n (i + 1) fun j h1 h2 => hf j (by omega) (by omega)

theorem transfer_since {u : Nat} {f : Nat → Op Unit} : ∀ (n i : Nat),
    (∀ j, i ≤ j → j < i + n → Op.Meets (LeavesMem M) (Since s0 L M) (f j) fun _ => Since s0 L M) →
    Op.Meets (LeavesMem M) (Since s0 L M) (transfer u f i n) fun _ => Since s0 L M
  | 0, _, _ => (setXferCnt_within (F := []) 0).since (by decide)
  | n + 1, i, hf => .bind ((setXferCnt_within (F := []) _).since (by decide)) fun _ =>
      .bind (hf i (Nat.le_refl i) (by omega)) fun _ =>
      transfer_since n (i + 1) fun j h1 h2 => hf j (by omega) (by omega)

/-! ## Writes to host memory -/

theorem memWrite_since {a : Word} {n : Nat} (v : Word) (hw : Writable M a n) :
    Op.Meets (LeavesMem M) (Since s0 L M) (memWrite .host a n v) fun _ => Since s0 L M :=
  .bind ((emit_within (F := []) _).since (by decide)) fun _ _ hs =>
    ⟨hs.opr, hs.geo, hs.mask, hs.slots, hw.whole hs.mem v⟩

theorem readBytes_since {dst : Word} {n : Nat} (hw : Writable M dst n) :
    Op.Meets (LeavesMem M) (Since s0 L M) (readBytes .host dst n) fun _ => Since s0 L M := by
  refine .bind params_since fun p => .ite (fun _ => ?_) fun _ => ?_ <;>
    refine transfer_since _ _ fun j _ hj => .bind datR_since fun d => memWrite_since _ (hw.sub ?_) <;> omega

/-- The corrector writes the one byte its decision names. -/
theorem correct_since {stored computed base : Word}
    (hw : ∀ d, eccVerdict s0.eccu.mask stored computed = .single d →
      Writable M (base + BitVec.ofNat 32 (d >>> 3).toNat) 1) :
    Op.Meets (LeavesMem M) (Since s0 L M) (correct .host stored computed base) fun _ => Since s0 L M := by
  refine .look fun s hs => ?_
  rw [hs.mask]
  cases hv : eccVerdict s0.eccu.mask stored computed with
  | equal => exact .pure fun _ h => h
  | uncorrectable => exact .pure fun _ h => h
  | single d =>
    have hbyte := hw d hv
    rw [BitVec.ofNat_toNat] at hbyte
    exact .bind ((memRead_within (F := []) _ _ _).since (by decide)) fun v => .bind (memWrite_since _ hbyte) fun _ =>
      .pure fun _ h => h

/-! ## The checks -/

/-- Only a valid geometry passes the check for one. -/
theorem needGeometry_since : Op.Meets (LeavesMem M) (Since s0 L M) needGeometry
    fun _ s => s0.geo.valid = true ∧ Since s0 L M s := by
  refine .look fun s hs => ?_
  rw [hs.geo]
  cases hv : s0.geo.valid with
  | false => exact raise_since _ _
  | true => exact .pure fun _ h => ⟨rfl, h⟩

/-- The checks of a page op leave the slots cleared, so masked. -/
theorem pageChecks_since : Op.Meets (LeavesMem M) (Since s0 L M) pageChecks
    fun _ s => s0.geo.valid = true ∧ Since s0 (MaskedSlots s0.eccu.mask) M s := by
  have hzero : MaskedSlots s0.eccu.mask ⟨Quad.zero, Quad.zero, Quad.zero⟩ := by
    intro i
    have hz : Quad.zero.get i = 0 := by
      unfold Quad.get
      split <;> rfl
    simp [hz]
  have hclear : Op.Meets (LeavesMem M) (Since s0 L M) clearSlots fun _ => Since s0 (MaskedSlots s0.eccu.mask) M :=
    updateSlots_since (f := fun _ => ⟨Quad.zero, Quad.zero, Quad.zero⟩) fun _ _ => hzero
  exact .bind needGeometry_since fun _ => .of_and fun hv => .look fun _ _ => .ite
    (fun _ => .bind ((setRes1_within (F := []) _).since (by decide)) fun _ => raise_since _ _)
    fun _ => hclear.weaken (fun _ h => h) fun _ _ h => ⟨hv, h⟩

/-! ## `NAND_READ_PAGE` -/

section
variable {base : Word}

/-- The page's bytes may be written, so those of a sub-page may. -/
theorem Writable.subPage (hw : Writable M base (s0.geo.numOps.toNat * s0.geo.bytesPerOp.toNat)) {i : Nat}
    (hi : i < s0.geo.numOps.toNat) :
    Writable M (subPageBase base i s0.geo.bytesPerOp) s0.geo.bytesPerOp.toNat := by
  refine hw.sub ?_
  rw [← Nat.succ_mul]
  exact Nat.mul_le_mul_right _ hi

theorem readSubPage_since (hw : Writable M base (s0.geo.numOps.toNat * s0.geo.bytesPerOp.toNat)) {i : Nat}
    (hi : i < s0.geo.numOps.toNat) :
    Op.Meets (LeavesMem M) (Since s0 (MaskedSlots s0.eccu.mask) M) (readSubPage .host base s0.geo.bytesPerOp i)
      fun _ => Since s0 (MaskedSlots s0.eccu.mask) M :=
  .bind (setOpIdx_since i) fun _ => .bind (readBytes_since (hw.subPage hi)) fun _ =>
    .bind eccReadRestart_since fun v => .of_and fun hv =>
    updateSlots_since (f := fun q => { q with ecc := q.ecc.set i v }) fun _ hq j =>
      ⟨Quad.forall_set (P := fun w => w &&& s0.eccu.mask = w) (fun k => (hq k).1) hv i j, (hq j).2⟩

theorem readSpare_since (i : Nat) :
    Op.Meets (LeavesMem M) (Since s0 (MaskedSlots s0.eccu.mask) M) (readSpare s0.geo.sparePerOp i)
      fun _ => Since s0 (MaskedSlots s0.eccu.mask) M := by
  refine .bind (setOpIdx_since i) fun _ => .bind ((readStream_within (F := [.eccUnit, .nandAnswers, .spareBuf]) _
    (by decide) (by decide) (by decide)).since (by decide)) fun _ => .look fun s hs => ?_
  have hstored : storedEccOfSpare s &&& s0.eccu.mask = storedEccOfSpare s := by
    rw [storedEccOfSpare, storedEcc, hs.mask, BitVec.and_assoc, BitVec.and_self]
  exact updateSlots_since (f := fun q => { q with secc := q.secc.set i (storedEccOfSpare s) }) fun _ hq j =>
    ⟨(hq j).1, Quad.forall_set (P := fun w => w &&& s0.eccu.mask = w) (fun k => (hq k).2) hstored i j⟩

theorem correctSubPage_since (hg : s0.geo.Legal s0.eccu.mask)
    (hw : Writable M base (s0.geo.numOps.toNat * s0.geo.bytesPerOp.toNat)) {i : Nat} (hi : i < s0.geo.numOps.toNat) :
    Op.Meets (LeavesMem M) (Since s0 (MaskedSlots s0.eccu.mask) M) (correctSubPage .host base i)
      fun _ => Since s0 (MaskedSlots s0.eccu.mask) M := by
  refine .bind (setOpIdx_since i) fun _ => .look fun s hs => ?_
  obtain ⟨hecc, hsecc⟩ := hs.slots i
  rw [hs.geo]
  exact .bind (correct_since fun d hd => (hw.subPage hi).sub (single_inside hg hsecc hecc hd)) fun ⟨st, d⟩ =>
    .bind (updateSlots_since (f := fun q => { q with corr := q.corr.set i (corrRecord st d) }) fun _ hq => hq) fun _ =>
    .ite (fun _ => setCorr_since) fun _ => raiseIf_since _ _ (by decide)

theorem pageRead_since (hg : s0.geo.Legal s0.eccu.mask)
    (hw : Writable M base (s0.geo.numOps.toNat * s0.geo.bytesPerOp.toNat)) (block page : Word) :
    Op.Meets (LeavesMem M) (Since s0 (MaskedSlots s0.eccu.mask) M) (pageRead block page .host base)
      fun _ => Since s0 (MaskedSlots s0.eccu.mask) M := by
  refine .look fun s hs => ?_
  rw [hs.geo]
  exact .bind params_since fun p => .bind (setPhase_since _) fun _ => .bind (cle_since _) fun _ =>
    .bind (setPhase_since _) fun _ => .bind ((addrCycles_within (F := []) _ _).since (by decide)) fun _ =>
    .bind ((readConfirm_within (F := [.phase]) _ (by decide)).since (by decide)) fun _ =>
    .bind (setPhase_since _) fun _ =>
    .bind ((waitRdy_within (F := [.readyAnswers]) (by decide)).since (by decide)) fun _ =>
    .bind (setPhase_since _) fun _ => .bind eccReadRestart_since fun _ => .of_and fun _ =>
    .bind (forUp_since _ _ fun i _ hi => readSubPage_since hw (by omega)) fun _ =>
    .bind (setPhase_since _) fun _ => .bind (forUp_since _ _ fun i _ _ => readSpare_since i) fun _ =>
    .bind (setPhase_since _) fun _ => forUp_since _ _ fun i _ hi => correctSubPage_since hg hw (by omega)

end

/-- A page read writes inside its buffer. -/
theorem nandReadPageOp_since (hs0 : s0.GeoInv)
    (hw : Writable M s0.opr.a2 (s0.geo.numOps.toNat * s0.geo.bytesPerOp.toNat)) :
    Op.Meets (LeavesMem M) (Since s0 AnySlots M) nandReadPageOp fun _ => Since s0 (MaskedSlots s0.eccu.mask) M := by
  refine .bind pageChecks_since fun _ => .of_and fun hv => .look fun s hs => ?_
  rw [hs.opr]
  exact .bind (pageRead_since (hs0.1 hv).1 hw _ _) fun _ => (countCorrected_within (F := [])).since (by decide)

/-! ## `ECC_CORRECT` -/

/-- What `ECC_CORRECT` decides, from its operands and the mask (`42_ecc.md` R176). -/
def operandVerdict (s : State) : EccVerdict :=
  eccVerdict s.eccu.mask (s.opr.a0 &&& s.eccu.mask) (s.opr.a1 &&& s.eccu.mask)

/-- `ECC_CORRECT` writes, with a valid geometry, the byte it decides to repair. -/
theorem eccCorrectOp_since
    (hw : s0.geo.valid = true → ∀ d, operandVerdict s0 = .single d →
      Writable M (s0.opr.a2 + BitVec.ofNat 32 (d >>> 3).toNat) 1) :
    Op.Meets (LeavesMem M) (Since s0 AnySlots M) eccCorrectOp fun _ => Since s0 AnySlots M := by
  have hslots (f : EccSlots → EccSlots) : Op.Meets (LeavesMem M) (Since s0 AnySlots M)
      (update fun s => { s with slots := f s.slots }) fun _ => Since s0 AnySlots M :=
    updateSlots_since fun _ h => h
  refine .bind needGeometry_since fun _ => .of_and fun hv => .bind (setPhase_since _) fun _ => .look fun s hs => ?_
  rw [hs.opr, hs.mask]
  exact .bind (hslots fun q => { q with secc := q.secc.set 0 _ }) fun _ =>
    .bind (hslots fun q => { q with ecc := q.ecc.set 0 _ }) fun _ =>
    .bind (correct_since (hw hv)) fun ⟨st, d⟩ =>
    .bind (hslots fun q => { q with corr := q.corr.set 0 (corrRecord st d) }) fun _ =>
    .bind ((setRes0_within (F := []) _).since (by decide)) fun _ =>
    .bind ((setRes1_within (F := []) _).since (by decide)) fun _ =>
    .ite (fun _ => setCorr_since) fun _ => raiseIf_since _ _ (by decide)

/-- With a legal geometry that byte is inside the sub-page. -/
theorem operandVerdict_inside {s : State} (hg : s.geo.Legal s.eccu.mask) {d : Half} (h : operandVerdict s = .single d) :
    (d >>> 3).toNat < s.geo.bytesPerOp.toNat :=
  single_inside hg (by rw [BitVec.and_assoc, BitVec.and_self]) (by rw [BitVec.and_assoc, BitVec.and_self]) h

end

/-! ## Whole ops -/

/-- What holds of host memory at every step of an op holds at its end. -/
theorem exec_mem {i : Instr} {s t : State} {L : EccSlots → Prop} {M : Memory → Prop}
    (hm : Op.Meets (LeavesMem M) (Since s AnySlots M) (pseudocode i) fun _ => Since s L M) (hM : M s.mem)
    (h : exec i s = .next t) : M t.mem := by
  have hrun : Op.Meets (LeavesMem M) (Since s AnySlots M) (tick >>= fun _ => pseudocode i) fun _ => Since s L M :=
    .bind ((Op.Within.tick (F := [])).since (by decide)) fun _ => hm
  have hs : Since s AnySlots M s := ⟨rfl, rfl, rfl, trivial, hM⟩
  rw [exec_eq_runOp, runOp_eq_continueOp] at h
  rcases continueOp_cases h with ⟨u, e, rfl⟩ | ⟨k, e⟩
  · exact (hrun.ok hs e).mem
  · exact hrun.error hs e

theorem nandReadPage_mem {s t : State} (hs : s.GeoInv) (h : exec .nandReadPage s = .next t) :
    Memory.SameOutside s.opr.a2 (s.geo.numOps.toNat * s.geo.bytesPerOp.toNat) s.mem t.mem :=
  exec_mem (nandReadPageOp_since hs (Memory.SameOutside.writable _ _ _)) (fun _ _ => rfl) h

/-- `ECC_CORRECT` leaves host memory alone, or writes one byte of its sub-page. -/
theorem eccCorrect_mem {s t : State} (hs : s.GeoInv) (h : exec .eccCorrect s = .next t) :
    t.mem = s.mem ∨ ∃ j < s.geo.bytesPerOp.toNat, j < 512
      ∧ Memory.SameOutside (s.opr.a2 + BitVec.ofNat 32 j) 1 s.mem t.mem := by
  by_cases hrepair : s.geo.valid = true ∧ ∃ d, operandVerdict s = .single d
  · obtain ⟨hv, d, hd⟩ := hrepair
    have hg := (hs.1 hv).1
    have hinside := operandVerdict_inside hg hd
    have hsize := hg.sizes.2.1
    refine .inr ⟨(d >>> 3).toNat, hinside, by omega, ?_⟩
    refine exec_mem (eccCorrectOp_since fun _ d' hd' => ?_) (fun _ _ => rfl) h
    obtain rfl : d = d' := EccVerdict.single.inj (hd.symm.trans hd')
    exact Memory.SameOutside.writable _ _ _
  · refine .inl (exec_mem (M := fun m => m = s.mem) (eccCorrectOp_since fun hv d hd => ?_) rfl h)
    exact absurd ⟨hv, d, hd⟩ hrepair

/-- Outside a range of one byte are all the others. -/
theorem Memory.SameOutside.byte {base : Word} {j : Nat} {m0 m : Memory}
    (h : Memory.SameOutside (base + BitVec.ofNat 32 j) 1 m0 m) {x : Nat} (hx : bufAddr base j ≠ x) :
    m.readByte x = m0.readByte x := by
  refine h x fun k hk => ?_
  obtain rfl : k = 0 := by omega
  rwa [bufAddr, BitVec.add_zero]

theorem writer_of_hostMem {i : Instr} : Part.hostMem ∈ partsOf i → i = .nandReadPage ∨ i = .eccCorrect := by
  cases i <;> decide

/-- Settles O54: only two ops may write host memory, a page read inside its buffer, the corrector the byte it
decides to repair. -/
theorem whoWritesHostMemory : Obligations.WhoWritesHostMemory := by
  intro i s t hs hr h
  refine ⟨fun h1 h2 => ?_, ?_, ?_, ?_⟩
  · exact ((exec_effect h).keeps hr).parts .hostMem (mt writer_of_hostMem (by simp [h1, h2])) (by decide)
  · rintro rfl
    exact nandReadPage_mem hs h
  · rintro rfl
    rcases eccCorrect_mem hs h with hsame | ⟨j, -, hj, hbyte⟩
    · exact ⟨0, by decide, fun x _ => by rw [hsame]⟩
    · exact ⟨j, hj, fun x hx => hbyte.byte hx⟩
  · rintro rfl x hx
    rcases eccCorrect_mem hs h with hsame | ⟨j, hj, -, hbyte⟩
    · rw [hsame]
    · exact hbyte.byte (hx j hj)

end Sys2Proof.Machine
end

section
/-! PROOFS. Command words (`30_encoding.md`): the opcode map and its inverse, which words select an op and which are
illegal, and what a word written to CMD of an idle NECC does. -/

namespace Sys2Proof.Machine

/-! ## The opcode map (R95, R96) -/

theorem opcodeMap_opcodeOf (i : Instr) : opcodeMap (opcodeOf i) = some i := by
  cases i <;> rfl

/-- The opcode map and the table of opcodes are one relation. -/
theorem opcodeMap_eq_some_iff {c : Byte} {i : Instr} : opcodeMap c = some i ↔ c = opcodeOf i :=
  ⟨opcodeOf_opcodeMap, fun h => h ▸ opcodeMap_opcodeOf i⟩

/-- The map leaves an opcode out when no row of it applies. -/
theorem row_eq_none_iff {p : Prop} [Decidable p] {a : Instr} {o : Option Instr} :
    (if p then some a else o) = none ↔ ¬p ∧ o = none := by
  split <;> simp_all

/-- The opcodes the map leaves out are the reserved ranges of R96. -/
theorem opcodeMap_eq_none_iff {c : Byte} :
    opcodeMap c = none ↔ c.toNat = 0 ∨ (0x0A ≤ c.toNat ∧ c.toNat ≤ 0x0F) ∨ (0x12 ≤ c.toNat ∧ c.toNat ≤ 0x1F)
      ∨ (0x27 ≤ c.toNat ∧ c.toNat ≤ 0x2F) ∨ 0x34 ≤ c.toNat := by
  simp only [opcodeMap, row_eq_none_iff, BitVec.toNat_eq, BitVec.reduceToNat, and_true]
  omega

/-! ## The fields of a command word (R90, R92) -/

/-- A word is an op's command word exactly when its two fields are those of the op: the fields cover all 32 bits. -/
theorem eq_encode_iff {w : Word} {i : Instr} :
    w = encode i ↔ w.extractLsb' 8 24 = 0 ∧ w.extractLsb' 0 8 = opcodeOf i := by
  have hfields : w = w.extractLsb' 8 24 ++ w.extractLsb' 0 8 := by
    rw [BitVec.extractLsb'_append_extractLsb'_eq_extractLsb' (start₂ := 8) (len₁ := 8) rfl, BitVec.extractLsb'_eq_self]
  constructor
  · rintro rfl
    exact ⟨BitVec.extractLsb'_append_eq_left, BitVec.extractLsb'_append_eq_right⟩
  · rintro ⟨hzero, hop⟩
    rw [hfields, hzero, hop, encode]

/-- The decoder's two tests: ZERO is 0, and OPCODE is in the map. -/
theorem decode_eq_ok_iff {w : Word} {i : Instr} :
    decode w = .ok i ↔ w.extractLsb' 8 24 = 0 ∧ opcodeMap (w.extractLsb' 0 8) = some i := by
  by_cases hzero : w.extractLsb' 8 24 = 0
  · cases hop : opcodeMap (w.extractLsb' 0 8) <;> simp [decode, splitCommandWord, hzero, hop]
  · simp only [decode, splitCommandWord, hzero, if_false, reduceCtorEq, false_and]

/-- The decoder refuses a word that selects no op: one of its two tests fails. -/
theorem decode_eq_error_iff {w : Word} :
    (∃ e, decode w = .error e) ↔ w.extractLsb' 8 24 ≠ 0 ∨ opcodeMap (w.extractLsb' 0 8) = none := by
  have hrefused : (∃ e, decode w = .error e) ↔ ∀ i, decode w ≠ .ok i := by
    cases decode w <;> simp
  simp only [hrefused, ne_eq, decode_eq_ok_iff, not_and, Option.eq_none_iff_forall_ne_some]
  rw [forall_comm, imp_iff_not_or]

/-- Settles O1: both sides say that ZERO is 0 and OPCODE is the op's. -/
theorem decodeIsInverseOfEncode : Obligations.DecodeIsInverseOfEncode := by
  intro w i
  rw [decode_eq_ok_iff, opcodeMap_eq_some_iff, eq_encode_iff]

theorem decode_encode (i : Instr) : decode (encode i) = .ok i :=
  (decodeIsInverseOfEncode _ i).mpr rfl

/-- Settles O2: each word written out is the op's command word. -/
theorem writtenWordsDecode : Obligations.WrittenWordsDecode :=
  ⟨decode_encode .nandInit, decode_encode .nandReadPage, decode_encode .nandEraseBlocks, decode_encode .nandWaitStatus,
    decode_encode .eccRestart, decode_encode .eccCorrect, decode_encode .norAttach, decode_encode .norWriteBuffer,
    decode_encode .norBlockInfo, decode_encode .busCle, decode_encode .busRdata⟩

/-! ## A word written to CMD (R91 to R93) -/

/-- The next step of an idle machine whose host writes to CMD issues the word. -/
theorem step_writeCmd {s : State} {w : Word} {rest : List HostAct} (hidle : s.Idle)
    (hs : s.host.script = .write 0 w :: rest) :
    step s = issue w { s with host := { s.host with script := rest } } := by
  obtain ⟨hbusy, hreset⟩ := hidle
  rw [step_idle hbusy hs]
  simp [hostAct, hostWrite, hreset]

theorem issue_of_decode_ok {w : Word} {i : Instr} (h : decode w = .ok i) (s : State) :
    issue w s = exec i (accept w s) := by
  rw [issue, h]

/-- An illegal word is accepted and raises its error, and nothing happens in between (R92). -/
theorem issue_of_decode_error {w : Word} {e : DecodeError} (h : decode w = .error e) {s : State}
    (hq : s.Quiet) : issue w s = .next (errorEntry .illegalCommand w (accept w s)) := by
  have hraise : illegalOp w (accept w s) = .error .raised (errorEntry .illegalCommand w (accept w s)) := raise_run ..
  rw [issue, h]
  exact runOp_error hq hraise

/-- Settles O4: the step issues the word, and the word decodes to the op. -/
theorem stepRunsDecodedInstruction : Obligations.StepRunsDecodedInstruction := by
  intro s w rest i hidle hs hw
  rw [step_writeCmd hidle hs, issue_of_decode_ok hw]

/-- Settles O3: the illegal words are those one of the decoder's two tests refuses, and the step of one is its
acceptance followed by the error entry. -/
theorem illegalWords : Obligations.IllegalWords := by
  refine ⟨fun w => ?_, fun s w rest e hidle hq hs hw => ?_⟩
  · rw [decode_eq_error_iff, opcodeMap_eq_none_iff]
  · have hquiet : State.Quiet { s with host := { s.host with script := rest } } := hq
    rw [step_writeCmd hidle hs, issue_of_decode_error hw hquiet]
    rfl

/-- Settles O5: field by field, acceptance changes STAT and the results, and what it does not name stays. -/
theorem acceptance : Obligations.Acceptance := fun w s =>
  ⟨accept_stat w s, accept_res w s, accept_eccu w s, accept_slots w s, accept_geo w s, accept_nor w s, accept_norId w s,
    accept_opr w s, accept_mem w s⟩

end Sys2Proof.Machine
end

section
/-! PROOFS. The bus access layer (`40_bus_access.md` R117 to R120): each op is one NAND cycle, a data cycle followed by
the ECC unit. -/

namespace Sys2Proof.Machine

/-- In a quiet environment an op whose pseudocode goes through ends normally. -/
theorem exec_of_pseudocode_ok {i : Instr} {s t : State} (hq : s.Quiet) (h : pseudocode i s = .ok () t) :
    exec i s = .next (normalEnd t) := by
  rw [exec_eq_runOp, runOp_ok hq h]

/-- The ECC unit absorbs the bytes of a data cycle exactly if it is running (R161, R162). -/
theorem EccUnit.absorbCycle_eq_ite (e : EccUnit) (bus16 : Bool) (v : Half) :
    e.absorbCycle bus16 v = if e.run then e.absorbBytes (cycleBytes bus16 v) else e := by
  rw [EccUnit.absorbCycle_eq]
  split
  · rfl
  · next hrun => exact absorbBytes_stopped _ e (by simpa using hrun)

section
variable {s : State} (hq : s.Quiet)
include hq

theorem busCleOp_run : busCleOp s = .ok ()
    { s with
      stat := { s.stat with phase := .cmd }
      events := .cle ((s.opr.a0.extractLsb' 0 8).setWidth 16) :: s.events } := by
  rw [busCleOp, Op.bind_ok (setPhase_run _ _), Op.bind_ok (Op.run_get _), cle_run (by exact hq),
    BitVec.setWidth_eq_extractLsb' (x := s.opr.a0) (by decide)]

theorem busAleOp_run : busAleOp s = .ok ()
    { s with
      stat := { s.stat with phase := .addr }
      events := .ale ((s.opr.a0.extractLsb' 0 8).setWidth 16) :: s.events } := by
  rw [busAleOp, Op.bind_ok (setPhase_run _ _), Op.bind_ok (Op.run_get _), ale_run (by exact hq),
    BitVec.setWidth_eq_extractLsb' (x := s.opr.a0) (by decide)]

theorem busWdataOp_run : busWdataOp s = .ok ()
    (let v := truncW s.cfg.params.nandBus16 (s.opr.a0.extractLsb' 0 16)
     { s with
       stat := { s.stat with phase := .data }
       eccu := s.eccu.absorbCycle s.cfg.params.nandBus16 v
       events := .dw v :: s.events }) := by
  rw [busWdataOp, Op.bind_ok (setPhase_run _ _), Op.bind_ok (Op.run_get _), datW_run (by exact hq),
    BitVec.setWidth_eq_extractLsb' (x := s.opr.a0) (by decide)]

theorem busRdataOp_run : busRdataOp s = .ok ()
    (let v := truncW s.cfg.params.nandBus16 s.dev.drValue
     { s with
       stat := { s.stat with phase := .data }
       res := { s.res with res0 := v.setWidth 32 }
       eccu := s.eccu.absorbCycle s.cfg.params.nandBus16 v
       dev := s.dev.drRest
       events := .dr v :: s.events }) := by
  rw [busRdataOp, Op.bind_ok (setPhase_run _ _), Op.bind_ok (datR_run (by exact hq)), setRes0_run]

end

/-- Settles O21: each op sends its one cycle and ends, which sets the phase back. -/
theorem busCommandAndAddressCycles : Obligations.BusCommandAndAddressCycles := fun _ hq =>
  ⟨exec_of_pseudocode_ok (i := .busCle) hq (busCleOp_run hq),
    exec_of_pseudocode_ok (i := .busAle) hq (busAleOp_run hq)⟩

/-- Settles O22: each op's data cycle goes to the ECC unit, which looks at RUN; the cycle read is the next answer of
the device. -/
theorem busDataCycles : Obligations.BusDataCycles := by
  intro s hq
  refine ⟨?_, fun d rest hdr => ?_⟩
  · simp only [← EccUnit.absorbCycle_eq_ite]
    exact exec_of_pseudocode_ok (i := .busWdata) hq (busWdataOp_run hq)
  · simp only [← EccUnit.absorbCycle_eq_ite, ← Device.drRest_cons s.dev d rest hdr,
      ← Device.drValue_cons s.dev d rest hdr]
    exact exec_of_pseudocode_ok (i := .busRdata) hq (busRdataOp_run hq)

end Sys2Proof.Machine
end

section
/-! PROOFS. The NAND waits and discovery (`41_nand_discovery_wait.md` R131 to R144): the two polls as ops, the three
ends of `NAND_INIT`, and the geometry it derives, field by field. -/

namespace Sys2Proof.Machine

/-- In a quiet environment an op whose pseudocode stops early ends where it stopped. -/
theorem exec_of_pseudocode_error {i : Instr} {s t : State} {e : Ended} (hq : s.Quiet)
    (h : pseudocode i s = .error e t) : exec i s = .next t := by
  rw [exec_eq_runOp, runOp_error hq h]

/-- The loop registers where a poll stops with `n` polls left: only POLLCNT is another (`10_state.md` R27). -/
def polledLoop (n : Nat) (s : State) : LoopRegs := { s.loop with pollCnt := BitVec.ofNat 32 n }

/-! ## `NAND_WAIT_RDY` (R131) -/

theorem nandWaitRdyOp_eq_waitRdy (s : State) :
    nandWaitRdyOp s = waitRdy { s with stat := { s.stat with phase := .waitRdy } } := by
  rw [nandWaitRdyOp, Op.bind_ok (setPhase_run _ _)]

/-- Settles O23: the op is the ready poll, which ends at the first ready sample or with the last busy one it may
take. -/
theorem nandWaitRdyOp_spec : Obligations.NandWaitRdyOp := by
  intro s rest hq
  refine ⟨fun k hk hrdy => ⟨polledLoop (s.opr.timeout.toNat - k) s, ?_⟩, fun hrdy => ⟨polledLoop 0 s, ?_⟩⟩
  · exact exec_of_pseudocode_ok (i := .nandWaitRdy) hq
      ((nandWaitRdyOp_eq_waitRdy s).trans (waitRdy_ready hq hk hrdy))
  · exact exec_of_pseudocode_error (i := .nandWaitRdy) hq
      ((nandWaitRdyOp_eq_waitRdy s).trans (waitRdy_timeout hq hrdy))

/-! ## `NAND_WAIT_STATUS` (R133) -/

theorem nandWaitStatusOp_eq_waitStatusLoop (s : State) :
    nandWaitStatusOp s = waitStatusLoop (waitKind s.opr.a0) s.opr.timeout.toNat
      { s with stat := { s.stat with phase := .waitStatus } } := by
  rw [nandWaitStatusOp, Op.bind_ok (setPhase_run _ _), Op.bind_ok (Op.run_get _), waitStatus,
    Op.bind_ok (Op.run_get _)]

/-- The last byte of a poll is the one LASTSTAT holds. -/
theorem lastStatus_append_singleton (old : Word) (l : List Half) (v : Half) :
    lastStatus old (l ++ [v]) = (v.extractLsb' 0 8).setWidth 32 := by
  simp [lastStatus]

/-- The state in which a status poll with these answers leaves the op, `n` polls left. -/
def afterWaitStatus (l rest : List Half) (n : Nat) (s : State) : State :=
  { afterStatus l rest s with
    stat := { s.stat with phase := .waitStatus }
    loop := polledLoop n s }

/-- A status answer that shows ready ends the poll, and its error bit decides how. -/
theorem nandWaitStatusOp_ready {s : State} {polls rest : List Half} {v : Half} (hq : s.Quiet)
    (hbusy : ∀ x ∈ polls, ¬ statusReady s.cfg.params x) (hlen : polls.length < s.opr.timeout.toNat)
    (hdr : s.dev.dr = polls ++ v :: rest) (hv : statusReady s.cfg.params v) :
    nandWaitStatusOp s =
      raiseIf (v.extractLsb' 0 8 &&& s.cfg.params.stFail != 0) (waitKind s.opr.a0) ((v.extractLsb' 0 8).setWidth 32)
        (afterWaitStatus (polls ++ [v]) rest (s.opr.timeout.toNat - polls.length) s) :=
  (nandWaitStatusOp_eq_waitStatusLoop s).trans
    (waitStatusLoop_ready (waitKind s.opr.a0) polls _ _ v rest hq hlen hdr hbusy hv)

/-- TIMEOUT answers that do not show ready end the poll with Timeout. -/
theorem nandWaitStatusOp_timeout {s : State} {polls rest : List Half} (hq : s.Quiet)
    (hbusy : ∀ x ∈ polls, ¬ statusReady s.cfg.params x) (hlen : polls.length = s.opr.timeout.toNat)
    (hdr : s.dev.dr = polls ++ rest) :
    nandWaitStatusOp s = .error .raised (errorEntry .timeout 0 (afterWaitStatus polls rest 0 s)) := by
  rw [nandWaitStatusOp_eq_waitStatusLoop, ← hlen]
  exact waitStatusLoop_timeout (waitKind s.opr.a0) polls _ rest hq hdr hbusy

/-- Settles O24: the op is the status poll; the error bit of the answer that shows ready selects between the normal
end and the error entry. -/
theorem nandWaitStatusOp_spec : Obligations.NandWaitStatusOp := by
  intro s polls rest hq hbusy
  refine ⟨fun v hlen hdr hv => ⟨polledLoop (s.opr.timeout.toNat - polls.length) s, fun hok => ?_, fun hfail => ?_⟩,
    fun hlen hdr => ⟨polledLoop 0 s, ?_⟩⟩
  · have hbit : (v.extractLsb' 0 8 &&& s.cfg.params.stFail != 0) = false := by
      simpa [statusFail] using hok
    have hrun := nandWaitStatusOp_ready hq hbusy hlen hdr hv
    rw [hbit, raiseIf_false] at hrun
    rw [exec_of_pseudocode_ok (i := .nandWaitStatus) hq hrun, ← lastStatus_append_singleton s.res.lastStat polls v]
    rfl
  · have hbit : (v.extractLsb' 0 8 &&& s.cfg.params.stFail != 0) = true := bne_iff_ne.mpr hfail
    have hrun := nandWaitStatusOp_ready hq hbusy hlen hdr hv
    rw [hbit, raiseIf_true] at hrun
    rw [exec_of_pseudocode_error (i := .nandWaitStatus) hq hrun, ← lastStatus_append_singleton s.res.lastStat polls v]
    rfl
  · exact exec_of_pseudocode_error (i := .nandWaitStatus) hq (nandWaitStatusOp_timeout hq hbusy hlen hdr)

/-! ## `NAND_INIT` (R136, R137) -/

@[simp] theorem clearGeometry_run (s : State) :
    clearGeometry s = .ok () { s with geo := Geo.zero, eccu := { s.eccu with mask := 0 } } := rfl

@[simp] theorem setIds_run (m d : Byte) (s : State) :
    setIds m d s = .ok () { s with geo := { s.geo with mfr := m, dev := d } } := rfl

/-- The state in which `NAND_INIT` starts to wait: the geometry cleared, the reset command sent. -/
def flashReset (s : State) : State :=
  { s with
    stat := { s.stat with phase := .waitRdy }
    geo := Geo.zero
    eccu := { s.eccu with mask := 0 }
    events := cleEvent s.cfg.params.cmdReset :: s.events }

/-- The last step of `NAND_INIT`: the geometry of the row with the device id, if there is one. -/
def adoptDevice (p : Config.Params) (m d : Byte) : Op Unit :=
  match lookupDevice p d with
  | none => raise .unknownDevice (m.setWidth 32)
  | some row => setGeometry row m d

/-- What `NAND_INIT` does once the flash is ready: it reads the two id bytes and looks the device up. -/
def identify (p : Config.Params) : Op Unit := do
  setPhase .cmd
  cle p.cmdReadId
  setPhase .addr
  ale p.rdIdAddr
  setPhase .data
  let m ← readByte
  let d ← readByte
  setIds m d
  setRes0 (m.setWidth 32)
  setRes1 (d.setWidth 32)
  setPhase .lookup
  adoptDevice p m d

/-- `NAND_INIT` is the reset of the flash, the ready poll and the identification. -/
theorem nandInitOp_eq {s : State} (hq : s.Quiet) :
    nandInitOp s = (waitRdy >>= fun _ => identify s.cfg.params) (flashReset s) := by
  rw [nandInitOp, Op.bind_ok (setPhase_run _ _), Op.bind_ok (clearGeometry_run _), Op.bind_ok (params_run _),
    Op.bind_ok (setPhase_run _ _), Op.bind_ok (cle_run (by exact hq) _), Op.bind_ok (setPhase_run _ _)]
  rfl

/-- The state after the two id bytes `m` and `d` are read. -/
def identified (m d : Half) (rest : List Half) (s : State) : State :=
  { s with
    stat := { s.stat with phase := .lookup }
    res := { s.res with res0 := (m.extractLsb' 0 8).setWidth 32, res1 := (d.extractLsb' 0 8).setWidth 32 }
    eccu := s.eccu.absorbBytes (streamBytes s.cfg.params.nandBus16 [m, d])
    geo := { s.geo with mfr := m.extractLsb' 0 8, dev := d.extractLsb' 0 8 }
    dev := { s.dev with dr := rest }
    events := ([cleEvent s.cfg.params.cmdReadId, .ale (s.cfg.params.rdIdAddr.setWidth 16)]
      ++ drEvents s.cfg.params.nandBus16 [m, d]).reverse ++ s.events }

/-- A byte read takes the next answer of the device. -/
theorem readByte_cons {s : State} {v : Half} {rest : List Half} (hq : s.Quiet) (hdr : s.dev.dr = v :: rest) :
    readByte s = .ok (v.extractLsb' 0 8)
      { s with
        dev := { s.dev with dr := rest }
        events := .dr (truncW s.cfg.params.nandBus16 v) :: s.events
        eccu := s.eccu.absorbBytes (cycleBytes s.cfg.params.nandBus16 v) } := by
  rw [readByte_run hq, Device.drValue_cons _ _ _ hdr, Device.drRest_cons _ _ _ hdr, extractLsb'_truncW,
    EccUnit.absorbCycle_eq, cycleBytes_truncW]

theorem identify_run {p : Config.Params} {s : State} {m d : Half} {rest : List Half} (hp : s.cfg.params = p)
    (hq : s.Quiet) (hdr : s.dev.dr = m :: d :: rest) :
    identify p s = adoptDevice p (m.extractLsb' 0 8) (d.extractLsb' 0 8) (identified m d rest s) := by
  subst hp
  rw [identify, Op.bind_ok (setPhase_run _ _), Op.bind_ok (cle_run (by exact hq) _), Op.bind_ok (setPhase_run _ _),
    Op.bind_ok (ale_run (by exact hq) _), Op.bind_ok (setPhase_run _ _),
    Op.bind_ok (readByte_cons (v := m) (rest := d :: rest) (by exact hq) (by exact hdr)),
    Op.bind_ok (readByte_cons (v := d) (rest := rest) (by exact hq) (by rfl)), Op.bind_ok (setIds_run _ _ _),
    Op.bind_ok (setRes0_run _ _), Op.bind_ok (setRes1_run _ _), Op.bind_ok (setPhase_run _ _)]
  simp only [← EccUnit.absorbBytes_append]
  simp [identified, streamBytes, drEvents, cleEvent]

theorem EccUnit.absorb_withMask (e : EccUnit) (w : Word) (b : Byte) :
    { e with mask := w }.absorb b = { e.absorb b with mask := w } := by
  simp only [EccUnit.absorb]
  split <;> rfl

/-- The ECC mask has no part in absorbing. -/
theorem EccUnit.absorbBytes_withMask (e : EccUnit) (w : Word) (l : List Byte) :
    { e with mask := w }.absorbBytes l = { e.absorbBytes l with mask := w } := by
  induction l generalizing e with
  | nil => rfl
  | cons b l ih => rw [absorbBytes_cons, absorb_withMask, ih, absorbBytes_cons]

/-- The state from `s` on when the flash is ready after `k` busy samples and its id is read: where the look-up
starts, the geometry still cleared but for the ids. -/
def readyAndIdentified (k : Nat) (m d : Half) (restR : List Bool) (restD : List Half) (s : State) : State :=
  let p := s.cfg.params
  { identified m d restD s with
    eccu := { s.eccu.absorbBytes (streamBytes p.nandBus16 [m, d]) with mask := 0 }
    geo := { Geo.zero with mfr := m.extractLsb' 0 8, dev := d.extractLsb' 0 8 }
    dev := { s.dev with rdy := restR, dr := restD }
    loop := polledLoop (s.opr.timeout.toNat - k) s
    events := ([cleEvent p.cmdReset] ++ rdyEvents k ++ [cleEvent p.cmdReadId, .ale (p.rdIdAddr.setWidth 16)]
      ++ drEvents p.nandBus16 [m, d]).reverse ++ s.events }

/-- `NAND_INIT` when the flash is ready in time: what is left is the look-up. -/
theorem nandInitOp_ready {s : State} {k : Nat} {restR : List Bool} {m d : Half} {restD : List Half} (hq : s.Quiet)
    (hk : k < s.opr.timeout.toNat) (hrdy : s.dev.rdy = List.replicate k false ++ true :: restR)
    (hdr : s.dev.dr = m :: d :: restD) :
    nandInitOp s = adoptDevice s.cfg.params (m.extractLsb' 0 8) (d.extractLsb' 0 8)
      (readyAndIdentified k m d restR restD s) := by
  have hwait := waitRdy_ready (s := flashReset s) hq hk hrdy
  rw [nandInitOp_eq hq, Op.bind_ok hwait]
  refine (identify_run (by rfl) (by exact hq) (by exact hdr)).trans (congrArg _ ?_)
  simp [identified, readyAndIdentified, flashReset, polledLoop, EccUnit.absorbBytes_withMask]

/-- `NAND_INIT` when it is not: the ready poll ends the op. -/
theorem nandInitOp_timeout {s : State} {restR : List Bool} (hq : s.Quiet)
    (hrdy : s.dev.rdy = List.replicate s.opr.timeout.toNat false ++ restR) :
    nandInitOp s = .error .raised
      (errorEntry .timeout 0
        { flashReset s with
          loop := polledLoop 0 s
          dev := { s.dev with rdy := restR }
          events := List.replicate s.opr.timeout.toNat (.rdy false) ++ (flashReset s).events }) := by
  rw [nandInitOp_eq hq]
  exact Op.bind_error (waitRdy_timeout (s := flashReset s) hq hrdy)

/-- The look-up finds the first row with the id. -/
theorem lookupDevice_first {p : Config.Params} {d : Byte} {pre post : List Config.NandRow} {row : Config.NandRow}
    (htable : p.nandDeviceTable = pre ++ row :: post) (hpre : ∀ r ∈ pre, r.devId ≠ d) (hrow : row.devId = d) :
    lookupDevice p d = some row :=
  List.find?_eq_some_iff_append.mpr ⟨beq_iff_eq.mpr hrow, pre, post, htable, fun r hr => by simpa using hpre r hr⟩

/-- The look-up finds nothing when no row has the id. -/
theorem lookupDevice_none {p : Config.Params} {d : Byte} (h : ∀ r ∈ p.nandDeviceTable, r.devId ≠ d) :
    lookupDevice p d = none :=
  List.find?_eq_none.mpr fun r hr => by simpa using h r hr

theorem adoptDevice_some {p : Config.Params} {m d : Byte} {row : Config.NandRow} (h : lookupDevice p d = some row) :
    adoptDevice p m d = setGeometry row m d := by
  rw [adoptDevice, h]

theorem adoptDevice_none {p : Config.Params} {m d : Byte} (h : lookupDevice p d = none) :
    adoptDevice p m d = raise .unknownDevice (m.setWidth 32) := by
  rw [adoptDevice, h]

/-- Settles O25: the ready poll ends the op, or the look-up of the id bytes read decides between the geometry of the
first row with the id and the error entry. -/
theorem nandInitOp_spec : Obligations.NandInitOp := by
  intro s restR hq
  refine ⟨fun k m d restD hk hrdy hdr => ⟨polledLoop (s.opr.timeout.toNat - k) s,
      fun pre row post htable hpre hrow => ?_, fun hnone => ?_⟩, fun hrdy => ⟨polledLoop 0 s, ?_⟩⟩
  · have hrun := nandInitOp_ready hq hk hrdy hdr
    rw [adoptDevice_some (lookupDevice_first htable hpre hrow)] at hrun
    exact exec_of_pseudocode_ok (i := .nandInit) hq hrun
  · have hrun := nandInitOp_ready hq hk hrdy hdr
    rw [adoptDevice_none (lookupDevice_none hnone)] at hrun
    exact exec_of_pseudocode_error (i := .nandInit) hq hrun
  · exact exec_of_pseudocode_error (i := .nandInit) hq (nandInitOp_timeout hq hrdy)

/-! ## The derived geometry (R138 to R143) -/

/-- The big-block flag compares the page size with the threshold, which lies between the small and the large page
sizes. -/
theorem deriveGeo_bigBlock_iff (c : Config.Profile) {row : Config.NandRow} (h : row ∈ c.params.nandDeviceTable)
    (m d : Byte) :
    ((deriveGeo c.params row m d).bigBlock = true ↔ c.params.bigBlockThreshold < row.bytesPerPage.toNat)
    ∧ ((deriveGeo c.params row m d).bigBlock = true ↔ 1056 ≤ row.bytesPerPage.toNat) := by
  have hflag : (deriveGeo c.params row m d).bigBlock = true ↔ c.params.bigBlockThreshold < row.bytesPerPage.toNat :=
    decide_eq_true_iff
  obtain ⟨_, _, hsize, _⟩ := row_legal c h
  obtain ⟨hlo, hhi, _, _⟩ := profile_ranges c
  have hsplit := pageSize_split hsize
  exact ⟨hflag, hflag.trans (by omega)⟩

/-- The masks of the two sub-page sizes, written out (R143). -/
theorem deriveMask_values {b : BitVec 10} (h : b.toNat = 256 ∨ b.toNat = 512) :
    deriveMask b = if b.toNat = 256 then 0x07FF07FF else 0x0FFF0FFF := by
  rcases h with h | h
  · obtain rfl : b = 256 := BitVec.eq_of_toNat_eq h
    decide
  · obtain rfl : b = 512 := BitVec.eq_of_toNat_eq h
    decide

/-- Settles O26: the shifts and the split of a derived geometry fit their registers, and a legal row has one of the
five page sizes. -/
theorem derivedGeometry : Obligations.DerivedGeometry := by
  intro c row m d hrow p g size bits
  obtain ⟨hcol, hpage, hblk, hrowB⟩ := deriveGeo_shifts c hrow m d
  obtain ⟨hbytes, hspare, hops, hoff⟩ := deriveGeo_split c hrow m d
  obtain ⟨hbig, hbig'⟩ := deriveGeo_bigBlock_iff c hrow m d
  obtain ⟨_, _, hsize, hbits⟩ := row_legal c hrow
  have hlegal := deriveGeo_legal c hrow m d
  have hsplit := pageSize_split hsize
  have hsizes : (deriveGeo c.params row m d).bytesPerOp.toNat = 256
      ∨ (deriveGeo c.params row m d).bytesPerOp.toNat = 512 := by omega
  refine ⟨rfl, rfl, rfl, rfl, rfl, rfl, rfl, rfl, hbig, hbig', ?_, ?_, ?_, ?_, ?_, ?_, ?_, hlegal⟩
  · rw [hops, hbytes, hspare]
    rcases hsplit with ⟨h1, h2, h3⟩ | ⟨h1, h2, h3⟩ | ⟨h1, h2, h3⟩ | ⟨h1, h2, h3⟩ | ⟨h1, h2, h3⟩ <;>
      · rw [h2, h3]
        simp [size, h1]
  · rw [hcol, colBytes]
    exact if_congr hbig.symm rfl rfl
  · rw [hpage, hcol]
  · rw [hblk, hpage]
  · have hsum : bits = addrBits c.params row := by simp only [bits, g, p, hblk, addrBits]
    obtain ⟨_, hrow1, _⟩ := addrBytes_fit hbits (colBytes_cases c.params row)
    rw [hcol, hrowB, hsum, ← addrBytes]
    omega
  · rw [hoff]
    exact if_congr hbig.symm rfl rfl
  · exact deriveMask_values hsizes

end Sys2Proof.Machine
end

section
/-! PROOFS. The ECC code (`42_ecc.md` R160 to R174): the bus width has no part in it, it is linear, what flipped bits
add to it, the spare chunk, and what the corrector decides from the difference of two words. -/

namespace Sys2Proof.Machine

/-! ## The bus width (R162) -/

/-- Data cycles leave the accumulator that the bytes they carry leave. -/
theorem foldl_absorbCycle (bus16 : Bool) (l : List Half) (e : EccUnit) :
    l.foldl (fun e v => e.absorbCycle bus16 v) e = e.absorbBytes (streamBytes bus16 l) := by
  induction l generalizing e with
  | nil => rfl
  | cons v l ih =>
    rw [List.foldl_cons, ih, EccUnit.absorbCycle_eq, streamBytes_cons, EccUnit.absorbBytes_append]

/-- Settles O14: on either bus the cycles of a byte stream carry that stream. -/
theorem eccIndependentOfBusWidth : Obligations.EccIndependentOfBusWidth := by
  refine ⟨fun _ _ => rfl, fun e l heven => ?_⟩
  rw [foldl_absorbCycle, foldl_absorbCycle, streamBytes_byteCycles true l fun _ => heven,
    streamBytes_byteCycles false l (by simp)]

/-! ## Linearity (R163 (a)) -/

theorem streamEcc_xor : ∀ (x y : List Byte) (pos : BitVec 12), x.length = y.length →
    streamEcc pos (List.zipWith (· ^^^ ·) x y) = streamEcc pos x ^^^ streamEcc pos y
  | [], [], _, _ => by simp [streamEcc]
  | d :: x, d' :: y, pos, h => by
    rw [List.zipWith_cons_cons, streamEcc, streamEcc, streamEcc, byteEcc_xor,
      streamEcc_xor x y _ (Nat.succ.inj h)]
    ac_rfl

theorem streamEcc_zeros : ∀ (n : Nat) (pos : BitVec 12), streamEcc pos (List.replicate n 0) = 0
  | 0, _ => rfl
  | n + 1, pos => by
    rw [List.replicate_succ, streamEcc, byteEcc_zero, streamEcc_zeros n]
    rfl

/-- Settles O15: the sum over a stream is linear byte by byte. -/
theorem eccIsLinear : Obligations.EccIsLinear := by
  refine ⟨fun x y h => ?_, fun n => ?_⟩
  · simp only [eccOfBytes_eq]
    exact streamEcc_xor x y 0 h
  · rw [eccOfBytes_eq, streamEcc_zeros]

/-! ## Flipped bits (R163 (b) to (d)) -/

/-- The difference of the two halves of a word. -/
def halfDiff (w : Word) : Half := w.extractLsb' 16 16 ^^^ w.extractLsb' 0 16

theorem halfDiff_xor (v w : Word) : halfDiff (v ^^^ w) = halfDiff v ^^^ halfDiff w := by
  simp only [halfDiff, BitVec.extractLsb'_xor]
  ac_rfl

/-- The high half of a contribution is the bit address. -/
theorem contrib_high (a : BitVec 12) : (contrib a).extractLsb' 16 16 = a.setWidth 16 := by
  apply BitVec.eq_of_getLsbD_eq
  intro i hi
  simp [contrib, hi, show 16 + i < 32 by omega, show ¬ 16 + i < 12 by omega]

/-- The low half is its complement. -/
theorem contrib_low (a : BitVec 12) : (contrib a).extractLsb' 0 16 = (~~~a).setWidth 16 := by
  apply BitVec.eq_of_getLsbD_eq
  intro i hi
  simp [contrib, hi, show i < 32 by omega]

/-- So the two halves differ in all twelve bits. -/
theorem halfDiff_contrib (a : BitVec 12) : halfDiff (contrib a) = 0x0FFF := by
  have hcompl : a ^^^ ~~~a = BitVec.allOnes 12 := by
    rw [← BitVec.xor_allOnes, ← BitVec.xor_assoc, BitVec.xor_self, BitVec.zero_xor]
  rw [halfDiff, contrib_high, contrib_low, ← BitVec.setWidth_xor, hcompl]
  decide

theorem flipBit_length (x : List Byte) (a : Nat) : (flipBit x a).length = x.length := List.length_modify _ _ _

theorem flipBit_cons_lt {a : Nat} (h : a < 8) (d : Byte) (l : List Byte) :
    flipBit (d :: l) a = (d ^^^ (1 : Byte) <<< a) :: l := by
  rw [flipBit, Nat.div_eq_of_lt h, Nat.mod_eq_of_lt h, List.modify_zero_cons]

theorem flipBit_cons_add (a : Nat) (d : Byte) (l : List Byte) : flipBit (d :: l) (a + 8) = d :: flipBit l a := by
  rw [flipBit, Nat.add_div_right a (by decide), Nat.add_mod_right, List.modify_succ_cons, flipBit]

/-- A flipped bit adds the contribution of its address. -/
theorem streamEcc_flipBit : ∀ (x : List Byte) (a : Nat) (pos : BitVec 12), a < 8 * x.length →
    streamEcc pos (flipBit x a) = streamEcc pos x ^^^ contrib (pos + BitVec.ofNat 12 a)
  | [], _, _, h => by simp at h
  | d :: l, a, pos, h => by
    by_cases hfirst : a < 8
    · rw [flipBit_cons_lt hfirst, streamEcc, streamEcc, byteEcc_xor, byteEcc_single a hfirst]
      ac_rfl
    · obtain ⟨k, rfl⟩ : ∃ k, a = k + 8 := ⟨a - 8, by omega⟩
      have haddr : pos + 8 + BitVec.ofNat 12 k = pos + BitVec.ofNat 12 (k + 8) := by
        rw [BitVec.ofNat_add, BitVec.add_comm (BitVec.ofNat 12 k), ← BitVec.add_assoc]
        rfl
      rw [flipBit_cons_add, streamEcc, streamEcc, streamEcc_flipBit l k _ (by simp at h; omega), haddr,
        BitVec.xor_assoc]

theorem eccOfBytes_flipBit {x : List Byte} {a : Nat} (h : a < 8 * x.length) :
    eccOfBytes (flipBit x a) = eccOfBytes x ^^^ contrib (BitVec.ofNat 12 a) := by
  have haddr : 0 + BitVec.ofNat 12 a = BitVec.ofNat 12 a := BitVec.zero_add _
  rw [eccOfBytes_eq, eccOfBytes_eq, streamEcc_flipBit x a 0 h, haddr]

/-- The XOR of a list of words, as O16 writes it. -/
def xorSum {w : Nat} (l : List (BitVec w)) : BitVec w := l.foldl (· ^^^ ·) 0

@[simp] theorem xorSum_nil {w : Nat} : xorSum ([] : List (BitVec w)) = 0 := rfl

@[simp] theorem xorSum_cons {w : Nat} (v : BitVec w) (l : List (BitVec w)) : xorSum (v :: l) = v ^^^ xorSum l := by
  rw [xorSum, List.foldl_cons, BitVec.xor_comm, List.foldl_assoc, xorSum]

/-- The contributions of a list of bit addresses. -/
def contribs (as : List Nat) : List Word := as.map fun a => contrib (BitVec.ofNat 12 a)

@[simp] theorem contribs_nil : contribs [] = [] := rfl

@[simp] theorem contribs_cons (a : Nat) (as : List Nat) :
    contribs (a :: as) = contrib (BitVec.ofNat 12 a) :: contribs as := rfl

/-- Flipped bits add their contributions. -/
theorem eccOfBytes_flipBits : ∀ (as : List Nat) (x : List Byte), (∀ a ∈ as, a < 8 * x.length) →
    eccOfBytes (as.foldl flipBit x) = eccOfBytes x ^^^ xorSum (contribs as)
  | [], x, _ => by simp
  | a :: as, x, h => by
    have hhead : a < 8 * x.length := h a (by simp)
    have htail : ∀ b ∈ as, b < 8 * (flipBit x a).length := fun b hb => by
      rw [flipBit_length]
      exact h b (by simp [hb])
    rw [List.foldl_cons, eccOfBytes_flipBits as _ htail, eccOfBytes_flipBit hhead, contribs_cons, xorSum_cons,
      BitVec.xor_assoc]

/-- The high half of the sum of contributions is the sum of the addresses. -/
theorem xorSum_contribs_high : ∀ as : List Nat, (∀ a ∈ as, a < 2 ^ 12) →
    (xorSum (contribs as)).extractLsb' 16 16 = xorSum (as.map fun a => BitVec.ofNat 16 a)
  | [], _ => by decide
  | a :: as, h => by
    have haddr : (BitVec.ofNat 12 a).setWidth 16 = BitVec.ofNat 16 a := by
      have ha := h a (by simp)
      apply BitVec.eq_of_toNat_eq
      simp only [BitVec.toNat_setWidth, BitVec.toNat_ofNat]
      omega
    rw [contribs_cons, xorSum_cons, BitVec.extractLsb'_xor, contrib_high, haddr,
      xorSum_contribs_high as fun b hb => h b (by simp [hb]), List.map_cons, xorSum_cons]

/-- Its halves differ by all twelve bits when the number of contributions is odd, and not when it is even. -/
theorem halfDiff_xorSum_contribs : ∀ as : List Nat,
    halfDiff (xorSum (contribs as)) = if as.length % 2 = 1 then 0x0FFF else 0
  | [] => by decide
  | a :: as => by
    rw [contribs_cons, xorSum_cons, halfDiff_xor, halfDiff_contrib, halfDiff_xorSum_contribs as, List.length_cons]
    by_cases hodd : as.length % 2 = 1
    · rw [if_pos hodd, if_neg (by omega)]
      decide
    · rw [if_neg hodd, if_pos (by omega)]
      decide

/-- Settles O16: the change is the sum of the contributions, and each half of a contribution is known. -/
theorem eccOfFlippedBits : Obligations.EccOfFlippedBits := by
  intro x as hlen _ has change
  have hchange : change = xorSum (contribs as) := by
    simp only [change]
    rw [eccOfBytes_flipBits as x has, ← BitVec.xor_assoc, BitVec.xor_self, BitVec.zero_xor]
  refine ⟨hchange, ?_, ?_⟩
  · rw [hchange]
    exact xorSum_contribs_high as fun a ha => by have := has a ha; omega
  · rw [hchange]
    exact halfDiff_xorSum_contribs as

/-! ## The spare chunk (R171) -/

/-- A word is its four bytes. -/
theorem word_of_bytes (w : Word) :
    w.extractLsb' 24 8 ++ w.extractLsb' 16 8 ++ w.extractLsb' 8 8 ++ w.extractLsb' 0 8 = w := by
  apply BitVec.eq_of_getLsbD_eq
  intro i hi
  simp only [BitVec.getLsbD_append, BitVec.getLsbD_extractLsb']
  interval_cases i <;> simp

/-- The four bytes of a spare chunk at the ECC offset are those of the swapped word. -/
theorem spareChunk_getD {spare off : Nat} (h : off + 4 ≤ spare) (e : Word) :
    (spareChunk spare off e).getD off 0 = (bswap32 e).extractLsb' 0 8
    ∧ (spareChunk spare off e).getD (off + 1) 0 = (bswap32 e).extractLsb' 8 8
    ∧ (spareChunk spare off e).getD (off + 2) 0 = (bswap32 e).extractLsb' 16 8
    ∧ (spareChunk spare off e).getD (off + 3) 0 = (bswap32 e).extractLsb' 24 8 := by
  have hin : off < spare ∧ off + 1 < spare ∧ off + 2 < spare ∧ off + 3 < spare := by omega
  refine ⟨?_, ?_, ?_, ?_⟩ <;> simp [spareChunk, hin]

/-- Settles O17: the read finds the swapped word, swaps it back and masks it. -/
theorem spareChunkRoundTrip : Obligations.SpareChunkRoundTrip := by
  intro spare off mask e hfits hmask c
  obtain ⟨h0, h1, h2, h3⟩ := spareChunk_getD hfits e
  rw [h0, h1, h2, h3, storedEcc, word_of_bytes, bswap32_bswap32, hmask]

/-! ## The corrector (R172 to R174) -/

/-- The corrector's decision in terms of the difference `w` of the two words. -/
def differenceVerdict (mask w : Word) : EccVerdict :=
  if w = 0 then .equal
  else if halfDiff w = mask.extractLsb' 0 16 then .single (w.extractLsb' 16 16)
  else .uncorrectable

theorem syndrome_eq_halfDiff (stored computed : Word) : syndrome stored computed = halfDiff (stored ^^^ computed) := by
  rw [halfDiff_xor, syndrome, halfDiff, halfDiff, ← BitVec.xor_assoc]

/-- The corrector looks at the difference of the two words only. -/
theorem eccVerdict_eq (mask stored computed : Word) :
    eccVerdict mask stored computed = differenceVerdict mask (stored ^^^ computed) := by
  have hequal : stored ^^^ computed = 0 ↔ stored = computed := BitVec.xor_eq_zero_iff
  simp only [eccVerdict, differenceVerdict, syndrome_eq_halfDiff, BitVec.extractLsb'_xor, hequal]

/-- Words equal but for a difference `w`. -/
theorem eccVerdict_xor (mask e w : Word) : eccVerdict mask e (e ^^^ w) = differenceVerdict mask w := by
  rw [eccVerdict_eq, ← BitVec.xor_assoc, BitVec.xor_self, BitVec.zero_xor]

theorem differenceVerdict_single {mask w : Word} (hne : w ≠ 0) (h : halfDiff w = mask.extractLsb' 0 16) :
    differenceVerdict mask w = .single (w.extractLsb' 16 16) := by
  rw [differenceVerdict, if_neg hne, if_pos h]

theorem differenceVerdict_uncorrectable {mask w : Word} (hne : w ≠ 0) (h : halfDiff w ≠ mask.extractLsb' 0 16) :
    differenceVerdict mask w = .uncorrectable := by
  rw [differenceVerdict, if_neg hne, if_neg h]

theorem half_xor_and (v w m : Half) : (v ^^^ w) &&& m = v &&& m ^^^ w &&& m := by
  apply BitVec.eq_of_toNat_eq
  simp only [BitVec.toNat_and, BitVec.toNat_xor, Nat.and_xor_distrib_right]

/-- The bit addresses of a sub-page with `2 ^ n` of them. -/
def addrMask (n : Nat) : Half := BitVec.ofNat 16 (2 ^ n - 1)

/-- The mask of a sub-page with `2 ^ n` bits: each half passes the bit addresses (R165). -/
structure IsSubPageMask (mask : Word) (n : Nat) : Prop where
  size : n = 11 ∨ n = 12
  low : mask.extractLsb' 0 16 = addrMask n
  high : mask.extractLsb' 16 16 = addrMask n

section
variable {mask w : Word} {n : Nat} (hm : IsSubPageMask mask n)
include hm

theorem IsSubPageMask.toNat_and (v : Half) : (v &&& addrMask n).toNat = v.toNat % 2 ^ n := by
  have hmask : (addrMask n).toNat = 2 ^ n - 1 := by
    rcases hm.size with rfl | rfl <;> rfl
  rw [BitVec.toNat_and, hmask, Nat.and_two_pow_sub_one_eq_mod]

/-- An address of the sub-page passes the mask. -/
theorem IsSubPageMask.addr_and {a : Nat} (ha : a < 2 ^ n) : BitVec.ofNat 16 a &&& addrMask n = BitVec.ofNat 16 a := by
  have ha16 : a < 2 ^ 16 := by
    rcases hm.size with rfl | rfl <;> omega
  apply BitVec.eq_of_toNat_eq
  rw [hm.toNat_and, BitVec.toNat_ofNat, Nat.mod_eq_of_lt ha16, Nat.mod_eq_of_lt ha]

theorem IsSubPageMask.high_and (v : Word) : (v &&& mask).extractLsb' 16 16 = v.extractLsb' 16 16 &&& addrMask n := by
  rw [BitVec.extractLsb'_and, hm.high]

theorem IsSubPageMask.halfDiff_and (v : Word) : halfDiff (v &&& mask) = halfDiff v &&& addrMask n := by
  rw [halfDiff, hm.high_and, BitVec.extractLsb'_and, hm.low, halfDiff, half_xor_and]

/-- A change whose halves differ in all twelve bits, as that of one data bit does, shows the bit address. -/
theorem IsSubPageMask.verdict_of_odd (hodd : halfDiff w = 0x0FFF) :
    differenceVerdict mask (w &&& mask) = .single (w.extractLsb' 16 16 &&& addrMask n) := by
  have hfull : (0x0FFF : Half) &&& addrMask n = addrMask n ∧ addrMask n ≠ 0 := by
    rcases hm.size with rfl | rfl <;> decide
  have hsyndrome : halfDiff (w &&& mask) = addrMask n := by
    rw [hm.halfDiff_and, hodd, hfull.1]
  have hne : w &&& mask ≠ 0 := fun h => by
    rw [h] at hsyndrome
    exact hfull.2 hsyndrome.symm
  rw [differenceVerdict_single hne (hsyndrome.trans hm.low.symm), hm.high_and]

/-- A change with equal halves, as that of two data bits, is not taken for one bit. -/
theorem IsSubPageMask.verdict_of_even (heven : halfDiff w = 0) (hhigh : w.extractLsb' 16 16 &&& addrMask n ≠ 0) :
    differenceVerdict mask (w &&& mask) = .uncorrectable := by
  have hne : w &&& mask ≠ 0 := fun h => hhigh (by
    rw [← hm.high_and, h]
    rfl)
  refine differenceVerdict_uncorrectable hne ?_
  rw [hm.halfDiff_and, heven, hm.low]
  rcases hm.size with rfl | rfl <;> decide

/-- Nor is a single bit of the stored word. -/
theorem IsSubPageMask.verdict_of_bit {i : Nat} (hi : i < 32) :
    differenceVerdict mask ((1 : Word) <<< i) = .uncorrectable := by
  have hbit : ∀ i < 32, (1 : Word) <<< i ≠ 0 ∧ halfDiff ((1 : Word) <<< i) ≠ addrMask 11
      ∧ halfDiff ((1 : Word) <<< i) ≠ addrMask 12 := by decide
  obtain ⟨hne, h11, h12⟩ := hbit i hi
  refine differenceVerdict_uncorrectable hne ?_
  rw [hm.low]
  rcases hm.size with rfl | rfl
  · exact h11
  · exact h12

/-- The address the corrector answers for masked words is one of the sub-page. -/
theorem IsSubPageMask.single_lt {stored computed : Word} {d : Half}
    (h : eccVerdict mask (stored &&& mask) (computed &&& mask) = .single d) : d.toNat < 2 ^ n := by
  have hd : d = (stored ^^^ computed).extractLsb' 16 16 &&& addrMask n := by
    rw [eccVerdict_single h, ← BitVec.extractLsb'_xor, ← xor_and, hm.high_and]
  rw [hd, hm.toNat_and]
  exact Nat.mod_lt _ (Nat.two_pow_pos n)

end

/-- The corrector sees of flipped data bits the sum of their contributions. -/
theorem eccVerdict_flipBits (mask : Word) {x : List Byte} {as : List Nat} (h : ∀ a ∈ as, a < 8 * x.length) :
    eccVerdict mask (eccOfBytes x &&& mask) (eccOfBytes (as.foldl flipBit x) &&& mask)
      = differenceVerdict mask (xorSum (contribs as) &&& mask) := by
  rw [eccVerdict_eq, ← xor_and, eccOfBytes_flipBits as x h, ← BitVec.xor_assoc, BitVec.xor_self, BitVec.zero_xor]

/-- The high half of the masked sum is the sum of the addresses. -/
theorem IsSubPageMask.sum_high_and {mask : Word} {n : Nat} (hm : IsSubPageMask mask n) : ∀ as : List Nat,
    (∀ a ∈ as, a < 2 ^ n) →
    (xorSum (contribs as)).extractLsb' 16 16 &&& addrMask n = xorSum (as.map fun a => BitVec.ofNat 16 a)
  | [], _ => BitVec.zero_and
  | a :: as, h => by
    have hsize : 2 ^ n ≤ 2 ^ 12 := by rcases hm.size with rfl | rfl <;> decide
    have hall : ∀ b ∈ a :: as, b < 2 ^ 12 := fun b hb => by have := h b hb; omega
    have ih := hm.sum_high_and as fun b hb => h b (by simp [hb])
    rw [xorSum_contribs_high as fun b hb => hall b (by simp [hb])] at ih
    rw [xorSum_contribs_high _ hall, List.map_cons, xorSum_cons, half_xor_and, hm.addr_and (h a (by simp)), ih]

section
variable {x : List Byte} {mask : Word} {n : Nat} (hm : IsSubPageMask mask n) (hlen : 8 * x.length = 2 ^ n)
include hm hlen

/-- R174 (b): one flipped data bit is found. -/
theorem eccVerdict_flipBit {a : Nat} (ha : a < 8 * x.length) :
    eccVerdict mask (eccOfBytes x &&& mask) (eccOfBytes (flipBit x a) &&& mask) = .single (BitVec.ofNat 16 a) := by
  have hin : ∀ b ∈ [a], b < 8 * x.length := by simpa using ha
  have hhigh := hm.sum_high_and [a] (hlen ▸ hin)
  refine (eccVerdict_flipBits mask hin).trans ?_
  rw [hm.verdict_of_odd ((halfDiff_xorSum_contribs [a]).trans (if_pos rfl)), hhigh]
  simp

/-- R174 (c): two flipped data bits are not corrected. -/
theorem eccVerdict_flipBit_flipBit {a c : Nat} (ha : a < 8 * x.length) (hc : c < 8 * x.length) (hne : a ≠ c) :
    eccVerdict mask (eccOfBytes x &&& mask) (eccOfBytes (flipBit (flipBit x a) c) &&& mask) = .uncorrectable := by
  have hin : ∀ b ∈ [a, c], b < 8 * x.length := by simpa using ⟨ha, hc⟩
  have hhigh := hm.sum_high_and [a, c] (hlen ▸ hin)
  refine (eccVerdict_flipBits mask hin).trans ?_
  refine hm.verdict_of_even ((halfDiff_xorSum_contribs [a, c]).trans (if_neg (by simp))) fun hzero => hne ?_
  have hsum : BitVec.ofNat 16 a ^^^ BitVec.ofNat 16 c = 0 := by
    simpa using hhigh.symm.trans hzero
  have hsame := congrArg BitVec.toNat (BitVec.xor_eq_zero_iff.mp hsum)
  have hsize : 2 ^ n ≤ 2 ^ 12 := by rcases hm.size with rfl | rfl <;> decide
  simp only [BitVec.toNat_ofNat] at hsame
  omega

end

/-- Settles O18: every clause is one about the difference of the two words. -/
theorem correctorDecides : Obligations.CorrectorDecides := by
  intro x mask hsize ecc
  obtain ⟨n, hm, hlen⟩ : ∃ n, IsSubPageMask mask n ∧ 8 * x.length = 2 ^ n := by
    rcases hsize with ⟨hlen, rfl⟩ | ⟨hlen, rfl⟩
    · exact ⟨11, ⟨.inl rfl, by decide, by decide⟩, by omega⟩
    · exact ⟨12, ⟨.inr rfl, by decide, by decide⟩, by omega⟩
  refine ⟨if_pos rfl, fun a ha => eccVerdict_flipBit hm hlen ha,
    fun a c ha hc hne => eccVerdict_flipBit_flipBit hm hlen ha hc hne, fun i hi => ?_, fun stored computed d h => ?_⟩
  · have hi32 : i < 32 := BitVec.lt_of_getLsbD hi
    rw [eccVerdict_eq, BitVec.xor_comm ecc, BitVec.xor_assoc, BitVec.xor_self, BitVec.xor_zero]
    exact hm.verdict_of_bit hi32
  · have hd := hm.single_lt h
    rw [BitVec.toNat_ushiftRight, Nat.shiftRight_eq_div_pow]
    omega
end Sys2Proof.Machine
end

section
/-! PROOFS. The two ops of the ECC unit (`42_ecc.md` R167, R176): the restart, and the three outcomes of the corrector
on the masked operands. -/

namespace Sys2Proof.Machine

theorem needGeometry_error {s : State} (hv : s.geo.valid = false) :
    needGeometry s = .error .raised (errorEntry .notInitialised 0 s) := by
  rw [needGeometry, Op.bind_ok (Op.run_get s), hv, Bool.not_false, raiseIf_true]

/-! ## `ECC_RESTART` (R166, R167) -/

/-- The state `ECC_RESTART` leaves. -/
def eccRestarted (s : State) : State :=
  { s with
    stat := s.stat.ended
    res := { s.res with res0 := s.eccu.acc &&& s.eccu.mask }
    eccu := { s.eccu with acc := 0, bitPos := 0, run := true } }

theorem exec_eccRestart {s : State} (hq : s.Quiet) (hv : s.geo.valid = true) :
    exec .eccRestart s = .next (eccRestarted s) := by
  have hrun : eccRestartOp s = .ok ()
      { eccRestarted s with stat := { s.stat with phase := .ecc } } := by
    rw [eccRestartOp, Op.bind_ok (needGeometry_run hv), Op.bind_ok (setPhase_run _ _),
      Op.bind_ok (eccReadRestart_run _), setRes0_run]
    rfl
  exact exec_of_pseudocode_ok (i := .eccRestart) hq hrun

/-- The second restart in a row finds an accumulator of 0. -/
theorem eccRestarted_eccRestarted (s : State) :
    eccRestarted (eccRestarted s) = { eccRestarted s with res := { (eccRestarted s).res with res0 := 0 } } := by
  simp [eccRestarted, Stat.ended]

/-- Settles O19: the restart is quiet and keeps the geometry, so a second one runs on its result. -/
theorem eccRestartOp_spec : Obligations.EccRestartOp := by
  intro s hq
  refine ⟨fun hv => ⟨eccRestarted s, exec_eccRestart hq hv, rfl, ?_⟩, fun hv => ?_⟩
  · rw [exec_eccRestart (s := eccRestarted s) hq hv, eccRestarted_eccRestarted]
  · exact exec_of_pseudocode_error (i := .eccRestart) hq (Op.bind_error (needGeometry_error hv))

/-! ## `ECC_CORRECT` (R176) -/

/-- The stored ECC that `ECC_CORRECT` compares. -/
def maskedStored (s : State) : Word := s.opr.a0 &&& s.eccu.mask

/-- The computed ECC it is compared with. -/
def maskedComputed (s : State) : Word := s.opr.a1 &&& s.eccu.mask

/-- The state in which the corrector runs: the two words in slot 0. -/
def operandsStored (s : State) : State :=
  { s with
    stat := { s.stat with phase := .ecc }
    slots := { s.slots with ecc := s.slots.ecc.set 0 (maskedComputed s), secc := s.slots.secc.set 0 (maskedStored s) } }

/-- The end of `ECC_CORRECT`: the corrector's answer goes to CORR0, RES0 and RES1, and decides how the op ends. -/
def reportCorrection (st : BitVec 2) (d : Half) : Op Unit := do
  setCorrSlot 0 (corrRecord st d)
  setRes0 (st.setWidth 32)
  setRes1 (d.setWidth 32)
  if st = 1 then setCorr
  else raiseIf (st == 2) .eccFailure 2

/-- The state with the corrector's answer in CORR0, RES0 and RES1. -/
def reported (st : BitVec 2) (d : Half) (s : State) : State :=
  { s with
    slots := { s.slots with corr := s.slots.corr.set 0 (corrRecord st d) }
    res := { s.res with res0 := st.setWidth 32, res1 := d.setWidth 32 } }

theorem reportCorrection_run (st : BitVec 2) (d : Half) (s : State) :
    reportCorrection st d s
      = (if st = 1 then setCorr else raiseIf (st == 2) .eccFailure 2 : Op Unit) (reported st d s) := by
  rw [reportCorrection, Op.bind_ok (setCorrSlot_run _ _ _), Op.bind_ok (setRes0_run _ _), Op.bind_ok (setRes1_run _ _)]
  rfl

/-- `ECC_CORRECT` is the corrector on the masked operands, and its report. -/
theorem eccCorrectOp_run {s t : State} {st : BitVec 2} {d : Half} (hv : s.geo.valid = true)
    (h : correct .host (maskedStored s) (maskedComputed s) s.opr.a2 (operandsStored s) = .ok (st, d) t) :
    eccCorrectOp s = reportCorrection st d t := by
  rw [eccCorrectOp, Op.bind_ok (needGeometry_run hv), Op.bind_ok (setPhase_run _ _), Op.bind_ok (Op.run_get _)]
  rw [Op.bind_ok (setSecc_run _ _ _), Op.bind_ok (setEcc_run _ _ _)]
  rw [Op.bind_ok (a := (st, d)) (s' := t) (by exact h)]
  rfl

section
variable {s : State} (hq : s.Quiet) (hv : s.geo.valid = true)
include hq hv

theorem exec_eccCorrect_equal (h : maskedStored s = maskedComputed s) :
    exec .eccCorrect s = .next (normalEnd (reported 0 0 (operandsStored s))) := by
  have hrun := eccCorrectOp_run hv (correct_equal_run (s := operandsStored s) h .host s.opr.a2)
  rw [reportCorrection_run] at hrun
  exact exec_of_pseudocode_ok (i := .eccCorrect) hq hrun

theorem exec_eccCorrect_uncorrectable (h : operandVerdict s = .uncorrectable) :
    exec .eccCorrect s = .next (errorEntry .eccFailure 2 (reported 2 0 (operandsStored s))) := by
  have hrun := eccCorrectOp_run hv (correct_uncorrectable_run (s := operandsStored s) h .host s.opr.a2)
  rw [reportCorrection_run] at hrun
  exact exec_of_pseudocode_error (i := .eccCorrect) hq hrun

end

/-- The number of a bit in a byte. -/
theorem bitNumber_lt (d : Half) : (d &&& 7).toNat < 8 := by
  rw [BitVec.toNat_and, show (7 : Half).toNat = 2 ^ 3 - 1 from rfl, Nat.and_two_pow_sub_one_eq_mod]
  omega

/-- A bit of a byte flipped in the word that holds it. -/
theorem setWidth_flip (b : Byte) {k : Nat} (hk : k < 8) :
    b.setWidth 32 ^^^ (1 : Word) <<< k = (b ^^^ (1 : Byte) <<< k).setWidth 32 := by
  have hone : ∀ k < 8, (1 : Word) <<< k = ((1 : Byte) <<< k).setWidth 32 := by decide
  rw [BitVec.setWidth_xor, hone k hk]

/-- The corrector's repair, as one byte read and one byte written. -/
theorem correct_single_byte {s : State} {stored computed : Word} {d : Half} (hq : s.Quiet)
    (h : eccVerdict s.eccu.mask stored computed = .single d) (base : Word) :
    correct .host stored computed base s =
      let a := base + (d >>> 3).setWidth 32
      let old := s.mem.readByte a.toNat
      let new := old ^^^ (1 : Byte) <<< (d &&& 7).toNat
      .ok (1, d) { s with
        events := .mw a 1 (new.setWidth 32) :: .mr a 1 (old.setWidth 32) :: s.events
        mem := s.mem.writeByte a.toNat new } := by
  rw [correct_single_host_run hq h]
  simp only [Memory.readLE_one, Memory.writeLE_one, setWidth_flip _ (bitNumber_lt d)]
  simp

/-- The two outcomes of the decision on different words. -/
theorem operandVerdict_of_ne {s : State} (hne : maskedStored s ≠ maskedComputed s) :
    operandVerdict s = if syndrome (maskedStored s) (maskedComputed s) = s.eccu.mask.extractLsb' 0 16
      then .single ((maskedStored s).extractLsb' 16 16 ^^^ (maskedComputed s).extractLsb' 16 16)
      else .uncorrectable :=
  if_neg hne

/-- Settles O20: the decision on the masked operands selects the corrector's run, and that the op's end. -/
theorem eccCorrectOp_spec : Obligations.EccCorrectOp := by
  intro s hq stored computed x d a old new
  refine ⟨fun hv => ?_, fun hv heq => ?_, fun hv hne hx => ?_, fun hv hne hx => ?_⟩
  · exact exec_of_pseudocode_error (i := .eccCorrect) hq (Op.bind_error (needGeometry_error hv))
  · exact exec_eccCorrect_equal hq hv heq
  · have hverdict : operandVerdict s = .single d := (operandVerdict_of_ne hne).trans (if_pos hx)
    have hrun := eccCorrectOp_run hv (correct_single_byte (s := operandsStored s) hq hverdict s.opr.a2)
    rw [reportCorrection_run, if_pos rfl, setCorr_run] at hrun
    exact exec_of_pseudocode_ok (i := .eccCorrect) hq hrun
  · exact exec_eccCorrect_uncorrectable hq hv ((operandVerdict_of_ne hne).trans (if_neg hx))

end Sys2Proof.Machine
end

section
/-! PROOFS. The NAND side and the NOR side of NECC are apart (`42_ecc.md` R161, `44_nor_ops.md` R242): read off from
which ops write which parts. -/

namespace Sys2Proof.Machine

/-- The ops of the NOR side. -/
def OnNorSide (i : Instr) : Prop :=
  i = .norAttach ∨ i = .norEraseBlock ∨ i = .norWriteWord ∨ i = .norWriteBuffer ∨ i = .norLockSet ∨ i = .norLockClear
    ∨ i = .norBlockInfo

/-- The parts that only ops of the NAND side write. -/
def nandParts : List Part :=
  [.geometry, .eccUnit, .slots, .pageBuf, .spareBuf, .hostMem, .nandAnswers, .readyAnswers]

theorem nandPart_notMem_partsOf {i : Instr} {p : Part} (hp : p ∈ nandParts) (hi : OnNorSide i) : p ∉ partsOf i := by
  have hall : ∀ p ∈ nandParts, p ∉ partsOf i := by
    rcases hi with rfl | rfl | rfl | rfl | rfl | rfl | rfl <;> decide
  exact hall p hp

theorem onNorSide_of_norAnswers {i : Instr} : .norAnswers ∈ partsOf i → OnNorSide i := by
  unfold OnNorSide
  cases i <;> decide

/-- Settles O55: no op of the NOR side writes a part of the NAND side, and no other op takes a NOR answer. -/
theorem nandAndNorStateAreApart : Obligations.NandAndNorStateAreApart := by
  intro i s t hs h isNor
  have k := (exec_effect h).keeps hs
  refine ⟨fun hi => ?_, fun hi => k.parts .norAnswers (mt onNorSide_of_norAnswers hi) (by decide)⟩
  have hkept (p : Part) (hp : p ∈ nandParts) (hne : p ≠ .phase) : p.Same s t :=
    k.parts p (nandPart_notMem_partsOf hp hi) hne
  obtain ⟨hgeo, hmask⟩ := hkept .geometry (by decide) (by decide)
  obtain ⟨hacc, hpos, hrun⟩ := hkept .eccUnit (by decide) (by decide)
  have heccu : t.eccu = s.eccu := by
    rw [show t.eccu = ⟨t.eccu.acc, t.eccu.bitPos, t.eccu.run, t.eccu.mask⟩ from rfl, hacc, hpos, hrun, hmask]
  exact ⟨hgeo, heccu, hkept .slots (by decide) (by decide), hkept .pageBuf (by decide) (by decide),
    hkept .spareBuf (by decide) (by decide), hkept .hostMem (by decide) (by decide),
    hkept .nandAnswers (by decide) (by decide), hkept .readyAnswers (by decide) (by decide)⟩

end Sys2Proof.Machine
end

section
/-! PROOFS. The NAND page and block ops before their first event (`43_nand_page_block.md` R190, R191, R204): the checks,
the row of a page, and the ops that only send commands (R206, R207). -/

namespace Sys2Proof.Machine

/-! ## The checks (R191, R204) -/

/-- The state with the second operand recorded in RES1, as the range checks leave it. -/
def operandRecorded (s : State) : State := { s with res := { s.res with res1 := s.opr.a1 } }

section
variable {s : State} (hv : s.geo.valid = true)
include hv

theorem pageChecks_outOfRange (h : s.geo.blocks ≤ s.opr.a0 ∨ s.geo.ppb ≤ s.opr.a1) :
    pageChecks s = .error .raised (errorEntry .outOfRange s.opr.a0 (operandRecorded s)) := by
  have hout : pageOutOfRange s.geo s.opr.a0 s.opr.a1 = true := by
    simpa [pageOutOfRange] using h
  rw [pageChecks, Op.bind_ok (needGeometry_run hv), Op.bind_ok (Op.run_get s), hout, if_pos rfl,
    Op.bind_ok (setRes1_run _ _), raise_run]
  rfl

theorem blockChecks_outOfRange (h : s.geo.blocks.toNat < s.opr.a0.toNat + s.opr.a1.toNat) :
    blockChecks s = .error .raised (errorEntry .outOfRange s.opr.a0 (operandRecorded s)) := by
  have hout : blocksOutOfRange s.geo s.opr.a0 s.opr.a1 = true := decide_eq_true h
  rw [blockChecks, Op.bind_ok (needGeometry_run hv), Op.bind_ok (Op.run_get s), hout, if_pos rfl,
    Op.bind_ok (setRes1_run _ _), raise_run]
  rfl

theorem blockChecks_run (h : s.opr.a0.toNat + s.opr.a1.toNat ≤ s.geo.blocks.toNat) :
    blockChecks s = .ok () s := by
  have hin : blocksOutOfRange s.geo s.opr.a0 s.opr.a1 = false := decide_eq_false (Nat.not_lt.mpr h)
  rw [blockChecks, Op.bind_ok (needGeometry_run hv), Op.bind_ok (Op.run_get s), hin, if_neg (by simp), Op.run_pure]

end

theorem pageChecks_notInitialised {s : State} (hv : s.geo.valid = false) :
    pageChecks s = .error .raised (errorEntry .notInitialised 0 s) :=
  Op.bind_error (needGeometry_error hv)

theorem blockChecks_notInitialised {s : State} (hv : s.geo.valid = false) :
    blockChecks s = .error .raised (errorEntry .notInitialised 0 s) :=
  Op.bind_error (needGeometry_error hv)

/-- A page op that its checks end has done nothing else. -/
theorem exec_of_pageChecks_error {s t : State} {i : Instr} {e : Ended} (hq : s.Quiet)
    (hi : i = .nandReadPage ∨ i = .nandWritePage ∨ i = .nandVerifyPage) (h : pageChecks s = .error e t) :
    exec i s = .next t := by
  rcases hi with rfl | rfl | rfl
  · exact exec_of_pseudocode_error (i := .nandReadPage) hq (Op.bind_error h)
  · exact exec_of_pseudocode_error (i := .nandWritePage) hq (Op.bind_error h)
  · exact exec_of_pseudocode_error (i := .nandVerifyPage) hq (Op.bind_error h)

/-- Settles O49: the three page ops begin with the page checks, the erase op with the block checks. -/
theorem pageAndEraseChecks : Obligations.PageAndEraseChecks := by
  intro s i hq hi
  by_cases herase : i = .nandEraseBlocks
  · subst herase
    refine ⟨fun hv => ?_, fun hv hout => ?_⟩
    · exact exec_of_pseudocode_error (i := .nandEraseBlocks) hq (Op.bind_error (blockChecks_notInitialised hv))
    · rw [if_pos rfl] at hout
      exact exec_of_pseudocode_error (i := .nandEraseBlocks) hq (Op.bind_error (blockChecks_outOfRange hv hout))
  · have hpage : i = .nandReadPage ∨ i = .nandWritePage ∨ i = .nandVerifyPage := by tauto
    refine ⟨fun hv => exec_of_pageChecks_error hq hpage (pageChecks_notInitialised hv), fun hv hout => ?_⟩
    rw [if_neg herase] at hout
    exact exec_of_pageChecks_error hq hpage (pageChecks_outOfRange hv hout)

/-! ## The row (R190) -/

theorem toNat_of_isPow2 {w : Word} (h : Config.isPow2 w = true) : w.toNat = 2 ^ w.toNat.log2 :=
  (beq_iff_eq.mp h).symm

/-- The parts of `Geo.Legal` that the addressing of pages rests on. -/
theorem Geo.Legal.addressing {g : Geo} {mask : Word} (h : g.Legal mask) :
    g.ppb.toNat = 2 ^ g.ppb.toNat.log2 ∧ g.blocks.toNat = 2 ^ g.blocks.toNat.log2
    ∧ g.blkShift.toNat = g.pageShift.toNat + g.ppb.toNat.log2
    ∧ g.ppb.toNat.log2 + g.blocks.toNat.log2 ≤ 8 * g.rowB.toNat ∧ g.rowB.toNat ≤ 4 := by
  obtain ⟨hppb, hblocks, hshift, hcol, hbits, _, _, _, _, _, _, _, _, hrow, _⟩ := h
  exact ⟨toNat_of_isPow2 hppb, toNat_of_isPow2 hblocks, hshift, by omega, hrow.2⟩

section
variable {g : Geo} {mask block page : Word} (hg : g.Legal mask) (hb : block < g.blocks) (hp : page < g.ppb)
include hg hb hp

/-- The page's index in the device fits the row's address cycles. -/
theorem pageIndex_lt : block.toNat * g.ppb.toNat + page.toNat < 2 ^ (8 * g.rowB.toNat) := by
  obtain ⟨hppb, hblocks, -, hbits, -⟩ := hg.addressing
  have hb' : block.toNat < g.blocks.toNat := hb
  have hp' : page.toNat < g.ppb.toNat := hp
  calc block.toNat * g.ppb.toNat + page.toNat
      < (block.toNat + 1) * g.ppb.toNat := by rw [Nat.add_mul, Nat.one_mul]; omega
    _ ≤ g.blocks.toNat * g.ppb.toNat := Nat.mul_le_mul_right _ hb'
    _ = 2 ^ (g.ppb.toNat.log2 + g.blocks.toNat.log2) := by
        rw [Nat.pow_add, ← hppb, ← hblocks, Nat.mul_comm]
    _ ≤ 2 ^ (8 * g.rowB.toNat) := Nat.pow_le_pow_right (by decide) hbits

/-- Shifting the block by the difference of the shifts and filling in the page gives the page's index. -/
theorem rowAddr_toNat : (rowAddr g block page).toNat = block.toNat * g.ppb.toNat + page.toNat := by
  obtain ⟨hppb, -, hshift, -, hrow⟩ := hg.addressing
  have hlt := pageIndex_lt hg hb hp
  have hp' : page.toNat < 2 ^ g.ppb.toNat.log2 := hppb ▸ hp
  have hword : 2 ^ (8 * g.rowB.toNat) ≤ 2 ^ 32 := Nat.pow_le_pow_right (by decide) (by omega)
  have hdist : ((g.blkShift.setWidth 32 - g.pageShift.setWidth 32 : Word)).toNat = g.ppb.toNat.log2 := by
    have h1 := g.blkShift.isLt
    rw [BitVec.toNat_sub, BitVec.toNat_setWidth, BitVec.toNat_setWidth]
    omega
  rw [hppb] at hlt ⊢
  have hshifted : block.toNat <<< g.ppb.toNat.log2 < 2 ^ 32 := by
    rw [Nat.shiftLeft_eq]
    omega
  rw [rowAddr, BitVec.shiftLeft_eq', hdist, BitVec.toNat_or, BitVec.toNat_shiftLeft, Nat.mod_eq_of_lt hshifted,
    ← Nat.shiftLeft_add_eq_or_of_lt hp', Nat.shiftLeft_eq]

end

/-- Byte `k` of the row, as an address cycle carries it. -/
theorem rowByte_setWidth (row : Word) (k : Nat) :
    (rowByte row k).setWidth 16 = BitVec.ofNat 16 (row.toNat / 256 ^ k % 256) := by
  have hpow : 2 ^ (8 * k) = 256 ^ k := by rw [Nat.pow_mul]
  apply BitVec.eq_of_toNat_eq
  rw [rowByte, BitVec.toNat_setWidth, BitVec.extractLsb'_toNat, BitVec.toNat_ofNat, Nat.shiftRight_eq_div_pow, hpow]

/-- Settles O27: the shifts of a legal geometry differ by the bits of a page number. -/
theorem rowAddress : Obligations.RowAddress := by
  intro g mask block page hg hb hp row
  have hrow : row.toNat = block.toNat * g.ppb.toNat + page.toNat := rowAddr_toNat hg hb hp
  refine ⟨hrow, hrow ▸ pageIndex_lt hg hb hp, fun s hq hs => ?_⟩
  subst hs
  rw [addrCycles_run hq]
  simp only [addrEvents, rowEvents, rowByte_setWidth, row]

/-! ## Block protection (R206, R207) -/

section
variable {s : State} (hq : s.Quiet) (hv : s.geo.valid = true)
include hq hv

theorem nandProtectOp_run : nandProtectOp s = .ok ()
    { s with
      stat := { s.stat with phase := .cmd }
      events := cleEvent s.cfg.params.cmdLock :: s.events } := by
  rw [nandProtectOp, Op.bind_ok (needGeometry_run hv), Op.bind_ok (params_run s), Op.bind_ok (setPhase_run _ _),
    cle_run (by exact hq)]
  rfl

omit hq in
theorem nandUnprotectOp_none (hin : s.opr.a0.toNat + s.opr.a1.toNat ≤ s.geo.blocks.toNat) (hcount : s.opr.a1 = 0) :
    nandUnprotectOp s = .ok () s := by
  rw [nandUnprotectOp, Op.bind_ok (blockChecks_run hv hin), Op.bind_ok (Op.run_get s), Op.bind_ok (params_run s),
    if_pos hcount, Op.run_pure]

/-- The two bounds of the span. -/
theorem nandUnprotectOp_run (hin : s.opr.a0.toNat + s.opr.a1.toNat ≤ s.geo.blocks.toNat) (hcount : s.opr.a1 ≠ 0) :
    nandUnprotectOp s = .ok ()
      { s with
        stat := { s.stat with phase := .addr }
        events := ([cleEvent s.cfg.params.cmdUnlockLo] ++ rowEvents s.geo s.opr.a0 0
          ++ [cleEvent s.cfg.params.cmdUnlockHi] ++ rowEvents s.geo (s.opr.a0 + s.opr.a1 - 1) 0).reverse
            ++ s.events } := by
  rw [nandUnprotectOp, Op.bind_ok (blockChecks_run hv hin), Op.bind_ok (Op.run_get s), Op.bind_ok (params_run s),
    if_neg hcount, Op.bind_ok (setPhase_run _ _), Op.bind_ok (cle_run (by exact hq) _), Op.bind_ok (setPhase_run _ _),
    Op.bind_ok (rowCycles_run (by exact hq) _ _), Op.bind_ok (setPhase_run _ _), Op.bind_ok (cle_run (by exact hq) _),
    Op.bind_ok (setPhase_run _ _), rowCycles_run (by exact hq)]
  simp [cleEvent]

end

/-- Settles O35: the checks decide which of the runs it is, and each ends normally. -/
theorem nandProtectionOps : Obligations.NandProtectionOps := by
  intro s hq
  refine ⟨fun hv => ⟨?_, ?_⟩, fun hv => ⟨?_, fun hout => ?_, fun hin hcount => ?_, fun hin hcount => ?_⟩⟩
  · exact exec_of_pseudocode_error (i := .nandProtect) hq (Op.bind_error (needGeometry_error hv))
  · exact exec_of_pseudocode_error (i := .nandUnprotect) hq (Op.bind_error (blockChecks_notInitialised hv))
  · exact exec_of_pseudocode_ok (i := .nandProtect) hq (nandProtectOp_run hq hv)
  · exact exec_of_pseudocode_error (i := .nandUnprotect) hq (Op.bind_error (blockChecks_outOfRange hv hout))
  · exact exec_of_pseudocode_ok (i := .nandUnprotect) hq (nandUnprotectOp_none hv hin hcount)
  · exact exec_of_pseudocode_ok (i := .nandUnprotect) hq (nandUnprotectOp_run hq hv hin hcount)

end Sys2Proof.Machine
end

section
/-! PROOFS. The two polls that end a program or an erase (`43_nand_page_block.md` R197, R204), and `NAND_ERASE_BLOCKS`:
the blocks erased one after the other, and the block it stops at. -/

namespace Sys2Proof.Machine

/-! ## The ready poll and then the status poll -/

/-- The end of a page program and of a block erase. -/
def twoPolls (fk : ErrKind) : Op Unit := do
  setPhase .waitRdy
  waitRdy
  setPhase .waitStatus
  waitStatus fk

/-- The state in which the two polls end: the device busy `k` times and then ready, the status answers `status`, `n`
polls left. -/
def afterTwoPolls (k : Nat) (restR : List Bool) (status restD : List Half) (n : Nat) (s : State) : State :=
  { s with
    stat := { s.stat with phase := .waitStatus }
    res := { s.res with lastStat := lastStatus s.res.lastStat status }
    eccu := s.eccu.absorbBytes (streamBytes s.cfg.params.nandBus16 status)
    dev := { s.dev with rdy := restR, dr := restD }
    loop := polledLoop n s
    events := (rdyEvents k ++ statusEvents s.cfg.params status).reverse ++ s.events }

/-- The state in which the device has been found ready and the status poll begins. -/
def statusPolled (k : Nat) (restR : List Bool) (s : State) : State :=
  { s with
    stat := { s.stat with phase := .waitStatus }
    dev := { s.dev with rdy := restR }
    loop := polledLoop (s.opr.timeout.toNat - k) s
    events := (rdyEvents k).reverse ++ s.events }

/-- The status answers make the one state the other. -/
theorem afterStatus_statusPolled (k : Nat) (restR : List Bool) (status restD : List Half) (n : Nat) (s : State) :
    { afterStatus status restD (statusPolled k restR s) with loop := polledLoop n (statusPolled k restR s) }
      = afterTwoPolls k restR status restD n s := by
  simp only [afterTwoPolls, afterStatus, statusPolled, polledLoop, List.reverse_append, List.append_assoc]

/-- The state in which the device has stayed busy for the whole ready poll. -/
def afterBusy (restR : List Bool) (s : State) : State :=
  { s with
    stat := { s.stat with phase := .waitRdy }
    dev := { s.dev with rdy := restR }
    loop := polledLoop 0 s
    events := List.replicate s.opr.timeout.toNat (Event.rdy false) ++ s.events }

section
variable {s : State} {restR : List Bool} {restD : List Half} (hq : s.host.busy = []) (fk : ErrKind)
include hq

/-- Once the device is ready only the status poll is left. -/
theorem twoPolls_eq_waitStatusLoop {k : Nat} (hk : k < s.opr.timeout.toNat)
    (hrdy : s.dev.rdy = List.replicate k false ++ true :: restR) :
    twoPolls fk s = waitStatusLoop fk s.opr.timeout.toNat (statusPolled k restR s) := by
  rw [twoPolls, Op.bind_ok (setPhase_run _ _), Op.bind_ok (waitRdy_ready (by exact hq) (by exact hk) (by exact hrdy)),
    Op.bind_ok (setPhase_run _ _), waitStatus, Op.bind_ok (Op.run_get _)]
  rfl

/-- The first status answer that shows ready decides by its error bit. -/
theorem twoPolls_ready {r : BlockRun} (hr : r.InTime s.cfg.params s.opr.timeout)
    (hrdy : s.dev.rdy = List.replicate r.busy false ++ true :: restR) (hdr : s.dev.dr = r.status ++ restD) :
    twoPolls fk s =
      raiseIf (r.last.extractLsb' 0 8 &&& s.cfg.params.stFail != 0) fk ((r.last.extractLsb' 0 8).setWidth 32)
        (afterTwoPolls r.busy restR r.status restD (s.opr.timeout.toNat - r.polls.length) s) := by
  obtain ⟨hbusy, hlen, hpolls, hlast⟩ := hr
  have hdr' : s.dev.dr = r.polls ++ r.last :: restD := by
    rw [hdr, BlockRun.status, List.append_assoc, List.singleton_append]
  rw [twoPolls_eq_waitStatusLoop hq fk hbusy hrdy, ← afterStatus_statusPolled]
  exact waitStatusLoop_ready fk r.polls _ _ r.last restD hq hlen hdr' hpolls hlast

theorem twoPolls_ok {r : BlockRun} (hr : r.InTime s.cfg.params s.opr.timeout) (hok : ¬ statusFail s.cfg.params r.last)
    (hrdy : s.dev.rdy = List.replicate r.busy false ++ true :: restR) (hdr : s.dev.dr = r.status ++ restD) :
    twoPolls fk s = .ok ()
      (afterTwoPolls r.busy restR r.status restD (s.opr.timeout.toNat - r.polls.length) s) := by
  have hbit : (r.last.extractLsb' 0 8 &&& s.cfg.params.stFail != 0) = false := by
    simpa [statusFail] using hok
  rw [twoPolls_ready hq fk hr hrdy hdr, hbit, raiseIf_false]

theorem twoPolls_fail {r : BlockRun} (hr : r.InTime s.cfg.params s.opr.timeout) (hfail : statusFail s.cfg.params r.last)
    (hrdy : s.dev.rdy = List.replicate r.busy false ++ true :: restR) (hdr : s.dev.dr = r.status ++ restD) :
    twoPolls fk s = .error .raised (errorEntry fk ((r.last.extractLsb' 0 8).setWidth 32)
      (afterTwoPolls r.busy restR r.status restD (s.opr.timeout.toNat - r.polls.length) s)) := by
  have hbit : (r.last.extractLsb' 0 8 &&& s.cfg.params.stFail != 0) = true := bne_iff_ne.mpr hfail
  rw [twoPolls_ready hq fk hr hrdy hdr, hbit, raiseIf_true]

/-- The device never shows ready: no status cycle. -/
theorem twoPolls_busy (hrdy : s.dev.rdy = List.replicate s.opr.timeout.toNat false ++ restR) :
    twoPolls fk s = .error .raised (errorEntry .timeout 0 (afterBusy restR s)) := by
  rw [twoPolls, Op.bind_ok (setPhase_run _ _), Op.bind_error (waitRdy_timeout (by exact hq) (by exact hrdy))]
  rfl

/-- No status answer shows ready. -/
theorem twoPolls_timeout {k : Nat} {polls : List Half} (hk : k < s.opr.timeout.toNat)
    (hrdy : s.dev.rdy = List.replicate k false ++ true :: restR) (hlen : polls.length = s.opr.timeout.toNat)
    (hdr : s.dev.dr = polls ++ restD) (hpolls : ∀ x ∈ polls, ¬ statusReady s.cfg.params x) :
    twoPolls fk s = .error .raised (errorEntry .timeout 0 (afterTwoPolls k restR polls restD 0 s)) := by
  rw [twoPolls_eq_waitStatusLoop hq fk hk hrdy, ← afterStatus_statusPolled, ← hlen]
  exact waitStatusLoop_timeout fk polls _ restD hq hdr hpolls

end

/-! ## One block (R204) -/

/-- The state in which the erase of block `b` has been started. -/
def eraseStarted (b : Word) (s : State) : State :=
  { s with
    stat := { s.stat with phase := .confirm }
    res := { s.res with res1 := b }
    loop := { s.loop with blkIdx := b }
    events := (eraseEvents s.cfg.params s.geo b).reverse ++ s.events }

theorem eraseBlock_eq_twoPolls {s : State} (hq : s.host.busy = []) (b : Word) :
    eraseBlock b s = twoPolls .eraseFailure (eraseStarted b s) := by
  rw [eraseBlock, Op.bind_ok (params_run s), Op.bind_ok (setBlkIdx_run _ _), Op.bind_ok (setRes1_run _ _),
    Op.bind_ok (setPhase_run _ _), Op.bind_ok (cle_run (by exact hq) _), Op.bind_ok (setPhase_run _ _),
    Op.bind_ok (rowCycles_run (by exact hq) _ _), Op.bind_ok (setPhase_run _ _), Op.bind_ok (cle_run (by exact hq) _)]
  simp only [eraseStarted, eraseEvents, cleEvent, List.reverse_append, List.reverse_cons, List.reverse_nil,
    List.nil_append, List.cons_append, List.append_assoc]
  rfl

/-! ## Blocks one after the other -/

/-- The ready samples that the erase of these blocks takes. -/
def rdyAnswers (runs : List BlockRun) : List Bool := runs.flatMap fun r => List.replicate r.busy false ++ [true]

/-- The status answers that it takes. -/
def statusAnswers (runs : List BlockRun) : List Half := runs.flatMap BlockRun.status

/-- The state after these blocks, from number `i` on, have been erased. -/
def afterErases (i : Nat) (runs : List BlockRun) (restR : List Bool) (restD : List Half) (s s' : State) : Prop :=
  ∃ ph r1 l, s' = { s with
    stat := { s.stat with phase := ph }
    res := { s.res with res1 := r1, lastStat := lastStatus s.res.lastStat (statusAnswers runs) }
    eccu := s.eccu.absorbBytes (streamBytes s.cfg.params.nandBus16 (statusAnswers runs))
    dev := { s.dev with rdy := restR, dr := restD }
    loop := l
    events := (eraseRunEvents s.cfg.params s.geo (BitVec.ofNat 32 i) runs).reverse ++ s.events }

theorem lastStatus_append (old : Word) (l l' : List Half) :
    lastStatus (lastStatus old l) l' = lastStatus old (l ++ l') := by
  cases hl' : l'.getLast? <;> simp [lastStatus, List.getLast?_append, hl']

/-- Erasing one more block in front. -/
theorem afterErases_cons {i : Nat} {r : BlockRun} {runs : List BlockRun} {restR restR' : List Bool}
    {restD restD' : List Half} {n : Nat} {s s' : State}
    (h : afterErases (i + 1) runs restR restD
      (afterTwoPolls r.busy restR' r.status restD' n (eraseStarted (BitVec.ofNat 32 i) s)) s') :
    afterErases i (r :: runs) restR restD s s' := by
  obtain ⟨ph, r1, l, rfl⟩ := h
  refine ⟨ph, r1, l, ?_⟩
  simp only [afterTwoPolls, eraseStarted, statusAnswers, List.flatMap_cons, lastStatus_append, streamBytes_append,
    EccUnit.absorbBytes_append, eraseRunEvents, BitVec.ofNat_add, List.reverse_append, List.append_assoc]
  rfl

/-- The blocks of `runs` are erased, and the loop goes on behind them. -/
theorem eraseRuns_run (n : Nat) : ∀ (runs : List BlockRun) (i : Nat) (s : State) (restR : List Bool) (restD : List Half),
    s.host.busy = [] → (∀ r ∈ runs, r.InTime s.cfg.params s.opr.timeout ∧ ¬ statusFail s.cfg.params r.last) →
    s.dev.rdy = rdyAnswers runs ++ restR → s.dev.dr = statusAnswers runs ++ restD →
    ∃ s', forUp (fun b => eraseBlock (BitVec.ofNat 32 b)) i (runs.length + n) s
        = forUp (fun b => eraseBlock (BitVec.ofNat 32 b)) (i + runs.length) n s'
      ∧ afterErases i runs restR restD s s'
  | [], i, s, restR, restD, _, _, hrdy, hdr => by
    have hdev : ({ s.dev with rdy := restR, dr := restD } : Device) = s.dev := by
      simp only [rdyAnswers, statusAnswers, List.flatMap_nil, List.nil_append] at hrdy hdr
      rw [← hrdy, ← hdr]
    refine ⟨s, by rw [List.length_nil, Nat.zero_add, Nat.add_zero], s.stat.phase, s.res.res1, s.loop, ?_⟩
    rw [hdev]
    rfl
  | r :: runs, i, s, restR, restD, hq, hruns, hrdy, hdr => by
    obtain ⟨hintime, hok⟩ := hruns r (by simp)
    have hrdy' : s.dev.rdy = List.replicate r.busy false ++ true :: (rdyAnswers runs ++ restR) := by
      simpa [rdyAnswers] using hrdy
    have hdr' : s.dev.dr = r.status ++ (statusAnswers runs ++ restD) := by
      simpa [statusAnswers] using hdr
    have hblock := (eraseBlock_eq_twoPolls hq (BitVec.ofNat 32 i)).trans
      (twoPolls_ok (s := eraseStarted (BitVec.ofNat 32 i) s) hq .eraseFailure hintime hok hrdy' hdr')
    obtain ⟨s', hrun, hafter⟩ := eraseRuns_run n runs (i + 1)
      (afterTwoPolls r.busy (rdyAnswers runs ++ restR) r.status (statusAnswers runs ++ restD)
        ((eraseStarted (BitVec.ofNat 32 i) s).opr.timeout.toNat - r.polls.length) (eraseStarted (BitVec.ofNat 32 i) s))
      restR restD hq (fun x hx => hruns x (by simp [hx])) rfl rfl
    refine ⟨s', ?_, afterErases_cons hafter⟩
    rw [List.length_cons, Nat.add_right_comm, forUp_succ, Op.bind_ok hblock, hrun, Nat.add_right_comm, Nat.add_assoc]

section
variable {s : State} (hq : s.Quiet) (hv : s.geo.valid = true)
  (hin : s.opr.a0.toNat + s.opr.a1.toNat ≤ s.geo.blocks.toNat)
include hv hin

theorem nandEraseBlocksOp_eq : nandEraseBlocksOp s = (do
    forUp (fun b => eraseBlock (BitVec.ofNat 32 b)) s.opr.a0.toNat s.opr.a1.toNat
    setRes0 s.opr.a1
    setRes1 0 : Op Unit) s := by
  rw [nandEraseBlocksOp, Op.bind_ok (blockChecks_run hv hin), Op.bind_ok (Op.run_get s)]

include hq

/-- The blocks of `runs` are erased, and the op stops at the next one as that one's polls do. -/
theorem exec_nandEraseBlocks_stop {runs : List BlockRun} {restR : List Bool} {restD : List Half}
    (hlen : runs.length < s.opr.a1.toNat)
    (hruns : ∀ r ∈ runs, r.InTime s.cfg.params s.opr.timeout ∧ ¬ statusFail s.cfg.params r.last)
    (hrdy : s.dev.rdy = rdyAnswers runs ++ restR) (hdr : s.dev.dr = statusAnswers runs ++ restD) :
    ∃ s', afterErases s.opr.a0.toNat runs restR restD s s'
      ∧ ∀ e t, twoPolls .eraseFailure (eraseStarted (s.opr.a0 + BitVec.ofNat 32 runs.length) s') = .error e t →
        exec .nandEraseBlocks s = .next t := by
  obtain ⟨m, hm⟩ : ∃ m, s.opr.a1.toNat = runs.length + (m + 1) := ⟨s.opr.a1.toNat - runs.length - 1, by omega⟩
  obtain ⟨s', hrun, hafter⟩ := eraseRuns_run (m + 1) runs s.opr.a0.toNat s restR restD hq hruns hrdy hdr
  refine ⟨s', hafter, fun e t hstop => ?_⟩
  have hq' : s'.host.busy = [] := by
    obtain ⟨ph, r1, l, rfl⟩ := hafter
    exact hq
  have hblock : eraseBlock (BitVec.ofNat 32 (s.opr.a0.toNat + runs.length)) s' = .error e t := by
    rw [eraseBlock_eq_twoPolls hq', BitVec.ofNat_add, BitVec.ofNat_toNat, BitVec.setWidth_eq]
    exact hstop
  have hloop : forUp (fun b => eraseBlock (BitVec.ofNat 32 b)) s.opr.a0.toNat s.opr.a1.toNat s = .error e t := by
    rw [hm, hrun, forUp_succ, Op.bind_error hblock]
  exact exec_of_pseudocode_error (i := .nandEraseBlocks) hq
    ((nandEraseBlocksOp_eq hv hin).trans (Op.bind_error hloop))

end

/-- Settles O33: every block ends its two polls in time, so the loop comes to its end. -/
theorem nandEraseBlocksOp_spec : Obligations.NandEraseBlocksOp := by
  intro s runs restR restD hq hv hin hlen hruns hrdy hdr
  obtain ⟨s', hrun, ph, r1, l, rfl⟩ := eraseRuns_run 0 runs s.opr.a0.toNat s restR restD hq hruns hrdy hdr
  rw [Nat.add_zero, hlen, forUp_zero] at hrun
  refine ⟨l, ?_⟩
  rw [exec_of_pseudocode_ok (i := .nandEraseBlocks) hq ((nandEraseBlocksOp_eq hv hin).trans (Op.bind_ok hrun)),
    BitVec.ofNat_toNat, BitVec.setWidth_eq]
  rfl

/-- What `NAND_ERASE_BLOCKS` leaves once it has erased the blocks of `runs` and started on the next: the status
answers `status` and the cycles `ev` are those of that block's polls. -/
def eraseStopped (runs : List BlockRun) (restR : List Bool) (restD status : List Half) (ev : List Event) (l : LoopRegs)
    (s : State) : State :=
  let block := s.opr.a0 + BitVec.ofNat 32 runs.length
  { s with
    res := { s.res with res1 := block, lastStat := lastStatus s.res.lastStat (statusAnswers runs ++ status) }
    eccu := s.eccu.absorbBytes (streamBytes s.cfg.params.nandBus16 (statusAnswers runs ++ status))
    dev := { s.dev with rdy := restR, dr := restD }
    loop := l
    events := (eraseRunEvents s.cfg.params s.geo s.opr.a0 runs ++ eraseEvents s.cfg.params s.geo block ++ ev).reverse
      ++ s.events }

section
variable {s s' : State} {runs : List BlockRun} {restR' : List Bool} {restD' : List Half}
  (h : afterErases s.opr.a0.toNat runs restR' restD' s s') (kind : ErrKind) (info : Word)
include h

/-- An error after the next block's two polls. -/
theorem errorEntry_afterTwoPolls (k : Nat) (restR : List Bool) (restD status : List Half) (n : Nat) :
    let t := afterTwoPolls k restR status restD n (eraseStarted (s.opr.a0 + BitVec.ofNat 32 runs.length) s')
    errorEntry kind info t = errorEntry kind info
      (eraseStopped runs restR restD status (rdyEvents k ++ statusEvents s.cfg.params status) t.loop s) := by
  obtain ⟨ph, r1, l, rfl⟩ := h
  simp only [afterTwoPolls, eraseStarted, eraseStopped, polledLoop, ← lastStatus_append, streamBytes_append,
    EccUnit.absorbBytes_append, List.reverse_append, List.append_assoc, BitVec.ofNat_toNat, BitVec.setWidth_eq]
  rfl

/-- An error after a ready poll that found the next block busy all the time. -/
theorem errorEntry_afterBusy (restR : List Bool) :
    let t := afterBusy restR (eraseStarted (s.opr.a0 + BitVec.ofNat 32 runs.length) s')
    errorEntry kind info t = errorEntry kind info
      (eraseStopped runs restR restD' [] (List.replicate s.opr.timeout.toNat (Event.rdy false)) t.loop s) := by
  obtain ⟨ph, r1, l, rfl⟩ := h
  simp only [afterBusy, eraseStarted, eraseStopped, polledLoop, List.append_nil, List.reverse_append,
    List.reverse_replicate, List.append_assoc, BitVec.ofNat_toNat, BitVec.setWidth_eq]
  rfl

end

/-- Settles O34: the next block's two polls stop the op, in one of their three ways. -/
theorem nandEraseBlocksStops : Obligations.NandEraseBlocksStops := by
  intro s runs restR restD hq hv hin hlen hruns p block rdyBefore drBefore left
  have hstop := fun restR restD => exec_nandEraseBlocks_stop (restR := restR) (restD := restD) hq hv hin hlen hruns
  refine ⟨fun r hr hfail hrdy hdr => ?_, fun hrdy hdr => ?_, fun k polls hk hpolls hbusy hrdy hdr => ?_⟩
  · obtain ⟨s', hafter, hexec⟩ := hstop (List.replicate r.busy false ++ true :: restR) (r.status ++ restD)
      (hrdy.trans (List.append_assoc ..)) (hdr.trans (List.append_assoc ..))
    have hleft := errorEntry_afterTwoPolls hafter .eraseFailure ((r.last.extractLsb' 0 8).setWidth 32) r.busy restR
      restD r.status (s.opr.timeout.toNat - r.polls.length)
    obtain ⟨ph, r1, l, rfl⟩ := hafter
    refine ⟨_, (hexec .raised _ ?_).trans (congrArg _ hleft)⟩
    exact twoPolls_fail (by exact hq) .eraseFailure hr hfail rfl rfl
  · obtain ⟨s', hafter, hexec⟩ := hstop (List.replicate s.opr.timeout.toNat false ++ restR) restD
      (hrdy.trans (List.append_assoc ..)) hdr
    have hleft := errorEntry_afterBusy hafter .timeout 0 restR
    obtain ⟨ph, r1, l, rfl⟩ := hafter
    refine ⟨_, (hexec .raised _ ?_).trans (congrArg _ hleft)⟩
    exact twoPolls_busy (by exact hq) .eraseFailure rfl
  · obtain ⟨s', hafter, hexec⟩ := hstop (List.replicate k false ++ true :: restR) (polls ++ restD)
      (hrdy.trans (List.append_assoc ..)) (hdr.trans (List.append_assoc ..))
    have hleft := errorEntry_afterTwoPolls hafter .timeout 0 k restR restD polls 0
    obtain ⟨ph, r1, l, rfl⟩ := hafter
    refine ⟨_, (hexec .raised _ ?_).trans (congrArg _ hleft)⟩
    exact twoPolls_timeout (by exact hq) .eraseFailure hk rfl hpolls rfl hbusy

end Sys2Proof.Machine
end

section
/-! PROOFS. `NAND_WRITE_PAGE` (`43_nand_page_block.md` R197): what it sends, and how its two polls end it. -/

namespace Sys2Proof.Machine

/-! ## The trace -/

/-- The bus cycles of a longer trace. -/
theorem busTrace_of_events {s t : State} {ev : List Event} (h : t.events = ev ++ s.events) :
    t.busTrace = s.busTrace ++ (ev.filter Event.onBus).reverse := by
  rw [State.busTrace, h, filter_append_onBus, List.reverse_append, State.busTrace]

theorem filter_rdyEvents (k : Nat) : (rdyEvents k).filter Event.onBus = rdyEvents k :=
  List.filter_eq_self.mpr (rdyEvents_onBus k)

theorem statusEvents_onBus (p : Config.Params) (l : List Half) : ∀ e ∈ statusEvents p l, e.onBus = true := by
  intro e he
  obtain ⟨v, -, hv⟩ := List.mem_flatMap.mp he
  rcases List.mem_pair.mp hv with rfl | rfl <;> rfl

theorem filter_statusEvents (p : Config.Params) (l : List Half) :
    (statusEvents p l).filter Event.onBus = statusEvents p l :=
  List.filter_eq_self.mpr (statusEvents_onBus p l)

/-! ## What is sent -/

/-- The state after the checks of a page op (R191). -/
def slotsCleared (s : State) : State := { s with slots := ⟨Quad.zero, Quad.zero, Quad.zero⟩ }

theorem State.PageOpReady.quiet {s : State} (h : s.PageOpReady) : s.Quiet := h.1

theorem State.PageOpReady.legal {s : State} (h : s.PageOpReady) : s.geo.Legal s.eccu.mask := by
  obtain ⟨-, -, hlegal, -⟩ := h
  exact hlegal

theorem State.PageOpReady.pageChecks_run {s : State} (h : s.PageOpReady) : pageChecks s = .ok () (slotsCleared s) := by
  obtain ⟨-, hvalid, -, hblock, hpage, -⟩ := h
  exact Machine.pageChecks_run hvalid hblock hpage

/-- The bytes of the page in the host's buffer. -/
def pageData (s : State) : List Byte := s.buffer s.opr.a2 (s.geo.numOps.toNat * s.geo.bytesPerOp.toNat)

/-- The state of a page write in phase `ph`, its page sent and the status answers `status` read. -/
def pageSent (ph : Phase) (status : List Half) (d : Device) (l : LoopRegs) (ev : List Event) (s : State) : State :=
  { s with
    stat := { s.stat with phase := ph }
    res := { s.res with lastStat := lastStatus s.res.lastStat status }
    eccu := EccUnit.absorbBytes ⟨0, 0, true, s.eccu.mask⟩
      (spareOf s.geo s.eccu.mask (pageData s) ++ streamBytes s.cfg.params.nandBus16 status)
    slots :=
      { ecc := Quad.upTo s.geo.numOps.toNat (computedEcc s.geo s.eccu.mask (pageData s))
        secc := Quad.zero
        corr := Quad.zero }
    dev := d
    loop := l
    events := ev ++ s.events }

/-- The cycles of a page write up to its confirm. -/
def sentEvents (s : State) : List Event :=
  writeEvents s.cfg.params s.geo s.opr.a0 s.opr.a1 s.eccu.mask (pageData s)

/-- Once the page is sent only the two polls are left. -/
theorem nandWritePageOp_eq_twoPolls {s : State} (h : s.PageOpReady) :
    ∃ l ev, nandWritePageOp s = twoPolls .programFailure (pageSent .confirm [] s.dev l ev s)
      ∧ ev.filter Event.onBus = (sentEvents s).reverse := by
  obtain ⟨l, ev, hrun, hev⟩ := pageSend_run (s := slotsCleared s) h.quiet h.legal rfl s.opr.a0 s.opr.a1 s.opr.a2
    (twoPolls .programFailure)
  refine ⟨l, ev, ?_, hev⟩
  rw [nandWritePageOp, Op.bind_ok h.pageChecks_run, Op.bind_ok (Op.run_get _), Op.bind_ok (params_run _)]
  refine hrun.trans (congrArg _ ?_)
  simp only [pageSent, streamBytes_nil, List.append_nil]
  rfl

/-! ## The ends -/

section
variable (s : State) (l : LoopRegs) (ev : List Event) (restR : List Bool)

theorem afterTwoPolls_pageSent (k : Nat) (status restD : List Half) (n : Nat) :
    afterTwoPolls k restR status restD n (pageSent .confirm [] s.dev l ev s)
      = pageSent .waitStatus status { s.dev with rdy := restR, dr := restD }
        { l with pollCnt := BitVec.ofNat 32 n } ((rdyEvents k ++ statusEvents s.cfg.params status).reverse ++ ev) s := by
  simp only [afterTwoPolls, pageSent, polledLoop, streamBytes_nil, List.append_nil, EccUnit.absorbBytes_append,
    List.append_assoc]
  rfl

theorem afterBusy_pageSent :
    afterBusy restR (pageSent .confirm [] s.dev l ev s)
      = pageSent .waitRdy [] { s.dev with rdy := restR } { l with pollCnt := BitVec.ofNat 32 0 }
        (List.replicate s.opr.timeout.toNat (Event.rdy false) ++ ev) s := by
  simp only [afterBusy, pageSent, polledLoop, List.append_assoc]

end

/-- The trace of a page write that has gone on to send `more`. -/
theorem busTrace_of_sent {s t : State} {ev more : List Event} (hev : ev.filter Event.onBus = (sentEvents s).reverse)
    (ht : t.events = (more.reverse ++ ev) ++ s.events) (hmore : more.filter Event.onBus = more) :
    t.busTrace = s.busTrace ++ sentEvents s ++ more := by
  rw [busTrace_of_events ht, filter_append_onBus, hev, List.filter_reverse, hmore, List.reverse_append,
    List.reverse_reverse, List.reverse_reverse, List.append_assoc]

/-- Settles O31: the two polls of a page that has been sent. -/
theorem nandWritePageOp_spec : Obligations.NandWritePageOp := by
  intro s restR restD h g p mask n data sent left
  have hq := h.quiet
  obtain ⟨l, ev, hpolls, hev⟩ := nandWritePageOp_eq_twoPolls h
  have hrdyStatus : ∀ k status, (rdyEvents k ++ statusEvents p status).filter Event.onBus
      = rdyEvents k ++ statusEvents p status := fun k status => by
    rw [filter_append_onBus, filter_rdyEvents, filter_statusEvents]
  refine ⟨fun r hr hrdy hdr => ?_, fun hrdy => ?_, fun k polls hk hlen hrdy hdr hbusy => ?_⟩
  · by_cases hfail : statusFail p r.last
    · have hrun := hpolls.trans (twoPolls_fail (by exact hq) .programFailure hr hfail hrdy hdr)
      rw [afterTwoPolls_pageSent] at hrun
      refine ⟨_, exec_of_pseudocode_error (i := .nandWritePage) hq hrun, ?_, fun hok => absurd hfail hok, fun _ => rfl⟩
      rw [List.append_assoc (s.busTrace ++ sent)]
      exact busTrace_of_sent hev rfl (hrdyStatus _ _)
    · have hrun := hpolls.trans (twoPolls_ok (by exact hq) .programFailure hr hfail hrdy hdr)
      rw [afterTwoPolls_pageSent] at hrun
      refine ⟨_, exec_of_pseudocode_ok (i := .nandWritePage) hq hrun, ?_, fun _ => rfl, fun h => absurd h hfail⟩
      rw [List.append_assoc (s.busTrace ++ sent)]
      exact busTrace_of_sent hev rfl (hrdyStatus _ _)
  · have hrun := hpolls.trans (twoPolls_busy (by exact hq) .programFailure hrdy)
    rw [afterBusy_pageSent] at hrun
    refine ⟨_, exec_of_pseudocode_error (i := .nandWritePage) hq hrun, ?_, ?_⟩
    · refine busTrace_of_sent hev (by rw [List.reverse_replicate]; rfl) (by simp [Event.onBus])
    · simp only [streamBytes_nil, left]
      rfl
  · have hrun := hpolls.trans (twoPolls_timeout (by exact hq) .programFailure hk hrdy hlen hdr hbusy)
    rw [afterTwoPolls_pageSent] at hrun
    refine ⟨_, exec_of_pseudocode_error (i := .nandWritePage) hq hrun, ?_, rfl⟩
    rw [List.append_assoc (s.busTrace ++ sent)]
    exact busTrace_of_sent hev rfl (hrdyStatus _ _)

end Sys2Proof.Machine
end

section
/-! PROOFS. The page reads `NAND_READ_PAGE` and `NAND_VERIFY_PAGE` (`43_nand_page_block.md` R193, R201): the ready poll
that runs out, the page that is read into the buffer or PAGEBUF, the comparison. -/

namespace Sys2Proof.Machine

/-! ## The ready poll that runs out (R193, R196 (b)) -/

/-- The cycles that start a page read. -/
def readStartEvents (p : Config.Params) (g : Geo) (block page : Word) : List Event :=
  [cleEvent p.cmdRead] ++ addrEvents g block page ++ (if g.bigBlock then [cleEvent p.cmdReadConfirm] else [])

/-- The extra confirm command of a big-block device. -/
theorem readConfirm_run {s : State} (hq : s.host.busy = []) (big : Bool) :
    ∃ ph, readConfirm big s = .ok ()
      { s with
        stat := { s.stat with phase := ph }
        events := (if big then [cleEvent s.cfg.params.cmdReadConfirm] else []) ++ s.events } := by
  cases big with
  | false => exact ⟨s.stat.phase, Op.bind_ok (params_run s)⟩
  | true =>
    refine ⟨.confirm, ?_⟩
    rw [readConfirm, Op.bind_ok (params_run s), if_pos rfl, Op.bind_ok (setPhase_run _ _), cle_run (by exact hq)]
    rfl

/-- The state in which a page read begins to wait for the device. -/
def readWaiting (block page : Word) (s : State) : State :=
  { s with
    stat := { s.stat with phase := .waitRdy }
    events := (readStartEvents s.cfg.params s.geo block page).reverse ++ s.events }

/-- The cycles that start a page read, and then its ready poll. -/
theorem readStart_eq {s : State} (hq : s.host.busy = []) (block page : Word) (m : Op Unit) :
    (do
      setPhase .cmd
      cle s.cfg.params.cmdRead
      setPhase .addr
      addrCycles block page
      readConfirm s.geo.bigBlock
      setPhase .waitRdy
      m : Op Unit) s = m (readWaiting block page s) := by
  rw [Op.bind_ok (setPhase_run _ _), Op.bind_ok (cle_run (by exact hq) _), Op.bind_ok (setPhase_run _ _),
    Op.bind_ok (addrCycles_run (by exact hq) _ _)]
  obtain ⟨ph, hconfirm⟩ := readConfirm_run (s := { s with
    stat := { s.stat with phase := .addr }
    events := (addrEvents s.geo block page).reverse ++ (Event.cle (s.cfg.params.cmdRead.setWidth 16) :: s.events) })
    (by exact hq) s.geo.bigBlock
  refine (Op.bind_ok hconfirm).trans ?_
  rw [Op.bind_ok (setPhase_run _ _)]
  cases hbig : s.geo.bigBlock <;> simp [readWaiting, readStartEvents, cleEvent, hbig]

/-- A page read stops where its ready poll runs out. -/
theorem pageRead_timeout {s : State} (hq : s.host.busy = []) (block page : Word) (t : Space) (base : Word)
    {restR : List Bool} (hrdy : s.dev.rdy = List.replicate s.opr.timeout.toNat false ++ restR) :
    pageRead block page t base s = .error .raised (errorEntry .timeout 0
      { readWaiting block page s with
        loop := polledLoop 0 s
        dev := { s.dev with rdy := restR }
        events := List.replicate s.opr.timeout.toNat (Event.rdy false) ++ (readWaiting block page s).events }) := by
  rw [pageRead, Op.bind_ok (Op.run_get _), Op.bind_ok (params_run _), readStart_eq hq,
    Op.bind_error (waitRdy_timeout (by exact hq) (by exact hrdy))]
  rfl

/-- A page op goes through its checks and then reads the page. -/
theorem State.PageOpReady.nandReadPageOp_eq {s : State} (h : s.PageOpReady) :
    nandReadPageOp s = (do
      pageRead s.opr.a0 s.opr.a1 .host s.opr.a2
      countCorrected : Op Unit) (slotsCleared s) := by
  rw [nandReadPageOp, Op.bind_ok h.pageChecks_run, Op.bind_ok (Op.run_get _)]
  rfl

theorem State.PageOpReady.nandVerifyPageOp_eq {s : State} (h : s.PageOpReady) :
    nandVerifyPageOp s = (do
      pageRead s.opr.a0 s.opr.a1 .page 0
      setPhase .verify
      forUp (verifyByte s.opr.a2) 0 (s.geo.numOps.toNat * s.geo.bytesPerOp.toNat)
      countCorrected : Op Unit) (slotsCleared s) := by
  rw [nandVerifyPageOp, Op.bind_ok h.pageChecks_run, Op.bind_ok (Op.run_get _)]
  rfl

/-- Settles O30: both ops stop at the ready poll of their page read. -/
theorem nandPageReadTimesOut : Obligations.NandPageReadTimesOut := by
  intro s restR i h hi hrdy
  refine ⟨polledLoop 0 s, ?_⟩
  have hq := h.quiet
  have hread := fun t base => pageRead_timeout (s := slotsCleared s) hq s.opr.a0 s.opr.a1 t base hrdy
  rw [List.append_assoc]
  rcases hi with rfl | rfl
  · exact exec_of_pseudocode_error (i := .nandReadPage) hq (h.nandReadPageOp_eq.trans (Op.bind_error (hread _ _)))
  · exact exec_of_pseudocode_error (i := .nandVerifyPage) hq (h.nandVerifyPageOp_eq.trans (Op.bind_error (hread _ _)))

/-! ## What a page read leaves (R193) -/

/-- The state in phase `ph`. -/
def withPhase (ph : Phase) (s : State) : State := { s with stat := { s.stat with phase := ph } }

/-- An error sets the phase back. -/
theorem errorEntry_withPhase (k : ErrKind) (info : Word) (ph : Phase) (s : State) :
    errorEntry k info (withPhase ph s) = errorEntry k info s := rfl

/-- What a page read into space `t` leaves that has repaired the sub-pages below `c` and recorded a decision for those
below `checked`: memory, loop registers and trace are those of `u`. -/
def pageLeft (t : Space) (a : PageAnswers) (c checked : Nat) (s u : State) : State :=
  { s with
    stat := { s.stat with corr := s.stat.corr || (List.range c).any fun i => (a.verdict s i).isSingle }
    eccu := EccUnit.absorbBytes ⟨0, 0, true, s.eccu.mask⟩ (streamBytes s.cfg.params.nandBus16 a.spare)
    slots :=
      { ecc := Quad.upTo s.geo.numOps.toNat
          (computedEcc s.geo s.eccu.mask (streamBytes s.cfg.params.nandBus16 a.data))
        secc := Quad.upTo s.geo.numOps.toNat
          (spareEcc s.geo s.eccu.mask (streamBytes s.cfg.params.nandBus16 a.spare))
        corr := Quad.upTo checked fun i => (a.verdict s i).record }
    dev := { s.dev with rdy := a.restR, dr := a.rest }
    mem := t.pick u.mem s.mem
    pageBuf := t.pick s.pageBuf u.pageBuf
    spareBuf := u.spareBuf
    loop := u.loop
    events := u.events }

section
variable {t : Space} {block page base : Word} {a : PageAnswers} {c checked : Nat} {ev : List Event} {s u : State}
  (h : afterPage t block page base a c checked ev (slotsCleared s) u)
include h

theorem afterPage.eq_pageLeft : u = withPhase u.stat.phase (pageLeft t a c checked s u) := by
  obtain ⟨l, sb, ph, rfl, -, -⟩ := h
  cases t <;> rfl

theorem afterPage.busTrace :
    u.busTrace = s.busTrace ++ readEvents s.cfg.params s.geo block page a.busy a.data a.spare := by
  obtain ⟨l, sb, ph, rfl, -, hev⟩ := h
  rw [busTrace_of_events (s := s) rfl, hev, List.reverse_reverse]
  rfl

theorem afterPage.host : u.host = s.host := by
  obtain ⟨l, sb, ph, rfl, -, -⟩ := h
  rfl

theorem afterPage.geo : u.geo = s.geo := by
  obtain ⟨l, sb, ph, rfl, -, -⟩ := h
  rfl

theorem afterPage.res : u.res = s.res := by
  obtain ⟨l, sb, ph, rfl, -, -⟩ := h
  rfl

theorem afterPage.corrSlots : u.slots.corr = Quad.upTo checked fun i => (a.verdict s i).record := by
  obtain ⟨l, sb, ph, rfl, -, -⟩ := h
  rfl

end

/-- The bytes of the page as the corrector leaves them. -/
def pageHeld (a : PageAnswers) (s : State) (c : Nat) : List Byte :=
  repairedPage s.geo s.eccu.mask (streamBytes s.cfg.params.nandBus16 a.data) (streamBytes s.cfg.params.nandBus16 a.spare) c

section
variable {a : PageAnswers} {c checked : Nat} {ev : List Event} {s u : State} {block page base : Word}
  (hlegal : s.geo.Legal s.eccu.mask) (hfit : a.Fit (slotsCleared s)) (hc : c ≤ s.geo.numOps.toNat)
include hlegal hfit hc

theorem afterPage.buffer (hwf : s.mem.wf = true) (h : afterPage .host block page base a c checked ev (slotsCleared s) u) :
    u.buffer base (s.geo.numOps.toNat * s.geo.bytesPerOp.toNat) = pageHeld a s c := by
  obtain ⟨l, sb, ph, rfl, -, -⟩ := h
  exact page_bytes (s := slotsCleared s) hlegal a base hwf hc hfit.data

theorem afterPage.outside (h : afterPage .host block page base a c checked ev (slotsCleared s) u) (x : Nat)
    (hx : ∀ j < s.geo.numOps.toNat * s.geo.bytesPerOp.toNat, bufAddr base j ≠ x) :
    u.mem.readByte x = s.mem.readByte x := by
  obtain ⟨l, sb, ph, rfl, -, -⟩ := h
  exact page_outside (s := slotsCleared s) hlegal a base s.mem hc hfit.data x hx

/-- PAGEBUF after a read into it. -/
theorem afterPage.pageBuf (hwf : s.pageBuf.wf = true) (h : afterPage .page block page 0 a c checked ev (slotsCleared s) u)
    (j : Nat) (hj : j < s.geo.numOps.toNat * s.geo.bytesPerOp.toNat) :
    u.pageBuf.readByte (bufAddr 0 j) = (pageHeld a s c).getD j 0 := by
  obtain ⟨l, sb, ph, rfl, -, -⟩ := h
  have hbytes : _ = pageHeld a s c := page_bytes (s := slotsCleared s) hlegal a 0 hwf hc hfit.data
  rw [← hbytes, List.getD_eq_getElem?_getD, List.getElem?_map, List.getElem?_range (by exact hj)]
  rfl

end

/-- The sub-pages of the page that are repaired. -/
def repairCount (a : PageAnswers) (s : State) : Nat :=
  (List.range s.geo.numOps.toNat).countP fun i => (a.verdict s i).isSingle

/-- RES0 set to the number of the repaired sub-pages. -/
theorem countCorrected_run {s u : State} {a : PageAnswers} (hgeo : u.geo = s.geo) (hn : s.geo.numOps.toNat ≤ 4)
    (hcorr : u.slots.corr = Quad.upTo s.geo.numOps.toNat fun i => (a.verdict s i).record) :
    countCorrected u = .ok () { u with res := { u.res with res0 := BitVec.ofNat 32 (repairCount a s) } } := by
  rw [countCorrected, Op.bind_ok (Op.run_get _), setRes0_run, hcorr, hgeo, correctedCount_upTo (a.verdict s) hn]
  rfl

/-! ## `NAND_READ_PAGE` (R193) -/

section
variable {s : State} (h : s.PageOpReady) {a : PageAnswers} (hfit : a.Fit (slotsCleared s))
include h hfit

/-- No sub-page is uncorrectable: the corrector's pass comes to its end. -/
theorem exec_nandReadPage_ok (hnone : ∀ i < s.geo.numOps.toNat, a.verdict s i ≠ .uncorrectable) :
    ∃ ev u, afterPage .host s.opr.a0 s.opr.a1 s.opr.a2 a s.geo.numOps.toNat s.geo.numOps.toNat ev (slotsCleared s) u
      ∧ exec .nandReadPage s = .next (normalEnd
        { pageLeft .host a s.geo.numOps.toNat s.geo.numOps.toNat s u with
          res := { s.res with res0 := BitVec.ofNat 32 (repairCount a s) } }) := by
  have heq := h.nandReadPageOp_eq
  obtain ⟨hq, -, hlegal, -, -, -, -, hwfSpare⟩ := h
  obtain ⟨ev, u, hread, hafter⟩ := pageRead_run .host s.opr.a0 s.opr.a1 s.opr.a2 (s := slotsCleared s) a hq hlegal rfl
    hwfSpare hfit hnone
  refine ⟨ev, u, hafter, ?_⟩
  rw [exec_of_pseudocode_ok (i := .nandReadPage) hq (heq.trans ((Op.bind_ok hread).trans
    (countCorrected_run hafter.geo hlegal.sizes.1 hafter.corrSlots))), hafter.res]
  exact congrArg (fun t => Host.Outcome.next (normalEnd { t with
    res := { s.res with res0 := BitVec.ofNat 32 (repairCount a s) } })) hafter.eq_pageLeft

/-- The first uncorrectable sub-page stops it. -/
theorem exec_nandReadPage_fail {j : Nat} (hj : j < s.geo.numOps.toNat) (hbad : a.verdict s j = .uncorrectable)
    (hfirst : ∀ i < j, a.verdict s i ≠ .uncorrectable) :
    ∃ ev u, afterPage .host s.opr.a0 s.opr.a1 s.opr.a2 a j (j + 1) ev (slotsCleared s) u
      ∧ exec .nandReadPage s = .next (errorEntry .eccFailure (BitVec.ofNat 32 j) (pageLeft .host a j (j + 1) s u)) := by
  have heq := h.nandReadPageOp_eq
  obtain ⟨hq, -, hlegal, -, -, -, -, hwfSpare⟩ := h
  obtain ⟨ev, u, hread, hafter⟩ := pageRead_fail .host s.opr.a0 s.opr.a1 s.opr.a2 (s := slotsCleared s) a hq hlegal rfl
    hwfSpare hfit hj hbad hfirst
  refine ⟨ev, u, hafter, ?_⟩
  rw [← errorEntry_withPhase _ _ u.stat.phase (pageLeft _ _ _ _ _ _), ← hafter.eq_pageLeft]
  exact exec_of_pseudocode_error (i := .nandReadPage) hq (heq.trans (Op.bind_error hread))

end

/-- Settles O28: the corrector's pass over the page that has been read either comes to its end or stops at the first
uncorrectable sub-page. -/
theorem nandReadPageOp_spec : Obligations.NandReadPageOp := by
  intro s k data spare rest restR h g mask n len dataBytes spareBytes verdict hk hrdy hdr hdata hspare done left
  have hfit : PageAnswers.Fit ⟨k, data, spare, restR, rest⟩ (slotsCleared s) := ⟨hk, hrdy, hdr, hdata, hspare⟩
  obtain ⟨-, -, hlegal, -, -, hwf, -⟩ := id h
  refine ⟨fun hnone => ?_, fun j hj hbad hfirst => ?_⟩
  · obtain ⟨ev, u, hafter, hexec⟩ := exec_nandReadPage_ok h hfit hnone
    have hbuffer := hafter.buffer hlegal hfit (Nat.le_refl _) hwf
    have houtside := hafter.outside hlegal hfit (Nat.le_refl _)
    exact ⟨_, hexec, ⟨hafter.busTrace, hbuffer, houtside⟩, rfl⟩
  · obtain ⟨ev, u, hafter, hexec⟩ := exec_nandReadPage_fail h hfit hj hbad hfirst
    have hbuffer := hafter.buffer hlegal hfit (Nat.le_of_lt hj) hwf
    have houtside := hafter.outside hlegal hfit (Nat.le_of_lt hj)
    exact ⟨_, hexec, ⟨hafter.busTrace, hbuffer, houtside⟩, rfl⟩

/-! ## `NAND_VERIFY_PAGE` (R201) -/

section
variable {s : State} (h : s.PageOpReady) {a : PageAnswers} (hfit : a.Fit (slotsCleared s))
include h hfit

/-- An uncorrectable sub-page stops the op before anything is compared. -/
theorem exec_nandVerifyPage_fail {j : Nat} (hj : j < s.geo.numOps.toNat) (hbad : a.verdict s j = .uncorrectable)
    (hfirst : ∀ i < j, a.verdict s i ≠ .uncorrectable) :
    ∃ ev u, afterPage .page s.opr.a0 s.opr.a1 0 a j (j + 1) ev (slotsCleared s) u
      ∧ exec .nandVerifyPage s = .next (errorEntry .eccFailure (BitVec.ofNat 32 j) (pageLeft .page a j (j + 1) s u)) := by
  have heq := h.nandVerifyPageOp_eq
  obtain ⟨hq, -, hlegal, -, -, -, -, hwfSpare⟩ := h
  obtain ⟨ev, u, hread, hafter⟩ := pageRead_fail .page s.opr.a0 s.opr.a1 0 (s := slotsCleared s) a hq hlegal rfl
    hwfSpare hfit hj hbad hfirst
  refine ⟨ev, u, hafter, ?_⟩
  rw [← errorEntry_withPhase _ _ u.stat.phase (pageLeft _ _ _ _ _ _), ← hafter.eq_pageLeft]
  exact exec_of_pseudocode_error (i := .nandVerifyPage) hq (heq.trans (Op.bind_error hread))

/-- Otherwise the page is in PAGEBUF when the comparison begins. -/
theorem nandVerifyPageOp_read (hnone : ∀ i < s.geo.numOps.toNat, a.verdict s i ≠ .uncorrectable) :
    ∃ ev u, afterPage .page s.opr.a0 s.opr.a1 0 a s.geo.numOps.toNat s.geo.numOps.toNat ev (slotsCleared s) u
      ∧ nandVerifyPageOp s = (do
        forUp (verifyByte s.opr.a2) 0 (s.geo.numOps.toNat * s.geo.bytesPerOp.toNat)
        countCorrected : Op Unit) (withPhase .verify u) := by
  have heq := h.nandVerifyPageOp_eq
  obtain ⟨hq, -, hlegal, -, -, -, -, hwfSpare⟩ := h
  obtain ⟨ev, u, hread, hafter⟩ := pageRead_run .page s.opr.a0 s.opr.a1 0 (s := slotsCleared s) a hq hlegal rfl
    hwfSpare hfit hnone
  refine ⟨ev, u, hafter, ?_⟩
  rw [heq, Op.bind_ok hread, Op.bind_ok (setPhase_run _ _)]
  rfl

end

/-- The state of a comparison that has read the host's bytes in the events `ev`. -/
def compared (ev : List Event) (u : State) : State := { withPhase .verify u with events := ev ++ u.events }

section
variable {s u : State} {a : PageAnswers} {ev ev2 : List Event}
  (hafter : afterPage .page s.opr.a0 s.opr.a1 0 a s.geo.numOps.toNat s.geo.numOps.toNat ev (slotsCleared s) u)
include hafter

/-- Reading the host's bytes changes nothing but the trace. -/
theorem compared_eq_pageLeft :
    compared ev2 u = withPhase .verify (pageLeft .page a s.geo.numOps.toNat s.geo.numOps.toNat s (compared ev2 u)) := by
  obtain ⟨l, sb, ph, rfl, -, -⟩ := hafter
  rfl

/-- Nor does the trace show them. -/
theorem compared_busTrace (hev2 : ev2.filter Event.onBus = []) :
    (compared ev2 u).busTrace = s.busTrace ++ readEvents s.cfg.params s.geo s.opr.a0 s.opr.a1 a.busy a.data a.spare := by
  rw [busTrace_of_events (s := u) (ev := ev2) rfl, hev2, hafter.busTrace, List.reverse_nil, List.append_nil]

/-- What is compared: the byte held in PAGEBUF, and the host's. -/
theorem comparedBytes (hready : s.PageOpReady) (hfit : a.Fit (slotsCleared s)) {j : Nat}
    (hj : j < s.geo.numOps.toNat * s.geo.bytesPerOp.toNat) :
    u.pageBuf.readByte (bufAddr 0 j) = (pageHeld a s s.geo.numOps.toNat).getD j 0
    ∧ u.mem.readByte (bufAddr s.opr.a2 j) = (pageData s).getD j 0 := by
  obtain ⟨-, -, hlegal, -, -, -, hwf, -⟩ := hready
  refine ⟨hafter.pageBuf hlegal hfit (Nat.le_refl _) hwf j hj, ?_⟩
  rw [pageData, buffer_getD _ _ _ _ hj]
  obtain ⟨l, sb, ph, rfl, -, -⟩ := hafter
  rfl

theorem agrees_iff (hready : s.PageOpReady) (hfit : a.Fit (slotsCleared s)) {j : Nat}
    (hj : j < s.geo.numOps.toNat * s.geo.bytesPerOp.toNat) :
    Agrees s.opr.a2 (withPhase .verify u) j ↔ (pageHeld a s s.geo.numOps.toNat).getD j 0 = (pageData s).getD j 0 := by
  obtain ⟨hheld, hexpected⟩ := comparedBytes hafter hready hfit hj
  rw [← hheld, ← hexpected, eq_comm]
  rfl

end

section
variable {s : State} (h : s.PageOpReady) {a : PageAnswers} (hfit : a.Fit (slotsCleared s))
  (hnone : ∀ i < s.geo.numOps.toNat, a.verdict s i ≠ .uncorrectable)
include h hfit hnone

/-- All the bytes agree. -/
theorem exec_nandVerifyPage_ok
    (hsame : ∀ j < s.geo.numOps.toNat * s.geo.bytesPerOp.toNat,
      (pageHeld a s s.geo.numOps.toNat).getD j 0 = (pageData s).getD j 0) :
    ∃ u : State, u.busTrace = s.busTrace ++ readEvents s.cfg.params s.geo s.opr.a0 s.opr.a1 a.busy a.data a.spare
      ∧ exec .nandVerifyPage s = .next (normalEnd
        { pageLeft .page a s.geo.numOps.toNat s.geo.numOps.toNat s u with
          res := { s.res with res0 := BitVec.ofNat 32 (repairCount a s) } }) := by
  obtain ⟨ev, u, hafter, hop⟩ := nandVerifyPageOp_read h hfit hnone
  have hq : u.host.busy = [] := hafter.host ▸ h.quiet
  obtain ⟨ev2, hverify, hev2⟩ := verify_ok s.opr.a2 (s.geo.numOps.toNat * s.geo.bytesPerOp.toNat) 0
    (withPhase .verify u) hq
    (fun j _ hj => (agrees_iff hafter h hfit (by omega)).mpr (hsame j (by omega)))
  have hcount := countCorrected_run (s := s) (u := compared ev2 u) (a := a) hafter.geo h.legal.sizes.1 hafter.corrSlots
  refine ⟨compared ev2 u, compared_busTrace hafter hev2, ?_⟩
  rw [exec_of_pseudocode_ok (i := .nandVerifyPage) h.quiet (hop.trans ((Op.bind_ok hverify).trans hcount))]
  rw [show (compared ev2 u).res = s.res from hafter.res]
  exact congrArg (fun t => Host.Outcome.next (normalEnd { t with
    res := { s.res with res0 := BitVec.ofNat 32 (repairCount a s) } })) (compared_eq_pageLeft hafter)

/-- Byte `j` is the first that does not. -/
theorem exec_nandVerifyPage_differs {j : Nat} (hj : j < s.geo.numOps.toNat * s.geo.bytesPerOp.toNat)
    (hsame : ∀ i < j, (pageHeld a s s.geo.numOps.toNat).getD i 0 = (pageData s).getD i 0)
    (hdiff : (pageHeld a s s.geo.numOps.toNat).getD j 0 ≠ (pageData s).getD j 0) :
    ∃ u : State, u.busTrace = s.busTrace ++ readEvents s.cfg.params s.geo s.opr.a0 s.opr.a1 a.busy a.data a.spare
      ∧ exec .nandVerifyPage s = .next (errorEntry .verifyFailure (BitVec.ofNat 32 j)
        { pageLeft .page a s.geo.numOps.toNat s.geo.numOps.toNat s u with
          res := { s.res with
            res1 := ((pageHeld a s s.geo.numOps.toNat).getD j 0).setWidth 32
            res2 := ((pageData s).getD j 0).setWidth 32 } }) := by
  obtain ⟨ev, u, hafter, hop⟩ := nandVerifyPageOp_read h hfit hnone
  have hq : u.host.busy = [] := hafter.host ▸ h.quiet
  obtain ⟨ev2, hverify, hev2⟩ := verify_fail s.opr.a2 (j := j) (s.geo.numOps.toNat * s.geo.bytesPerOp.toNat) 0
    (withPhase .verify u) hq (Nat.zero_le j) (by omega)
    (fun i _ hi => (agrees_iff hafter h hfit (by omega)).mpr (hsame i hi))
    (mt (agrees_iff hafter h hfit hj).mp hdiff)
  refine ⟨compared ev2 u, compared_busTrace hafter hev2, ?_⟩
  obtain ⟨hheld, hexpected⟩ := comparedBytes hafter h hfit hj
  have hres :
      { u.res with
        res1 := (u.pageBuf.readByte (bufAddr 0 j)).setWidth 32
        res2 := (u.mem.readByte (bufAddr s.opr.a2 j)).setWidth 32 }
      = { s.res with
        res1 := ((pageHeld a s s.geo.numOps.toNat).getD j 0).setWidth 32
        res2 := ((pageData s).getD j 0).setWidth 32 } := by
    rw [hheld, hexpected, hafter.res]
  rw [exec_of_pseudocode_error (i := .nandVerifyPage) h.quiet (hop.trans (Op.bind_error hverify))]
  exact congrArg₂ (fun r t => Host.Outcome.next (errorEntry .verifyFailure (BitVec.ofNat 32 j) { t with res := r })) hres
    (compared_eq_pageLeft hafter)

end

/-- Settles O29: once the page is in PAGEBUF, the comparison comes to its end or stops at the first difference. -/
theorem nandVerifyPageOp_spec : Obligations.NandVerifyPageOp := by
  intro s k data spare rest restR h g mask n len dataBytes spareBytes verdict held expected hk hrdy hdr hdata hspare left
    done
  have hfit : PageAnswers.Fit ⟨k, data, spare, restR, rest⟩ (slotsCleared s) := ⟨hk, hrdy, hdr, hdata, hspare⟩
  refine ⟨fun hnone => ⟨fun hsame => ?_, fun j hj hsame hdiff => ?_⟩, fun j hj hbad hfirst => ?_⟩
  · obtain ⟨u, htrace, hexec⟩ := exec_nandVerifyPage_ok h hfit hnone fun j _ => congrArg (·.getD j 0) hsame
    exact ⟨_, ⟨hexec, htrace⟩, rfl⟩
  · obtain ⟨u, htrace, hexec⟩ := exec_nandVerifyPage_differs h hfit hnone hj hsame hdiff
    exact ⟨_, ⟨hexec, htrace⟩, rfl⟩
  · obtain ⟨ev, u, hafter, hexec⟩ := exec_nandVerifyPage_fail h hfit hj hbad hfirst
    exact ⟨_, ⟨hexec, hafter.busTrace⟩, rfl⟩

end Sys2Proof.Machine
end

section
/-! PROOFS. What the corrector makes of a page with the spare area a write sends for it and data bits flipped since
(`43_nand_page_block.md` R199). -/

namespace Sys2Proof.Machine

/-! ## Pieces of a list -/

theorem flatMap_range_length {α : Type} {f : Nat → List α} {m : Nat} (hf : ∀ i, (f i).length = m) (n : Nat) :
    ((List.range n).flatMap f).length = n * m := by
  simp [List.length_flatMap, hf]

/-- The pieces of pieces put together. -/
theorem chunk_flatMap_range {α : Type} {f : Nat → List α} {m : Nat} (hf : ∀ i, (f i).length = m) :
    ∀ {n i : Nat}, i < n → chunk m i ((List.range n).flatMap f) = f i
  | n + 1, i, hi => by
    have hlen := flatMap_range_length hf n
    rw [List.range_succ, List.flatMap_append, List.flatMap_singleton, chunk]
    rcases Nat.lt_or_eq_of_le (Nat.le_of_lt_succ hi) with hlt | rfl
    · have hfit : i * m + m ≤ ((List.range n).flatMap f).length := by
        rw [hlen, ← Nat.succ_mul]
        exact Nat.mul_le_mul_right _ hlt
      rw [List.drop_append_of_le_length (by omega), List.take_append_of_le_length (by rw [List.length_drop]; omega)]
      exact chunk_flatMap_range hf hlt
    · rw [← hlen, List.drop_left, List.take_of_length_le (Nat.le_of_eq (hf _))]

theorem chunk_getElem {α : Type} {n i j : Nat} {l : List α} (h : j < (chunk n i l).length) :
    ∃ h', (chunk n i l)[j] = l[i * n + j]'h' := by
  have hj : j < n ∧ j < l.length - i * n := by simpa [chunk] using h
  exact ⟨by omega, by simp [chunk]⟩

/-! ## Flipped bits of a sub-page -/

theorem flipBit_getElem {x : List Byte} {a j : Nat} (h : j < (flipBit x a).length) :
    (flipBit x a)[j] = if a / 8 = j then x[j]'(flipBit_length x a ▸ h) ^^^ (1 : Byte) <<< (a % 8)
      else x[j]'(flipBit_length x a ▸ h) :=
  List.getElem_modify ..

/-- A bit of the first of two strings. -/
theorem flipBit_append {x y : List Byte} {a : Nat} (ha : a < 8 * x.length) : flipBit (x ++ y) a = flipBit x a ++ y := by
  apply List.ext_getElem
  · simp only [flipBit_length, List.length_append]
  · intro j h1 h2
    rw [flipBit_getElem, List.getElem_append, List.getElem_append]
    simp only [flipBit_length]
    by_cases hj : j < x.length
    · rw [dif_pos hj, dif_pos hj, flipBit_getElem]
    · rw [dif_neg hj, dif_neg hj, if_neg (by omega)]

/-- The sub-page, of `m` bytes, that holds the bit at address `a` of a page. -/
def subPageOf (m a : Nat) : Nat := a / (8 * m)

/-- The bit's address in that sub-page. -/
def bitOf (m a : Nat) : Nat := a % (8 * m)

theorem bitOf_mod_eight (m a : Nat) : bitOf m a % 8 = a % 8 := Nat.mod_mod_of_dvd a (Nat.dvd_mul_right 8 m)

theorem eq_of_subPageOf_of_bitOf {m a c : Nat} (hsub : subPageOf m a = subPageOf m c) (hbit : bitOf m a = bitOf m c) :
    a = c := by
  rw [← Nat.div_add_mod a (8 * m), ← Nat.div_add_mod c (8 * m)]
  exact congrArg₂ (8 * m * · + ·) hsub hbit

section
variable {m a : Nat} (hm : m = 256 ∨ m = 512)
include hm

theorem bitOf_lt : bitOf m a < 8 * m := Nat.mod_lt _ (by omega)

/-- The byte of a page that holds the bit is that of its sub-page. -/
theorem byteOf_iff {i j : Nat} (hj : j < m) : a / 8 = i * m + j ↔ subPageOf m a = i ∧ bitOf m a / 8 = j := by
  unfold subPageOf bitOf
  rcases hm with rfl | rfl <;> omega

/-- A flipped bit of a page is one of its sub-page. -/
theorem chunk_flipBit {x : List Byte} {n i : Nat} (hlen : x.length = n * m) (hi : i < n) :
    chunk m i (flipBit x a) = if subPageOf m a = i then flipBit (chunk m i x) (bitOf m a) else chunk m i x := by
  have hfit : (i + 1) * m ≤ x.length := hlen ▸ Nat.mul_le_mul_right m hi
  have hchunk : (chunk m i x).length = m := chunk_length m i x hfit
  have hflipped : (chunk m i (flipBit x a)).length = m := chunk_length m i _ (by rw [flipBit_length]; exact hfit)
  apply List.ext_getElem
  · split <;> simp only [flipBit_length, hchunk, hflipped]
  · intro j h1 h2
    have hj : j < m := hflipped ▸ h1
    obtain ⟨h3, hget⟩ := chunk_getElem h1
    obtain ⟨h4, hget'⟩ := chunk_getElem (l := x) (n := m) (i := i) (j := j) (by omega)
    simp only [hget, flipBit_getElem, byteOf_iff hm hj, ← bitOf_mod_eight m a]
    by_cases hsub : subPageOf m a = i
    · simp only [hsub, true_and, if_true, flipBit_getElem, hget']
    · simp only [hsub, false_and, if_false, hget']

end

/-! ## The decisions about a page and its spare area -/

theorem Geo.Legal.isSubPageMask {g : Geo} {mask : Word} (h : g.Legal mask) :
    ∃ n, IsSubPageMask mask n ∧ 8 * g.bytesPerOp.toNat = 2 ^ n := by
  obtain ⟨-, -, -, -, -, -, -, -, hlow, hhigh, hsize, -⟩ := h
  rcases hsize with hsize | hsize
  · have hmask : mask.extractLsb' 0 16 = addrMask 11 := BitVec.eq_of_toNat_eq (by rw [hlow, hsize]; rfl)
    exact ⟨11, ⟨.inl rfl, hmask, hhigh.trans hmask⟩, by rw [hsize]; rfl⟩
  · have hmask : mask.extractLsb' 0 16 = addrMask 12 := BitVec.eq_of_toNat_eq (by rw [hlow, hsize]; rfl)
    exact ⟨12, ⟨.inr rfl, hmask, hhigh.trans hmask⟩, by rw [hsize]; rfl⟩

section
variable {g : Geo} {mask : Word} (hg : g.Legal mask) {x : List Byte}
include hg

omit hg in
theorem spareOf_length (g : Geo) (mask : Word) (x : List Byte) :
    (spareOf g mask x).length = g.numOps.toNat * g.sparePerOp.toNat :=
  flatMap_range_length (fun _ => spareChunk_length ..) _

/-- A read finds in the spare area a write sends the ECC the write computed (R171, R192). -/
theorem spareEcc_spareOf {i : Nat} (hi : i < g.numOps.toNat) :
    spareEcc g mask (spareOf g mask x) i = computedEcc g mask x i := by
  obtain ⟨-, -, -, hoff⟩ := hg.sizes
  have hmasked : computedEcc g mask x i &&& mask = computedEcc g mask x i := by
    rw [computedEcc, BitVec.and_assoc, BitVec.and_self]
  rw [spareEcc, spareOf, chunk_flatMap_range (fun _ => spareChunk_length ..) hi]
  exact spareChunkRoundTrip _ _ _ _ hoff hmasked

/-- The decision about a sub-page of the bytes `y`, which come with the spare area of `x`. -/
theorem pageVerdict_spareOf (y : List Byte) {i : Nat} (hi : i < g.numOps.toNat) :
    pageVerdict g mask y (spareOf g mask x) i
      = eccVerdict mask (eccOfBytes (chunk g.bytesPerOp.toNat i x) &&& mask)
          (eccOfBytes (chunk g.bytesPerOp.toNat i y) &&& mask) := by
  rw [pageVerdict, spareEcc_spareOf hg hi, computedEcc, computedEcc]

/-- A sub-page as it was written is accepted. -/
theorem pageVerdict_same {y : List Byte} {i : Nat} (hi : i < g.numOps.toNat)
    (h : chunk g.bytesPerOp.toNat i y = chunk g.bytesPerOp.toNat i x) :
    pageVerdict g mask y (spareOf g mask x) i = .equal := by
  rw [pageVerdict_spareOf hg y hi, h]
  exact if_pos rfl

/-- The decision about a sub-page, from the bytes read for it. -/
theorem pageVerdict_of_chunk {y z : List Byte} {v : EccVerdict} {i : Nat} (hi : i < g.numOps.toNat)
    (h : chunk g.bytesPerOp.toNat i y = z)
    (hv : eccVerdict mask (eccOfBytes (chunk g.bytesPerOp.toNat i x) &&& mask) (eccOfBytes z &&& mask) = v) :
    pageVerdict g mask y (spareOf g mask x) i = v := by
  rw [pageVerdict_spareOf hg y hi, h, hv]

variable (hlen : x.length = g.numOps.toNat * g.bytesPerOp.toNat) {a : Nat}
include hlen

omit hg in
theorem subPageOf_lt (ha : a < 8 * x.length) : subPageOf g.bytesPerOp.toNat a < g.numOps.toNat := by
  rw [hlen, Nat.mul_comm g.numOps.toNat, ← Nat.mul_assoc] at ha
  exact Nat.div_lt_of_lt_mul ha

omit hg in
theorem subPage_length {i : Nat} (hi : i < g.numOps.toNat) : (chunk g.bytesPerOp.toNat i x).length = g.bytesPerOp.toNat :=
  chunk_length _ _ _ (hlen ▸ Nat.mul_le_mul_right _ hi)

/-- One flipped bit is found in its sub-page, and the other sub-pages are accepted (R174 (b)). -/
theorem pageVerdict_flipBit {i : Nat} (hi : i < g.numOps.toNat) :
    pageVerdict g mask (flipBit x a) (spareOf g mask x) i
      = if subPageOf g.bytesPerOp.toNat a = i then .single (BitVec.ofNat 16 (bitOf g.bytesPerOp.toNat a)) else .equal := by
  obtain ⟨n, hmask, hn⟩ := hg.isSubPageMask
  obtain ⟨-, hsize, -⟩ := hg.sizes
  have hchunk := chunk_flipBit (a := a) hsize hlen hi
  have hsub := subPage_length hlen hi
  split
  · next hin =>
    rw [if_pos hin] at hchunk
    exact pageVerdict_of_chunk hg hi hchunk
      (eccVerdict_flipBit hmask (by rw [hsub]; exact hn) (by rw [hsub]; exact bitOf_lt hsize))
  · next hin => exact pageVerdict_same hg hi (hchunk.trans (if_neg hin))

/-- Two flipped bits of one sub-page are not corrected, and the other sub-pages are accepted (R174 (c)). -/
theorem pageVerdict_flipBit_flipBit {c : Nat} (hne : a ≠ c)
    (hsame : subPageOf g.bytesPerOp.toNat a = subPageOf g.bytesPerOp.toNat c) {i : Nat} (hi : i < g.numOps.toNat) :
    pageVerdict g mask (flipBit (flipBit x a) c) (spareOf g mask x) i
      = if subPageOf g.bytesPerOp.toNat a = i then .uncorrectable else .equal := by
  obtain ⟨n, hmask, hn⟩ := hg.isSubPageMask
  obtain ⟨-, hsize, -⟩ := hg.sizes
  have hchunk := chunk_flipBit (a := a) hsize hlen hi
  have hchunk2 := chunk_flipBit (a := c) hsize ((flipBit_length x a).trans hlen) hi
  rw [← hsame] at hchunk2
  have hsub := subPage_length hlen hi
  split
  · next hin =>
    rw [if_pos hin] at hchunk hchunk2
    rw [hchunk] at hchunk2
    exact pageVerdict_of_chunk hg hi hchunk2 (eccVerdict_flipBit_flipBit hmask (by rw [hsub]; exact hn)
      (by rw [hsub]; exact bitOf_lt hsize) (by rw [hsub]; exact bitOf_lt hsize)
      fun hbits => hne (eq_of_subPageOf_of_bitOf hsame hbits))
  · next hin =>
    rw [if_neg hin] at hchunk hchunk2
    exact pageVerdict_same hg hi (hchunk2.trans hchunk)

end

/-! ## The repaired page -/

/-- Each byte is repaired as the decision about its sub-page says. -/
theorem repairedPage_getElem {g : Geo} {mask : Word} {y spare : List Byte} {j : Nat}
    (hy : y.length = g.numOps.toNat * g.bytesPerOp.toNat)
    (h : j < (repairedPage g mask y spare g.numOps.toNat).length) :
    ∃ h', j / g.bytesPerOp.toNat < g.numOps.toNat ∧ (repairedPage g mask y spare g.numOps.toNat)[j]
      = repaired (pageVerdict g mask y spare (j / g.bytesPerOp.toNat)) (j % g.bytesPerOp.toNat) (y[j]'h') := by
  have hj : j < y.length := by simpa [repairedPage] using h
  have hsub : j / g.bytesPerOp.toNat < g.numOps.toNat := Nat.div_lt_of_lt_mul (by rw [Nat.mul_comm, ← hy]; exact hj)
  refine ⟨hj, hsub, ?_⟩
  simp only [repairedPage, List.getElem_mapIdx, if_pos hsub]

/-- The corrector's repair of a bit given by its number. -/
theorem repaired_single_ofNat {r : Nat} (hr : r < 2 ^ 16) (p : Nat) (b : Byte) :
    repaired (.single (BitVec.ofNat 16 r)) p b = if r / 8 = p then b ^^^ (1 : Byte) <<< (r % 8) else b := by
  have hbyte : (BitVec.ofNat 16 r >>> 3).toNat = r / 8 := by
    rw [BitVec.toNat_ushiftRight, BitVec.toNat_ofNat, Nat.mod_eq_of_lt hr, Nat.shiftRight_eq_div_pow]
  have hbit : (BitVec.ofNat 16 r &&& 7).toNat = r % 8 := by
    rw [BitVec.toNat_and, BitVec.toNat_ofNat, Nat.mod_eq_of_lt hr]
    exact Nat.and_two_pow_sub_one_eq_mod r 3
  simp only [repaired, hbyte, hbit]

section
variable {g : Geo} {mask : Word} (hg : g.Legal mask) {x : List Byte}
  (hlen : x.length = g.numOps.toNat * g.bytesPerOp.toNat)
include hg hlen

/-- Nothing is repaired in a page that is accepted. -/
theorem repairedPage_same : repairedPage g mask x (spareOf g mask x) g.numOps.toNat = x := by
  apply List.ext_getElem
  · simp [repairedPage]
  · intro j h1 h2
    obtain ⟨h3, hsub, hget⟩ := repairedPage_getElem hlen h1
    rw [hget, pageVerdict_same hg hsub rfl]
    rfl

/-- The flipped bit is flipped back. -/
theorem repairedPage_flipBit (a : Nat) :
    repairedPage g mask (flipBit x a) (spareOf g mask x) g.numOps.toNat = x := by
  obtain ⟨-, hsize, -⟩ := hg.sizes
  apply List.ext_getElem
  · simp [repairedPage, flipBit_length]
  · intro j h1 h2
    obtain ⟨h3, hsub, hget⟩ := repairedPage_getElem ((flipBit_length x a).trans hlen) h1
    have hbyte := byteOf_iff (a := a) hsize (i := j / g.bytesPerOp.toNat)
      (Nat.mod_lt j (show 0 < g.bytesPerOp.toNat by omega))
    rw [Nat.mul_comm, Nat.div_add_mod] at hbyte
    have hbit := bitOf_lt (a := a) hsize
    rw [hget, pageVerdict_flipBit hg hlen hsub, flipBit_getElem]
    by_cases hin : subPageOf g.bytesPerOp.toNat a = j / g.bytesPerOp.toNat
    · rw [if_pos hin, repaired_single_ofNat (by omega), bitOf_mod_eight]
      by_cases hj : a / 8 = j
      · rw [if_pos (hbyte.mp hj).2, if_pos hj, BitVec.xor_assoc, BitVec.xor_self, BitVec.xor_zero]
      · rw [if_neg fun h => hj (hbyte.mpr ⟨hin, h⟩), if_neg hj]
    · rw [if_neg hin, if_neg fun h => hin (hbyte.mp h).1]
      rfl

end

end Sys2Proof.Machine
end

section
/-! PROOFS. A page written and read back (`43_nand_page_block.md` R199): the bytes a write has sent however it ends, and
what a read makes of them. -/

namespace Sys2Proof.Machine

/-! ## The data cycles of a trace -/

/-- The value of a data write cycle. -/
def Event.dataSent : Event → Option Half
  | .dw v => some v
  | _ => none

theorem written_eq (s : State) : s.written = s.trace.filterMap Event.dataSent := by
  rw [State.written]
  exact List.filterMap_congr fun e _ => by cases e <;> rfl

theorem written_congr {s t : State} (h : t.events = s.events) : t.written = s.written := by
  rw [written_eq, State.trace, h, written_eq, State.trace]

/-- Data write cycles are bus cycles. -/
theorem filterMap_dataSent_onBus (l : List Event) :
    (l.filter Event.onBus).filterMap Event.dataSent = l.filterMap Event.dataSent := by
  rw [List.filterMap_filter]
  congr 1
  funext e
  cases e <;> rfl

theorem written_eq_busTrace (s : State) : s.written = s.busTrace.filterMap Event.dataSent := by
  rw [written_eq, State.trace, State.busTrace, ← List.filter_reverse, filterMap_dataSent_onBus]

theorem filterMap_dataSent_dwEvents (bus16 : Bool) (l : List Byte) :
    (dwEvents bus16 l).filterMap Event.dataSent = byteCycles bus16 l := by
  rw [dwEvents, List.filterMap_map]
  exact List.filterMap_some

theorem filterMap_dataSent_addrEvents (g : Geo) (block page : Word) :
    (addrEvents g block page).filterMap Event.dataSent = [] := by
  refine List.filterMap_eq_nil_iff.mpr fun e he => ?_
  simp only [addrEvents, rowEvents, List.mem_append, List.mem_replicate, List.mem_map] at he
  rcases he with ⟨-, rfl⟩ | ⟨k, -, rfl⟩ <;> rfl

/-! ## The two polls send no data -/

/-- No data is sent between the two states. -/
def KeepsWritten (s t : State) : Prop := t.written = s.written

theorem KeepsWritten.refl (s : State) : KeepsWritten s s := rfl

theorem KeepsWritten.trans (a b c : State) (h : KeepsWritten a b) (h' : KeepsWritten b c) : KeepsWritten a c :=
  Eq.trans h' h

theorem keepsWritten_bind {α β : Type} {m : Op α} {f : α → Op β} (hm : Op.Rel KeepsWritten m)
    (hf : ∀ a, Op.Rel KeepsWritten (f a)) : Op.Rel KeepsWritten (m >>= f) :=
  Op.Rel.bind KeepsWritten.trans hm hf

/-- A change of the state that leaves the trace alone. -/
theorem keepsWritten_update {f : State → State} (h : ∀ s, (f s).events = s.events) : Op.Rel KeepsWritten (update f) :=
  Op.Rel.update fun s => written_congr (h s)

theorem keepsWritten_tick : Op.Rel KeepsWritten tick := by
  refine Op.Rel.tick (fun s t h => written_congr ?_) (fun s t u h hu => written_congr ?_)
  · rw [h.1]
  · rw [resetAsserted_events, hu, h.1]

theorem keepsWritten_record {e : Event} (he : e.dataSent = none) : Op.Rel KeepsWritten (record e) :=
  Op.Rel.update fun s => by
    simp [KeepsWritten, written_eq, State.trace, List.filterMap_append, he]

theorem keepsWritten_cle (v : Byte) : Op.Rel KeepsWritten (cle v) :=
  keepsWritten_bind keepsWritten_tick fun _ => keepsWritten_record rfl

theorem keepsWritten_rdy : Op.Rel KeepsWritten rdy :=
  keepsWritten_bind keepsWritten_tick fun _ =>
    keepsWritten_bind (fun _ => rfl) fun _ =>
      keepsWritten_bind (keepsWritten_record rfl) fun _ => Op.Rel.pure KeepsWritten.refl _

theorem keepsWritten_datR : Op.Rel KeepsWritten datR :=
  keepsWritten_bind (Op.Rel.params KeepsWritten.refl) fun _ =>
    keepsWritten_bind keepsWritten_tick fun _ =>
      keepsWritten_bind (fun _ => rfl) fun _ =>
        keepsWritten_bind (keepsWritten_record rfl) fun _ =>
          keepsWritten_bind (keepsWritten_update fun _ => rfl) fun _ => Op.Rel.pure KeepsWritten.refl _

theorem keepsWritten_readByte : Op.Rel KeepsWritten readByte :=
  keepsWritten_bind keepsWritten_datR fun _ => Op.Rel.pure KeepsWritten.refl _

theorem keepsWritten_raise {k : ErrKind} {info : Word} : Op.Rel KeepsWritten (raise k info : Op Unit) :=
  Op.Rel.raise fun _ => written_congr rfl

theorem keepsWritten_waitRdyLoop : ∀ n, Op.Rel KeepsWritten (waitRdyLoop n)
  | 0 => keepsWritten_bind (keepsWritten_update fun _ => rfl) fun _ => keepsWritten_raise
  | n + 1 =>
    keepsWritten_bind (keepsWritten_update fun _ => rfl) fun _ =>
      keepsWritten_bind keepsWritten_rdy fun _ =>
        Op.Rel.ite (Op.Rel.pure KeepsWritten.refl _) (keepsWritten_waitRdyLoop n)

theorem keepsWritten_waitStatusLoop (fk : ErrKind) : ∀ n, Op.Rel KeepsWritten (waitStatusLoop fk n)
  | 0 => keepsWritten_bind (keepsWritten_update fun _ => rfl) fun _ => keepsWritten_raise
  | n + 1 =>
    keepsWritten_bind (keepsWritten_update fun _ => rfl) fun _ =>
      keepsWritten_bind (Op.Rel.params KeepsWritten.refl) fun _ =>
        keepsWritten_bind (keepsWritten_cle _) fun _ =>
          keepsWritten_bind keepsWritten_readByte fun _ =>
            keepsWritten_bind (keepsWritten_update fun _ => rfl) fun _ =>
              Op.Rel.ite (Op.Rel.raiseIf KeepsWritten.refl fun _ => written_congr rfl)
                (keepsWritten_waitStatusLoop fk n)

theorem keepsWritten_twoPolls (fk : ErrKind) : Op.Rel KeepsWritten (twoPolls fk) :=
  keepsWritten_bind (keepsWritten_update fun _ => rfl) fun _ =>
    keepsWritten_bind
      (keepsWritten_bind (Op.Rel.get KeepsWritten.refl) fun _ => keepsWritten_waitRdyLoop _) fun _ =>
      keepsWritten_bind (keepsWritten_update fun _ => rfl) fun _ =>
        keepsWritten_bind (Op.Rel.get KeepsWritten.refl) fun _ => keepsWritten_waitStatusLoop fk _

/-! ## What a write has sent -/

theorem pageData_length (s : State) : (pageData s).length = s.geo.numOps.toNat * s.geo.bytesPerOp.toNat :=
  buffer_length ..

/-- A page and its spare area, as a write sends them. -/
def pageBytes (s : State) : List Byte := pageData s ++ spareOf s.geo s.eccu.mask (pageData s)

/-- Pages and spare areas are whole cycles on either bus. -/
theorem Geo.Legal.even {g : Geo} {mask : Word} (hg : g.Legal mask) :
    g.numOps.toNat * g.bytesPerOp.toNat % 2 = 0 ∧ g.numOps.toNat * g.sparePerOp.toNat % 2 = 0 := by
  obtain ⟨-, hsize, hspare, -⟩ := hg.sizes
  constructor <;> rw [Nat.mul_mod]
  · rw [show g.bytesPerOp.toNat % 2 = 0 by omega, Nat.mul_zero]
  · rw [show g.sparePerOp.toNat % 2 = 0 by omega, Nat.mul_zero]

/-- However a page write ends, it has sent the page and its spare area. -/
theorem written_of_nandWritePage {s t : State} (h : s.PageOpReady) (hev : s.events = [])
    (ht : exec .nandWritePage s = .next t) : t.written = byteCycles s.cfg.params.nandBus16 (pageBytes s) := by
  obtain ⟨l, ev, hpolls, hsent⟩ := nandWritePageOp_eq_twoPolls h
  have hkeeps : t.written = (pageSent .confirm [] s.dev l ev s).written := by
    have hrel := keepsWritten_twoPolls .programFailure (pageSent .confirm [] s.dev l ev s)
    rw [← hpolls] at hrel
    cases hop : nandWritePageOp s with
    | ok a u =>
      rw [hop] at hrel
      rw [exec_of_pseudocode_ok (i := .nandWritePage) h.quiet hop] at ht
      cases ht
      exact hrel
    | error e u =>
      rw [hop] at hrel
      rw [exec_of_pseudocode_error (i := .nandWritePage) h.quiet hop] at ht
      cases ht
      exact hrel
  have htrace : (pageSent .confirm [] s.dev l ev s).busTrace = sentEvents s := by
    rw [busTrace_of_events (s := s) rfl, hsent, List.reverse_reverse, State.busTrace, hev]
    rfl
  rw [hkeeps, written_eq_busTrace, htrace, sentEvents, writeEvents, pageBytes,
    byteCycles_append _ _ _ fun _ => by rw [pageData_length]; exact h.legal.even.1]
  simp only [List.filterMap_append, filterMap_dataSent_addrEvents, filterMap_dataSent_dwEvents, List.filterMap_cons,
    List.filterMap_nil, cleEvent, Event.dataSent, List.nil_append, List.append_nil]

/-! ## The answers of a read -/

/-- The answers to a page read, cut where the spare area begins. -/
def cutAnswers (k : Nat) (restR : List Bool) (answers rest : List Half) (s : State) : PageAnswers :=
  let c := if s.cfg.params.nandBus16 then s.geo.numOps.toNat * s.geo.bytesPerOp.toNat / 2
    else s.geo.numOps.toNat * s.geo.bytesPerOp.toNat
  ⟨k, answers.take c, answers.drop c, restR, rest⟩

section
variable {k : Nat} {restR : List Bool} {answers rest : List Half} {u : State} (hg : u.geo.Legal u.eccu.mask)
include hg

/-- The cut is where the page's bytes `y` end. -/
theorem cutAnswers_bytes {y spare : List Byte} (hy : y.length = u.geo.numOps.toNat * u.geo.bytesPerOp.toNat)
    (hgot : streamBytes u.cfg.params.nandBus16 answers = y ++ spare) :
    streamBytes u.cfg.params.nandBus16 (cutAnswers k restR answers rest u).data = y
    ∧ streamBytes u.cfg.params.nandBus16 (cutAnswers k restR answers rest u).spare = spare := by
  have hcut := chunk_cycles (b := u.cfg.params.nandBus16) hg.even.1
  constructor
  · rw [cutAnswers, streamBytes_take, ← hcut, hgot, ← hy, List.take_left]
  · rw [cutAnswers, streamBytes_drop, ← hcut, hgot, ← hy, List.drop_left]

/-- As many answers as a page and its spare area have cycles are those of a page. -/
theorem cutAnswers_fit (hk : k < u.opr.timeout.toNat) (hrdy : u.dev.rdy = List.replicate k false ++ true :: restR)
    (hdr : u.dev.dr = answers ++ rest)
    (hlen : (streamBytes u.cfg.params.nandBus16 answers).length
      = u.geo.numOps.toNat * u.geo.bytesPerOp.toNat + u.geo.numOps.toNat * u.geo.sparePerOp.toNat) :
    (cutAnswers k restR answers rest u).Fit (slotsCleared u) := by
  have hy : ((streamBytes u.cfg.params.nandBus16 answers).take (u.geo.numOps.toNat * u.geo.bytesPerOp.toNat)).length
      = u.geo.numOps.toNat * u.geo.bytesPerOp.toNat := by
    rw [List.length_take, hlen]
    omega
  obtain ⟨hdata, hspare⟩ := cutAnswers_bytes (k := k) (restR := restR) (rest := rest) hg hy
    (List.take_append_drop _ _).symm
  refine ⟨hk, hrdy, ?_, ?_, ?_⟩
  · exact hdr.trans (congrArg (· ++ rest) (List.take_append_drop _ answers).symm)
  · exact (congrArg List.length hdata).trans hy
  · refine (congrArg List.length hspare).trans ?_
    rw [List.length_drop, hlen, Nat.add_sub_cancel_left]
    rfl

end

/-! ## The three reads (R199) -/

/-- What a host sees of a read that has succeeded. -/
theorem nandReadPage_ok_visible {u v : State} {a : PageAnswers} (hu : u.PageOpReady) (hfit : a.Fit (slotsCleared u))
    (hnone : ∀ i < u.geo.numOps.toNat, a.verdict u i ≠ .uncorrectable) (hv : exec .nandReadPage u = .next v) :
    v.stat = { u.stat.ended with
      corr := u.stat.corr || (List.range u.geo.numOps.toNat).any fun i => (a.verdict u i).isSingle }
    ∧ v.res.res0 = BitVec.ofNat 32 (repairCount a u)
    ∧ v.slots.ecc = Quad.upTo u.geo.numOps.toNat
      (computedEcc u.geo u.eccu.mask (streamBytes u.cfg.params.nandBus16 a.data))
    ∧ v.slots.secc = Quad.upTo u.geo.numOps.toNat
      (spareEcc u.geo u.eccu.mask (streamBytes u.cfg.params.nandBus16 a.spare))
    ∧ v.slots.corr = Quad.upTo u.geo.numOps.toNat (fun i => (a.verdict u i).record)
    ∧ v.buffer u.opr.a2 (u.geo.numOps.toNat * u.geo.bytesPerOp.toNat) = pageHeld a u u.geo.numOps.toNat := by
  obtain ⟨ev, w, hafter, hexec⟩ := exec_nandReadPage_ok hu hfit hnone
  obtain ⟨-, -, hlegal, -, -, hwf, -⟩ := hu
  have hbuffer := hafter.buffer hlegal hfit (Nat.le_refl _) hwf
  rw [hexec] at hv
  cases hv
  exact ⟨rfl, rfl, rfl, rfl, rfl, hbuffer⟩

/-- What a host sees of a read that a sub-page has stopped. -/
theorem nandReadPage_fail_visible {u v : State} {a : PageAnswers} (hu : u.PageOpReady) (hfit : a.Fit (slotsCleared u))
    {j : Nat} (hj : j < u.geo.numOps.toNat) (hbad : a.verdict u j = .uncorrectable)
    (hfirst : ∀ i < j, a.verdict u i ≠ .uncorrectable) (hv : exec .nandReadPage u = .next v) :
    v.stat = { u.stat.raised .eccFailure with corr := u.stat.corr || (List.range j).any fun i => (a.verdict u i).isSingle }
    ∧ v.res.res0 = BitVec.ofNat 32 j := by
  obtain ⟨ev, w, -, hexec⟩ := exec_nandReadPage_fail hu hfit hj hbad hfirst
  rw [hexec] at hv
  cases hv
  exact ⟨rfl, rfl⟩

/-- No sub-page before `n` is repaired. -/
theorem any_isSingle_eq_false {v : Nat → EccVerdict} {n : Nat} (h : ∀ i < n, v i = .equal) :
    ((List.range n).any fun i => (v i).isSingle) = false :=
  List.any_eq_false.mpr fun i hi => by rw [h i (List.mem_range.mp hi)]; decide

/-- One sub-page is repaired. -/
theorem countP_isSingle_eq_one {v : Nat → EccVerdict} {n q : Nat} {d : Half} (hq : q < n)
    (h : ∀ i < n, v i = if q = i then .single d else .equal) :
    ((List.range n).countP fun i => (v i).isSingle) = 1 := by
  have hone : ∀ i < n, (v i).isSingle = (i == q) := fun i hi => by
    rw [h i hi]
    by_cases hiq : q = i
    · simp [hiq]
    · simp [hiq, Ne.symm hiq]
  rw [countP_range_congr n hone]
  exact List.count_eq_one_of_mem List.nodup_range (List.mem_range.mpr hq)

/-- The decisions about the bytes `y` read with the spare area of `x`. -/
theorem verdict_of_bytes {u : State} {a : PageAnswers} {x y : List Byte}
    (hspare : streamBytes u.cfg.params.nandBus16 a.spare = spareOf u.geo u.eccu.mask x)
    (hdata : streamBytes u.cfg.params.nandBus16 a.data = y) (i : Nat) :
    a.verdict u i = pageVerdict u.geo u.eccu.mask y (spareOf u.geo u.eccu.mask x) i := by
  rw [PageAnswers.verdict, hdata, hspare]

section
variable {u v : State} {a : PageAnswers} {x : List Byte} (hu : u.PageOpReady) (hfit : a.Fit (slotsCleared u))
  (hv : exec .nandReadPage u = .next v)
  (hspare : streamBytes u.cfg.params.nandBus16 a.spare = spareOf u.geo u.eccu.mask x)

include hu hfit hv hspare

/-- The page comes back as it was written. -/
theorem readBack_same (hx : x.length = u.geo.numOps.toNat * u.geo.bytesPerOp.toNat)
    (hdata : streamBytes u.cfg.params.nandBus16 a.data = x) :
    v.stat = u.stat.ended ∧ v.res.res0 = 0 ∧ v.slots.ecc = v.slots.secc ∧ v.slots.corr = Quad.zero
    ∧ v.buffer u.opr.a2 (u.geo.numOps.toNat * u.geo.bytesPerOp.toNat) = x := by
  have hg := hu.legal
  have hverdict : ∀ i < u.geo.numOps.toNat, a.verdict u i = .equal := fun i hi =>
    (verdict_of_bytes hspare hdata i).trans (pageVerdict_same hg hi rfl)
  obtain ⟨hstat, hres, hecc, hsecc, hcorrs, hbuffer⟩ := nandReadPage_ok_visible hu hfit
    (fun i hi => by rw [hverdict i hi]; decide) hv
  refine ⟨?_, ?_, ?_, ?_, ?_⟩
  · rw [hstat, any_isSingle_eq_false hverdict, Bool.or_false]
    rfl
  · rw [hres, repairCount, List.countP_eq_zero.mpr fun i hi => by rw [hverdict i (List.mem_range.mp hi)]; decide]
    rfl
  · rw [hecc, hsecc, hdata, hspare]
    exact Quad.upTo_congr fun i hi => (spareEcc_spareOf hg hi).symm
  · rw [hcorrs, Quad.upTo_congr (g := fun _ => 0) fun i hi => by rw [hverdict i hi]; rfl]
    simp [Quad.upTo, Quad.zero]
  · rw [hbuffer, pageHeld, hdata, hspare, repairedPage_same hg hx]

/-- One data bit has flipped. -/
theorem readBack_flipBit {b : Nat} (hx : x.length = u.geo.numOps.toNat * u.geo.bytesPerOp.toNat) (hb : b < 8 * x.length)
    (hdata : streamBytes u.cfg.params.nandBus16 a.data = flipBit x b) :
    v.stat = { u.stat.ended with corr := true } ∧ v.res.res0 = 1
    ∧ v.buffer u.opr.a2 (u.geo.numOps.toNat * u.geo.bytesPerOp.toNat) = x := by
  have hg := hu.legal
  have hq := subPageOf_lt hx hb
  have hverdict := fun i (hi : i < u.geo.numOps.toNat) =>
    (verdict_of_bytes hspare hdata i).trans (pageVerdict_flipBit hg hx hi)
  have hcount := countP_isSingle_eq_one hq hverdict
  obtain ⟨hstat, hres, -, -, -, hbuffer⟩ := nandReadPage_ok_visible hu hfit
    (fun i hi => by rw [hverdict i hi]; split <;> simp) hv
  refine ⟨?_, ?_, ?_⟩
  · have hany : ((List.range u.geo.numOps.toNat).any fun i => (a.verdict u i).isSingle) = true :=
      List.any_eq_true.mpr (List.countP_pos_iff.mp (by rw [hcount]; decide))
    rw [hstat, hany, Bool.or_true]
  · rw [hres, repairCount, hcount]
    rfl
  · rw [hbuffer, pageHeld, hdata, hspare, repairedPage_flipBit hg hx]

/-- Two data bits of one sub-page have flipped. -/
theorem readBack_flipBit_flipBit {b c : Nat} (hx : x.length = u.geo.numOps.toNat * u.geo.bytesPerOp.toNat)
    (hb : b < 8 * x.length) (hne : b ≠ c)
    (hsame : subPageOf u.geo.bytesPerOp.toNat b = subPageOf u.geo.bytesPerOp.toNat c)
    (hdata : streamBytes u.cfg.params.nandBus16 a.data = flipBit (flipBit x b) c) :
    v.stat = u.stat.raised .eccFailure ∧ v.res.res0 = BitVec.ofNat 32 (subPageOf u.geo.bytesPerOp.toNat b) := by
  have hg := hu.legal
  have hq := subPageOf_lt hx hb
  have hverdict := fun i (hi : i < u.geo.numOps.toNat) =>
    (verdict_of_bytes hspare hdata i).trans (pageVerdict_flipBit_flipBit hg hx hne hsame hi)
  have hbefore : ∀ i < subPageOf u.geo.bytesPerOp.toNat b, a.verdict u i = .equal := fun i hi =>
    (hverdict i (by omega)).trans (if_neg (by omega))
  obtain ⟨hstat, hres⟩ := nandReadPage_fail_visible hu hfit hq ((hverdict _ hq).trans (if_pos rfl))
    (fun i hi => by rw [hbefore i hi]; decide) hv
  refine ⟨?_, hres⟩
  rw [hstat, any_isSingle_eq_false hbefore, Bool.or_false]
  rfl

end

/-- Settles O32: the write has sent the page and its spare area, and the corrector decides about what has become of
them. -/
theorem writtenPageReadsBack : Obligations.WrittenPageReadsBack := by
  intro s t u k answers rest restR hs hev ht hu hcfg hgeo hmask ha0 ha1 hcorr hk hrdy hdr hlen len sent got
  have hg : u.geo.Legal u.eccu.mask := hu.legal
  have hwritten := written_of_nandWritePage hs hev ht
  have hx : (pageData s).length = u.geo.numOps.toNat * u.geo.bytesPerOp.toNat := by rw [pageData_length, hgeo]
  have hpage : s.buffer s.opr.a2 len = pageData s := rfl
  have hlenGeo : len = u.geo.numOps.toNat * u.geo.bytesPerOp.toNat := by rw [hgeo]
  have hsent : sent = pageData s ++ spareOf u.geo u.eccu.mask (pageData s) := by
    have heven : (pageBytes s).length % 2 = 0 := by
      rw [pageBytes, List.length_append, pageData_length, spareOf_length, Nat.add_mod, hs.legal.even.1, hs.legal.even.2]
    rw [hgeo, hmask]
    simp only [sent, hwritten]
    exact streamBytes_byteCycles _ _ fun _ => heven
  have hgot : streamBytes u.cfg.params.nandBus16 answers = got := by rw [hcfg]
  have hgotLength : got.length = sent.length := by simp only [got, sent, streamBytes_length, hlen]
  have hfit := cutAnswers_fit (rest := rest) hg hk hrdy hdr
    (by rw [hgot, hgotLength, hsent, List.length_append, hx, spareOf_length])
  have hcut := fun {y : List Byte} => cutAnswers_bytes (k := k) (restR := restR) (answers := answers) (rest := rest)
    (y := y) (spare := spareOf u.geo u.eccu.mask (pageData s)) hg
  obtain ⟨v, hv⟩ := runOp_next (pseudocode .nandReadPage) u
  rw [← exec_eq_runOp] at hv
  rw [hpage]
  have hbit : ∀ a < 8 * len, a < 8 * (pageData s).length := fun a ha => by rwa [hx, ← hlenGeo]
  rw [hlenGeo]
  refine ⟨v, hv, fun h => ?_, fun a ha h => ?_, fun a ha c hc hne hsame h => ?_⟩
  · obtain ⟨hdata, hspare⟩ := hcut hx (hgot.trans (h.trans hsent))
    exact readBack_same hu hfit hv hspare hx hdata
  · rw [← hlenGeo] at ha
    rw [hsent, flipBit_append (hbit a ha)] at h
    obtain ⟨hdata, hspare⟩ := hcut ((flipBit_length _ _).trans hx) (hgot.trans h)
    exact readBack_flipBit hu hfit hv hspare hx (hbit a ha) hdata
  · rw [← hlenGeo] at ha hc
    rw [hsent, flipBit_append (hbit a ha), flipBit_append (by rw [flipBit_length]; exact hbit c hc)] at h
    obtain ⟨hdata, hspare⟩ := hcut ((flipBit_length _ _).trans ((flipBit_length _ _).trans hx)) (hgot.trans h)
    rw [← hgeo] at hsame ⊢
    exact readBack_flipBit_flipBit hu hfit hv hspare hx (hbit a ha) hne hsame hdata

end Sys2Proof.Machine
end

section
/-! PROOFS. The NOR ops before their first event (`44_nor_ops.md` R221, R224, R228, R231, R236, R240): the vendor and
configuration checks, the operand checks, and the region look-up. -/

namespace Sys2Proof.Machine

/-! ## The configuration (R221) -/

/-- The chip width is legal. -/
def NorCfg.ChipLegal (n : NorCfg) : Prop := n.chipW = 8 ∨ n.chipW = 16

/-- The combined width is legal. -/
def NorCfg.TotalLegal (n : NorCfg) (p : Config.Params) : Prop :=
  (n.totalW = 8 ∨ n.totalW = 16 ∨ n.totalW = 32) ∧ n.totalW.toNat % n.chipW.toNat = 0
  ∧ (n.totalW = (if p.norBus16 then 16 else 8) ∨ n.totalW = 2 * (if p.norBus16 then 16 else 8))

theorem NorCfg.chipLegal_iff (n : NorCfg) : n.ChipLegal ↔ n.cwn = 8 ∨ n.cwn = 16 := by
  simp [ChipLegal, cwn, toNat_eq_lit]

theorem NorCfg.totalLegal_iff (n : NorCfg) (p : Config.Params) :
    n.TotalLegal p ↔ (n.wn = 8 ∨ n.wn = 16 ∨ n.wn = 32) ∧ n.wn % n.cwn = 0
      ∧ (n.wn = (if p.norBus16 then 16 else 8) ∨ n.wn = 2 * (if p.norBus16 then 16 else 8)) := by
  unfold TotalLegal wn cwn
  cases p.norBus16 <;> simp [toNat_eq_lit]

section
variable {p : Config.Params} {n : NorCfg}

theorem configReason_chip (hchip : ¬ n.ChipLegal) : configReason p n = some 1 :=
  if_pos (mt n.chipLegal_iff.mpr hchip)

theorem configReason_total (hchip : n.ChipLegal) (htotal : ¬ n.TotalLegal p) : configReason p n = some 2 := by
  rw [n.totalLegal_iff] at htotal
  exact (if_neg (not_not_intro (n.chipLegal_iff.mp hchip))).trans (if_pos (by tauto))

theorem configReason_regions (hchip : n.ChipLegal) (htotal : n.TotalLegal p) (hreg : 6 < n.nReg.toNat) :
    configReason p n = some 3 := by
  obtain ⟨hwidth, hlanes, hbus⟩ := (n.totalLegal_iff p).mp htotal
  exact (if_neg (not_not_intro (n.chipLegal_iff.mp hchip))).trans ((if_neg (by tauto)).trans (if_pos hreg))

end

/-! ## The checks that fail (R221) -/

section
variable {s : State}

theorem vendorCheckAny_error (hv : s.norId.vendor = .unsupported) :
    vendorCheckAny s = .error .raised (errorEntry .unsupportedDevice s.nor.cmdSet s) := by
  rw [vendorCheckAny, Op.bind_ok (Op.run_get s), hv]
  rfl

theorem vendorCheckIntel_error (hv : s.norId.vendor ≠ .intel) :
    vendorCheckIntel s = .error .raised (errorEntry .unsupportedDevice s.nor.cmdSet s) := by
  rw [vendorCheckIntel, Op.bind_ok (Op.run_get s), bne_iff_ne.mpr hv, raiseIf_true]

theorem configCheck_error {r : Word} (hr : configReason s.cfg.params s.nor = some r) :
    configCheck s = .error .raised (errorEntry .badOperand r s) := by
  rw [configCheck, Op.bind_ok (Op.run_get s), hr]
  rfl

theorem alignCheck_error {a : Word} (h : misaligned s.nor a = true) :
    alignCheck a s = .error .raised (errorEntry .badOperand 4 s) := by
  rw [alignCheck, Op.bind_ok (Op.run_get s), h, raiseIf_true]

theorem lenCheck_error {len : Word} (h : badLength s.nor len = true) :
    lenCheck len s = .error .raised (errorEntry .badOperand 5 s) := by
  rw [lenCheck, Op.bind_ok (Op.run_get s), h, raiseIf_true]

theorem rangeCheck_error {a : Word} {len : Nat} (h : norOutOfRange s.cfg.params s.nor a len = true) :
    rangeCheck a len s = .error .raised (errorEntry .outOfRange a s) := by
  rw [rangeCheck, Op.bind_ok (Op.run_get s), h, raiseIf_true]

theorem discoverBlockInfo_error {a : Word} (h : blockInfo s.cfg.params s.nor a = none) :
    discoverBlockInfo a s = .error .raised (errorEntry .outOfRange a s) := by
  rw [discoverBlockInfo, Op.bind_ok (Op.run_get s), h]
  rfl

end

/-! ## Vendor and configuration checks, per op (R221) -/

/-- The vendor check an op begins with: the lock ops need an Intel chip, the other ops that send commands to an
attached chip some vendor, and `NOR_ATTACH` and `NOR_BLOCK_INFO` none. -/
def vendorCheckOf : Instr → Op Unit
  | .norLockSet | .norLockClear => vendorCheckIntel
  | .norEraseBlock | .norWriteWord | .norWriteBuffer => vendorCheckAny
  | _ => pure ()

/-- Every NOR op begins with its vendor check and then the configuration check. -/
theorem pseudocode_eq_checks {i : Instr} (hi : OnNorSide i) (s : State) :
    ∃ rest : Op Unit, pseudocode i s = (vendorCheckOf i >>= fun _ => configCheck >>= fun _ => rest) s := by
  rcases hi with rfl | rfl | rfl | rfl | rfl | rfl | rfl <;> exact ⟨_, rfl⟩

theorem exec_of_vendorCheck_error {i : Instr} {s t : State} {e : Ended} (hq : s.Quiet) (hi : OnNorSide i)
    (h : vendorCheckOf i s = .error e t) : exec i s = .next t := by
  obtain ⟨rest, hop⟩ := pseudocode_eq_checks hi s
  exact exec_of_pseudocode_error hq (hop.trans (Op.bind_error h))

theorem exec_of_configCheck_error {i : Instr} {s t : State} {e : Ended} (hq : s.Quiet) (hi : OnNorSide i)
    (hv : vendorCheckOf i s = .ok () s) (h : configCheck s = .error e t) : exec i s = .next t := by
  obtain ⟨rest, hop⟩ := pseudocode_eq_checks hi s
  exact exec_of_pseudocode_error hq (hop.trans ((Op.bind_ok hv).trans (Op.bind_error h)))

/-- The op works on Intel chips only (R240). -/
def LocksBlock (i : Instr) : Prop := i = .norLockSet ∨ i = .norLockClear

/-- The op works on an attached chip (R225). -/
def NeedsVendor (i : Instr) : Prop := i = .norEraseBlock ∨ i = .norWriteWord ∨ i = .norWriteBuffer ∨ LocksBlock i

/-- The vendor lacks the op. -/
def VendorLacks (i : Instr) (s : State) : Prop :=
  (NeedsVendor i ∧ s.norId.vendor = .unsupported) ∨ (LocksBlock i ∧ s.norId.vendor ≠ .intel)

theorem vendorCheckOf_error {i : Instr} {s : State} (h : VendorLacks i s) :
    vendorCheckOf i s = .error .raised (errorEntry .unsupportedDevice s.nor.cmdSet s) := by
  have hlock (hi : LocksBlock i) (hv : s.norId.vendor ≠ .intel) :
      vendorCheckOf i s = .error .raised (errorEntry .unsupportedDevice s.nor.cmdSet s) := by
    rcases hi with rfl | rfl <;> exact vendorCheckIntel_error hv
  rcases h with ⟨rfl | rfl | rfl | hi, hv⟩ | ⟨hi, hv⟩
  · exact vendorCheckAny_error hv
  · exact vendorCheckAny_error hv
  · exact vendorCheckAny_error hv
  · exact hlock hi (by rw [hv]; decide)
  · exact hlock hi hv

theorem vendorCheckOf_ok {i : Instr} {s : State} (hi : NeedsVendor i ∨ i = .norAttach ∨ i = .norBlockInfo)
    (h : ¬ VendorLacks i s) : vendorCheckOf i s = .ok () s := by
  have hany (hneeds : NeedsVendor i) : s.norId.vendor ≠ .unsupported := fun hv => h (.inl ⟨hneeds, hv⟩)
  have hintel (hlock : LocksBlock i) : s.norId.vendor = .intel := not_not.mp fun hv => h (.inr ⟨hlock, hv⟩)
  rcases hi with (rfl | rfl | rfl | rfl | rfl) | rfl | rfl
  · exact vendorCheckAny_run (hany (.inl rfl))
  · exact vendorCheckAny_run (hany (.inr (.inl rfl)))
  · exact vendorCheckAny_run (hany (.inr (.inr (.inl rfl))))
  · exact vendorCheckIntel_run (hintel (.inl rfl))
  · exact vendorCheckIntel_run (hintel (.inr rfl))
  · rfl
  · rfl

/-- Settles O50: every NOR op begins with the two checks, and each stops it where it fails. -/
theorem norVendorAndConfigChecks : Obligations.NorVendorAndConfigChecks := by
  intro s i hq isLock needsVendor hi lacks n busW chipOk totalOk
  have hnor : OnNorSide i := by
    unfold OnNorSide
    tauto
  have hconfig (hv : ¬ VendorLacks i s) {r : Word} (hr : configReason s.cfg.params s.nor = some r) :
      exec i s = .next (errorEntry .badOperand r s) :=
    exec_of_configCheck_error hq hnor (vendorCheckOf_ok hi hv) (configCheck_error hr)
  exact ⟨fun hv => exec_of_vendorCheck_error hq hnor (vendorCheckOf_error hv),
    fun hv hchip => hconfig hv (configReason_chip hchip),
    fun hv hchip htotal => hconfig hv (configReason_total hchip htotal),
    fun hv hchip htotal hreg => hconfig hv (configReason_regions hchip htotal hreg)⟩

/-! ## The operand checks (R228, R231, R236, R240) -/

/-- What an op does that the selected vendor decides. -/
def byVendor (s : State) (amd intel : Op Unit) : Op Unit :=
  match s.norId.vendor with
  | .amd => amd
  | .intel => intel
  | .unsupported => raise .unsupportedDevice s.nor.cmdSet

theorem byVendor_amd {s : State} (hv : s.norId.vendor = .amd) (amd intel : Op Unit) : byVendor s amd intel = amd := by
  rw [byVendor, hv]

theorem byVendor_intel {s : State} (hv : s.norId.vendor = .intel) (amd intel : Op Unit) :
    byVendor s amd intel = intel := by
  rw [byVendor, hv]

section
variable {s : State} (hv : s.norId.vendor ≠ .unsupported) (hc : s.nor.Legal s.cfg.params)
include hv hc

theorem norEraseBlockOp_eq : norEraseBlockOp s = (do
    let b ← discoverBlockInfo s.opr.a0
    raiseIf (b.size.toNat % s.nor.wb != 0) .badOperand 7
    byVendor s (amdErase b) (intelErase b) : Op Unit) s := by
  rw [norEraseBlockOp, Op.bind_ok (vendorCheckAny_run hv), Op.bind_ok (configCheck_run hc), Op.bind_ok (Op.run_get s)]
  rfl

theorem norWriteWordOp_eq : norWriteWordOp s = (do
    alignCheck s.opr.a0
    rangeCheck s.opr.a0 s.nor.wb
    byVendor s (amdWord s.opr.a0 (s.nor.read s.opr.a1)) (intelWord s.opr.a0 (s.nor.read s.opr.a1)) : Op Unit) s := by
  rw [norWriteWordOp, Op.bind_ok (vendorCheckAny_run hv), Op.bind_ok (configCheck_run hc), Op.bind_ok (Op.run_get s)]
  rfl

theorem norWriteBufferOp_eq : norWriteBufferOp s = (do
    alignCheck s.opr.a0
    lenCheck s.opr.a1
    rangeCheck s.opr.a0 s.opr.a1.toNat
    let b ← discoverBlockInfo s.opr.a0
    raiseIf (decide (b.base.toNat + b.size.toNat < s.opr.a0.toNat + s.opr.a1.toNat)) .badOperand 6
    byVendor s (amdBuffer b.base) (intelBuffer b.base) : Op Unit) s := by
  rw [norWriteBufferOp, Op.bind_ok (vendorCheckAny_run hv), Op.bind_ok (configCheck_run hc), Op.bind_ok (Op.run_get s)]
  rfl

end

theorem lockSequence_outside {s : State} (hv : s.norId.vendor = .intel) (hc : s.nor.Legal s.cfg.params)
    (hout : blockInfo s.cfg.params s.nor s.opr.a0 = none) (c : Byte) :
    lockSequence c s = .error .raised (errorEntry .outOfRange s.opr.a0 s) := by
  rw [lockSequence, Op.bind_ok (vendorCheckIntel_run hv), Op.bind_ok (configCheck_run hc), Op.bind_ok (Op.run_get s),
    Op.bind_ok (params_run s), Op.bind_error (discoverBlockInfo_error hout)]

theorem misaligned_eq_true {n : NorCfg} {a : Word} : misaligned n a = true ↔ ¬ a.toNat % n.wb = 0 := bne_iff_ne

theorem misaligned_eq_false {n : NorCfg} {a : Word} : misaligned n a = false ↔ a.toNat % n.wb = 0 := by
  rw [← Bool.not_eq_true, misaligned_eq_true, not_not]

theorem badLength_eq_false {n : NorCfg} {len : Word} : badLength n len = false ↔
    len.toNat ≠ 0 ∧ len.toNat % n.wb = 0 ∧ len.toNat ≤ n.bufSz.toNat ∧ len.toNat ≤ 256 * n.wb := by
  simp [badLength]

theorem norOutOfRange_eq_false {p : Config.Params} {n : NorCfg} {a : Word} {len : Nat} :
    norOutOfRange p n a len = false ↔
      p.norBase.toNat ≤ a.toNat ∧ a.toNat - p.norBase.toNat + len ≤ n.size.toNat := by
  simp [norOutOfRange]

/-- Settles O51: past the vendor and configuration checks, the operand checks stop the op where they fail. -/
theorem norOperandChecks : Obligations.NorOperandChecks := by
  intro s hq hv hc n p a len aligned lenOk inside bad out
  have hstop (i : Instr) {k : ErrKind} {info : Word} (h : pseudocode i s = .error .raised (errorEntry k info s)) :
      exec i s = .next (errorEntry k info s) := exec_of_pseudocode_error hq h
  have herase := norEraseBlockOp_eq hv hc
  have hword := norWriteWordOp_eq hv hc
  have hbuffer := norWriteBufferOp_eq hv hc
  have halign (h : aligned) : alignCheck s.opr.a0 s = .ok () s := alignCheck_run (misaligned_eq_false.mpr h)
  have hlength (h : lenOk) : lenCheck s.opr.a1 s = .ok () s := lenCheck_run (badLength_eq_false.mpr h)
  have hrange {k : Nat} (h : inside k) : rangeCheck s.opr.a0 k s = .ok () s :=
    rangeCheck_run (norOutOfRange_eq_false.mpr h)
  have houtside {k : Nat} (h : ¬ inside k) :
      rangeCheck s.opr.a0 k s = .error .raised (errorEntry .outOfRange s.opr.a0 s) :=
    rangeCheck_error ((Bool.not_eq_false _).mp (mt norOutOfRange_eq_false.mp h))
  refine ⟨fun h => ?_, fun h hin => ?_, fun h hl => ?_, fun h hl hin => ?_,
    fun hnone => ⟨?_, fun h hl => ?_, fun hi => ?_⟩, fun b hb => ⟨fun hsize => ?_, fun h hl hin hcross => ?_⟩⟩
  · have hcheck := alignCheck_error (misaligned_eq_true.mpr h)
    exact ⟨hstop .norWriteWord (hword.trans (Op.bind_error hcheck)),
      hstop .norWriteBuffer (hbuffer.trans (Op.bind_error hcheck))⟩
  · rw [Op.bind_ok (halign h), Op.bind_error (houtside hin)] at hword
    exact hstop .norWriteWord hword
  · have hcheck := lenCheck_error ((Bool.not_eq_false _).mp (mt badLength_eq_false.mp hl))
    rw [Op.bind_ok (halign h), Op.bind_error hcheck] at hbuffer
    exact hstop .norWriteBuffer hbuffer
  · rw [Op.bind_ok (halign h), Op.bind_ok (hlength hl), Op.bind_error (houtside hin)] at hbuffer
    exact hstop .norWriteBuffer hbuffer
  · exact hstop .norEraseBlock (herase.trans (Op.bind_error (discoverBlockInfo_error hnone)))
  · rw [Op.bind_ok (halign h), Op.bind_ok (hlength hl)] at hbuffer
    refine hstop .norWriteBuffer (hbuffer.trans ?_)
    by_cases hin : inside len
    · exact (Op.bind_ok (hrange hin)).trans (Op.bind_error (discoverBlockInfo_error hnone))
    · exact Op.bind_error (houtside hin)
  · exact ⟨hstop .norLockSet (lockSequence_outside hi hc hnone _), hstop .norLockClear (lockSequence_outside hi hc hnone _)⟩
  · rw [Op.bind_ok (discoverBlockInfo_run hb), bne_iff_ne.mpr hsize, Op.bind_error (raiseIf_true _ _ s)] at herase
    exact hstop .norEraseBlock herase
  · rw [Op.bind_ok (halign h), Op.bind_ok (hlength hl), Op.bind_ok (hrange hin), Op.bind_ok (discoverBlockInfo_run hb),
      decide_eq_true hcross, Op.bind_error (raiseIf_true _ _ s)] at hbuffer
    exact hstop .norWriteBuffer hbuffer

/-! ## `NOR_BLOCK_INFO` (R224) -/

/-- The bytes that regions cover together. -/
def regionsExtent (l : List Region) : Nat := (l.map fun g => g.cnt.toNat * g.size.toNat).sum

theorem regionsExtent_cons (g : Region) (l : List Region) :
    regionsExtent (g :: l) = g.cnt.toNat * g.size.toNat + regionsExtent l := rfl

/-- An offset beyond the last region is in none. -/
theorem dbiWalk_outside (base off : Nat) : ∀ (l : List Region) (start r : Nat), start + regionsExtent l ≤ off →
    dbiWalk base off start r l = none
  | [], _, _, _ => rfl
  | g :: l, start, r, h => by
    rw [regionsExtent_cons] at h
    rw [dbiWalk, if_neg (by omega)]
    exact dbiWalk_outside base off l _ _ (by omega)

/-- An offset inside a region is found there, as the walk passes the regions before. -/
theorem dbiWalk_inside (base off : Nat) (g : Region) (post : List Region) : ∀ (pre : List Region) (start r : Nat),
    start + regionsExtent pre ≤ off → off < start + regionsExtent pre + g.cnt.toNat * g.size.toNat →
    dbiWalk base off start r (pre ++ g :: post) = some
      { size := g.size
        base := BitVec.ofNat 32 (base + (start + regionsExtent pre)
          + (off - (start + regionsExtent pre)) / g.size.toNat * g.size.toNat)
        region := BitVec.ofNat 32 (r + pre.length) }
  | [], start, r, _, h => by
    rw [List.nil_append, dbiWalk, if_pos (by simpa [regionsExtent] using h)]
    rfl
  | x :: pre, start, r, hlo, hhi => by
    rw [regionsExtent_cons] at hlo hhi ⊢
    rw [List.cons_append, dbiWalk, if_neg (by omega),
      dbiWalk_inside base off g post pre _ _ (by omega) (by omega), Nat.add_assoc start, List.length_cons,
      Nat.add_right_comm r, Nat.add_assoc r]

section
variable {s : State} (hc : s.nor.Legal s.cfg.params)
include hc

theorem norBlockInfoOp_run {b : BlockInfo} (hb : blockInfo s.cfg.params s.nor s.opr.a0 = some b) :
    norBlockInfoOp s = .ok ()
      { s with
        stat := { s.stat with phase := .lookup }
        res := { s.res with res0 := b.size, res1 := b.base, res2 := b.region } } := by
  rw [norBlockInfoOp, Op.bind_ok (configCheck_run hc), Op.bind_ok (setPhase_run _ _), Op.bind_ok (Op.run_get _),
    Op.bind_ok (discoverBlockInfo_run (by exact hb)), Op.bind_ok (setRes0_run _ _), Op.bind_ok (setRes1_run _ _),
    setRes2_run]

theorem norBlockInfoOp_outside (hout : blockInfo s.cfg.params s.nor s.opr.a0 = none) :
    norBlockInfoOp s = .error .raised (errorEntry .outOfRange s.opr.a0 s) := by
  rw [norBlockInfoOp, Op.bind_ok (configCheck_run hc), Op.bind_ok (setPhase_run _ _), Op.bind_ok (Op.run_get _),
    Op.bind_error (discoverBlockInfo_error (by exact hout))]
  rfl

end

theorem blockInfo_outside {p : Config.Params} {n : NorCfg} {a : Word}
    (h : a.toNat < p.norBase.toNat ∨ p.norBase.toNat + n.size.toNat ≤ a.toNat
      ∨ p.norBase.toNat + regionsExtent (n.regions.toList.take n.nReg.toNat) ≤ a.toNat) :
    blockInfo p n a = none := by
  unfold blockInfo
  split
  · rfl
  · exact dbiWalk_outside _ _ _ _ _ (by omega)

/-- An address inside the device and inside a region: the block that holds it. -/
theorem blockInfo_inside {p : Config.Params} {n : NorCfg} {a : Word} {pre post : List Region} {g : Region}
    (hregions : n.regions.toList.take n.nReg.toNat = pre ++ g :: post) (hbase : p.norBase.toNat ≤ a.toNat)
    (hsize : a.toNat < p.norBase.toNat + n.size.toNat) (hlo : p.norBase.toNat + regionsExtent pre ≤ a.toNat)
    (hhi : a.toNat < p.norBase.toNat + regionsExtent pre + g.cnt.toNat * g.size.toNat) :
    ∃ block : Word, block.toNat ≤ a.toNat ∧ a.toNat < block.toNat + g.size.toNat
      ∧ (∃ k, block.toNat = p.norBase.toNat + regionsExtent pre + k * g.size.toNat)
      ∧ blockInfo p n a = some ⟨g.size, block, BitVec.ofNat 32 pre.length⟩ := by
  have hpos : 0 < g.size.toNat := Nat.pos_of_ne_zero fun h => by rw [h] at hhi; omega
  have hwalk := dbiWalk_inside p.norBase.toNat (a.toNat - p.norBase.toNat) g post pre 0 0 (by omega) (by omega)
  rw [Nat.zero_add, Nat.zero_add] at hwalk
  -- the offset into the region, split into whole blocks and the rest
  generalize hoff : a.toNat - p.norBase.toNat - regionsExtent pre = off at hwalk
  have hdiv := Nat.div_add_mod' off g.size.toNat
  have hmod := Nat.mod_lt off hpos
  generalize off / g.size.toNat = k at hwalk hdiv
  have ha := a.isLt
  have hblock : (BitVec.ofNat 32 (p.norBase.toNat + regionsExtent pre + k * g.size.toNat)).toNat
      = p.norBase.toNat + regionsExtent pre + k * g.size.toNat := by
    rw [BitVec.toNat_ofNat, Nat.mod_eq_of_lt (by omega)]
  refine ⟨_, ?_, ?_, ⟨k, hblock⟩, ?_⟩
  · rw [hblock]; omega
  · rw [hblock]; omega
  · rw [blockInfo, if_neg (by omega), hregions, hwalk]

/-- Settles O36: the walk over the regions finds the one that holds the address, or none. -/
theorem norBlockInfoOp_spec : Obligations.NorBlockInfoOp := by
  intro s hq base addr regions extent
  refine ⟨fun r hr => ?_, fun hc hout => ?_, fun pre post g hc hregions hbase hsize hlo hhi => ?_⟩
  · exact exec_of_configCheck_error (i := .norBlockInfo) hq (by simp [OnNorSide]) rfl (configCheck_error hr)
  · exact exec_of_pseudocode_error (i := .norBlockInfo) hq (norBlockInfoOp_outside hc (blockInfo_outside hout))
  · obtain ⟨block, hle, hlt, hwhole, hb⟩ := blockInfo_inside hregions hbase hsize hlo hhi
    exact ⟨block, hle, hlt, hwhole, exec_of_pseudocode_ok (i := .norBlockInfo) hq (norBlockInfoOp_run hc hb)⟩

end Sys2Proof.Machine
end

section
/-! PROOFS. `NOR_ATTACH` (`44_nor_ops.md` R225 to R227) and the lock ops (R240). -/

namespace Sys2Proof.Machine

/-! ## The ids (R226, R227) -/

/-- The low byte of a word. -/
theorem truncN_eight (v : Word) : truncN 8 v = v &&& 0xFF := by
  apply BitVec.eq_of_toNat_eq
  rw [truncN, BitVec.toNat_ofNat, BitVec.toNat_and]
  exact (Nat.mod_eq_of_lt (by omega)).trans (Nat.and_two_pow_sub_one_eq_mod v.toNat 8).symm

theorem NorCfg.Legal.widths {n : NorCfg} {p : Config.Params} (h : n.Legal p) : 8 ≤ n.wn ∧ 8 ≤ n.cwn := by
  obtain ⟨hchip, htotal, -⟩ := h
  constructor
  · rcases htotal with h | h | h <;> simp [NorCfg.wn, h]
  · rcases hchip with h | h <;> simp [NorCfg.cwn, h]

/-- The manufacturer id is the low byte of the answer, whatever the widths. -/
theorem manufacturer_byte {n : NorCfg} {p : Config.Params} (h : n.Legal p) (m : Word) :
    (truncN 8 (n.lane0 (n.read m))).setWidth 8 = m.extractLsb' 0 8 := by
  obtain ⟨hwn, hcwn⟩ := h.widths
  apply BitVec.eq_of_getLsbD_eq
  intro i hi
  rw [BitVec.getLsbD_setWidth, BitVec.getLsbD_extractLsb', NorCfg.lane0, NorCfg.read, getLsbD_truncN _ _ (by omega),
    getLsbD_truncN _ _ (by omega), getLsbD_truncN _ _ (by omega)]
  simp [hi, show i < n.wn by omega, show i < n.cwn by omega]

theorem readIdWord_run {s : State} (hq : s.host.busy = []) (k : Word) {v : Word} {rest : List Word}
    (hr : s.dev.nr = v :: rest) :
    readIdWord k s = .ok (s.nor.lane0 (s.nor.read v))
      { s with
        dev := { s.dev with nr := rest }
        events := .nr (s.nor.cmdAddr s.cfg.params.norBase k) (s.nor.read v) :: s.events } := by
  rw [readIdWord, Op.bind_ok (cmdAddr_run _ _), Op.bind_ok (norR_event hq _ v rest hr), Op.bind_ok (Op.run_get _),
    Op.run_pure]

theorem identifyAmd_run {s : State} (hq : s.host.busy = []) {m d1 d2 : Word} {rest : List Word}
    (hr : s.dev.nr = m :: d1 :: d2 :: rest) :
    let p := s.cfg.params
    let n := s.nor
    let ca := n.cmdAddr p.norBase
    identifyAmd s = .ok (truncN 8 (n.lane0 (n.read m)), n.lane0 (n.read d1), n.lane0 (n.read d2))
      { s with
        stat := { s.stat with phase := .cleanup }
        dev := { s.dev with nr := rest }
        events := (prefixEvents p n ++ [cmdEvent n (ca p.amdAddr1) p.amdAutoselect, .nr (ca 0) (n.read m),
          .nr (ca 1) (n.read d1), .nr (ca 2) (n.read d2), cmdEvent n p.norBase p.amdReset]).reverse ++ s.events } := by
  rw [identifyAmd, Op.bind_ok (params_run s), Op.bind_ok (setPhase_run _ _), Op.bind_ok (prefixedCmd_run (by exact hq) _),
    Op.bind_ok (setPhase_run _ _), Op.bind_ok (readIdWord_run (by exact hq) 0 (by exact hr)),
    Op.bind_ok (readIdWord_run (by exact hq) 1 (by rfl)), Op.bind_ok (readIdWord_run (by exact hq) 2 (by rfl)),
    Op.bind_ok (setPhase_run _ _), Op.bind_ok (norCmd_event (by exact hq) _ _), Op.run_pure]
  simp

theorem identifyIntel_run {s : State} (hq : s.host.busy = []) {m d1 : Word} {rest : List Word}
    (hr : s.dev.nr = m :: d1 :: rest) :
    let p := s.cfg.params
    let n := s.nor
    let ca := n.cmdAddr p.norBase
    identifyIntel s = .ok (truncN 8 (n.lane0 (n.read m)), n.lane0 (n.read d1), 0)
      { s with
        stat := { s.stat with phase := .cleanup }
        dev := { s.dev with nr := rest }
        events := [cmdEvent n p.norBase p.intelReadId, .nr (ca 0) (n.read m), .nr (ca 1) (n.read d1),
          cmdEvent n p.norBase p.intelReadArray].reverse ++ s.events } := by
  rw [identifyIntel, Op.bind_ok (params_run s), Op.bind_ok (setPhase_run _ _), Op.bind_ok (norCmd_event (by exact hq) _ _),
    Op.bind_ok (setPhase_run _ _), Op.bind_ok (readIdWord_run (by exact hq) 0 (by exact hr)),
    Op.bind_ok (readIdWord_run (by exact hq) 1 (by rfl)), Op.bind_ok (setPhase_run _ _),
    Op.bind_ok (norCmd_event (by exact hq) _ _), Op.run_pure]
  rfl

/-- The state with the ids recorded. -/
def idsRecorded (ids : Word × Word × Word) (s : State) : State :=
  { s with
    norId := { s.norId with mfr := ids.1, dev1 := ids.2.1, dev2 := ids.2.2 }
    res := { s.res with res0 := ids.1, res1 := ids.2.1, res2 := ids.2.2 } }

/-- The ids are recorded whether the manufacturer is known or not (R225). -/
theorem recordIds_run (ids : Word × Word × Word) (s : State) :
    recordIds ids s = raiseIf (!s.cfg.params.norKnownMfrs.contains (ids.1.setWidth 8)) .identifyFailed ids.1
      (idsRecorded ids s) := rfl

/-! ## `NOR_ATTACH` (R225) -/

/-- The ids 1 to 4 are the only ones that select a vendor. -/
theorem vendorOf_unsupported {set : Word} (h : set = 0 ∨ 5 ≤ set.toNat) : vendorOf set = .unsupported := by
  have hamd : ¬ (set = 1 ∨ set = 2) := by rintro (rfl | rfl) <;> simp at h
  have hintel : ¬ (set = 3 ∨ set = 4) := by rintro (rfl | rfl) <;> simp at h
  rw [vendorOf, if_neg hamd, if_neg hintel]

/-- The state in which the vendor `v` is selected and the chip has not been asked yet. -/
def vendorSelected (v : Vendor) (s : State) : State :=
  { s with
    stat := { s.stat with phase := .lookup }
    norId := ⟨v, 0, 0, 0⟩ }

theorem selectVendor_run {s : State} {v : Vendor} (hv : vendorOf s.nor.cmdSet = v) :
    selectVendor s = .ok () { s with norId := ⟨v, 0, 0, 0⟩ } := by
  rw [← hv]
  rfl

section
variable {s : State} (hc : s.nor.Legal s.cfg.params)
include hc

/-- `NOR_ATTACH` up to where the vendor decides. -/
theorem norAttachOp_eq {v : Vendor} (hv : vendorOf s.nor.cmdSet = v) :
    norAttachOp s = byVendor (vendorSelected v s) (identifyAmd >>= recordIds) (identifyIntel >>= recordIds)
      (vendorSelected v s) := by
  rw [norAttachOp, Op.bind_ok (configCheck_run hc), Op.bind_ok (setPhase_run _ _),
    Op.bind_ok (selectVendor_run (by exact hv)), Op.bind_ok (Op.run_get _)]
  cases v <;> rfl

theorem norAttachOp_amd (hv : vendorOf s.nor.cmdSet = .amd) :
    norAttachOp s = (identifyAmd >>= recordIds) (vendorSelected .amd s) := by
  rw [norAttachOp_eq hc hv, byVendor_amd (by rfl)]

theorem norAttachOp_intel (hv : vendorOf s.nor.cmdSet = .intel) :
    norAttachOp s = (identifyIntel >>= recordIds) (vendorSelected .intel s) := by
  rw [norAttachOp_eq hc hv, byVendor_intel (by rfl)]

theorem norAttachOp_none (hv : vendorOf s.nor.cmdSet = .unsupported) :
    norAttachOp s = .error .raised (errorEntry .unsupportedDevice s.nor.cmdSet (vendorSelected .unsupported s)) := by
  rw [norAttachOp_eq hc hv]
  rfl

end

/-- With the ids read, `NOR_ATTACH` ends by whether the manufacturer is known. -/
theorem exec_norAttach {s t : State} {v : Vendor} {identify : Op (Word × Word × Word)} {ids : Word × Word × Word} {m : Word}
    (hq : s.Quiet) (hop : norAttachOp s = (identify >>= recordIds) (vendorSelected v s))
    (hids : identify (vendorSelected v s) = .ok ids t) (hcfg : t.cfg = s.cfg)
    (hm : ids.1.setWidth 8 = m.extractLsb' 0 8) :
    (s.cfg.params.norKnownMfrs.contains (m.extractLsb' 0 8) = true →
      exec .norAttach s = .next (normalEnd (idsRecorded ids t)))
    ∧ (s.cfg.params.norKnownMfrs.contains (m.extractLsb' 0 8) = false →
      exec .norAttach s = .next (errorEntry .identifyFailed ids.1 (idsRecorded ids t))) := by
  rw [Op.bind_ok hids, recordIds_run, hcfg, hm] at hop
  refine ⟨fun hknown => ?_, fun hknown => ?_⟩
  · rw [hknown] at hop
    exact exec_of_pseudocode_ok (i := .norAttach) hq hop
  · rw [hknown] at hop
    exact exec_of_pseudocode_error (i := .norAttach) hq hop

/-- Settles O37: the AMD identification reads three ids. -/
theorem norAttachAmd : Obligations.NorAttachAmd := by
  intro s m d1 d2 rest hq hc hset hr p n ca mfr t
  have hv : vendorOf s.nor.cmdSet = .amd := if_pos hset
  have hend := exec_norAttach (m := m) hq (norAttachOp_amd hc hv)
    (identifyAmd_run (s := vendorSelected .amd s) hq hr) rfl (manufacturer_byte hc m)
  simp only [t, mfr, ← truncN_eight]
  exact hend

/-- Settles O38: the Intel identification reads two ids, and a command set of no vendor is not asked. -/
theorem norAttachIntelOrNone : Obligations.NorAttachIntelOrNone := by
  intro s hq hc p n ca
  refine ⟨fun m d1 rest hset hr => ?_, fun hset => ?_⟩
  · intro mfr t
    have hv : vendorOf s.nor.cmdSet = .intel := by
      rcases hset with h | h <;> simp [vendorOf, h]
    have hend := exec_norAttach (m := m) hq (norAttachOp_intel hc hv)
      (identifyIntel_run (s := vendorSelected .intel s) hq hr) rfl (manufacturer_byte hc m)
    simp only [t, mfr, ← truncN_eight]
    exact hend
  · exact exec_of_pseudocode_error (i := .norAttach) hq (norAttachOp_none hc (vendorOf_unsupported hset))

/-! ## The lock ops (R240) -/

theorem lockSequence_run {s : State} {b : BlockInfo} (hq : s.host.busy = []) (hv : s.norId.vendor = .intel)
    (hc : s.nor.Legal s.cfg.params) (hb : blockInfo s.cfg.params s.nor s.opr.a0 = some b) (c : Byte) :
    let p := s.cfg.params
    let n := s.nor
    lockSequence c s = .ok ()
      { s with
        stat := { s.stat with phase := .cleanup }
        res := { s.res with res0 := b.base }
        events := [cmdEvent n b.base p.intelLockSetup, cmdEvent n b.base c, cmdEvent n b.base p.intelReadArray].reverse
          ++ s.events } := by
  rw [lockSequence, Op.bind_ok (vendorCheckIntel_run hv), Op.bind_ok (configCheck_run hc), Op.bind_ok (Op.run_get s),
    Op.bind_ok (params_run s), Op.bind_ok (discoverBlockInfo_run hb), Op.bind_ok (setPhase_run _ _),
    Op.bind_ok (norCmd_event (by exact hq) _ _), Op.bind_ok (setPhase_run _ _),
    Op.bind_ok (norCmd_event (by exact hq) _ _), Op.bind_ok (setPhase_run _ _),
    Op.bind_ok (norCmd_event (by exact hq) _ _), setRes0_run]
  rfl

/-- Settles O45: the two lock ops differ in one command. -/
theorem norLockOps : Obligations.NorLockOps := by
  intro s b hq hc hv hb p n left
  have hrun := lockSequence_run hq hv hc hb
  exact ⟨exec_of_pseudocode_ok (i := .norLockSet) hq ((Op.bind_ok (params_run s)).trans (hrun _)),
    exec_of_pseudocode_ok (i := .norLockClear) hq ((Op.bind_ok (params_run s)).trans (hrun _))⟩

end Sys2Proof.Machine
end

section
/-! PROOFS. The ends of the NOR erase and write ops (`44_nor_ops.md` R228 to R234): what a chip is left with after the
reads of a poll, the common Intel end, and the AMD erase and word write from their polls on. -/

namespace Sys2Proof.Machine

/-! ## What an op that sends commands and reads a chip changes -/

/-- The state an op has come to from `s` in phase `ph`: `reads` are the status words it has read, as far as LASTSTAT
shows them, the chip has the answers `rest` left, and the trace has gained `sent`. -/
def chipLeft (ph : Phase) (reads rest : List Word) (l : LoopRegs) (sent : List Event) (s : State) : State :=
  { s with
    stat := { s.stat with phase := ph }
    res := { s.res with lastStat := lastNorStatus s.nor s.res.lastStat reads }
    dev := { s.dev with nr := rest }
    loop := l
    events := sent.reverse ++ s.events }

/-- The state in which the poll of an AMD op begins. -/
def pollBegins (l : LoopRegs) (sent : List Event) (s : State) : State := chipLeft .poll [] s.dev.nr l sent s

/-- An op left polling stands where its poll begins, with nothing sent since. -/
theorem pollBegins_self {s : State} (h : s.stat.phase = .poll) : pollBegins s.loop [] s = s := by
  rw [pollBegins, chipLeft, ← h]
  rfl

theorem lastNorStatus_append (n : NorCfg) (old : Word) (l l' : List Word) :
    lastNorStatus n (lastNorStatus n old l) l' = lastNorStatus n old (l ++ l') := by
  unfold lastNorStatus
  rw [List.getLast?_append]
  cases l'.getLast? <;> rfl

theorem lastNorStatus_concat (n : NorCfg) (old : Word) (l : List Word) (v : Word) :
    lastNorStatus n old (l ++ [v]) = n.read v := by
  simp [lastNorStatus]

section
variable (ph : Phase) (reads rest : List Word) (l : LoopRegs) (sent : List Event) {s : State}

/-- LASTSTAT shows the last status word only. -/
theorem chipLeft_concat (v : Word) : chipLeft ph (reads ++ [v]) rest l sent s = chipLeft ph [v] rest l sent s := by
  rw [chipLeft, lastNorStatus_concat]
  rfl

theorem setPhase_chipLeft (ph' : Phase) :
    setPhase ph' (chipLeft ph reads rest l sent s) = .ok () (chipLeft ph' reads rest l sent s) := rfl

theorem setPollCnt_chipLeft (n : Nat) : setPollCnt n (chipLeft ph reads rest l sent s)
    = .ok () (chipLeft ph reads rest { l with pollCnt := BitVec.ofNat 32 n } sent s) := rfl

theorem setXferCnt_chipLeft (n : Nat) : setXferCnt n (chipLeft ph reads rest l sent s)
    = .ok () (chipLeft ph reads rest { l with xferCnt := BitVec.ofNat 32 n } sent s) := rfl

/-- LASTSTAT takes a status word that has been read. -/
theorem setLastStat_chipLeft (v : Word) : setLastStat (s.nor.read v) (chipLeft ph reads rest l sent s)
    = .ok () (chipLeft ph (reads ++ [v]) rest l sent s) := by
  rw [chipLeft_concat]
  rfl

theorem afterNorStatus_chipLeft (a : Word) (l' rest' : List Word) :
    afterNorStatus a l' rest' (chipLeft ph reads rest l sent s)
      = chipLeft ph (reads ++ l') rest' l (sent ++ nrEvents s.nor a l') s := by
  simp [afterNorStatus, chipLeft, lastNorStatus_append]

theorem afterNorStatus_pollBegins (a : Word) (l' rest' : List Word) :
    afterNorStatus a l' rest' (pollBegins l sent s) = chipLeft .poll l' rest' l (sent ++ nrEvents s.nor a l') s :=
  afterNorStatus_chipLeft _ _ _ _ _ _ _ _

theorem norCmd_chipLeft (hq : s.host.busy = []) (a : Word) (c : Byte) :
    norCmd a c (chipLeft ph reads rest l sent s)
      = .ok () (chipLeft ph reads rest l (sent ++ [cmdEvent s.nor a c]) s) := by
  rw [norCmd_event (by exact hq)]
  simp [chipLeft]

theorem norR_chipLeft (hq : s.host.busy = []) (a v : Word) :
    norR a (chipLeft ph reads (v :: rest) l sent s)
      = .ok (s.nor.read v) (chipLeft ph reads rest l (sent ++ [.nr a (s.nor.read v)]) s) := by
  rw [norR_event (by exact hq) a v rest rfl]
  simp [chipLeft]

end

/-! ## The run of a step -/

theorem continueOp_ok {m : Op Unit} {s t : State} (h : m s = .ok () t) : continueOp m s = .next (normalEnd t) := by
  rw [continueOp, h]

theorem continueOp_error {m : Op Unit} {s t : State} {e : Ended} (h : m s = .error e t) : continueOp m s = .next t := by
  rw [continueOp, h]

/-- In a quiet environment an op ends as the rest of its pseudocode does. -/
theorem exec_eq_continueOp {i : Instr} {m : Op Unit} {s u : State} (hq : s.Quiet) (h : pseudocode i s = m u) :
    exec i s = continueOp m u := by
  rw [exec_eq_runOp, runOp_eq_continueOp, continueOp, continueOp, Op.bind_ok (tick_quiet hq), h]

/-! ## The Intel end (R234) -/

section
variable {s : State} {polls rest : List Word} (hq : s.host.busy = [])
  (hpolls : ∀ x ∈ polls, (s.nor.read x).getLsbD 7 = false) (sa : Word) (fk : ErrKind) (after : Op Unit)
  (ph : Phase) (reads : List Word) (l : LoopRegs) (sent : List Event)
include hq hpolls

/-- The status spin ends in time: the status bits decide. -/
theorem intelEnd_ready {v : Word} (hlen : polls.length < s.opr.timeout.toNat) (hv : (s.nor.read v).getLsbD 7 = true)
    {g : State → State} (hafter : ∀ t, after t = .ok () (g t)) :
    ∃ l',
      let m := intelFinish sa fk >>= fun _ => after
      let t := chipLeft .cleanup [v] rest l'
        (sent ++ nrEvents s.nor sa (polls ++ [v]) ++ intelCleanupEvents s.cfg.params s.nor sa) s
      (s.nor.read v &&& 0x38 = 0 →
        continueOp m (chipLeft ph reads (polls ++ v :: rest) l sent s) = .next (normalEnd (g t)))
      ∧ (s.nor.read v &&& 0x38 ≠ 0 →
        continueOp m (chipLeft ph reads (polls ++ v :: rest) l sent s) = .next (errorEntry fk (s.nor.read v) t)) := by
  obtain ⟨l', hfinish⟩ := intelFinish_ready sa fk (s := chipLeft ph reads (polls ++ v :: rest) l sent s) hq hlen rfl
    hpolls hv
  refine ⟨l', ?_⟩
  intro m t
  have ht : intelFinish sa fk (chipLeft ph reads (polls ++ v :: rest) l sent s)
      = raiseIf (s.nor.read v &&& 0x38 != 0) fk (s.nor.read v) t := by
    rw [hfinish]
    simp [t, chipLeft, lastNorStatus]
  refine ⟨fun hok => continueOp_ok ?_, fun hbad => continueOp_error (e := .raised) ?_⟩
  · rw [hok] at ht
    exact (Op.bind_ok ht).trans (hafter t)
  · rw [bne_iff_ne.mpr hbad] at ht
    exact Op.bind_error ht

/-- The status spin uses up TIMEOUT. -/
theorem intelEnd_timeout (hlen : polls.length = s.opr.timeout.toNat) :
    ∃ l', continueOp (intelFinish sa fk >>= fun _ => after) (chipLeft ph reads (polls ++ rest) l sent s)
      = .next (errorEntry .timeout sa (chipLeft .cleanup (reads ++ polls) rest l'
          (sent ++ nrEvents s.nor sa polls ++ intelCleanupEvents s.cfg.params s.nor sa) s)) := by
  obtain ⟨l', hfinish⟩ := intelFinish_timeout sa fk (s := chipLeft ph reads (polls ++ rest) l sent s) hq hlen rfl hpolls
  refine ⟨l', continueOp_error (e := .raised) (Op.bind_error (hfinish.trans ?_))⟩
  simp [chipLeft, lastNorStatus_append]

end

/-! ## The erase and word write on Intel (R228, R231) -/

section
variable {s : State} (hq : s.Quiet) (hv : s.norId.vendor = .intel) (hc : s.nor.Legal s.cfg.params)
include hq hv hc

theorem exec_norEraseBlock_intel {b : BlockInfo} (hb : blockInfo s.cfg.params s.nor s.opr.a0 = some b)
    (hsize : b.size.toNat % s.nor.wb = 0) :
    exec .norEraseBlock s = continueOp
      (intelFinish b.base .eraseFailure >>= fun _ => setRes0 b.base >>= fun _ => setRes1 b.size)
      (chipLeft .confirm [] s.dev.nr s.loop
        [cmdEvent s.nor b.base s.cfg.params.intelEraseSetup, cmdEvent s.nor b.base s.cfg.params.intelConfirm] s) := by
  refine exec_eq_continueOp (i := .norEraseBlock) hq ((norEraseBlockOp_eq (by rw [hv]; decide) hc).trans ?_)
  rw [Op.bind_ok (discoverBlockInfo_run hb), bne_eq_false_iff_eq.mpr hsize, Op.bind_ok (raiseIf_false _ _ s),
    byVendor_intel hv, intelErase, Op.bind_ok (params_run s), Op.bind_ok (setPhase_run _ _),
    Op.bind_ok (norCmd_event (by exact hq) _ _), Op.bind_ok (setPhase_run _ _),
    Op.bind_ok (norCmd_event (by exact hq) _ _)]
  rfl

/-- The address checks of a word write pass (R221). -/
theorem exec_norWriteWord_intel (ha : misaligned s.nor s.opr.a0 = false)
    (hin : norOutOfRange s.cfg.params s.nor s.opr.a0 s.nor.wb = false) :
    exec .norWriteWord s = continueOp (intelFinish s.opr.a0 .programFailure >>= fun _ => pure ())
      (chipLeft .data [] s.dev.nr s.loop
        [cmdEvent s.nor s.opr.a0 s.cfg.params.intelProgram, .nw s.opr.a0 (s.nor.read s.opr.a1)] s) := by
  refine exec_eq_continueOp (i := .norWriteWord) hq ((norWriteWordOp_eq (by rw [hv]; decide) hc).trans ?_)
  rw [Op.bind_ok (alignCheck_run ha), Op.bind_ok (rangeCheck_run hin), byVendor_intel hv, intelWord,
    Op.bind_ok (params_run s), Op.bind_ok (setPhase_run _ _), Op.bind_ok (norCmd_event (by exact hq) _ _),
    Op.bind_ok (setPhase_run _ _), Op.bind_ok (norW_run (by exact hq) _ _), NorCfg.read, truncN_truncN, bind_pure]
  rfl

end

/-- Settles O40: the erase is two commands and the common Intel end. -/
theorem norEraseBlockIntel : Obligations.NorEraseBlockIntel := by
  intro s b polls rest hq hv hc hb hsize hpolls p n sent
  have hexec := exec_norEraseBlock_intel hq hv hc hb hsize
  refine ⟨fun v hlen hready hr => ?_, fun hlen hr => ?_⟩
  · obtain ⟨l, hok, hbad⟩ := intelEnd_ready (rest := rest) hq hpolls b.base .eraseFailure
      (setRes0 b.base >>= fun _ => setRes1 b.size) .confirm [] s.loop sent hlen hready fun _ => rfl
    rw [← hr, ← hexec] at hok hbad
    exact ⟨l, hok, hbad⟩
  · obtain ⟨l, htimeout⟩ := intelEnd_timeout (rest := rest) hq hpolls b.base .eraseFailure
      (setRes0 b.base >>= fun _ => setRes1 b.size) .confirm [] s.loop sent hlen
    rw [← hr, ← hexec] at htimeout
    exact ⟨l, htimeout⟩

/-- Settles O42: the word write is a command, the data and the common Intel end. -/
theorem norWriteWordIntel : Obligations.NorWriteWordIntel := by
  intro s polls rest hq hv hc ha hin hpolls p n a sent
  have hexec := exec_norWriteWord_intel hq hv hc ha hin
  refine ⟨fun v hlen hready hr => ?_, fun hlen hr => ?_⟩
  · obtain ⟨l, hok, hbad⟩ := intelEnd_ready (rest := rest) hq hpolls a .programFailure (pure ()) .data [] s.loop
      sent hlen hready fun _ => rfl
    rw [← hr, ← hexec] at hok hbad
    exact ⟨l, hok, hbad⟩
  · obtain ⟨l, htimeout⟩ := intelEnd_timeout (rest := rest) hq hpolls a .programFailure (pure ()) .data [] s.loop
      sent hlen
    rw [← hr, ← hexec] at htimeout
    exact ⟨l, htimeout⟩

end Sys2Proof.Machine
end

section
/-! PROOFS. The erase and the word write on AMD chips (`44_nor_ops.md` R228, R231): from the unlock to the poll, and from
the poll to every end it can have. -/

namespace Sys2Proof.Machine

/-! ## The erase: its poll and its all-ones pass (R228) -/

/-- A step has a round of its poll for every listed answer. -/
theorem length_le_pollRounds {s : State} {reads rest : List Word} (hr : s.dev.nr = reads ++ rest) :
    reads.length ≤ pollRounds s := by
  have hlen := congrArg List.length hr
  rw [List.length_append] at hlen
  rw [pollRounds]
  omega

/-- A loop whose first `m` rounds go through goes on with the others. -/
theorem forUp_append {f : Nat → Op Unit} (n : Nat) : ∀ (m i : Nat) {s t : State}, forUp f i m s = .ok () t →
    forUp f i (m + n) s = forUp f (i + m) n t
  | 0, i, s, t, h => by
    cases h
    rw [Nat.zero_add, Nat.add_zero]
  | m + 1, i, s, t, h => by
    rw [forUp_succ, Op.run_bind] at h
    rw [Nat.add_right_comm, forUp_succ, Op.run_bind]
    cases hf : f i s with
    | ok _ u =>
      rw [hf] at h
      exact (forUp_append n m (i + 1) h).trans (by rw [Nat.add_right_comm, Nat.add_assoc])
    | error e u =>
      rw [hf] at h
      cases h

section
variable {s : State} (hq : s.host.busy = []) {b : BlockInfo} (l : LoopRegs) (sent : List Event)
  {polls ones rest : List Word} {v : Word}
  (hones : ∀ x ∈ ones, s.nor.read x = s.nor.ones)
  (hpolls : ∀ x ∈ polls, (s.nor.read x).getLsbD 7 = false) (hv : (s.nor.read v).getLsbD 7 = true)

include hq hones in
/-- The all-ones pass over words that read as ones. -/
theorem verifyErased_chipLeft (base : Word) (ph : Phase) (reads : List Word) :
    forUp (verifyErased base) 0 ones.length (chipLeft ph reads (ones ++ rest) l sent s)
      = .ok () (chipLeft ph reads rest l (sent ++ nrRun s.nor base ones) s) := by
  rw [verifyErased_ok base ones 0 _ rest (by exact hq) rfl (by exact hones), nrRunFrom_zero]
  simp [chipLeft]

include hq hpolls hv

/-- The poll ends, and the all-ones pass begins. -/
theorem amdEraseTail_polled (hr : s.dev.nr = polls ++ v :: rest) :
    amdEraseTail b (pollBegins l sent s) = (do
      forUp (verifyErased b.base) 0 (b.size.toNat / s.nor.wb)
      setRes0 b.base
      setRes1 b.size : Op Unit) (chipLeft .verify [v] rest l (sent ++ nrEvents s.nor b.base (polls ++ [v])) s) := by
  have hrounds : (polls ++ [v]).length ≤ pollRounds (pollBegins l sent s) :=
    length_le_pollRounds (rest := rest) (by rw [List.append_assoc]; exact hr)
  have hpoll := amdErasePoll_ready b.base polls _ (pollBegins l sent s) v rest hq
    (by simpa using hrounds) hr hpolls hv
  rw [pollBegins, afterNorStatus_chipLeft, List.nil_append, chipLeft_concat] at hpoll
  rw [amdEraseTail, Op.bind_ok (Op.run_get _), pollBegins, Op.bind_ok hpoll, Op.bind_ok (setPhase_chipLeft _ _ _ _ _ _)]
  rfl

include hones

/-- Every word reads as ones. -/
theorem amdErase_success (hlen : ones.length = b.size.toNat / s.nor.wb) (hr : s.dev.nr = polls ++ v :: ones ++ rest) :
    continueOp (amdEraseTail b) (pollBegins l sent s) = .next (normalEnd
      (let t := chipLeft .verify [v] rest l (sent ++ nrEvents s.nor b.base (polls ++ [v]) ++ nrRun s.nor b.base ones) s
       { t with res := { t.res with res0 := b.base, res1 := b.size } })) := by
  refine continueOp_ok ?_
  rw [amdEraseTail_polled hq l sent hpolls hv (rest := ones ++ rest) (by simpa using hr), ← hlen,
    Op.bind_ok (verifyErased_chipLeft hq l _ hones b.base _ _)]
  rfl

/-- A word does not. -/
theorem amdErase_failure {w : Word} (hlen : ones.length < b.size.toNat / s.nor.wb) (hw : s.nor.read w ≠ s.nor.ones)
    (hr : s.dev.nr = polls ++ v :: ones ++ w :: rest) :
    continueOp (amdEraseTail b) (pollBegins l sent s)
      = .next (errorEntry .eraseFailure (b.base + BitVec.ofNat 32 (ones.length * s.nor.wb))
        (let t := chipLeft .verify [v] rest l
          (sent ++ nrEvents s.nor b.base (polls ++ [v]) ++ nrRun s.nor b.base (ones ++ [w])) s
         { t with res := { t.res with res1 := s.nor.read w } })) := by
  obtain ⟨m, hm⟩ : ∃ m, b.size.toNat / s.nor.wb = ones.length + (m + 1) := ⟨b.size.toNat / s.nor.wb - ones.length - 1, by omega⟩
  refine continueOp_error (e := .raised) ?_
  rw [amdEraseTail_polled hq l sent hpolls hv (rest := ones ++ w :: rest) (by simpa using hr), hm]
  refine Op.bind_error ?_
  rw [forUp_append _ _ _ (verifyErased_chipLeft hq l _ hones b.base _ _), forUp_succ,
    Op.bind_error (verifyErased_stop b.base _ (by exact hq) rfl (by exact hw)), nrRun_append, Nat.zero_add]
  simp [chipLeft]

end

/-! ## The commands before the poll (R228, R231) -/

section
variable {s : State} (hq : s.Quiet) (hv : s.norId.vendor = .amd) (hc : s.nor.Legal s.cfg.params)
include hq hv hc

theorem exec_norEraseBlock_amd {b : BlockInfo} (hb : blockInfo s.cfg.params s.nor s.opr.a0 = some b)
    (hsize : b.size.toNat % s.nor.wb = 0) :
    let p := s.cfg.params
    let n := s.nor
    exec .norEraseBlock s = continueOp (amdEraseTail b) (pollBegins s.loop
      (prefixEvents p n ++ [cmdEvent n (n.cmdAddr p.norBase p.amdAddr1) p.amdEraseSetup]
        ++ prefixEvents p n ++ [cmdEvent n b.base p.amdEraseConfirm]) s) := by
  refine exec_eq_continueOp (i := .norEraseBlock) hq ((norEraseBlockOp_eq (by rw [hv]; decide) hc).trans ?_)
  rw [Op.bind_ok (discoverBlockInfo_run hb), bne_eq_false_iff_eq.mpr hsize, Op.bind_ok (raiseIf_false _ _ s),
    byVendor_amd hv, amdErase, Op.bind_ok (params_run s), Op.bind_ok (setPhase_run _ _),
    Op.bind_ok (prefixedCmd_run (by exact hq) _), Op.bind_ok (setPhase_run _ _),
    Op.bind_ok (unlockPrefix_run (by exact hq)), Op.bind_ok (norCmd_event (by exact hq) _ _),
    Op.bind_ok (setPhase_run _ _)]
  rfl

/-- The address checks of a word write pass (R221). -/
theorem exec_norWriteWord_amd (ha : misaligned s.nor s.opr.a0 = false)
    (hin : norOutOfRange s.cfg.params s.nor s.opr.a0 s.nor.wb = false) :
    let p := s.cfg.params
    let n := s.nor
    exec .norWriteWord s = continueOp (amdWordTail s.opr.a0 (n.read s.opr.a1)) (pollBegins s.loop
      (prefixEvents p n ++ [cmdEvent n (n.cmdAddr p.norBase p.amdAddr1) p.amdProgram, .nw s.opr.a0 (n.read s.opr.a1)])
      s) := by
  refine exec_eq_continueOp (i := .norWriteWord) hq ((norWriteWordOp_eq (by rw [hv]; decide) hc).trans ?_)
  rw [Op.bind_ok (alignCheck_run ha), Op.bind_ok (rangeCheck_run hin), byVendor_amd hv, amdWord,
    Op.bind_ok (params_run s), Op.bind_ok (setPhase_run _ _), Op.bind_ok (prefixedCmd_run (by exact hq) _),
    Op.bind_ok (setPhase_run _ _), Op.bind_ok (norW_run (by exact hq) _ _), NorCfg.read, truncN_truncN,
    Op.bind_ok (setPhase_run _ _)]
  rfl

end

/-- Settles O39: the erase is its two command sequences, and then what a poll that ends leads to. -/
theorem norEraseBlockAmd : Obligations.NorEraseBlockAmd := by
  intro s b polls ones rest v hq hv hc hb hsize hpolls hready hones p n sent
  have hexec := exec_norEraseBlock_amd hq hv hc hb hsize
  refine ⟨fun hlen hr => ?_, fun w hlen hw hr => ?_⟩
  · exact hexec.trans (amdErase_success hq s.loop _ hones hpolls hready hlen hr)
  · exact hexec.trans (amdErase_failure hq s.loop _ hones hpolls hready hlen hw hr)

/-! ## The data poll (R231) -/

section
variable {s : State} (hq : s.host.busy = []) (addr d : Word) (abort : Option Word) (l : LoopRegs) (sent : List Event)
  {reads rest : List Word} (hr : s.dev.nr = reads ++ rest)
include hq hr

omit hq in
theorem length_le_pollRounds_pollBegins : reads.length ≤ pollRounds (pollBegins l sent s) :=
  length_le_pollRounds (s := pollBegins l sent s) hr

theorem amdPoll_matched (hend : amdPollEnds s.nor d (abort.map fun _ => s.cfg.params.amdAbortBit) reads .matched) :
    amdPoll addr d abort (pollRounds (pollBegins l sent s)) (pollBegins l sent s)
      = .ok () (chipLeft .poll reads rest l (sent ++ nrEvents s.nor addr reads) s) := by
  rw [amdPoll_ends addr d abort (s := pollBegins l sent s) (e := .matched) hq
      (length_le_pollRounds_pollBegins l sent hr) hr hend,
    afterNorStatus_pollBegins]

theorem amdPoll_timedOut (hend : amdPollEnds s.nor d (abort.map fun _ => s.cfg.params.amdAbortBit) reads .timedOut) :
    amdPoll addr d abort (pollRounds (pollBegins l sent s)) (pollBegins l sent s) = .error .raised
      (errorEntry .timeout addr (chipLeft .poll reads rest l (sent ++ nrEvents s.nor addr reads) s)) := by
  rw [amdPoll_ends addr d abort (s := pollBegins l sent s) (e := .timedOut) hq
      (length_le_pollRounds_pollBegins l sent hr) hr hend,
    afterNorStatus_pollBegins]

/-- The abort's pair of reset commands. -/
theorem amdPoll_aborted (ba : Word) (hend : amdPollEnds s.nor d (some s.cfg.params.amdAbortBit) reads .aborted) :
    amdPoll addr d (some ba) (pollRounds (pollBegins l sent s)) (pollBegins l sent s) = .error .raised
      (errorEntry .programFailure addr (chipLeft .cleanup reads rest l (sent ++ nrEvents s.nor addr reads
        ++ [cmdEvent s.nor ba s.cfg.params.amdReset, cmdEvent s.nor ba s.cfg.params.amdReset]) s)) := by
  obtain ⟨ba', hba, hpoll⟩ := amdPoll_ends addr d (some ba) (s := pollBegins l sent s) (e := .aborted) hq
    (length_le_pollRounds_pollBegins l sent hr) hr hend
  cases hba
  rw [hpoll, afterNorStatus_pollBegins, amdAbort_run addr ba (by exact hq)]
  simp [chipLeft]

end

/-! ## The word write from its poll on (R231, R232) -/

section
variable {s : State} (hq : s.host.busy = []) (addr d : Word) (l : LoopRegs) (sent : List Event)
  {reads rest : List Word}
include hq

/-- The poll has matched: the read-back is next. -/
theorem amdWordTail_matched {w : Word} (hend : amdPollEnds s.nor d none reads .matched)
    (hr : s.dev.nr = reads ++ w :: rest) :
    amdWordTail addr d (pollBegins l sent s) =
      (if s.nor.read w ≠ d then do
        setRes1 (s.nor.read w)
        setRes2 d
        raise .verifyFailure addr
      else pure () : Op Unit) (chipLeft .verify reads rest l (sent ++ nrEvents s.nor addr (reads ++ [w])) s) := by
  rw [amdWordTail, Op.bind_ok (Op.run_get _), Op.bind_ok (amdPoll_matched hq addr d none l sent hr hend),
    Op.bind_ok (setPhase_chipLeft _ _ _ _ _ _), Op.bind_ok (norR_chipLeft _ _ _ _ _ hq _ _), List.append_assoc]
  simp only [nrEvents, List.map_append]
  rfl

/-- The poll has timed out. -/
theorem amdWordTail_timedOut (hend : amdPollEnds s.nor d none reads .timedOut) (hr : s.dev.nr = reads ++ rest) :
    amdWordTail addr d (pollBegins l sent s) = .error .raised (errorEntry .timeout addr
      (chipLeft .poll reads rest l (sent ++ nrEvents s.nor addr reads) s)) := by
  rw [amdWordTail, Op.bind_ok (Op.run_get _), Op.bind_error (amdPoll_timedOut hq addr d none l sent hr hend)]

end

/-- A word write about to poll ends in every way its poll can end. -/
theorem amdWordEnds_of_poll {s : State} (hq : s.Quiet) (sent : List Event) :
    s.AmdWordEnds sent (continueOp (amdWordTail s.opr.a0 (s.nor.read s.opr.a1)) (pollBegins s.loop sent s)) := by
  intro reads rest n a d left
  refine ⟨fun hend w hr => ?_, fun hend hr => ?_⟩
  · have htail := amdWordTail_matched hq a d s.loop sent hend hr
    refine ⟨fun hw => ?_, fun hw => ?_⟩
    · rw [if_neg (not_not_intro hw), Op.run_pure] at htail
      exact (continueOp_ok htail).trans rfl
    · rw [if_pos hw] at htail
      exact continueOp_error htail
  · refine (continueOp_error (amdWordTail_timedOut hq a d s.loop sent hend hr)).trans ?_
    simp only [left, List.append_nil]
    rfl

/-- Settles O41: the ends of the poll, each with the reads that lead to it. -/
theorem norWriteWordAmd : Obligations.NorWriteWordAmd := by
  intro s polls rest hq hv hc ha hin p n a d hpolls sent left verified
  have hends (reads rest) := amdWordEnds_of_poll hq sent reads rest
  rw [← exec_norWriteWord_amd hq hv hc ha hin] at hends
  have hverified (reads : List Word) (last w : Word) (hend : amdPollEnds n d none (reads ++ [last]) .matched)
      (hr : s.dev.nr = reads ++ [last] ++ w :: rest) : verified (reads ++ [last]) last w := by
    have h := (hends (reads ++ [last]) rest).1 hend w hr
    rw [lastNorStatus_concat] at h
    exact h
  refine ⟨fun v w hm hr => ?_, fun v v2 w hm h5 hm2 hr => ?_, fun v v2 hm h5 hm2 hr => ?_⟩
  · exact hverified polls v w ⟨polls, hpolls, .inl ⟨v, rfl, hm⟩⟩ (by simpa using hr)
  · have h := hverified (polls ++ [v]) v2 w ⟨polls, hpolls, .inr ⟨v, v2, by simp, hm, .inl h5, hm2⟩⟩ (by simpa using hr)
    rwa [List.append_assoc] at h
  · have h := (hends (polls ++ [v] ++ [v2]) rest).2 ⟨polls, v, v2, hpolls, by simp, hm, h5, hm2⟩ (by simpa using hr)
    rw [lastNorStatus_concat] at h
    simpa [left] using h

end Sys2Proof.Machine
end

section
/-! PROOFS. `NOR_WRITE_BUFFER` (`44_nor_ops.md` R236): the load of the chip's buffer, the AMD write with its verification
pass, and the Intel write with its availability poll. -/

namespace Sys2Proof.Machine

/-! ## The words of the buffer -/

/-- The word `k` that a buffer write reads from host memory. -/
def bufferWord (s : State) (k : Nat) : Word := s.mem.readLE (sourceAddr s k) s.nor.wb

theorem bufferData_eq (s : State) : s.bufferData = (List.range (bufferWords s)).map (bufferWord s) := rfl

theorem bufferData_length (s : State) : s.bufferData.length = bufferWords s := by
  simp [bufferData_eq]

theorem bufferData_getD {s : State} {k : Nat} (hk : k < bufferWords s) : s.bufferData.getD k 0 = bufferWord s k := by
  simp [bufferData_eq, hk]

/-- A legal length is at least one word. -/
theorem bufferWords_pos {s : State} (h : badLength s.nor s.opr.a1 = false) : 0 < bufferWords s := by
  obtain ⟨hne, hmod, -⟩ := badLength_eq_false.mp h
  refine Nat.pos_of_ne_zero fun hzero => hne ?_
  rw [← Nat.div_add_mod s.opr.a1.toNat s.nor.wb, hmod, show s.opr.a1.toNat / s.nor.wb = 0 from hzero]
  rfl

theorem bufferPolled_eq {s : State} (h : badLength s.nor s.opr.a1 = false) :
    s.bufferPolled = bufferWord s (bufferWords s - 1) :=
  bufferData_getD (Nat.sub_lt (bufferWords_pos h) Nat.one_pos)

theorem loadEvents_eq (s : State) (ba : Word) :
    loadEvents s.nor ba s.opr.a0 s.bufferData = cmdEvent s.nor ba (BitVec.ofNat 8 (bufferWords s - 1))
      :: (List.range (bufferWords s)).map fun k => .nw (destAddr s k) (s.nor.read (bufferWord s k)) := by
  rw [loadEvents, bufferData_length]
  congr 1
  refine List.ext_getElem (by simp [bufferData_eq]) fun k h1 h2 => ?_
  simp [bufferData_eq, destAddr]

/-! ## The trace on the bus -/

theorem busTrace_of_sent_events {s t : State} {sent : List Event} (h : t.events = sent.reverse ++ s.events) :
    t.busTrace = s.busTrace ++ sent.filter Event.onBus := by
  rw [busTrace_of_events h, List.filter_reverse, List.reverse_reverse]

@[simp] theorem Event.onBus_nw (a v : Word) : (Event.nw a v).onBus = true := rfl
@[simp] theorem Event.onBus_nr (a v : Word) : (Event.nr a v).onBus = true := rfl
@[simp] theorem Event.onBus_mr (a v : Word) (n : Nat) : (Event.mr a n v).onBus = false := rfl

theorem filter_cmdEvents (n : NorCfg) (a : Word) (c : Byte) :
    [cmdEvent n a c].filter Event.onBus = [cmdEvent n a c] := rfl

theorem filter_nrEvents (n : NorCfg) (a : Word) (l : List Word) :
    (nrEvents n a l).filter Event.onBus = nrEvents n a l := by
  refine List.filter_eq_self.mpr fun e he => ?_
  obtain ⟨v, -, rfl⟩ := List.mem_map.mp he
  rfl

/-! ## The load (R236) -/

/-- One word of the load, for the operands of `u`. -/
def loadWord (u : State) (k : Nat) : Op Unit := do
  let v ← sourceWord k
  norW (destAddr u k) v

section
variable {s : State} (hq : s.host.busy = []) (ph : Phase) (reads rest : List Word)
include hq

/-- A read of host memory is no bus event. -/
theorem sourceWord_chipLeft (l : LoopRegs) (sent : List Event) (k : Nat) :
    sourceWord k (chipLeft ph reads rest l sent s) = .ok (bufferWord s k)
      (chipLeft ph reads rest l (sent ++ [.mr (sourceAddr s k) s.nor.wb (bufferWord s k)]) s) := by
  rw [sourceWord, Op.bind_ok (Op.run_get _), memRead_host_run (by exact hq)]
  simp [chipLeft, bufferWord, sourceAddr]

theorem norW_chipLeft (l : LoopRegs) (sent : List Event) (a v : Word) :
    norW a v (chipLeft ph reads rest l sent s)
      = .ok () (chipLeft ph reads rest l (sent ++ [.nw a (s.nor.read v)]) s) := by
  rw [norW_run (by exact hq)]
  simp [chipLeft, NorCfg.read]

theorem loadWord_run (l : LoopRegs) (sent : List Event) {u : State} {k : Nat} (hu : destAddr u k = destAddr s k) :
    loadWord u k (chipLeft ph reads rest l sent s) = .ok () (chipLeft ph reads rest l
      (sent ++ [.mr (sourceAddr s k) s.nor.wb (bufferWord s k)] ++ [.nw (destAddr s k) (s.nor.read (bufferWord s k))])
      s) := by
  rw [loadWord, Op.bind_ok (sourceWord_chipLeft hq ph reads rest l sent k), hu, norW_chipLeft hq]

/-- The data stream of the load, from word `k` on. -/
theorem loadWords_run (u : State) (hu : ∀ k, destAddr u k = destAddr s k) : ∀ (n k : Nat) (l : LoopRegs) (sent : List Event),
    ∃ l' sent', transfer 1 (loadWord u) k n (chipLeft ph reads rest l sent s) = .ok () (chipLeft ph reads rest l' sent' s)
      ∧ sent'.filter Event.onBus = sent.filter Event.onBus
        ++ (List.range' k n).map fun k => .nw (destAddr s k) (s.nor.read (bufferWord s k))
  | 0, k, l, sent => ⟨{ l with xferCnt := 0 }, sent, rfl, by simp⟩
  | n + 1, k, l, sent => by
    obtain ⟨l', sent', hrest, hbus⟩ := loadWords_run u hu n (k + 1) { l with xferCnt := BitVec.ofNat 32 ((n + 1) * 1) }
      (sent ++ [.mr (sourceAddr s k) s.nor.wb (bufferWord s k)] ++ [.nw (destAddr s k) (s.nor.read (bufferWord s k))])
    refine ⟨l', sent', ?_, ?_⟩
    · rw [transfer_succ, Op.bind_ok (setXferCnt_chipLeft _ _ _ _ _ _)]
      exact (Op.bind_ok (loadWord_run hq ph reads rest _ sent (hu k))).trans hrest
    · rw [hbus, List.range'_succ, List.map_cons, filter_append_onBus, filter_append_onBus, List.append_assoc,
        List.append_assoc]
      rfl

/-- The count and the words. -/
theorem loadBuffer_run (l : LoopRegs) (sent : List Event) (ba : Word) :
    ∃ l' sent', loadBuffer ba (chipLeft ph reads rest l sent s) = .ok () (chipLeft .data reads rest l' sent' s)
      ∧ sent'.filter Event.onBus = sent.filter Event.onBus ++ loadEvents s.nor ba s.opr.a0 s.bufferData := by
  obtain ⟨l', sent', hwords, hbus⟩ := loadWords_run hq .data reads rest (chipLeft ph reads rest l sent s) (fun _ => rfl)
    (bufferWords s) 0 l (sent ++ [cmdEvent s.nor ba (BitVec.ofNat 8 (bufferWords s - 1))])
  refine ⟨l', sent', ?_, ?_⟩
  · rw [loadBuffer, Op.bind_ok (Op.run_get _), Op.bind_ok (setPhase_chipLeft _ _ _ _ _ _),
      Op.bind_ok (norW_chipLeft hq _ _ _ _ _ _ _), Op.bind_ok (setPhase_chipLeft _ _ _ _ _ _)]
    refine Eq.trans ?_ hwords
    simp only [NorCfg.read]
    rw [show (chipLeft ph reads rest l sent s).nor = s.nor from rfl, truncN_rep]
    rfl
  · rw [hbus, loadEvents_eq, filter_append_onBus, filter_cmdEvents, List.range_eq_range', List.append_assoc]
    rfl

end

/-! ## The write on AMD: its commands, and the verification pass -/

section
variable {s : State} (hq : s.Quiet) (hc : s.nor.Legal s.cfg.params) (ha : misaligned s.nor s.opr.a0 = false)
  (hlen : badLength s.nor s.opr.a1 = false) (hin : norOutOfRange s.cfg.params s.nor s.opr.a0 s.opr.a1.toNat = false)
  {b : BlockInfo} (hb : blockInfo s.cfg.params s.nor s.opr.a0 = some b)
  (hfit : s.opr.a0.toNat + s.opr.a1.toNat ≤ b.base.toNat + b.size.toNat)
include hc ha hlen hin hb hfit

/-- The checks pass. -/
theorem norWriteBufferOp_checked (hv : s.norId.vendor ≠ .unsupported) :
    norWriteBufferOp s = byVendor s (amdBuffer b.base) (intelBuffer b.base) s := by
  rw [norWriteBufferOp_eq hv hc, Op.bind_ok (alignCheck_run ha), Op.bind_ok (lenCheck_run hlen),
    Op.bind_ok (rangeCheck_run hin), Op.bind_ok (discoverBlockInfo_run hb), decide_eq_false (by omega),
    Op.bind_ok (raiseIf_false _ _ s)]

include hq in
/-- An AMD buffer write comes to its poll, having read host memory besides. -/
theorem exec_norWriteBuffer_amd (hv : s.norId.vendor = .amd) :
    let p := s.cfg.params
    let n := s.nor
    ∃ l sent, exec .norWriteBuffer s
        = continueOp (amdBufferTail b.base (bufferWord s (bufferWords s - 1))) (pollBegins l sent s)
      ∧ sent.filter Event.onBus = prefixEvents p n ++ [cmdEvent n b.base p.amdWriteBufLoad]
        ++ loadEvents n b.base s.opr.a0 s.bufferData ++ [cmdEvent n b.base p.amdWriteBufConfirm] := by
  intro p n
  obtain ⟨l, sent, hload, hbus⟩ := loadBuffer_run hq .cmd [] s.dev.nr s.loop
    (prefixEvents p n ++ [cmdEvent n b.base p.amdWriteBufLoad]) b.base
  refine ⟨l, sent ++ [cmdEvent n b.base p.amdWriteBufConfirm]
    ++ [.mr (sourceAddr s (bufferWords s - 1)) n.wb (bufferWord s (bufferWords s - 1))],
    exec_eq_continueOp (i := .norWriteBuffer) hq
      ((norWriteBufferOp_checked hc ha hlen hin hb hfit (by rw [hv]; decide)).trans ?_), ?_⟩
  · rw [byVendor_amd hv, amdBuffer, Op.bind_ok (Op.run_get s), Op.bind_ok (params_run s), Op.bind_ok (setPhase_run _ _),
      Op.bind_ok (unlockPrefix_run (by exact hq)), Op.bind_ok (norCmd_event (by exact hq) _ _)]
    refine (Op.bind_ok hload).trans ?_
    rw [Op.bind_ok (setPhase_chipLeft _ _ _ _ _ _), Op.bind_ok (norCmd_chipLeft _ _ _ _ _ hq _ _),
      Op.bind_ok (setPhase_chipLeft _ _ _ _ _ _), Op.bind_ok (sourceWord_chipLeft hq _ _ _ _ _ _)]
    rfl
  · rw [filter_append_onBus, filter_append_onBus, hbus]
    simp [prefixEvents, cmdEvent]
    rfl

end

/-- The first byte in which two words differ is found. -/
theorem firstDiffByte_eq {v e : Word} {i : Nat} (hi : v.extractLsb' (8 * i) 8 ≠ e.extractLsb' (8 * i) 8) :
    ∀ k j : Nat, j ≤ i → i < j + k → (∀ m, j ≤ m → m < i → v.extractLsb' (8 * m) 8 = e.extractLsb' (8 * m) 8) →
      firstDiffByte v e j k = i
  | 0, j, hj, hk, _ => by omega
  | k + 1, j, hj, hk, hsame => by
    rw [firstDiffByte]
    by_cases hij : j = i
    · rw [if_pos (by rwa [hij]), hij]
    · rw [if_neg (not_not_intro (hsame j (Nat.le_refl j) (by omega)))]
      exact firstDiffByte_eq hi k (j + 1) (by omega) (by omega) fun m hm => hsame m (by omega)

section
variable {s : State} (hq : s.host.busy = []) (ph : Phase) (reads rest : List Word) (l : LoopRegs)
include hq

/-- The read-back of word `k` and the word of host memory it is compared with. -/
theorem verifyWord_eq (sent : List Event) (k : Nat) (w : Word) :
    verifyWord k (chipLeft ph reads (w :: rest) l sent s) =
      (if s.nor.read w ≠ bufferWord s k then do
        setRes1 (s.nor.read w)
        setRes2 (bufferWord s k)
        raise .verifyFailure (BitVec.ofNat 32 (k * s.nor.wb + firstDiffByte (s.nor.read w) (bufferWord s k) 0 s.nor.wb))
      else pure () : Op Unit) (chipLeft ph reads rest l (sent ++ [.nr (destAddr s k) (s.nor.read w)]
        ++ [.mr (sourceAddr s k) s.nor.wb (bufferWord s k)]) s) := by
  rw [verifyWord, Op.bind_ok (Op.run_get _), Op.bind_ok (norR_chipLeft _ _ _ _ _ hq _ _),
    Op.bind_ok (sourceWord_chipLeft hq _ _ _ _ _ _)]
  rfl

/-- The pass over words that read back as written. -/
theorem verifyWords_run : ∀ (back : List Word) (k : Nat) (sent : List Event),
    (∀ j < back.length, s.nor.read (back.getD j 0) = bufferWord s (k + j)) →
    ∃ sent', forUp verifyWord k back.length (chipLeft ph reads (back ++ rest) l sent s)
        = .ok () (chipLeft ph reads rest l sent' s)
      ∧ sent'.filter Event.onBus = sent.filter Event.onBus ++ nrRunFrom s.nor s.opr.a0 k back
  | [], k, sent, _ => ⟨sent, rfl, by simp [nrRunFrom]⟩
  | w :: back, k, sent, h => by
    have hw : s.nor.read w = bufferWord s k := h 0 (by simp)
    obtain ⟨sent', hrest, hbus⟩ := verifyWords_run back (k + 1) (sent ++ [.nr (destAddr s k) (s.nor.read w)]
      ++ [.mr (sourceAddr s k) s.nor.wb (bufferWord s k)]) fun j hj => by
        have hnext := h (j + 1) (by simpa using hj)
        rw [Nat.add_right_comm, Nat.add_assoc]
        exact hnext
    refine ⟨sent', ?_, ?_⟩
    · have hround := verifyWord_eq hq ph reads (back ++ rest) l sent k w
      rw [if_neg (not_not_intro hw)] at hround
      exact (Op.bind_ok hround).trans hrest
    · rw [hbus, filter_append_onBus, filter_append_onBus, List.append_assoc, List.append_assoc]
      rfl

end

/-! ## The AMD write from its poll on -/

section
variable {s : State} (hq : s.host.busy = []) (ba d : Word) (l : LoopRegs) (sent : List Event) {reads rest : List Word}
include hq

/-- The poll has matched: the verification pass is next. -/
theorem amdBufferTail_matched (hr : s.dev.nr = reads ++ rest)
    (hend : amdPollEnds s.nor d (some s.cfg.params.amdAbortBit) reads .matched) :
    amdBufferTail ba d (pollBegins l sent s) = (do
      forUp verifyWord 0 (bufferWords s)
      setRes0 s.opr.a1 : Op Unit) (chipLeft .verify reads rest l (sent ++ nrEvents s.nor s.bufferLast reads) s) := by
  rw [amdBufferTail, Op.bind_ok (Op.run_get _)]
  exact (Op.bind_ok (amdPoll_matched hq _ d (some ba) l sent hr hend)).trans rfl

theorem amdBufferTail_timedOut (hr : s.dev.nr = reads ++ rest)
    (hend : amdPollEnds s.nor d (some s.cfg.params.amdAbortBit) reads .timedOut) :
    amdBufferTail ba d (pollBegins l sent s) = .error .raised (errorEntry .timeout s.bufferLast
      (chipLeft .poll reads rest l (sent ++ nrEvents s.nor s.bufferLast reads) s)) := by
  rw [amdBufferTail, Op.bind_ok (Op.run_get _)]
  exact Op.bind_error (amdPoll_timedOut hq _ d (some ba) l sent hr hend)

theorem amdBufferTail_aborted (hr : s.dev.nr = reads ++ rest)
    (hend : amdPollEnds s.nor d (some s.cfg.params.amdAbortBit) reads .aborted) :
    amdBufferTail ba d (pollBegins l sent s) = .error .raised (errorEntry .programFailure s.bufferLast
      (chipLeft .cleanup reads rest l (sent ++ nrEvents s.nor s.bufferLast reads
        ++ [cmdEvent s.nor ba s.cfg.params.amdReset, cmdEvent s.nor ba s.cfg.params.amdReset]) s)) := by
  rw [amdBufferTail, Op.bind_ok (Op.run_get _)]
  exact Op.bind_error (amdPoll_aborted hq _ d l sent hr ba hend)

end

section
variable {s : State} (hq : s.host.busy = []) (ba d : Word) (l : LoopRegs) (sent : List Event)
  {reads back rest : List Word} (hend : amdPollEnds s.nor d (some s.cfg.params.amdAbortBit) reads .matched)
  (hback : ∀ j < back.length, s.nor.read (back.getD j 0) = bufferWord s j)
include hq hend hback

/-- Every word reads back as written. -/
theorem amdBufferTail_verified (hlen : back.length = bufferWords s) (hr : s.dev.nr = reads ++ back ++ rest) :
    ∃ sent', amdBufferTail ba d (pollBegins l sent s) = .ok ()
        (let t := chipLeft .verify reads rest l sent' s
         { t with res := { t.res with res0 := s.opr.a1 } })
      ∧ sent'.filter Event.onBus
        = sent.filter Event.onBus ++ nrEvents s.nor s.bufferLast reads ++ nrRun s.nor s.opr.a0 back := by
  obtain ⟨sent', hpass, hbus⟩ := verifyWords_run hq .verify reads rest l back 0
    (sent ++ nrEvents s.nor s.bufferLast reads) fun j hj => by rw [Nat.zero_add]; exact hback j hj
  refine ⟨sent', ?_, ?_⟩
  · rw [amdBufferTail_matched hq ba d l sent (hr.trans (List.append_assoc ..)) hend, ← hlen, Op.bind_ok hpass]
    rfl
  · rw [hbus, filter_append_onBus, filter_nrEvents, nrRunFrom_zero]

/-- A word does not. -/
theorem amdBufferTail_differs {w : Word} (hlen : back.length < bufferWords s)
    (hw : s.nor.read w ≠ bufferWord s back.length) (hr : s.dev.nr = reads ++ back ++ w :: rest) :
    ∃ sent', amdBufferTail ba d (pollBegins l sent s) = .error .raised
        (errorEntry .verifyFailure (BitVec.ofNat 32 (back.length * s.nor.wb
            + firstDiffByte (s.nor.read w) (bufferWord s back.length) 0 s.nor.wb))
          (let t := chipLeft .verify reads rest l sent' s
           { t with res := { t.res with res1 := s.nor.read w, res2 := bufferWord s back.length } }))
      ∧ sent'.filter Event.onBus
        = sent.filter Event.onBus ++ nrEvents s.nor s.bufferLast reads ++ nrRun s.nor s.opr.a0 (back ++ [w]) := by
  obtain ⟨m, hm⟩ : ∃ m, bufferWords s = back.length + (m + 1) := ⟨bufferWords s - back.length - 1, by omega⟩
  obtain ⟨sent', hpass, hbus⟩ := verifyWords_run hq .verify reads (w :: rest) l back 0
    (sent ++ nrEvents s.nor s.bufferLast reads) fun j hj => by rw [Nat.zero_add]; exact hback j hj
  have hround := verifyWord_eq hq .verify reads rest l sent' back.length w
  rw [if_pos hw] at hround
  refine ⟨sent' ++ [.nr (destAddr s back.length) (s.nor.read w)]
    ++ [.mr (sourceAddr s back.length) s.nor.wb (bufferWord s back.length)], ?_, ?_⟩
  · rw [amdBufferTail_matched hq ba d l sent (hr.trans (List.append_assoc ..)) hend, hm]
    refine Op.bind_error ?_
    rw [forUp_append _ _ _ hpass, forUp_succ, Nat.zero_add]
    exact Op.bind_error hround
  · rw [filter_append_onBus, filter_append_onBus, hbus, filter_append_onBus, filter_nrEvents, nrRunFrom_zero, nrRun_append]
    simp [destAddr]

end

/-- A buffer write about to poll, having sent `sent`, ends in every way its poll can end. -/
theorem amdBufferEnds_of_poll {s : State} (hq : s.Quiet) (ba : Word) (l : LoopRegs) (sent : List Event) :
    s.AmdBufferEnds ba (sent.filter Event.onBus)
      (continueOp (amdBufferTail ba s.bufferPolled) (pollBegins l sent s)) := by
  intro reads rest n words ends polled left
  refine ⟨fun hend back hsame => ⟨fun hlen hr => ?_, fun w i hlen hi hfirst hdiff hr => ?_⟩, fun hend hr => ?_,
    fun hend hr => ?_⟩
  · rw [bufferData_length] at hlen
    have hback : ∀ j < back.length, s.nor.read (back.getD j 0) = bufferWord s j := fun j hj => by
      rw [← bufferData_getD (by omega)]
      exact hsame j hj
    obtain ⟨sent', htail, hbus⟩ := amdBufferTail_verified hq ba _ l sent hend hback hlen hr
    refine ⟨_, continueOp_ok htail, ?_, rfl⟩
    rw [busTrace_of_sent_events rfl, hbus]
    simp only [polled, List.append_assoc]
    rfl
  · rw [bufferData_length] at hlen
    have hback : ∀ j < back.length, s.nor.read (back.getD j 0) = bufferWord s j := fun j hj => by
      rw [← bufferData_getD (by omega)]
      exact hsame j hj
    have hword : words.getD back.length 0 = bufferWord s back.length := bufferData_getD hlen
    rw [hword] at hfirst hdiff ⊢
    obtain ⟨sent', htail, hbus⟩ := amdBufferTail_differs hq ba _ l sent hend hback hlen
      (fun h => hdiff (by rw [← h])) hr
    rw [firstDiffByte_eq hdiff _ 0 (Nat.zero_le i) (by rw [Nat.zero_add]; exact hi)
      fun m _ hm => hfirst m hm] at htail
    refine ⟨_, continueOp_error htail, ?_, rfl⟩
    rw [busTrace_of_sent_events rfl, hbus]
    simp only [polled, List.append_assoc]
    rfl
  · refine ⟨_, continueOp_error (amdBufferTail_timedOut hq ba _ l sent hr hend), ?_, rfl⟩
    rw [busTrace_of_sent_events rfl, filter_append_onBus, filter_nrEvents, ← List.append_assoc]
  · refine ⟨_, continueOp_error (amdBufferTail_aborted hq ba _ l sent hr hend), ?_, rfl⟩
    rw [busTrace_of_sent_events rfl, filter_append_onBus, filter_append_onBus, filter_nrEvents, ← List.append_assoc,
      ← List.append_assoc]
    rfl

/-- Settles O43: the write comes to its poll, and what the poll leads to is said there. -/
theorem norWriteBufferAmd : Obligations.NorWriteBufferAmd := by
  intro s b hq hv hc ha hlen hin hb hfit p n sent
  obtain ⟨l, sent', hexec, hbus⟩ := exec_norWriteBuffer_amd hq hc ha hlen hin hb hfit hv
  have hends := amdBufferEnds_of_poll hq b.base l sent'
  rwa [hbus, bufferPolled_eq hlen, ← hexec] at hends

/-! ## The write on Intel: its availability poll -/

/-- The cycles of availability rounds with these answers: the command is sent again in each. -/
def availabilityEvents (p : Config.Params) (n : NorCfg) (ba : Word) (answers : List Word) : List Event :=
  answers.flatMap fun x => [cmdEvent n ba p.intelWriteBuf, .nr ba (n.read x)]

theorem filter_availabilityEvents (p : Config.Params) (n : NorCfg) (ba : Word) (answers : List Word) :
    (availabilityEvents p n ba answers).filter Event.onBus = availabilityEvents p n ba answers := by
  refine List.filter_eq_self.mpr fun e he => ?_
  obtain ⟨v, -, hv⟩ := List.mem_flatMap.mp he
  rcases List.mem_pair.mp hv with rfl | rfl <;> rfl

section
variable {s : State} (hq : s.host.busy = []) (ba : Word)
include hq

/-- One availability round. -/
theorem intelBufferAvailable_round (n : Nat) (ph : Phase) (reads : List Word) (x : Word) (rest : List Word)
    (l : LoopRegs) (sent : List Event) :
    intelBufferAvailable ba (n + 1) (chipLeft ph reads (x :: rest) l sent s) =
      (if (s.nor.read x).getLsbD 7 then pure () else intelBufferAvailable ba n : Op Unit)
        (chipLeft .waitStatus (reads ++ [x]) rest { l with pollCnt := BitVec.ofNat 32 (n + 1) }
          (sent ++ availabilityEvents s.cfg.params s.nor ba [x]) s) := by
  rw [intelBufferAvailable, Op.bind_ok (setPollCnt_chipLeft _ _ _ _ _ _), Op.bind_ok (setPhase_chipLeft _ _ _ _ _ _),
    Op.bind_ok (params_run _), Op.bind_ok (norCmd_chipLeft _ _ _ _ _ hq _ _),
    Op.bind_ok (setPhase_chipLeft _ _ _ _ _ _), Op.bind_ok (norR_chipLeft _ _ _ _ _ hq _ _),
    Op.bind_ok (setLastStat_chipLeft _ _ _ _ _ _), List.append_assoc sent]
  rfl

/-- The buffer is available within the limit. -/
theorem intelBufferAvailable_ready {a : Word} {rest : List Word} (hready : (s.nor.read a).getLsbD 7 = true) :
    ∀ (busy : List Word) (n : Nat) (ph : Phase) (reads : List Word) (l : LoopRegs) (sent : List Event),
      busy.length < n → (∀ x ∈ busy, (s.nor.read x).getLsbD 7 = false) →
      ∃ l', intelBufferAvailable ba n (chipLeft ph reads (busy ++ a :: rest) l sent s)
        = .ok () (chipLeft .waitStatus [a] rest l'
            (sent ++ availabilityEvents s.cfg.params s.nor ba (busy ++ [a])) s)
  | [], n + 1, ph, reads, l, sent, _, _ => by
    have hround := intelBufferAvailable_round hq ba n ph reads a rest l sent
    rw [if_pos hready, chipLeft_concat] at hround
    exact ⟨_, hround⟩
  | x :: busy, n + 1, ph, reads, l, sent, hlen, hbusy => by
    obtain ⟨l', hrest⟩ := intelBufferAvailable_ready hready busy n .waitStatus (reads ++ [x])
      { l with pollCnt := BitVec.ofNat 32 (n + 1) } (sent ++ availabilityEvents s.cfg.params s.nor ba [x])
      (by simpa using hlen) fun y hy => hbusy y (by simp [hy])
    refine ⟨l', (intelBufferAvailable_round hq ba n ph reads x (busy ++ a :: rest) l sent).trans ?_⟩
    rw [hbusy x (by simp), if_neg (by simp), hrest, List.append_assoc]
    rfl

/-- It never is: the clean-up, and the time-out. -/
theorem intelBufferAvailable_timeout {rest : List Word} :
    ∀ (busy : List Word) (ph : Phase) (reads : List Word) (l : LoopRegs) (sent : List Event),
      (∀ x ∈ busy, (s.nor.read x).getLsbD 7 = false) →
      ∃ l', intelBufferAvailable ba busy.length (chipLeft ph reads (busy ++ rest) l sent s)
        = .error .raised (errorEntry .timeout ba (chipLeft .cleanup (reads ++ busy) rest l'
            (sent ++ availabilityEvents s.cfg.params s.nor ba busy ++ intelCleanupEvents s.cfg.params s.nor ba) s))
  | [], ph, reads, l, sent, _ => by
    refine ⟨{ l with pollCnt := 0 }, ?_⟩
    rw [List.length_nil, intelBufferAvailable, Op.bind_ok (setPollCnt_run _ _),
      Op.bind_ok (intelCleanup_run (by exact hq) ba), raise_run]
    simp [chipLeft, availabilityEvents]
  | x :: busy, ph, reads, l, sent, hbusy => by
    obtain ⟨l', hrest⟩ := intelBufferAvailable_timeout busy .waitStatus (reads ++ [x])
      { l with pollCnt := BitVec.ofNat 32 (busy.length + 1) } (sent ++ availabilityEvents s.cfg.params s.nor ba [x])
      fun y hy => hbusy y (by simp [hy])
    refine ⟨l', (intelBufferAvailable_round hq ba busy.length ph reads x (busy ++ rest) l sent).trans ?_⟩
    rw [hbusy x (by simp), if_neg (by simp), hrest, List.append_assoc sent, List.append_assoc reads]
    rfl

end

section
variable {s : State} (hq : s.Quiet) (hv : s.norId.vendor = .intel) (hc : s.nor.Legal s.cfg.params)
  (ha : misaligned s.nor s.opr.a0 = false) (hlen : badLength s.nor s.opr.a1 = false)
  (hin : norOutOfRange s.cfg.params s.nor s.opr.a0 s.opr.a1.toNat = false) {b : BlockInfo}
  (hb : blockInfo s.cfg.params s.nor s.opr.a0 = some b)
  (hfit : s.opr.a0.toNat + s.opr.a1.toNat ≤ b.base.toNat + b.size.toNat)
  {busy rest : List Word} (hbusy : ∀ x ∈ busy, (s.nor.read x).getLsbD 7 = false)
include hq hv hc ha hlen hin hb hfit hbusy

/-- An Intel buffer write whose chip is available in time comes to the common end. -/
theorem exec_norWriteBuffer_intel {a : Word} (hlimit : busy.length < s.cfg.params.intelBufPollLimit.toNat)
    (hready : (s.nor.read a).getLsbD 7 = true) (hr : s.dev.nr = busy ++ a :: rest) :
    let p := s.cfg.params
    let n := s.nor
    ∃ l sent, exec .norWriteBuffer s
        = continueOp (intelFinish b.base .programFailure >>= fun _ => setRes0 s.opr.a1)
          (chipLeft .confirm [a] rest l sent s)
      ∧ sent.filter Event.onBus = availabilityEvents p n b.base (busy ++ [a])
        ++ loadEvents n b.base s.opr.a0 s.bufferData ++ [cmdEvent n b.base p.intelConfirm] := by
  intro p n
  obtain ⟨l1, havailable⟩ := intelBufferAvailable_ready hq b.base (rest := rest) hready busy _ .cmd [] s.loop [] hlimit
    hbusy
  obtain ⟨l2, sent, hload, hbus⟩ := loadBuffer_run hq .waitStatus [a] rest l1
    (availabilityEvents p n b.base (busy ++ [a])) b.base
  refine ⟨l2, sent ++ [cmdEvent n b.base p.intelConfirm], exec_eq_continueOp (i := .norWriteBuffer) hq
    ((norWriteBufferOp_checked hc ha hlen hin hb hfit (by rw [hv]; decide)).trans ?_), ?_⟩
  · rw [← hr] at havailable
    rw [byVendor_intel hv, intelBuffer, Op.bind_ok (Op.run_get s), Op.bind_ok (params_run s),
      Op.bind_ok (setPhase_run _ _)]
    refine (Op.bind_ok havailable).trans ((Op.bind_ok hload).trans ?_)
    rw [Op.bind_ok (setPhase_chipLeft _ _ _ _ _ _), Op.bind_ok (norCmd_chipLeft _ _ _ _ _ hq _ _)]
  · rw [filter_append_onBus, hbus, filter_availabilityEvents]
    rfl

/-- One whose chip is not available in time ends there. -/
theorem exec_norWriteBuffer_unavailable (hlimit : busy.length = s.cfg.params.intelBufPollLimit.toNat)
    (hr : s.dev.nr = busy ++ rest) :
    ∃ l, exec .norWriteBuffer s = .next (errorEntry .timeout b.base (chipLeft .cleanup busy rest l
      (availabilityEvents s.cfg.params s.nor b.base busy ++ intelCleanupEvents s.cfg.params s.nor b.base) s)) := by
  obtain ⟨l, htimeout⟩ := intelBufferAvailable_timeout hq b.base (rest := rest) busy .cmd [] s.loop [] hbusy
  refine ⟨l, exec_of_pseudocode_error (i := .norWriteBuffer) (e := .raised) hq
    ((norWriteBufferOp_checked hc ha hlen hin hb hfit (by rw [hv]; decide)).trans ?_)⟩
  rw [hlimit, ← hr] at htimeout
  rw [byVendor_intel hv, intelBuffer, Op.bind_ok (Op.run_get s), Op.bind_ok (params_run s),
    Op.bind_ok (setPhase_run _ _)]
  exact Op.bind_error htimeout

end

/-- Settles O44: the chip is available and the write comes to the common Intel end, or it is not. -/
theorem norWriteBufferIntel : Obligations.NorWriteBufferIntel := by
  intro s b busy polls rest hq hv hc ha hlen hin hb hfit hbusy hpolls p n words asked
  have hexec {rest a} := exec_norWriteBuffer_intel (rest := rest) (a := a) hq hv hc ha hlen hin hb hfit hbusy
  refine ⟨fun a v hlimit ha7 hbound hv7 hr => ?_, fun a hlimit ha7 hbound hr => ?_, fun hlimit hr => ?_⟩
  · obtain ⟨l, sent, hrun, hbus⟩ := hexec hlimit ha7 (hr.trans (List.append_assoc ..))
    obtain ⟨l', hok, hbad⟩ := intelEnd_ready (rest := rest) hq hpolls b.base .programFailure (setRes0 s.opr.a1) .confirm
      [a] l sent hbound hv7 fun _ => rfl
    have htrace {t : State} (ht : t.events = (sent ++ nrEvents n b.base (polls ++ [v]) ++ intelCleanupEvents p n b.base).reverse
        ++ s.events) : t.busTrace = s.busTrace ++ asked (busy ++ [a]) ++ loadEvents n b.base s.opr.a0 words
          ++ [cmdEvent n b.base p.intelConfirm] ++ nrEvents n b.base (polls ++ [v]) ++ intelCleanupEvents p n b.base := by
      rw [busTrace_of_sent_events ht, filter_append_onBus, filter_append_onBus, filter_nrEvents, hbus]
      simp only [List.append_assoc]
      rfl
    by_cases hstatus : n.read v &&& 0x38 = 0
    · exact ⟨_, hrun.trans (hok hstatus), htrace rfl, fun _ => rfl, fun h => absurd hstatus h⟩
    · exact ⟨_, hrun.trans (hbad hstatus), htrace rfl, fun h => absurd h hstatus, fun _ => rfl⟩
  · obtain ⟨l, sent, hrun, hbus⟩ := hexec hlimit ha7 (hr.trans (List.append_assoc ..))
    obtain ⟨l', htimeout⟩ := intelEnd_timeout (rest := rest) hq hpolls b.base .programFailure (setRes0 s.opr.a1) .confirm
      [a] l sent hbound
    refine ⟨_, hrun.trans htimeout, ?_, rfl⟩
    rw [busTrace_of_sent_events rfl, filter_append_onBus, filter_append_onBus, filter_nrEvents, hbus]
    simp only [List.append_assoc]
    rfl
  · obtain ⟨l, hrun⟩ := exec_norWriteBuffer_unavailable hq hv hc ha hlen hin hb hfit hbusy hlimit hr
    refine ⟨_, hrun, ?_, rfl⟩
    rw [busTrace_of_sent_events rfl, filter_append_onBus, filter_availabilityEvents, ← List.append_assoc]
    rfl

end Sys2Proof.Machine
end

section
/-! PROOFS. The AMD polls across steps (`44_nor_ops.md` R228, R229, R231, R236): a poll that no answer ends leaves its op
running, and a later step goes on with it to the same ends. -/

namespace Sys2Proof.Machine

/-! ## A step of an op that is polling (R229) -/

section
variable {s : State} (hb : s.stat.busy = true) (hp : s.stat.phase = .poll)
include hb

theorem step_eq_continueOp {m : Op Unit} (hm : pollingOp s.stat = some m) : step s = continueOp m s := by
  rw [step, if_pos hb, stepBusy, hm]

include hp

/-- The operand still names the block that is being erased. -/
theorem step_erase {b : BlockInfo} (ho : s.stat.opc = 0x21) (hblock : blockInfo s.cfg.params s.nor s.opr.a0 = some b) :
    step s = continueOp (amdEraseTail b) (pollBegins s.loop [] s) := by
  have hm : pollingOp s.stat = some resumeErase := by simp [pollingOp, hp, ho]
  rw [step_eq_continueOp hb hm, pollBegins_self hp, continueOp, continueOp, resumeErase, Op.bind_ok (Op.run_get s),
    Op.bind_ok (discoverBlockInfo_run hblock)]

theorem step_word (ho : s.stat.opc = 0x22) :
    step s = continueOp (amdWordTail s.opr.a0 (s.nor.read s.opr.a1)) (pollBegins s.loop [] s) := by
  have hm : pollingOp s.stat = some resumeWord := by simp [pollingOp, hp, ho]
  rw [step_eq_continueOp hb hm, pollBegins_self hp]
  rfl

/-- Host memory still holds the word the poll compares with. -/
theorem step_buffer {b : BlockInfo} (ho : s.stat.opc = 0x23) (hblock : blockInfo s.cfg.params s.nor s.opr.a0 = some b)
    (hlen : badLength s.nor s.opr.a1 = false) :
    step s = continueOp (amdBufferTail b.base s.bufferPolled) (pollBegins s.loop [] s) := by
  have hm : pollingOp s.stat = some resumeBuffer := by simp [pollingOp, hp, ho]
  rw [step_eq_continueOp hb hm, pollBegins_self hp, continueOp, continueOp, resumeBuffer, Op.bind_ok (Op.run_get s),
    Op.bind_ok (discoverBlockInfo_run hblock), bufferPolled_eq hlen]
  rfl

end

/-- Settles O48: a step of an op that is polling begins where its poll begins, and from there every end is known. -/
theorem amdPollGoesOnToItsEnd : Obligations.AmdPollGoesOnToItsEnd := by
  intro s hq hb hp n
  refine ⟨?_, fun ho => ?_, fun b ho _ hlen hblock => ?_⟩
  · intro b polls ones rest v ho hblock hpolls hready hones left
    have hstep := step_erase hb hp ho hblock
    refine ⟨fun hlen hr => ?_, fun w hlen hw hr => ?_⟩
    · simp only [left, List.append_nil]
      exact hstep.trans (amdErase_success hq s.loop [] hones hpolls hready hlen hr)
    · exact hstep.trans (amdErase_failure hq s.loop [] hones hpolls hready hlen hw hr)
  · rw [step_word hb hp ho]
    exact amdWordEnds_of_poll hq []
  · rw [step_buffer hb hp ho hblock hlen]
    exact amdBufferEnds_of_poll hq b.base s.loop []

/-! ## A poll that no answer ends (R229) -/

section
variable {s : State} (hq : s.host.busy = []) (hne : s.dev.nr ≠ []) (l : LoopRegs) (sent : List Event)
include hq hne

omit hq in
/-- With answers listed, a step has one round of its poll for each. -/
theorem pollRounds_pollBegins : pollRounds (pollBegins l sent s) = s.dev.nr.length :=
  Nat.max_eq_right (List.length_pos_iff.mpr hne)

theorem amdEraseTail_goesOn (b : BlockInfo) (hpolls : ∀ x ∈ s.dev.nr, (s.nor.read x).getLsbD 7 = false) :
    continueOp (amdEraseTail b) (pollBegins l sent s)
      = .next (chipLeft .poll s.dev.nr [] l (sent ++ nrEvents s.nor b.base s.dev.nr) s) := by
  have hpoll := amdErasePoll_goesOn b.base s.dev.nr (pollBegins l sent s) [] hq (List.append_nil _).symm hpolls
  rw [afterNorStatus_pollBegins] at hpoll
  refine continueOp_error (e := .polling) ?_
  rw [amdEraseTail, Op.bind_ok (Op.run_get _), pollRounds_pollBegins hne, Op.bind_error hpoll]

/-- The same of the data poll. -/
theorem amdPoll_pollBegins_goesOn (addr d : Word) (abort : Option Word)
    (hpolls : ∀ x ∈ s.dev.nr, amdPollsOn s.nor d (abort.map fun _ => s.cfg.params.amdAbortBit) x) :
    amdPoll addr d abort (pollRounds (pollBegins l sent s)) (pollBegins l sent s)
      = .error .polling (chipLeft .poll s.dev.nr [] l (sent ++ nrEvents s.nor addr s.dev.nr) s) := by
  have hpoll := amdPoll_goesOn addr d abort (l := s.dev.nr) (s := pollBegins l sent s) hq (List.append_nil _).symm hpolls
  rwa [afterNorStatus_pollBegins, ← pollRounds_pollBegins hne l sent] at hpoll

theorem amdWordTail_goesOn (addr d : Word) (hpolls : ∀ x ∈ s.dev.nr, amdPollsOn s.nor d none x) :
    continueOp (amdWordTail addr d) (pollBegins l sent s)
      = .next (chipLeft .poll s.dev.nr [] l (sent ++ nrEvents s.nor addr s.dev.nr) s) := by
  refine continueOp_error (e := .polling) ?_
  rw [amdWordTail, Op.bind_ok (Op.run_get _),
    Op.bind_error (amdPoll_pollBegins_goesOn hq hne l sent addr d none hpolls)]

theorem amdBufferTail_goesOn (ba d : Word)
    (hpolls : ∀ x ∈ s.dev.nr, amdPollsOn s.nor d (some s.cfg.params.amdAbortBit) x) :
    continueOp (amdBufferTail ba d) (pollBegins l sent s)
      = .next (chipLeft .poll s.dev.nr [] l (sent ++ nrEvents s.nor s.bufferLast s.dev.nr) s) := by
  refine continueOp_error (e := .polling) ?_
  rw [amdBufferTail, Op.bind_ok (Op.run_get _)]
  exact Op.bind_error (amdPoll_pollBegins_goesOn hq hne l sent s.bufferLast d (some ba) hpolls)

end

/-- What a poll that goes on leaves of an op that was polling before: LASTSTAT, the answers and the trace apart, the
state. -/
theorem chipLeft_poll {s : State} (hp : s.stat.phase = .poll) (reads rest : List Word) (sent : List Event) :
    chipLeft .poll reads rest s.loop sent s =
      { s with
        res := { s.res with lastStat := lastNorStatus s.nor s.res.lastStat reads }
        dev := { s.dev with nr := rest }
        events := sent.reverse ++ s.events } := by
  rw [chipLeft, ← hp]

/-- Settles O47: at the op and at each further step, the poll takes the listed answers and is left where it was. -/
theorem amdPollIsUnbounded : Obligations.AmdPollIsUnbounded := by
  intro s polls hq hne hr
  subst hr
  intro p n a eraseGoesOn wordGoesOn bufferGoesOn status leftPolling goesOn
  have hleft {i : Instr} {l : LoopRegs} {sent : List Event}
      (h : exec i s = .next (chipLeft .poll s.dev.nr [] l sent s)) : leftPolling i := ⟨_, h, rfl, rfl, rfl⟩
  refine ⟨fun hv hc => ⟨fun b hblock hsize hpolls => ?_, fun ha hin hpolls => ?_,
    fun b ha hlen hin hblock hfit hpolls => ?_⟩, fun hb hp => ?_⟩
  · exact hleft ((exec_norEraseBlock_amd hq hv hc hblock hsize).trans (amdEraseTail_goesOn hq hne _ _ b hpolls))
  · exact hleft ((exec_norWriteWord_amd hq hv hc ha hin).trans (amdWordTail_goesOn hq hne _ _ _ _ hpolls))
  · obtain ⟨l, sent, hexec, -⟩ := exec_norWriteBuffer_amd hq hc ha hlen hin hblock hfit hv
    rw [← bufferPolled_eq hlen] at hexec
    exact hleft (hexec.trans (amdBufferTail_goesOn hq hne l sent _ _ hpolls))
  · have hon {addr : Word} (h : step s = .next (chipLeft .poll s.dev.nr [] s.loop (nrEvents n addr s.dev.nr) s)) :
        goesOn addr := h.trans (congrArg _ (chipLeft_poll hp _ _ _))
    refine ⟨fun b ho hblock hpolls => ?_, fun ho hpolls => ?_, fun b ho hblock hlen hpolls => ?_⟩
    · exact hon ((step_erase hb hp ho hblock).trans (amdEraseTail_goesOn hq hne _ _ b hpolls))
    · exact hon ((step_word hb hp ho).trans (amdWordTail_goesOn hq hne _ _ _ _ hpolls))
    · exact hon ((step_buffer hb hp ho hblock hlen).trans (amdBufferTail_goesOn hq hne _ _ _ _ hpolls))

end Sys2Proof.Machine
end

section
/-! PROOFS. The Intel clean-up on every path (`44_nor_ops.md` R234, R236): whatever the chip answers, an op that got past
its checks sends the two clean-up commands last. Stated with `Op.Meets`, per piece of the pseudocode. -/

namespace Sys2Proof.Machine

/-! ## The stages of an op, seen from the state `s` it began in -/

/-- The op has sent events and may send more; nothing can interrupt it. -/
structure Onward (s t : State) : Prop where
  cfg : t.cfg = s.cfg
  nor : t.nor = s.nor
  quiet : t.host.busy = []
  events : s.events <:+ t.events

/-- The clean-up commands were sent last. -/
def CleanedUp (s t : State) : Prop :=
  ∃ (a : Word) (ev : List Event), t.events = (intelCleanupEvents s.cfg.params s.nor a).reverse ++ ev ++ s.events

/-- The op sent nothing, or the clean-up commands last. -/
def EndsClean (s t : State) : Prop := t.events = s.events ∨ CleanedUp s t

theorem Onward.refl {s : State} (hq : s.Quiet) : Onward s s := ⟨rfl, rfl, hq, List.suffix_rfl⟩

/-- The pieces of an op that run to their end go on. -/
theorem Op.Within.onward {F : List Part} {α : Type} {m : Op α} (h : Op.Within F m)
    (hrun : ∀ t : State, t.host.busy = [] → ∃ a u, m t = .ok a u) {E : Ended → State → Prop} {s : State} :
    Op.Meets E (Onward s) m fun _ => Onward s := by
  intro t ht
  obtain ⟨a, u, hu⟩ := hrun t ht.quiet
  have hw := h.effect t
  rw [hu] at hw ⊢
  exact ⟨hw.cfg.trans ht.cfg, hw.nor.trans ht.nor, List.eq_nil_of_suffix_nil (ht.quiet ▸ hw.acts),
    ht.events.trans hw.events⟩

section
variable {E : Ended → State → Prop} {s : State}

/-! ## The pieces that go on -/

theorem setPhase_onward (p : Phase) : Op.Meets E (Onward s) (setPhase p) fun _ => Onward s :=
  (setPhase_within (F := [.phase]) p (by decide)).onward fun _ _ => ⟨_, _, rfl⟩

theorem setPollCnt_onward (n : Nat) : Op.Meets E (Onward s) (setPollCnt n) fun _ => Onward s :=
  (setPollCnt_within (F := []) n).onward fun _ _ => ⟨_, _, rfl⟩

theorem setLastStat_onward (v : Word) : Op.Meets E (Onward s) (setLastStat v) fun _ => Onward s :=
  (setLastStat_within (F := [.lastStat]) v (by decide)).onward fun _ _ => ⟨_, _, rfl⟩

theorem params_onward : Op.Meets E (Onward s) params fun _ => Onward s :=
  (Op.Within.params (F := [])).onward fun _ _ => ⟨_, _, rfl⟩

theorem norCmd_onward (a : Word) (c : Byte) : Op.Meets E (Onward s) (norCmd a c) fun _ => Onward s :=
  (norCmd_within (F := []) a c).onward fun _ ht => ⟨_, _, norCmd_run ht a c⟩

theorem norW_onward (a v : Word) : Op.Meets E (Onward s) (norW a v) fun _ => Onward s :=
  (norW_within (F := []) a v).onward fun _ ht => ⟨_, _, norW_run ht a v⟩

theorem norR_onward (a : Word) : Op.Meets E (Onward s) (norR a) fun _ => Onward s :=
  (norR_within (F := [.norAnswers]) a (by decide)).onward fun _ ht => ⟨_, _, norR_run ht a⟩

theorem loadBuffer_onward (ba : Word) : Op.Meets E (Onward s) (loadBuffer ba) fun _ => Onward s :=
  (loadBuffer_within (F := [.phase]) ba (by decide)).onward fun t ht => by
    obtain ⟨l, sent, hrun, -⟩ := loadBuffer_run ht t.stat.phase [] t.dev.nr t.loop [] ba
    exact ⟨_, _, hrun⟩

/-- Ready or timed out, the status spin answers. -/
theorem intelSpin_onward (sa : Word) : ∀ n, Op.Meets E (Onward s) (intelSpin sa n) fun _ => Onward s
  | 0 => .bind (setPollCnt_onward 0) fun _ => .pure fun _ => id
  | n + 1 => .bind (setPollCnt_onward _) fun _ => .bind (norR_onward sa) fun st => .bind (setLastStat_onward st) fun _ =>
      .ite (fun _ => .pure fun _ => id) fun _ => intelSpin_onward sa n

/-! ## The clean-up, and what may follow it -/

theorem intelCleanup_cleansUp (sa : Word) : Op.Meets E (Onward s) (intelCleanup sa) fun _ => CleanedUp s := by
  intro t ht
  obtain ⟨ev, hev⟩ := ht.events
  rw [intelCleanup_run ht.quiet, ht.cfg, ht.nor]
  exact ⟨sa, ev, by rw [List.append_assoc, hev]⟩

theorem setRes0_cleanedUp (v : Word) : Op.Meets E (CleanedUp s) (setRes0 v) fun _ => CleanedUp s := fun _ ht => ht

theorem setRes1_cleanedUp (v : Word) : Op.Meets E (CleanedUp s) (setRes1 v) fun _ => CleanedUp s := fun _ ht => ht

end

section
variable {s : State}

theorem raise_cleanedUp {α : Type} {Q : α → State → Prop} (k : ErrKind) (info : Word) :
    Op.Meets (fun _ => EndsClean s) (CleanedUp s) (raise k info : Op α) Q := fun _ ht => .inr ht

theorem raiseIf_cleanedUp (c : Bool) (k : ErrKind) (info : Word) :
    Op.Meets (fun _ => EndsClean s) (CleanedUp s) (raiseIf c k info) fun _ => CleanedUp s :=
  .ite (fun _ => raise_cleanedUp k info) fun _ => .pure fun _ => id

/-- The common Intel end cleans up before it judges the status. -/
theorem intelFinish_cleansUp (sa : Word) (fk : ErrKind) :
    Op.Meets (fun _ => EndsClean s) (Onward s) (intelFinish sa fk) fun _ => CleanedUp s :=
  .bind (setPhase_onward _) fun _ => .look fun _ _ => .bind (intelSpin_onward sa _) fun r =>
    .bind (intelCleanup_cleansUp sa) fun _ => by
      cases r with
      | none => exact raise_cleanedUp _ _
      | some st => exact raiseIf_cleanedUp _ _ _

/-- The availability poll cleans up before it raises the time-out. -/
theorem intelBufferAvailable_onward (ba : Word) :
    ∀ n, Op.Meets (fun _ => EndsClean s) (Onward s) (intelBufferAvailable ba n) fun _ => Onward s
  | 0 => .bind (setPollCnt_onward 0) fun _ => .bind (intelCleanup_cleansUp ba) fun _ => raise_cleanedUp _ _
  | n + 1 => .bind (setPollCnt_onward _) fun _ => .bind (setPhase_onward _) fun _ => .bind params_onward fun _ =>
      .bind (norCmd_onward _ _) fun _ => .bind (setPhase_onward _) fun _ => .bind (norR_onward ba) fun st =>
      .bind (setLastStat_onward st) fun _ => .ite (fun _ => .pure fun _ => id) fun _ => intelBufferAvailable_onward ba n

/-! ## The three ops, past their checks -/

theorem intelErase_cleansUp (b : BlockInfo) :
    Op.Meets (fun _ => EndsClean s) (Onward s) (intelErase b) fun _ => CleanedUp s :=
  .bind params_onward fun _ => .bind (setPhase_onward _) fun _ => .bind (norCmd_onward _ _) fun _ =>
    .bind (setPhase_onward _) fun _ => .bind (norCmd_onward _ _) fun _ => .bind (intelFinish_cleansUp _ _) fun _ =>
    .bind (setRes0_cleanedUp _) fun _ => setRes1_cleanedUp _

theorem intelWord_cleansUp (addr d : Word) :
    Op.Meets (fun _ => EndsClean s) (Onward s) (intelWord addr d) fun _ => CleanedUp s :=
  .bind params_onward fun _ => .bind (setPhase_onward _) fun _ => .bind (norCmd_onward _ _) fun _ =>
    .bind (setPhase_onward _) fun _ => .bind (norW_onward _ _) fun _ => intelFinish_cleansUp _ _

theorem intelBuffer_cleansUp (ba : Word) :
    Op.Meets (fun _ => EndsClean s) (Onward s) (intelBuffer ba) fun _ => CleanedUp s :=
  .look fun _ _ => .bind params_onward fun _ => .bind (setPhase_onward _) fun _ =>
    .bind (intelBufferAvailable_onward ba _) fun _ => .bind (loadBuffer_onward ba) fun _ =>
    .bind (setPhase_onward _) fun _ => .bind (norCmd_onward _ _) fun _ => .bind (intelFinish_cleansUp _ _) fun _ =>
    setRes0_cleanedUp _

/-! ## The checks: nothing has been sent -/

theorem raiseIf_checks (c : Bool) (k : ErrKind) (info : Word) :
    Op.Meets (fun _ => EndsClean s) (· = s) (raiseIf c k info) fun _ => (· = s) :=
  .ite (fun _ _ ht => .inl (by rw [ht]; rfl)) fun _ => .pure fun _ => id

theorem vendorCheckAny_checks : Op.Meets (fun _ => EndsClean s) (· = s) vendorCheckAny fun _ => (· = s) :=
  .look fun _ _ => raiseIf_checks _ _ _

theorem configCheck_checks : Op.Meets (fun _ => EndsClean s) (· = s) configCheck fun _ => (· = s) :=
  .look fun t _ => by
    cases configReason t.cfg.params t.nor with
    | none => exact .pure fun _ => id
    | some r => exact raiseIf_checks true .badOperand r

theorem alignCheck_checks (a : Word) : Op.Meets (fun _ => EndsClean s) (· = s) (alignCheck a) fun _ => (· = s) :=
  .look fun _ _ => raiseIf_checks _ _ _

theorem lenCheck_checks (len : Word) : Op.Meets (fun _ => EndsClean s) (· = s) (lenCheck len) fun _ => (· = s) :=
  .look fun _ _ => raiseIf_checks _ _ _

theorem rangeCheck_checks (a : Word) (len : Nat) :
    Op.Meets (fun _ => EndsClean s) (· = s) (rangeCheck a len) fun _ => (· = s) :=
  .look fun _ _ => raiseIf_checks _ _ _

theorem discoverBlockInfo_checks (a : Word) :
    Op.Meets (fun _ => EndsClean s) (· = s) (discoverBlockInfo a) fun _ => (· = s) :=
  .look fun t _ => by
    cases blockInfo t.cfg.params t.nor a with
    | none => exact fun _ ht => .inl (by rw [ht]; rfl)
    | some b => exact .pure fun _ => id

/-! ## The three ops -/

variable (hq : s.Quiet) (hv : s.norId.vendor = .intel)
include hq hv

/-- Past its checks, an op goes on as the vendor's part of it does. -/
theorem byVendor_cleansUp {amd intel : Op Unit}
    (h : Op.Meets (fun _ => EndsClean s) (Onward s) intel fun _ => CleanedUp s) :
    Op.Meets (fun _ => EndsClean s) (· = s) (byVendor s amd intel) fun _ => CleanedUp s := by
  rw [byVendor_intel hv]
  exact h.weaken (fun _ ht => by rw [ht]; exact .refl hq) fun _ _ => id

theorem norEraseBlockOp_cleansUp :
    Op.Meets (fun _ => EndsClean s) (· = s) norEraseBlockOp fun _ => CleanedUp s :=
  .bind vendorCheckAny_checks fun _ => .bind configCheck_checks fun _ => .look fun _ ht =>
    .bind (discoverBlockInfo_checks _) fun b => .bind (raiseIf_checks _ _ _) fun _ => by
      rw [ht]
      exact byVendor_cleansUp hq hv (intelErase_cleansUp b)

theorem norWriteWordOp_cleansUp :
    Op.Meets (fun _ => EndsClean s) (· = s) norWriteWordOp fun _ => CleanedUp s :=
  .bind vendorCheckAny_checks fun _ => .bind configCheck_checks fun _ => .look fun _ ht =>
    .bind (alignCheck_checks _) fun _ => .bind (rangeCheck_checks _ _) fun _ => by
      rw [ht]
      exact byVendor_cleansUp hq hv (intelWord_cleansUp _ _)

theorem norWriteBufferOp_cleansUp :
    Op.Meets (fun _ => EndsClean s) (· = s) norWriteBufferOp fun _ => CleanedUp s :=
  .bind vendorCheckAny_checks fun _ => .bind configCheck_checks fun _ => .look fun _ ht =>
    .bind (alignCheck_checks _) fun _ => .bind (lenCheck_checks _) fun _ => .bind (rangeCheck_checks _ _) fun _ =>
    .bind (discoverBlockInfo_checks _) fun b => .bind (raiseIf_checks _ _ _) fun _ => by
      rw [ht]
      exact byVendor_cleansUp hq hv (intelBuffer_cleansUp b.base)

end

/-- Settles O46: the checks send nothing, and past them every piece cleans up before it ends the op. -/
theorem intelCleanupOnEveryPath : Obligations.IntelCleanupOnEveryPath := by
  intro s t i hq hv hi h
  have hop : Op.Meets (fun _ => EndsClean s) (· = s) (pseudocode i) fun _ => CleanedUp s := by
    rcases hi with rfl | rfl | rfl
    · exact norEraseBlockOp_cleansUp hq hv
    · exact norWriteWordOp_cleansUp hq hv
    · exact norWriteBufferOp_cleansUp hq hv
  rw [exec_eq_continueOp hq rfl] at h
  rcases continueOp_cases h with ⟨u, hok, rfl⟩ | ⟨e, herr⟩
  · have hend : CleanedUp s u := hop.ok rfl hok
    exact .inr hend
  · exact hop.error rfl herr

end Sys2Proof.Machine
end

section
/-! PROOFS. Every op ends (`60_exceptions.md` R264, R265, R270): how it stops decides what STAT says, and only an AMD
poll stops an op that goes on (`44_nor_ops.md` R229). -/

namespace Sys2Proof.Machine

/-! ## Without an AMD chip no op is left polling -/

/-- The op does not stop because its poll goes on. -/
def NeverPolls (e : Ended) (_ : State) : Prop := e ≠ .polling

/-- The vendor selected is not AMD. -/
def State.NotAmd (s : State) : Prop := s.norId.vendor ≠ .amd

/-- Pseudocode without a poll is not left running. -/
theorem Op.Within.neverPolls {F : List Part} {α : Type} {m : Op α} (h : Op.Within F m) (hp : .polling ∉ F)
    {P : State → Prop} : Op.Meets NeverPolls P m fun _ _ => True := by
  refine .of_cases (fun _ _ _ _ _ => trivial) fun s k t _ e hk => ?_
  have he := h.effect s
  rw [e, hk] at he
  exact hp he.1

section
variable {α : Type} {m : Op α}

/-- Pseudocode that writes no part keeps the vendor as well. -/
theorem Op.Within.notAmd (h : Op.Within [] m) : Op.Meets NeverPolls State.NotAmd m fun _ => State.NotAmd := by
  refine .of_cases (fun s a t hs e => ?_) fun s k t hs e => (h.neverPolls (by simp)).error hs e
  have he := h.effect s
  rw [e] at he
  have hsame : t.norId = s.norId := he.parts .vendor (by simp)
  rw [State.NotAmd, hsame]
  exact hs

theorem bind_neverPolls {f : α → Op Unit} (hm : Op.Within [] m)
    (hf : ∀ a, Op.Meets NeverPolls State.NotAmd (f a) fun _ _ => True) :
    Op.Meets NeverPolls State.NotAmd (m >>= f) fun _ _ => True :=
  .bind hm.notAmd hf

end

/-- What the vendor decides does not poll, if the Intel part does not. -/
theorem byVendor_neverPolls {s : State} (hs : s.NotAmd) {amd intel : Op Unit}
    (hintel : Op.Within [.phase, .norAnswers, .lastStat] intel) {P : State → Prop} :
    Op.Meets NeverPolls P (byVendor s amd intel) fun _ _ => True := by
  cases hv : s.norId.vendor with
  | amd => exact absurd hv hs
  | intel => rw [byVendor_intel hv]; exact hintel.neverPolls (by decide)
  | unsupported =>
    rw [byVendor, hv]
    exact (Op.Within.raise (F := []) _ (by decide)).neverPolls (by simp)

theorem norEraseBlockOp_neverPolls : Op.Meets NeverPolls State.NotAmd norEraseBlockOp fun _ _ => True :=
  bind_neverPolls vendorCheckAny_within fun _ => bind_neverPolls configCheck_within fun _ => .look fun _ hs =>
    bind_neverPolls (discoverBlockInfo_within _) fun b => bind_neverPolls (.raiseIf _ _ (by decide)) fun _ =>
    byVendor_neverPolls hs (intelErase_within b (by decide) (by decide) (by decide))

theorem norWriteWordOp_neverPolls : Op.Meets NeverPolls State.NotAmd norWriteWordOp fun _ _ => True :=
  bind_neverPolls vendorCheckAny_within fun _ => bind_neverPolls configCheck_within fun _ => .look fun _ hs =>
    bind_neverPolls (alignCheck_within _) fun _ => bind_neverPolls (rangeCheck_within _ _) fun _ =>
    byVendor_neverPolls hs (intelWord_within _ _ (by decide) (by decide) (by decide))

theorem norWriteBufferOp_neverPolls : Op.Meets NeverPolls State.NotAmd norWriteBufferOp fun _ _ => True :=
  bind_neverPolls vendorCheckAny_within fun _ => bind_neverPolls configCheck_within fun _ => .look fun _ hs =>
    bind_neverPolls (alignCheck_within _) fun _ => bind_neverPolls (lenCheck_within _) fun _ =>
    bind_neverPolls (rangeCheck_within _ _) fun _ => bind_neverPolls (discoverBlockInfo_within _) fun b =>
    bind_neverPolls (.raiseIf _ _ (by decide)) fun _ =>
    byVendor_neverPolls hs (intelBuffer_within b.base (by decide) (by decide) (by decide))

theorem pseudocode_neverPolls (i : Instr) : Op.Meets NeverPolls State.NotAmd (pseudocode i) fun _ _ => True := by
  by_cases h : Part.polling ∈ partsOf i
  · rcases polling_op h with rfl | rfl | rfl
    · exact norEraseBlockOp_neverPolls
    · exact norWriteWordOp_neverPolls
    · exact norWriteBufferOp_neverPolls
  · exact (pseudocode_within i).neverPolls h

/-! ## What STAT says where an op stops -/

/-- The op is over, with an error exactly when ERRCODE names one. -/
def Stat.Over (t : Stat) : Prop :=
  t.busy = false ∧ t.done = true ∧ t.phase = .idle ∧ (t.err = true ↔ t.errCode ≠ 0)

theorem Stat.ended_over {t : Stat} (herr : t.err = false) (hcode : t.errCode = 0) : t.ended.Over :=
  ⟨rfl, rfl, rfl, by simp [herr, hcode]⟩

theorem ErrKind.code_ne_zero (k : ErrKind) : k.code ≠ 0 := by
  cases k <;> decide

theorem Stat.raised_over (t : Stat) (k : ErrKind) : (t.raised k).Over :=
  ⟨rfl, rfl, rfl, iff_of_true rfl k.code_ne_zero⟩

/-- An op is left running on an AMD chip only, and in phase POLL. -/
theorem leftRunning_on_amd {i : Instr} {s t : State} (h : (tick >>= fun _ => pseudocode i) s = .error .polling t) :
    s.norId.vendor = .amd ∧ t.InPoll := by
  refine ⟨?_, (bind_polls (P := fun _ => True) .tick fun _ => pseudocode_polls i).error trivial h rfl⟩
  by_contra hs
  exact (bind_neverPolls .tick fun _ => pseudocode_neverPolls i).error hs h rfl

/-- Settles O56: a normal end and an error end the op, RESET is shut out, and a poll that goes on is an AMD poll. -/
theorem everyOpEnds : Obligations.EveryOpEnds := by
  intro i s hs herr hcode
  obtain ⟨t, ht⟩ := exec_next i s
  refine ⟨t, ht, ?_⟩
  have he := (Op.Within.bind .tick fun _ => pseudocode_within i).effect s
  rw [exec_eq_runOp, runOp_eq_continueOp] at ht
  rcases continueOp_cases ht with ⟨u, hok, rfl⟩ | ⟨k, hstop⟩
  · rw [hok] at he
    exact .inl (Stat.ended_over (he.err.trans herr) (he.errCode.trans hcode))
  · rw [hstop] at he
    cases k with
    | raised => obtain ⟨u, k, info, -, -, rfl⟩ := he; exact .inl (u.stat.raised_over k)
    | aborted => exact absurd hs he.1
    | polling =>
      obtain ⟨hpart, hw⟩ := he
      obtain ⟨hamd, hphase⟩ := leftRunning_on_amd hstop
      exact .inr ⟨hamd, polling_op hpart, hw.busy, hw.done, hw.err.trans herr, hphase⟩

end Sys2Proof.Machine
end

section
/-! PROOFS. Reset (`70_reset_and_hazards.md` R290, R291) while no op runs: what it leaves in the registers, the RESET
input between two ops, and that the state right after reset meets the invariant. -/

namespace Sys2Proof.Machine

/-- R291: in the state right after reset every register reads 0. -/
theorem readReg_reset (idx : Nat) : readReg State.reset idx = 0 := by
  unfold readReg
  split <;> rfl

/-- No register shows what RESET leaves alone: the host reads what it reads right after reset. -/
theorem readReg_resetAsserted (s : State) (idx : Nat) : readReg (resetAsserted s) idx = readReg State.reset idx := by
  unfold readReg
  rfl

/-- Settles O11: the registers by the two lemmas above, every other field by the definition of the reset state. -/
theorem resetState : Obligations.ResetState :=
  ⟨readReg_reset, rfl, rfl, rfl, rfl, fun s =>
    ⟨fun idx => (readReg_resetAsserted s idx).trans (readReg_reset idx), rfl, rfl, rfl, rfl, rfl, rfl, rfl, rfl⟩⟩

/-- A host write under RESET changes nothing (R290). -/
theorem hostWrite_under_reset {s : State} (h : s.resetLine = true) (idx : Nat) (v : Word) :
    hostWrite idx v s = .next s := if_pos h

/-- Settles O12: each act is the next one of the script of an idle machine. -/
theorem resetInput : Obligations.ResetInput := by
  refine ⟨fun s rest hb hs => ?_, fun s idx v rest hb hr hs => ?_, fun s rest hb hs => ?_⟩
  · rw [step_idle hb hs]
    rfl
  · rw [step_idle hb hs]
    exact hostWrite_under_reset (s := { s with host := { s.host with script := rest } }) hr idx v
  · rw [step_idle hb hs]
    rfl

/-- Settles O57: the state right after reset is the one RESET leaves of empty memories, with RESET released. -/
theorem invAtReset : Obligations.InvAtReset := by
  have hM : State.reset.MemInv := ⟨rfl, rfl, rfl, rfl⟩
  have hS : State.reset.ScratchInv := ⟨rfl, rfl⟩
  obtain ⟨⟨-, -, hG, hE, hL⟩, -⟩ := resetAsserted_endInv hM hS
  exact ⟨hM, hS, hG, hE, hL, resetAsserted_statInv State.reset, fun hr => by cases hr⟩

end Sys2Proof.Machine
end

section
/-! PROOFS. When RESET may cut a run (`70_reset_and_hazards.md` R290): a piece of pseudocode is paced (`Op.Paced`) if
it passes one boundary before each event and none elsewhere, so that boundaries at which nothing happens leave its
quiet run as it is and RESET at one of them leaves exactly the events before it; what is put together from paced
pieces is paced. -/

namespace Sys2Proof.Machine

/-! ## Runs with something at their boundaries -/

/-- `s` with `l` as what the host does at the coming boundaries. -/
def State.withBusy (s : State) (l : List (List BusyAct)) : State := { s with host := { s.host with busy := l } }

theorem State.resetAt_eq_withBusy (s : State) (k : Nat) (later : List BusyAct) (rest : List (List BusyAct)) :
    s.resetAt k later rest = s.withBusy (List.replicate k [] ++ (.assertReset :: later) :: rest) := rfl

/-- A boundary at which nothing happens. -/
theorem tick_idle (s : State) (l : List (List BusyAct)) : tick (s.withBusy ([] :: l)) = .ok () (s.withBusy l) := rfl

/-- The first boundary, if RESET is asserted there. -/
theorem tick_reset {s : State} {later : List BusyAct} {rest : List (List BusyAct)}
    (h : s.host.busy = (.assertReset :: later) :: rest) :
    tick s = .error .aborted (resetAsserted
      { s with host := { s.host with busy := rest, script := later.map BusyAct.toHost ++ s.host.script } }) := by
  rw [tick, h]
  rfl

/-- From `s` to `u` a run sends `n` events, and leaves the configuration and the host's side alone. -/
structure Sends (n : Nat) (s u : State) : Prop where
  cfg : u.cfg = s.cfg
  host : u.host = s.host
  events : s.events <:+ u.events
  count : u.events.length = s.events.length + n

theorem Sends.refl (s : State) : Sends 0 s s := ⟨rfl, rfl, List.suffix_rfl, rfl⟩

theorem Sends.trans {n k : Nat} {s u v : State} (h : Sends n s u) (h' : Sends k u v) : Sends (n + k) s v :=
  ⟨h'.cfg.trans h.cfg, h'.host.trans h.host, h.events.trans h'.events, by rw [h'.count, h.count, Nat.add_assoc]⟩

theorem Sends.quiet {n : Nat} {s u : State} (h : Sends n s u) (hs : s.Quiet) : u.Quiet := by
  rwa [State.Quiet, h.host]

section
variable {s u v t : State} {n k : Nat} {later : List BusyAct} {rest : List (List BusyAct)}

/-- RESET at the first boundary of a run cuts it before its first event. -/
theorem tick_cutByReset (later : List BusyAct) (rest : List (List BusyAct)) (h : s.events <:+ u.events) :
    ∃ t, tick (s.resetAt 0 later rest) = .error .aborted t ∧ s.CutByReset u t 0 later rest :=
  ⟨_, tick_reset rfl, rfl, rfl, rfl, h, rfl, rfl⟩

/-- Where a run is cut does not depend on how it would have gone on. -/
theorem State.CutByReset.extend (h : s.CutByReset u t k later rest) (hv : u.events <:+ v.events) :
    s.CutByReset v t k later rest := by
  obtain ⟨hline, hreset, hcfg, hev, hlen, hhost⟩ := h
  exact ⟨hline, hreset, hcfg, hev.trans hv, hlen, hhost⟩

/-- The run of a second piece cut is the whole run cut. -/
theorem State.CutByReset.after (h : u.CutByReset v t k later rest) (hn : Sends n s u) :
    s.CutByReset v t (n + k) later rest := by
  obtain ⟨hline, hreset, hcfg, hev, hlen, hhost⟩ := h
  exact ⟨hline, hreset, hcfg.trans hn.cfg, hev, by rw [hlen, hn.count, Nat.add_assoc], by rw [hhost, hn.host]⟩

end

/-! ## Pieces without a boundary -/

section
variable {α β : Type}

/-- `m` goes on, at no boundary, with `n` more events; it does not look at what the host is going to do. -/
def Op.Goes (n : Nat) (m : Op α) : Prop :=
  ∀ s : State, ∃ a, ∃ t : State, Sends n s t ∧ ∀ l, m (s.withBusy l) = .ok a (t.withBusy l)

theorem Op.Goes.bind {n k : Nat} {m : Op α} {f : α → Op β} (hm : Op.Goes n m) (hf : ∀ a, Op.Goes k (f a)) :
    Op.Goes (n + k) (m >>= f) := by
  intro s
  obtain ⟨a, t, hn, hrun⟩ := hm s
  obtain ⟨b, u, hk, hrun'⟩ := hf a t
  exact ⟨b, u, hn.trans hk, fun l => (Op.bind_ok (hrun l)).trans (hrun' l)⟩

/-- `f` changes nothing of the configuration, the host's side and the trace, and does not look at what the host is
going to do. -/
def Silent (f : State → State) : Prop := ∀ (s : State) (l : List (List BusyAct)),
  f (s.withBusy l) = { f s with cfg := s.cfg, host := { s.host with busy := l }, events := s.events }

theorem Silent.keeps {f : State → State} (h : Silent f) (s : State) :
    f s = { f s with cfg := s.cfg, host := s.host, events := s.events } := h s s.host.busy

theorem Silent.sends {f : State → State} (h : Silent f) (s : State) : Sends 0 s (f s) := by
  rw [h.keeps s]
  exact ⟨rfl, rfl, List.suffix_rfl, rfl⟩

theorem Silent.run {f : State → State} (h : Silent f) (s : State) (l : List (List BusyAct)) :
    f (s.withBusy l) = (f s).withBusy l := by
  rw [h s l, h.keeps s]
  rfl

/-- An answer and a change of the state, neither of which depends on what the host is going to do. -/
theorem Op.Goes.step {g : State → α} {f : State → State} (hg : ∀ s l, g (s.withBusy l) = g s) (hf : Silent f) :
    Op.Goes 0 fun s => .ok (g s) (f s) :=
  fun s => ⟨g s, f s, hf.sends s, fun l => congrArg₂ EStateM.Result.ok (hg s l) (hf.run s l)⟩

theorem Op.Goes.pure (a : α) : Op.Goes 0 (Pure.pure a : Op α) := fun s => ⟨a, s, .refl s, fun _ => rfl⟩

theorem record_goes (e : Event) : Op.Goes 1 (record e) :=
  fun s => ⟨(), { s with events := e :: s.events }, ⟨rfl, rfl, List.suffix_cons e s.events, rfl⟩, fun _ => rfl⟩

/-- What a piece without a boundary does in the environment the state itself describes. -/
theorem Op.Goes.run {n : Nat} {m : Op α} (h : Op.Goes n m) (s : State) :
    ∃ a, ∃ t : State, m s = .ok a t ∧ Sends n s t ∧ ∀ l, m (s.withBusy l) = .ok a (t.withBusy l) := by
  obtain ⟨a, t, hn, hrun⟩ := h s
  have hself : m (s.withBusy s.host.busy) = .ok a (t.withBusy t.host.busy) := by rw [hrun, hn.host]
  exact ⟨a, t, hself, hn, hrun⟩

/-! ## Pieces with a boundary before each event -/

/-- The state in which a piece of pseudocode goes on or stops. -/
def Op.last : EStateM.Result Ended State α → State
  | .ok _ t => t
  | .error _ t => t

/-- The same outcome, with `l` as what the host does at the coming boundaries. -/
def Op.withBusy (l : List (List BusyAct)) : EStateM.Result Ended State α → EStateM.Result Ended State α
  | .ok a t => .ok a (t.withBusy l)
  | .error e t => .error e (t.withBusy l)

/-- The run of `m` from `s` with outcome `r` sends `n` events, with a boundary before each of them and no other: RESET
at boundary `k` cuts it there, and boundaries at which nothing happens leave it as it is. -/
structure Op.RunPaced (m : Op α) (s : State) (r : EStateM.Result Ended State α) (n : Nat) : Prop where
  sends : Sends n s (Op.last r)
  cut : ∀ k < n, ∀ later rest,
    ∃ t, m (s.resetAt k later rest) = .error .aborted t ∧ s.CutByReset (Op.last r) t k later rest
  idle : ∀ l, m (s.withBusy (List.replicate n [] ++ l)) = Op.withBusy l r

/-- In a quiet environment every run of `m` has a boundary before each event and none elsewhere. -/
def Op.Paced (m : Op α) : Prop := ∀ s : State, s.Quiet → ∃ n, Op.RunPaced m s (m s) n

/-- A run without events has nothing to cut. -/
theorem Op.RunPaced.silent {m : Op α} {s : State} {r : EStateM.Result Ended State α} (h : Sends 0 s (Op.last r))
    (hidle : ∀ l, m (s.withBusy l) = Op.withBusy l r) : Op.RunPaced m s r 0 :=
  ⟨h, fun k hk => absurd hk k.not_lt_zero, hidle⟩

theorem Op.Paced.of_goes {m : Op α} (h : Op.Goes 0 m) : Op.Paced m := by
  intro s _
  obtain ⟨a, t, hm, hsends, hrun⟩ := h.run s
  rw [hm]
  exact ⟨0, .silent hsends hrun⟩

/-- An event: its boundary, and then a piece that sends it. -/
theorem Op.Paced.event {m : Op α} (h : Op.Goes 1 m) : Op.Paced (tick >>= fun _ => m) := by
  intro s hs
  obtain ⟨a, t, hm, hsends, hrun⟩ := h.run s
  rw [Op.bind_ok (tick_quiet hs), hm]
  refine ⟨1, hsends, fun k hk later rest => ?_, fun l => (Op.bind_ok (tick_idle s l)).trans (hrun l)⟩
  obtain rfl : k = 0 := by omega
  obtain ⟨v, hv, hcut⟩ := tick_cutByReset later rest hsends.events
  exact ⟨v, Op.bind_error hv, hcut⟩

theorem Op.Paced.pure (a : α) : Op.Paced (Pure.pure a : Op α) :=
  fun s _ => ⟨0, .silent (.refl s) fun _ => rfl⟩

theorem Op.Paced.change {f : State → State} (h : Silent f) : Op.Paced (update f) :=
  .of_goes (.step (g := fun _ => ()) (fun _ _ => rfl) h)

theorem Op.Paced.params : Op.Paced params :=
  .of_goes (.step (g := fun s => s.cfg.params) (f := id) (fun _ _ => rfl) fun _ _ => rfl)

theorem Op.Paced.raise (k : ErrKind) (info : Word) : Op.Paced (Machine.raise k info : Op α) :=
  fun _ _ => ⟨0, .silent ⟨rfl, rfl, List.suffix_rfl, rfl⟩ fun _ => rfl⟩

theorem Op.Paced.keepPolling : Op.Paced keepPolling := fun s _ => ⟨0, .silent (.refl s) fun _ => rfl⟩

/-- A piece that looks at the state, but not at what the host is going to do. -/
theorem Op.Paced.look {f : State → Op α} (hhost : ∀ s l, f (s.withBusy l) = f s) (hf : ∀ s, Op.Paced (f s)) :
    Op.Paced (get >>= f) := by
  intro s hs
  obtain ⟨n, hsends, hcut, hidle⟩ := hf s s hs
  refine ⟨n, hsends, fun k hk later rest => ?_, fun l => ?_⟩
  · rw [Op.bind_ok (Op.run_get _), s.resetAt_eq_withBusy, hhost]
    exact hcut k hk later rest
  · rw [Op.bind_ok (Op.run_get _), hhost]
    exact hidle l

/-- One piece after the other: RESET falls into the first, or the first goes on and RESET falls into the second. -/
theorem Op.RunPaced.bind {m : Op α} {f : α → Op β} {s u : State} {a : α} {r : EStateM.Result Ended State β}
    {n k : Nat} (h1 : Op.RunPaced m s (.ok a u) n) (h2 : Op.RunPaced (f a) u r k) :
    Op.RunPaced (m >>= f) s r (n + k) := by
  have hgo (l : List (List BusyAct)) : (m >>= f) (s.withBusy (List.replicate n [] ++ l)) = f a (u.withBusy l) :=
    Op.bind_ok (h1.idle l)
  refine ⟨h1.sends.trans h2.sends, fun j hj later rest => ?_, fun l => ?_⟩
  · by_cases hjn : j < n
    · obtain ⟨t, ht, hc⟩ := h1.cut j hjn later rest
      exact ⟨t, Op.bind_error ht, hc.extend h2.sends.events⟩
    · obtain ⟨i, rfl⟩ := Nat.exists_eq_add_of_le (Nat.le_of_not_lt hjn)
      obtain ⟨t, ht, hc⟩ := h2.cut i (by omega) later rest
      refine ⟨t, ?_, hc.after h1.sends⟩
      rw [s.resetAt_eq_withBusy, List.replicate_add, List.append_assoc, hgo]
      exact ht
  · rw [List.replicate_add, List.append_assoc, hgo, h2.idle]

theorem Op.Paced.bind {m : Op α} {f : α → Op β} (hm : Op.Paced m) (hf : ∀ a, Op.Paced (f a)) :
    Op.Paced (m >>= f) := by
  intro s hs
  obtain ⟨n, h1⟩ := hm s hs
  rw [Op.run_bind]
  cases e : m s with
  | ok a u =>
    rw [e] at h1
    obtain ⟨k, h2⟩ := hf a u (h1.sends.quiet hs)
    exact ⟨n + k, h1.bind h2⟩
  | error k u =>
    rw [e] at h1
    refine ⟨n, h1.sends, fun j hj later rest => ?_, fun l => Op.bind_error (h1.idle l)⟩
    obtain ⟨t, ht, hc⟩ := h1.cut j hj later rest
    exact ⟨t, Op.bind_error ht, hc⟩

theorem Op.Paced.ite {c : Prop} [Decidable c] {m n : Op α} (hm : Op.Paced m) (hn : Op.Paced n) :
    Op.Paced (if c then m else n) := by
  split
  · exact hm
  · exact hn

end

end Sys2Proof.Machine
end

section
/-! PROOFS. Every op, and every poll that goes on, is paced: a boundary stands before each of its events and nowhere
else. -/

namespace Sys2Proof.Machine

/-! ## The named changes of the state -/

theorem setPhase_paced (p : Phase) : Op.Paced (setPhase p) := .change fun _ _ => rfl

theorem setCorr_paced : Op.Paced setCorr := .change fun _ _ => rfl

theorem setLastStat_paced (v : Word) : Op.Paced (setLastStat v) := .change fun _ _ => rfl

theorem setRes0_paced (v : Word) : Op.Paced (setRes0 v) := .change fun _ _ => rfl

theorem setRes1_paced (v : Word) : Op.Paced (setRes1 v) := .change fun _ _ => rfl

theorem setRes2_paced (v : Word) : Op.Paced (setRes2 v) := .change fun _ _ => rfl

theorem setOpIdx_paced (i : Nat) : Op.Paced (setOpIdx i) := .change fun _ _ => rfl

theorem setBlkIdx_paced (b : Word) : Op.Paced (setBlkIdx b) := .change fun _ _ => rfl

theorem setPollCnt_paced (n : Nat) : Op.Paced (setPollCnt n) := .change fun _ _ => rfl

theorem setXferCnt_paced (n : Nat) : Op.Paced (setXferCnt n) := .change fun _ _ => rfl

theorem setEcc_paced (i : Nat) (v : Word) : Op.Paced (setEcc i v) := .change fun _ _ => rfl

theorem setSecc_paced (i : Nat) (v : Word) : Op.Paced (setSecc i v) := .change fun _ _ => rfl

theorem setCorrSlot_paced (i : Nat) (v : Word) : Op.Paced (setCorrSlot i v) := .change fun _ _ => rfl

theorem clearSlots_paced : Op.Paced clearSlots := .change fun _ _ => rfl

theorem setSpare_paced (k : Nat) (b : Byte) : Op.Paced (setSpare k b) := .change fun _ _ => rfl

theorem selectVendor_paced : Op.Paced selectVendor := .change fun _ _ => rfl

theorem setNorIds_paced (m d1 d2 : Word) : Op.Paced (setNorIds m d1 d2) := .change fun _ _ => rfl

theorem setIds_paced (m d : Byte) : Op.Paced (setIds m d) := .change fun _ _ => rfl

theorem clearGeometry_paced : Op.Paced clearGeometry := .change fun _ _ => rfl

theorem setGeometry_paced (row : Config.NandRow) (m d : Byte) : Op.Paced (setGeometry row m d) :=
  .change fun _ _ => rfl

theorem absorbCycle_paced (v : Half) : Op.Paced (absorbCycle v) := .change fun _ _ => rfl

theorem eccReadRestart_paced : Op.Paced eccReadRestart := .of_goes (.step (fun _ _ => rfl) fun _ _ => rfl)

/-! ## Checks and loops -/

theorem Op.Paced.raiseIf (c : Bool) (k : ErrKind) (info : Word) : Op.Paced (Machine.raiseIf c k info) :=
  .ite (.raise k info) (.pure ())

theorem Op.Paced.forUp {f : Nat → Op Unit} (hf : ∀ i, Op.Paced (f i)) : ∀ n i, Op.Paced (Machine.forUp f i n)
  | 0, _ => .pure ()
  | n + 1, i => .bind (hf i) fun _ => Op.Paced.forUp hf n (i + 1)

theorem Op.Paced.transfer {u : Nat} {f : Nat → Op Unit} (hf : ∀ i, Op.Paced (f i)) :
    ∀ n i, Op.Paced (Machine.transfer u f i n)
  | 0, _ => setXferCnt_paced _
  | n + 1, i => .bind (setXferCnt_paced _) fun _ => .bind (hf i) fun _ => Op.Paced.transfer hf n (i + 1)

/-! ## Events -/

theorem emit_paced (e : Event) : Op.Paced (emit e) := .event (record_goes e)

theorem cle_paced (v : Byte) : Op.Paced (cle v) := emit_paced _

theorem ale_paced (v : Byte) : Op.Paced (ale v) := emit_paced _

theorem datW_paced (v : Half) : Op.Paced (datW v) :=
  .bind .params fun _ => .bind (emit_paced _) fun _ => absorbCycle_paced _

/-- An event that carries an answer: the boundary, the answer, the event, and what follows it at no boundary. -/
theorem Op.Paced.answer {α β : Type} {ask : Op α} {e : α → Event} {f : α → Op β} (hask : Op.Goes 0 ask)
    (hf : ∀ a, Op.Goes 0 (f a)) : Op.Paced (tick >>= fun _ => ask >>= fun a => record (e a) >>= fun _ => f a) :=
  .event (.bind (n := 0) (k := 1) hask fun a => .bind (n := 1) (k := 0) (record_goes _) fun _ => hf a)

theorem askDr_goes : Op.Goes 0 askDr := .step (fun _ _ => rfl) fun _ _ => rfl

theorem askRdy_goes : Op.Goes 0 askRdy := .step (fun _ _ => rfl) fun _ _ => rfl

theorem askNr_goes : Op.Goes 0 askNr := .step (fun _ _ => rfl) fun _ _ => rfl

theorem datR_paced : Op.Paced datR :=
  .bind .params fun _ => .answer askDr_goes fun _ => .step (fun _ _ => rfl) fun _ _ => rfl

theorem readByte_paced : Op.Paced readByte := .bind datR_paced fun _ => .pure _

theorem rdy_paced : Op.Paced rdy := .answer askRdy_goes fun _ => .pure _

theorem norR_paced (a : Word) : Op.Paced (norR a) :=
  .look (fun _ _ => rfl) fun _ => .answer askNr_goes fun _ => .pure _

theorem norW_paced (a v : Word) : Op.Paced (norW a v) := .look (fun _ _ => rfl) fun _ => emit_paced _

theorem norCmd_paced (a : Word) (c : Byte) : Op.Paced (norCmd a c) := .look (fun _ _ => rfl) fun _ => norW_paced _ _

theorem memRead_paced (t : Space) (a : Word) (n : Nat) : Op.Paced (memRead t a n) := by
  cases t with
  | host =>
    exact .answer (ask := fun s => .ok (s.mem.readLE a n) s) (e := .mr a n) (f := pure)
      (.step (f := id) (fun _ _ => rfl) fun _ _ => rfl) .pure
  | page => exact .look (fun _ _ => rfl) fun _ => .pure _

theorem memWrite_paced (t : Space) (a : Word) (n : Nat) (v : Word) : Op.Paced (memWrite t a n v) := by
  cases t with
  | host => exact .bind (emit_paced _) fun _ => .change fun _ _ => rfl
  | page => exact .change fun _ _ => rfl

/-! ## Byte streams -/

theorem writeBytes_paced (src : Word) (n : Nat) : Op.Paced (writeBytes src n) :=
  .bind .params fun _ => .ite
    (.transfer (fun _ => .bind (memRead_paced _ _ _) fun _ => datW_paced _) _ _)
    (.transfer (fun _ => .bind (memRead_paced _ _ _) fun _ => datW_paced _) _ _)

theorem readBytes_paced (t : Space) (dst : Word) (n : Nat) : Op.Paced (readBytes t dst n) :=
  .bind .params fun _ => .ite
    (.transfer (fun _ => .bind datR_paced fun _ => memWrite_paced _ _ _ _) _ _)
    (.transfer (fun _ => .bind datR_paced fun _ => memWrite_paced _ _ _ _) _ _)

theorem writeStream_paced (b : List Byte) : Op.Paced (writeStream b) :=
  .bind .params fun _ => .ite (.transfer (fun _ => datW_paced _) _ _) (.transfer (fun _ => datW_paced _) _ _)

theorem readStream_paced (n : Nat) : Op.Paced (readStream n) :=
  .bind .params fun _ => .ite
    (.transfer (fun _ => .bind datR_paced fun _ => .bind (setSpare_paced _ _) fun _ => setSpare_paced _ _) _ _)
    (.transfer (fun _ => .bind datR_paced fun _ => setSpare_paced _ _) _ _)

theorem correct_paced (t : Space) (stored computed base : Word) : Op.Paced (correct t stored computed base) := by
  refine .look (fun _ _ => rfl) fun s => ?_
  cases eccVerdict s.eccu.mask stored computed with
  | equal => exact .pure _
  | single d => exact .bind (memRead_paced _ _ _) fun _ => .bind (memWrite_paced _ _ _ _) fun _ => .pure _
  | uncorrectable => exact .pure _

/-! ## The NAND waits and the address cycles -/

theorem waitRdyLoop_paced : ∀ n, Op.Paced (waitRdyLoop n)
  | 0 => .bind (setPollCnt_paced _) fun _ => .raise _ _
  | n + 1 => .bind (setPollCnt_paced _) fun _ => .bind rdy_paced fun _ => .ite (.pure _) (waitRdyLoop_paced n)

theorem waitRdy_paced : Op.Paced waitRdy := .look (fun _ _ => rfl) fun _ => waitRdyLoop_paced _

theorem waitStatusLoop_paced (k : ErrKind) : ∀ n, Op.Paced (waitStatusLoop k n)
  | 0 => .bind (setPollCnt_paced _) fun _ => .raise _ _
  | n + 1 => .bind (setPollCnt_paced _) fun _ => .bind .params fun _ => .bind (cle_paced _) fun _ =>
      .bind readByte_paced fun _ => .bind (setLastStat_paced _) fun _ =>
      .ite (.raiseIf _ _ _) (waitStatusLoop_paced k n)

theorem waitStatus_paced (k : ErrKind) : Op.Paced (waitStatus k) :=
  .look (fun _ _ => rfl) fun _ => waitStatusLoop_paced k _

theorem needGeometry_paced : Op.Paced needGeometry := .look (fun _ _ => rfl) fun _ => .raiseIf _ _ _

theorem rowCycles_paced (block page : Word) : Op.Paced (rowCycles block page) :=
  .look (fun _ _ => rfl) fun _ => .forUp (fun _ => ale_paced _) _ _

theorem addrCycles_paced (block page : Word) : Op.Paced (addrCycles block page) :=
  .look (fun _ _ => rfl) fun _ => .bind (.forUp (fun _ => ale_paced _) _ _) fun _ => rowCycles_paced _ _

/-! ## The page ops -/

theorem pageChecks_paced : Op.Paced pageChecks :=
  .bind needGeometry_paced fun _ => .look (fun _ _ => rfl) fun _ =>
    .ite (.bind (setRes1_paced _) fun _ => .raise _ _) clearSlots_paced

theorem countCorrected_paced : Op.Paced countCorrected := .look (fun _ _ => rfl) fun _ => setRes0_paced _

section
variable (t : Space)

theorem readSubPage_paced (base : Word) (bpo : BitVec 10) (i : Nat) : Op.Paced (readSubPage t base bpo i) :=
  .bind (setOpIdx_paced _) fun _ => .bind (readBytes_paced _ _ _) fun _ => .bind eccReadRestart_paced fun _ =>
    setEcc_paced _ _

theorem readSpare_paced (spo : BitVec 5) (i : Nat) : Op.Paced (readSpare spo i) :=
  .bind (setOpIdx_paced _) fun _ => .bind (readStream_paced _) fun _ => .look (fun _ _ => rfl) fun _ =>
    setSecc_paced _ _

theorem correctSubPage_paced (base : Word) (i : Nat) : Op.Paced (correctSubPage t base i) :=
  .bind (setOpIdx_paced _) fun _ => .look (fun _ _ => rfl) fun _ => .bind (correct_paced _ _ _ _) fun _ =>
    .bind (setCorrSlot_paced _ _) fun _ => .ite setCorr_paced (.raiseIf _ _ _)

theorem readConfirm_paced (big : Bool) : Op.Paced (readConfirm big) :=
  .bind .params fun _ => .ite (.bind (setPhase_paced _) fun _ => cle_paced _) (.pure _)

theorem pageRead_paced (block page base : Word) : Op.Paced (pageRead block page t base) :=
  .look (fun _ _ => rfl) fun _ => .bind .params fun _ => .bind (setPhase_paced _) fun _ =>
    .bind (cle_paced _) fun _ => .bind (setPhase_paced _) fun _ => .bind (addrCycles_paced _ _) fun _ =>
    .bind (readConfirm_paced _) fun _ => .bind (setPhase_paced _) fun _ => .bind waitRdy_paced fun _ =>
    .bind (setPhase_paced _) fun _ => .bind eccReadRestart_paced fun _ =>
    .bind (.forUp (readSubPage_paced t _ _) _ _) fun _ => .bind (setPhase_paced _) fun _ =>
    .bind (.forUp (readSpare_paced _) _ _) fun _ => .bind (setPhase_paced _) fun _ =>
    .forUp (correctSubPage_paced t _) _ _

end

theorem nandReadPageOp_paced : Op.Paced nandReadPageOp :=
  .bind pageChecks_paced fun _ => .look (fun _ _ => rfl) fun _ => .bind (pageRead_paced _ _ _ _) fun _ =>
    countCorrected_paced

theorem verifyByte_paced (base : Word) (j : Nat) : Op.Paced (verifyByte base j) :=
  .bind (memRead_paced _ _ _) fun _ => .bind (memRead_paced _ _ _) fun _ =>
    .ite (.bind (setRes1_paced _) fun _ => .bind (setRes2_paced _) fun _ => .raise _ _) (.pure _)

theorem nandVerifyPageOp_paced : Op.Paced nandVerifyPageOp :=
  .bind pageChecks_paced fun _ => .look (fun _ _ => rfl) fun _ => .bind (pageRead_paced _ _ _ _) fun _ =>
    .bind (setPhase_paced _) fun _ => .bind (.forUp (verifyByte_paced _) _ _) fun _ => countCorrected_paced

theorem writeSubPage_paced (base : Word) (bpo : BitVec 10) (i : Nat) : Op.Paced (writeSubPage base bpo i) :=
  .bind (setOpIdx_paced _) fun _ => .bind (writeBytes_paced _ _) fun _ => .bind eccReadRestart_paced fun _ =>
    setEcc_paced _ _

theorem writeSpare_paced (i : Nat) : Op.Paced (writeSpare i) :=
  .bind (setOpIdx_paced _) fun _ => .look (fun _ _ => rfl) fun _ => writeStream_paced _

theorem nandWritePageOp_paced : Op.Paced nandWritePageOp :=
  .bind pageChecks_paced fun _ => .look (fun _ _ => rfl) fun _ => .bind .params fun _ =>
    .bind (setPhase_paced _) fun _ => .bind (cle_paced _) fun _ => .bind (setPhase_paced _) fun _ =>
    .bind (addrCycles_paced _ _) fun _ => .bind (setPhase_paced _) fun _ => .bind eccReadRestart_paced fun _ =>
    .bind (.forUp (writeSubPage_paced _ _) _ _) fun _ => .bind (setPhase_paced _) fun _ =>
    .bind (.forUp writeSpare_paced _ _) fun _ => .bind (setPhase_paced _) fun _ => .bind (cle_paced _) fun _ =>
    .bind (setPhase_paced _) fun _ => .bind waitRdy_paced fun _ => .bind (setPhase_paced _) fun _ =>
    waitStatus_paced _

/-! ## The block ops -/

theorem blockChecks_paced : Op.Paced blockChecks :=
  .bind needGeometry_paced fun _ => .look (fun _ _ => rfl) fun _ =>
    .ite (.bind (setRes1_paced _) fun _ => .raise _ _) (.pure _)

theorem eraseBlock_paced (b : Word) : Op.Paced (eraseBlock b) :=
  .bind .params fun _ => .bind (setBlkIdx_paced _) fun _ => .bind (setRes1_paced _) fun _ =>
    .bind (setPhase_paced _) fun _ => .bind (cle_paced _) fun _ => .bind (setPhase_paced _) fun _ =>
    .bind (rowCycles_paced _ _) fun _ => .bind (setPhase_paced _) fun _ => .bind (cle_paced _) fun _ =>
    .bind (setPhase_paced _) fun _ => .bind waitRdy_paced fun _ => .bind (setPhase_paced _) fun _ =>
    waitStatus_paced _

theorem nandEraseBlocksOp_paced : Op.Paced nandEraseBlocksOp :=
  .bind blockChecks_paced fun _ => .look (fun _ _ => rfl) fun _ => 
    .bind (.forUp (fun _ => eraseBlock_paced _) _ _) fun _ => .bind (setRes0_paced _) fun _ => setRes1_paced _

theorem nandUnprotectOp_paced : Op.Paced nandUnprotectOp :=
  .bind blockChecks_paced fun _ => .look (fun _ _ => rfl) fun _ => .bind .params fun _ =>
    .ite (.pure _)
      (.bind (setPhase_paced _) fun _ => .bind (cle_paced _) fun _ => .bind (setPhase_paced _) fun _ =>
        .bind (rowCycles_paced _ _) fun _ => .bind (setPhase_paced _) fun _ => .bind (cle_paced _) fun _ =>
        .bind (setPhase_paced _) fun _ => rowCycles_paced _ _)

theorem nandProtectOp_paced : Op.Paced nandProtectOp :=
  .bind needGeometry_paced fun _ => .bind .params fun _ => .bind (setPhase_paced _) fun _ => cle_paced _

/-! ## The other ops of the NAND side -/

theorem nandInitOp_paced : Op.Paced nandInitOp :=
  .bind (setPhase_paced _) fun _ => .bind clearGeometry_paced fun _ => .bind .params fun _ =>
    .bind (setPhase_paced _) fun _ => .bind (cle_paced _) fun _ => .bind (setPhase_paced _) fun _ =>
    .bind waitRdy_paced fun _ => .bind (setPhase_paced _) fun _ => .bind (cle_paced _) fun _ =>
    .bind (setPhase_paced _) fun _ => .bind (ale_paced _) fun _ => .bind (setPhase_paced _) fun _ =>
    .bind readByte_paced fun _ => .bind readByte_paced fun _ => .bind (setIds_paced _ _) fun _ =>
    .bind (setRes0_paced _) fun _ => .bind (setRes1_paced _) fun _ => .bind (setPhase_paced _) fun _ => by
      split
      · exact .raise _ _
      · exact setGeometry_paced _ _ _

theorem nandWaitRdyOp_paced : Op.Paced nandWaitRdyOp := .bind (setPhase_paced _) fun _ => waitRdy_paced

theorem nandWaitStatusOp_paced : Op.Paced nandWaitStatusOp :=
  .bind (setPhase_paced _) fun _ => .look (fun _ _ => rfl) fun _ => waitStatus_paced _

theorem eccRestartOp_paced : Op.Paced eccRestartOp :=
  .bind needGeometry_paced fun _ => .bind (setPhase_paced _) fun _ => .bind eccReadRestart_paced fun _ =>
    setRes0_paced _

theorem eccCorrectOp_paced : Op.Paced eccCorrectOp :=
  .bind needGeometry_paced fun _ => .bind (setPhase_paced _) fun _ => .look (fun _ _ => rfl) fun _ =>
    .bind (setSecc_paced _ _) fun _ => .bind (setEcc_paced _ _) fun _ => .bind (correct_paced _ _ _ _) fun _ =>
    .bind (setCorrSlot_paced _ _) fun _ => .bind (setRes0_paced _) fun _ => .bind (setRes1_paced _) fun _ =>
    .ite setCorr_paced (.raiseIf _ _ _)

theorem busCleOp_paced : Op.Paced busCleOp :=
  .bind (setPhase_paced _) fun _ => .look (fun _ _ => rfl) fun _ => cle_paced _

theorem busAleOp_paced : Op.Paced busAleOp :=
  .bind (setPhase_paced _) fun _ => .look (fun _ _ => rfl) fun _ => ale_paced _

theorem busWdataOp_paced : Op.Paced busWdataOp :=
  .bind (setPhase_paced _) fun _ => .look (fun _ _ => rfl) fun _ => datW_paced _

theorem busRdataOp_paced : Op.Paced busRdataOp :=
  .bind (setPhase_paced _) fun _ => .bind datR_paced fun _ => setRes0_paced _

/-! ## The NOR ops -/

theorem vendorCheckAny_paced : Op.Paced vendorCheckAny := .look (fun _ _ => rfl) fun _ => .raiseIf _ _ _

theorem vendorCheckIntel_paced : Op.Paced vendorCheckIntel := .look (fun _ _ => rfl) fun _ => .raiseIf _ _ _

theorem configCheck_paced : Op.Paced configCheck :=
  .look (fun _ _ => rfl) fun s => by
    cases configReason s.cfg.params s.nor with
    | none => exact .pure _
    | some n => exact .raise _ _

theorem alignCheck_paced (a : Word) : Op.Paced (alignCheck a) := .look (fun _ _ => rfl) fun _ => .raiseIf _ _ _

theorem lenCheck_paced (len : Word) : Op.Paced (lenCheck len) := .look (fun _ _ => rfl) fun _ => .raiseIf _ _ _

theorem rangeCheck_paced (a : Word) (len : Nat) : Op.Paced (rangeCheck a len) :=
  .look (fun _ _ => rfl) fun _ => .raiseIf _ _ _

theorem discoverBlockInfo_paced (a : Word) : Op.Paced (discoverBlockInfo a) :=
  .look (fun _ _ => rfl) fun s => by
    cases blockInfo s.cfg.params s.nor a with
    | none => exact .raise _ _
    | some b => exact .pure _

theorem norBlockInfoOp_paced : Op.Paced norBlockInfoOp :=
  .bind configCheck_paced fun _ => .bind (setPhase_paced _) fun _ => .look (fun _ _ => rfl) fun _ =>
    .bind (discoverBlockInfo_paced _) fun _ => .bind (setRes0_paced _) fun _ => .bind (setRes1_paced _) fun _ =>
    setRes2_paced _

theorem cmdAddr_paced (k : Word) : Op.Paced (cmdAddr k) := .look (fun _ _ => rfl) fun _ => .pure _

theorem unlockPrefix_paced : Op.Paced unlockPrefix :=
  .bind .params fun _ => .bind (cmdAddr_paced _) fun _ => .bind (norCmd_paced _ _) fun _ =>
    .bind (cmdAddr_paced _) fun _ => norCmd_paced _ _

theorem prefixedCmd_paced (c : Byte) : Op.Paced (prefixedCmd c) :=
  .bind unlockPrefix_paced fun _ => .bind .params fun _ => .bind (cmdAddr_paced _) fun _ => norCmd_paced _ _

theorem readIdWord_paced (k : Word) : Op.Paced (readIdWord k) :=
  .bind (cmdAddr_paced _) fun _ => .bind (norR_paced _) fun _ => .look (fun _ _ => rfl) fun _ => .pure _

theorem identifyAmd_paced : Op.Paced identifyAmd :=
  .bind .params fun _ => .bind (setPhase_paced _) fun _ => .bind (prefixedCmd_paced _) fun _ =>
    .bind (setPhase_paced _) fun _ => .bind (readIdWord_paced _) fun _ => .bind (readIdWord_paced _) fun _ =>
    .bind (readIdWord_paced _) fun _ => .bind (setPhase_paced _) fun _ => .bind (norCmd_paced _ _) fun _ => .pure _

theorem identifyIntel_paced : Op.Paced identifyIntel :=
  .bind .params fun _ => .bind (setPhase_paced _) fun _ => .bind (norCmd_paced _ _) fun _ =>
    .bind (setPhase_paced _) fun _ => .bind (readIdWord_paced _) fun _ => .bind (readIdWord_paced _) fun _ =>
    .bind (setPhase_paced _) fun _ => .bind (norCmd_paced _ _) fun _ => .pure _

theorem recordIds_paced (ids : Word × Word × Word) : Op.Paced (recordIds ids) :=
  .bind .params fun _ => .bind (setNorIds_paced _ _ _) fun _ => .bind (setRes0_paced _) fun _ =>
    .bind (setRes1_paced _) fun _ => .bind (setRes2_paced _) fun _ => .raiseIf _ _ _

theorem norAttachOp_paced : Op.Paced norAttachOp :=
  .bind configCheck_paced fun _ => .bind (setPhase_paced _) fun _ => .bind selectVendor_paced fun _ =>
    .look (fun _ _ => rfl) fun s => by
      cases s.norId.vendor with
      | unsupported => exact .raise _ _
      | amd => exact .bind identifyAmd_paced fun _ => recordIds_paced _
      | intel => exact .bind identifyIntel_paced fun _ => recordIds_paced _

/-! The Intel end and the AMD polls. -/

theorem intelSpin_paced (sa : Word) : ∀ n, Op.Paced (intelSpin sa n)
  | 0 => .bind (setPollCnt_paced _) fun _ => .pure _
  | n + 1 => .bind (setPollCnt_paced _) fun _ => .bind (norR_paced _) fun _ => .bind (setLastStat_paced _) fun _ =>
      .ite (.pure _) (intelSpin_paced sa n)

theorem intelCleanup_paced (sa : Word) : Op.Paced (intelCleanup sa) :=
  .bind (setPhase_paced _) fun _ => .bind .params fun _ => .bind (norCmd_paced _ _) fun _ => norCmd_paced _ _

theorem intelFinish_paced (sa : Word) (k : ErrKind) : Op.Paced (intelFinish sa k) :=
  .bind (setPhase_paced _) fun _ => .look (fun _ _ => rfl) fun _ => .bind (intelSpin_paced _ _) fun r =>
    .bind (intelCleanup_paced _) fun _ => by
      cases r with
      | none => exact .raise _ _
      | some st => exact .raiseIf _ _ _

theorem amdErasePoll_paced (ba : Word) : ∀ n, Op.Paced (amdErasePoll ba n)
  | 0 => .keepPolling
  | n + 1 => .bind (norR_paced _) fun _ => .bind (setLastStat_paced _) fun _ =>
      .ite (.pure _) (amdErasePoll_paced ba n)

theorem amdReread_paced (addr d : Word) : Op.Paced (amdReread addr d) :=
  .look (fun _ _ => rfl) fun _ => .bind (norR_paced _) fun _ => .bind (setLastStat_paced _) fun _ => .pure _

theorem amdAbort_paced (addr ba : Word) : Op.Paced (amdAbort addr ba) :=
  .bind (setPhase_paced _) fun _ => .bind .params fun _ => .bind (norCmd_paced _ _) fun _ =>
    .bind (norCmd_paced _ _) fun _ => .raise _ _

theorem amdPoll_paced (addr d : Word) (abort : Option Word) : ∀ n, Op.Paced (amdPoll addr d abort n)
  | 0 => .keepPolling
  | n + 1 => .look (fun _ _ => rfl) fun _ => .bind (norR_paced _) fun _ => .bind (setLastStat_paced _) fun _ =>
      .ite (.pure _) (.ite (.bind (amdReread_paced _ _) fun _ => .ite (.pure _) (.raise _ _)) (by
        cases abort with
        | none => exact amdPoll_paced addr d none n
        | some ba =>
          exact .ite (.bind (amdReread_paced _ _) fun _ => .ite (.pure _) (amdAbort_paced _ _))
            (amdPoll_paced addr d (some ba) n)))

/-! The three ops that can poll. -/

theorem verifyErased_paced (ba : Word) (k : Nat) : Op.Paced (verifyErased ba k) :=
  .look (fun _ _ => rfl) fun _ => .bind (norR_paced _) fun _ =>
    .ite (.bind (setRes1_paced _) fun _ => .raise _ _) (.pure _)

theorem amdEraseTail_paced (b : BlockInfo) : Op.Paced (amdEraseTail b) :=
  .look (fun _ _ => rfl) fun _ => .bind (amdErasePoll_paced _ _) fun _ => .bind (setPhase_paced _) fun _ =>
    .bind (.forUp (verifyErased_paced _) _ _) fun _ => .bind (setRes0_paced _) fun _ => setRes1_paced _

theorem amdErase_paced (b : BlockInfo) : Op.Paced (amdErase b) :=
  .bind .params fun _ => .bind (setPhase_paced _) fun _ => .bind (prefixedCmd_paced _) fun _ =>
    .bind (setPhase_paced _) fun _ => .bind unlockPrefix_paced fun _ => .bind (norCmd_paced _ _) fun _ =>
    .bind (setPhase_paced _) fun _ => amdEraseTail_paced b

theorem intelErase_paced (b : BlockInfo) : Op.Paced (intelErase b) :=
  .bind .params fun _ => .bind (setPhase_paced _) fun _ => .bind (norCmd_paced _ _) fun _ =>
    .bind (setPhase_paced _) fun _ => .bind (norCmd_paced _ _) fun _ => .bind (intelFinish_paced _ _) fun _ =>
    .bind (setRes0_paced _) fun _ => setRes1_paced _

theorem norEraseBlockOp_paced : Op.Paced norEraseBlockOp :=
  .bind vendorCheckAny_paced fun _ => .bind configCheck_paced fun _ => .look (fun _ _ => rfl) fun s =>
    .bind (discoverBlockInfo_paced _) fun b => .bind (.raiseIf _ _ _) fun _ => by
      cases s.norId.vendor with
      | amd => exact amdErase_paced b
      | intel => exact intelErase_paced b
      | unsupported => exact .raise _ _

theorem amdWordTail_paced (addr d : Word) : Op.Paced (amdWordTail addr d) :=
  .look (fun _ _ => rfl) fun _ => .bind (amdPoll_paced _ _ _ _) fun _ => .bind (setPhase_paced _) fun _ =>
    .bind (norR_paced _) fun _ =>
    .ite (.bind (setRes1_paced _) fun _ => .bind (setRes2_paced _) fun _ => .raise _ _) (.pure _)

theorem amdWord_paced (addr d : Word) : Op.Paced (amdWord addr d) :=
  .bind .params fun _ => .bind (setPhase_paced _) fun _ => .bind (prefixedCmd_paced _) fun _ =>
    .bind (setPhase_paced _) fun _ => .bind (norW_paced _ _) fun _ => .bind (setPhase_paced _) fun _ =>
    amdWordTail_paced addr d

theorem intelWord_paced (addr d : Word) : Op.Paced (intelWord addr d) :=
  .bind .params fun _ => .bind (setPhase_paced _) fun _ => .bind (norCmd_paced _ _) fun _ =>
    .bind (setPhase_paced _) fun _ => .bind (norW_paced _ _) fun _ => intelFinish_paced _ _

theorem norWriteWordOp_paced : Op.Paced norWriteWordOp :=
  .bind vendorCheckAny_paced fun _ => .bind configCheck_paced fun _ => .look (fun _ _ => rfl) fun s =>
    .bind (alignCheck_paced _) fun _ => .bind (rangeCheck_paced _ _) fun _ => by
      cases s.norId.vendor with
      | amd => exact amdWord_paced _ _
      | intel => exact intelWord_paced _ _
      | unsupported => exact .raise _ _

theorem sourceWord_paced (k : Nat) : Op.Paced (sourceWord k) := .look (fun _ _ => rfl) fun _ => memRead_paced _ _ _

theorem loadBuffer_paced (ba : Word) : Op.Paced (loadBuffer ba) :=
  .look (fun _ _ => rfl) fun _ => .bind (setPhase_paced _) fun _ => .bind (norW_paced _ _) fun _ =>
    .bind (setPhase_paced _) fun _ => .transfer (fun _ => .bind (sourceWord_paced _) fun _ => norW_paced _ _) _ _

theorem verifyWord_paced (k : Nat) : Op.Paced (verifyWord k) :=
  .look (fun _ _ => rfl) fun _ => .bind (norR_paced _) fun _ => .bind (sourceWord_paced _) fun _ =>
    .ite (.bind (setRes1_paced _) fun _ => .bind (setRes2_paced _) fun _ => .raise _ _) (.pure _)

theorem amdBufferTail_paced (ba d : Word) : Op.Paced (amdBufferTail ba d) :=
  .look (fun _ _ => rfl) fun _ => .bind (amdPoll_paced _ _ _ _) fun _ => .bind (setPhase_paced _) fun _ =>
    .bind (.forUp verifyWord_paced _ _) fun _ => setRes0_paced _

theorem amdBuffer_paced (ba : Word) : Op.Paced (amdBuffer ba) :=
  .look (fun _ _ => rfl) fun _ => .bind .params fun _ => .bind (setPhase_paced _) fun _ =>
    .bind unlockPrefix_paced fun _ => .bind (norCmd_paced _ _) fun _ => .bind (loadBuffer_paced _) fun _ =>
    .bind (setPhase_paced _) fun _ => .bind (norCmd_paced _ _) fun _ => .bind (setPhase_paced _) fun _ =>
    .bind (sourceWord_paced _) fun _ => amdBufferTail_paced ba _

theorem intelBufferAvailable_paced (ba : Word) : ∀ n, Op.Paced (intelBufferAvailable ba n)
  | 0 => .bind (setPollCnt_paced _) fun _ => .bind (intelCleanup_paced _) fun _ => .raise _ _
  | n + 1 => .bind (setPollCnt_paced _) fun _ => .bind (setPhase_paced _) fun _ => .bind .params fun _ =>
      .bind (norCmd_paced _ _) fun _ => .bind (setPhase_paced _) fun _ => .bind (norR_paced _) fun _ =>
      .bind (setLastStat_paced _) fun _ => .ite (.pure _) (intelBufferAvailable_paced ba n)

theorem intelBuffer_paced (ba : Word) : Op.Paced (intelBuffer ba) :=
  .look (fun _ _ => rfl) fun _ => .bind .params fun _ => .bind (setPhase_paced _) fun _ =>
    .bind (intelBufferAvailable_paced _ _) fun _ => .bind (loadBuffer_paced _) fun _ =>
    .bind (setPhase_paced _) fun _ => .bind (norCmd_paced _ _) fun _ => .bind (intelFinish_paced _ _) fun _ =>
    setRes0_paced _

theorem norWriteBufferOp_paced : Op.Paced norWriteBufferOp :=
  .bind vendorCheckAny_paced fun _ => .bind configCheck_paced fun _ => .look (fun _ _ => rfl) fun s =>
    .bind (alignCheck_paced _) fun _ => .bind (lenCheck_paced _) fun _ =>
    .bind (rangeCheck_paced _ _) fun _ => .bind (discoverBlockInfo_paced _) fun _ =>
    .bind (.raiseIf _ _ _) fun _ => by
      cases s.norId.vendor with
      | amd => exact amdBuffer_paced _
      | intel => exact intelBuffer_paced _
      | unsupported => exact .raise _ _

theorem lockSequence_paced (c : Byte) : Op.Paced (lockSequence c) :=
  .bind vendorCheckIntel_paced fun _ => .bind configCheck_paced fun _ => .look (fun _ _ => rfl) fun _ =>
    .bind .params fun _ => .bind (discoverBlockInfo_paced _) fun _ => .bind (setPhase_paced _) fun _ =>
    .bind (norCmd_paced _ _) fun _ => .bind (setPhase_paced _) fun _ => .bind (norCmd_paced _ _) fun _ =>
    .bind (setPhase_paced _) fun _ => .bind (norCmd_paced _ _) fun _ => setRes0_paced _

/-! ## Every op, and every poll that goes on -/

theorem pseudocode_paced (i : Instr) : Op.Paced (pseudocode i) := by
  cases i with
  | nandInit => exact nandInitOp_paced
  | nandReadPage => exact nandReadPageOp_paced
  | nandWritePage => exact nandWritePageOp_paced
  | nandVerifyPage => exact nandVerifyPageOp_paced
  | nandEraseBlocks => exact nandEraseBlocksOp_paced
  | nandUnprotect => exact nandUnprotectOp_paced
  | nandProtect => exact nandProtectOp_paced
  | nandWaitRdy => exact nandWaitRdyOp_paced
  | nandWaitStatus => exact nandWaitStatusOp_paced
  | eccRestart => exact eccRestartOp_paced
  | eccCorrect => exact eccCorrectOp_paced
  | norAttach => exact norAttachOp_paced
  | norEraseBlock => exact norEraseBlockOp_paced
  | norWriteWord => exact norWriteWordOp_paced
  | norWriteBuffer => exact norWriteBufferOp_paced
  | norLockSet | norLockClear => exact .bind .params fun _ => lockSequence_paced _
  | norBlockInfo => exact norBlockInfoOp_paced
  | busCle => exact busCleOp_paced
  | busAle => exact busAleOp_paced
  | busWdata => exact busWdataOp_paced
  | busRdata => exact busRdataOp_paced

theorem pollingOp_paced {t : Stat} {m : Op Unit} (h : pollingOp t = some m) : Op.Paced m := by
  rcases (pollingOp_cases h).2 with rfl | rfl | rfl
  · exact .look (fun _ _ => rfl) fun _ => .bind (discoverBlockInfo_paced _) fun b => amdEraseTail_paced b
  · exact .look (fun _ _ => rfl) fun _ => amdWordTail_paced _ _
  · exact .look (fun _ _ => rfl) fun _ => .bind (discoverBlockInfo_paced _) fun _ => amdBufferTail_paced _ _

end Sys2Proof.Machine
end

section
/-! PROOFS. RESET at a boundary of a running op ends it there (`70_reset_and_hazards.md` R290, R305). -/

namespace Sys2Proof.Machine

/-- The end of an op sends nothing. -/
theorem continueOp_events {m : Op Unit} {s u : State} (h : continueOp m s = .next u) :
    u.events = (Op.last (m s)).events := by
  rcases continueOp_cases h with ⟨v, e, rfl⟩ | ⟨k, e⟩ <;> rw [e] <;> rfl

/-- RESET at a boundary before the last event of a step that runs paced pseudocode cuts it there. -/
theorem continueOp_cutByReset {m : Op Unit} (hm : Op.Paced m) {s u : State} (hs : s.Quiet)
    (h : continueOp m s = .next u) {k : Nat} (hk : k < u.events.length - s.events.length) (later : List BusyAct)
    (rest : List (List BusyAct)) :
    ∃ t, continueOp m (s.resetAt k later rest) = .next t ∧ s.CutByReset u t k later rest := by
  obtain ⟨n, hsends, hcut, -⟩ := hm s hs
  have hev := continueOp_events h
  rw [hev, hsends.count, Nat.add_sub_cancel_left] at hk
  obtain ⟨t, ht, hc⟩ := hcut k hk later rest
  exact ⟨t, continueOp_error ht, hc.extend (by rw [hev])⟩

/-- An op that its first boundary stops does nothing else. -/
theorem exec_stopped {i : Instr} {s t : State} {e : Ended} (h : tick s = .error e t) : exec i s = .next t := by
  rw [exec_eq_runOp, runOp_eq_continueOp]
  exact continueOp_error (Op.bind_error h)

/-- An op whose first boundary lets it go on runs its pseudocode. -/
theorem exec_of_tick {i : Instr} {s t : State} (h : tick s = .ok () t) : exec i s = continueOp (pseudocode i) t := by
  rw [exec_eq_runOp, runOp_eq_continueOp, continueOp, Op.bind_ok h]
  rfl

/-- However a run ends, RESET is released as before, or the reset state is left with the events sent. -/
theorem EndsIn.resetLine {F : List Part} {s t : State} (h : EndsIn F s t) :
    t.resetLine = s.resetLine ∨ (t.resetLine = true ∧ resetAsserted t = t ∧ s.events <:+ t.events) := by
  rcases h with ⟨u, hw, rfl⟩ | ⟨_ | _ | _, ht⟩
  · exact .inl hw.resetLine
  · obtain ⟨u, k, info, hw, -, rfl⟩ := ht
    exact .inl hw.resetLine
  · obtain ⟨-, u, k, hw, rfl⟩ := ht
    exact .inr ⟨rfl, rfl, hw.events⟩
  · exact .inl ht.2.resetLine

/-- RESET at boundary `k` of an op cuts it before event `k`, the first boundary being that after acceptance. -/
theorem exec_cutByReset {i : Instr} {s u : State} (hs : s.Quiet) (h : exec i s = .next u) {k : Nat}
    (hk : k ≤ u.events.length - s.events.length) (later : List BusyAct) (rest : List (List BusyAct)) :
    ∃ t, exec i (s.resetAt k later rest) = .next t ∧ s.CutByReset u t (k - 1) later rest := by
  have hnoReset : s.NoReset := by simp [State.NoReset, show s.host.busy = [] from hs]
  cases k with
  | zero =>
    obtain ⟨t, ht, hc⟩ := tick_cutByReset later rest ((exec_effect h).keeps hnoReset).events
    exact ⟨t, exec_stopped ht, hc⟩
  | succ k =>
    rw [exec_of_tick (tick_quiet hs)] at h
    have hidle : tick (s.resetAt (k + 1) later rest) = .ok () (s.resetAt k later rest) := tick_idle s _
    rw [exec_of_tick hidle]
    exact continueOp_cutByReset (pseudocode_paced i) hs h hk later rest

/-- Settles O13: how an op can end, RESET at its first boundary, and at a later one of an op or of a poll that goes
on, both of which are paced. -/
theorem resetEndsAnOp : Obligations.ResetEndsAnOp := by
  refine ⟨fun i s t hr h => ?_, fun i s later rest hb => exec_stopped (tick_reset hb),
    fun i s u k later rest hs h hk => exec_cutByReset hs h hk later rest, fun s u k later rest hs hb h hk => ?_⟩
  · rw [← hr]
    exact (exec_effect h).resetLine
  · rcases step_cases h with ⟨-, m, hm, h⟩ | ⟨hidle, -⟩
    · obtain ⟨t, ht, hc⟩ := continueOp_cutByReset (pollingOp_paced hm) hs h hk later rest
      refine ⟨t, ?_, hc⟩
      rw [← ht, step, if_pos (show (s.resetAt k later rest).stat.busy = true from hb), stepBusy,
        show pollingOp (s.resetAt k later rest).stat = some m from hm]
    · rw [hb] at hidle
      cases hidle

end Sys2Proof.Machine
end
